-- ==== Sys2Proof/Word.lean ====
section
/-! DEFINITION. The word types: command words and 32-bit registers, the 16-bit codes, the bytes (00_scope.md R9, R11). -/

namespace Sys2Proof

/-- 8 bits: a data or address byte, `INTFLAG`, a status code. -/
abbrev Byte := BitVec 8

/-- 16 bits: a raw measurement code, `STATUS`, the operand field of a command word. -/
abbrev Half := BitVec 16

/-- 32 bits: a command word, `CTRL`, `BAUD`, a converted value. -/
abbrev Word := BitVec 32

end Sys2Proof
end

