-- ==== Sys2Proof/Config.lean ====
section
/-! DEFINITION. What an implementation fixes (the OPEN parameters of 00_scope.md R9) and the environment's free
choices (20_memory.md R87, R82), all of them constants without a body. -/

namespace Sys2Proof

/-- What `ENV` may answer when the engine completes an operation (20_memory.md R87). Which of these an operation
allows depends on `inflight`: the model's `complete` says so. -/
inductive EnvOutcome where
  | ack
  | nack
  | buserr
  | arblost
  | byte (v : Byte)
  deriving DecidableEq, Repr, Inhabited

/-- One turn of the engine agent at one moment of a run (20_memory.md R82, R87): `hold`, it takes no step at this
moment (it is not scheduled, or `ENV` withholds); `go o`, it completes the operation in flight with the outcome `o`
(the completion of a software reset does not look at `o`, 40_bus_engine.md R152). -/
inductive Turn where
  | hold
  | go (o : EnvOutcome)
  deriving DecidableEq, Repr, Inhabited

/-- The OPEN parameters a rule depends on (00_scope.md R9). -/
structure Params where
  /-- `POLL_BUDGET`: the most `INTFLAG` reads of one bounded poll; at least 1. -/
  pollBudget : Nat
  /-- `BAUD_DIV`: the word `INIT` writes to `BAUD`. -/
  baudDiv : Word
  /-- `ERR_ON_NACK`: whether a slave's NACK raises `INTFLAG.ERROR`. -/
  errOnNack : Bool
  deriving DecidableEq, Repr

namespace Config

/-- `POLL_BUDGET - 1`. DESIGN CHOICE (log entry 5, safe): no value is chosen. -/
opaque pollExtra : Nat

/-- `BAUD_DIV`. DESIGN CHOICE (log entry 5, safe): no value is chosen. -/
opaque baudDiv : Word

/-- `ERR_ON_NACK`. DESIGN CHOICE (log entry 5, safe): no value is chosen. -/
opaque errOnNack : Bool

/-- `REG_BASE` divided by 4. DESIGN CHOICE (log entry 5, safe): no value is chosen. -/
opaque regBaseQuarter : Nat

/-- `REG_BASE`, a multiple of 4 (00_scope.md R9); no rule depends on it. -/
def regBase : Nat := 4 * regBaseQuarter

/-- The parameters of this machine; `POLL_BUDGET` is at least 1. -/
def params : Params := { pollBudget := pollExtra + 1, baudDiv := baudDiv, errOnNack := errOnNack }

/-- The engine's turns after those the state lists: the schedule and `ENV`'s draws are under no law (20_memory.md
R82, R87). DESIGN CHOICE (log entry 3, safe): a free value for every count of the state's counter. -/
opaque turn : Nat → Turn

end Config

end Sys2Proof
end

