-- ==== Sys2Proof/Syntax.lean ====
section
/-! DEFINITION. The twelve host operations as syntax, one constructor for each row of spec/opcode_table.json
(30_encoding.md R101), and the three fields of a command word (R100). -/

namespace Sys2Proof

/-- The direction of a bus transaction (30_encoding.md R104). -/
inductive Dir where
  | write
  | read
  deriving DecidableEq, Repr

/-- A host operation with its operands, each at the width the command word gives it (30_encoding.md R102). -/
inductive Instr where
  /-- `INIT` (41_bus_primitives.md R170). -/
  | init
  /-- `START addr7, dir` (41_bus_primitives.md R173). -/
  | start (addr7 : BitVec 7) (dir : Dir)
  /-- `WRITE byte` (41_bus_primitives.md R179). -/
  | write (b : Byte)
  /-- `READ again`: `true` is ACK (41_bus_primitives.md R182). -/
  | read (again : Bool)
  /-- `STOP` (41_bus_primitives.md R187). -/
  | stop
  /-- `S_RESET` (42_sensor_ops.md R206). -/
  | sReset
  /-- `S_READ_SN` (42_sensor_ops.md R207). -/
  | sReadSn
  /-- `S_READ_RH` (42_sensor_ops.md R210). -/
  | sReadRh
  /-- `S_READ_T` (42_sensor_ops.md R211). -/
  | sReadT
  /-- `S_READ_TL` (42_sensor_ops.md R212). -/
  | sReadTl
  /-- `CONV_RH code` (43_converter.md R231). -/
  | convRh (code : Half)
  /-- `CONV_T code` (43_converter.md R232). -/
  | convT (code : Half)
  deriving DecidableEq, Repr

/-- The three fields of a command word (30_encoding.md R100). -/
structure Command where
  /-- Bits 31:24. -/
  opcode : Byte
  /-- Bits 23:16, must be zero. -/
  zero : Byte
  /-- Bits 15:0. -/
  operand : Half
  deriving DecidableEq, Repr

end Sys2Proof
end

