-- ==== Sys2Proof/Decode.lean ====
section
/-! DEFINITION. The decoder of command words, total and rejecting by name, and the encoder (30_encoding.md R100 to
R104, R109). A command word is presented whole (R78: no byte order), so the decoder takes the 32-bit word. -/

namespace Sys2Proof

/-- Why a word is reserved (30_encoding.md R109). -/
inductive DecodeError where
  /-- Bits 31:24 are no opcode of R101. -/
  | unknownOpcode
  /-- Bits 23:16 are not zero. -/
  | zeroFieldSet
  /-- An operand bit the operation does not use is set. -/
  | unusedOperandBitSet
  deriving DecidableEq, Repr

/-- The direction bit: Write 0, Read 1 (30_encoding.md R104). PRESUMED by the spec itself, "from general knowledge"
(93_implementation_defined.md G1; log entry 16). -/
def dirBit (d : Dir) : BitVec 1 :=
  match d with
  | .write => 0#1
  | .read => 1#1

/-- The direction a direction bit stands for. -/
def dirOfBit (b : Bool) : Dir := if b then .read else .write

/-- The bit of `again`: 1 is the source's `again = true` (30_encoding.md R102). -/
def againBit (again : Bool) : BitVec 1 := if again then 1#1 else 0#1

/-- The fields of a word (30_encoding.md R100). -/
def fieldsOf (w : Word) : Command :=
  { opcode := w.extractLsb' 24 8, zero := w.extractLsb' 16 8, operand := w.extractLsb' 0 16 }

/-- The word made of three fields. -/
def wordOf (c : Command) : Word := c.opcode ++ c.zero ++ c.operand

/-- The instruction `i` of an operand field in which only the bits of `used` may be set. -/
def withUsedBits (used : Half) (operand : Half) (i : Instr) : Except DecodeError Instr :=
  if operand &&& ~~~used = 0#16 then .ok i else .error .unusedOperandBitSet

/-- The operation of an opcode and an operand field (30_encoding.md R101, R102). -/
def decodeOperation (opcode : Byte) (v : Half) : Except DecodeError Instr :=
  match opcode.toNat with
  | 0x00 => withUsedBits 0x0000#16 v .init
  | 0x01 => withUsedBits 0x00FF#16 v (.start (v.extractLsb' 1 7) (dirOfBit (v.getLsbD 0)))
  | 0x02 => withUsedBits 0x00FF#16 v (.write (v.extractLsb' 0 8))
  | 0x03 => withUsedBits 0x0001#16 v (.read (v.getLsbD 0))
  | 0x04 => withUsedBits 0x0000#16 v .stop
  | 0x10 => withUsedBits 0x0000#16 v .sReset
  | 0x11 => withUsedBits 0x0000#16 v .sReadSn
  | 0x12 => withUsedBits 0x0000#16 v .sReadRh
  | 0x13 => withUsedBits 0x0000#16 v .sReadT
  | 0x14 => withUsedBits 0x0000#16 v .sReadTl
  | 0x20 => withUsedBits 0xFFFF#16 v (.convRh v)
  | 0x21 => withUsedBits 0xFFFF#16 v (.convT v)
  | _ => .error .unknownOpcode

/-- The decoder: total, and every reserved word is rejected by name (30_encoding.md R109). -/
def decode (w : Word) : Except DecodeError Instr :=
  let c := fieldsOf w
  if c.zero = 0#8 then decodeOperation c.opcode c.operand else .error .zeroFieldSet

/-- The opcode of an operation (30_encoding.md R101). -/
def opcodeOf (i : Instr) : Byte :=
  match i with
  | .init => 0x00#8
  | .start _ _ => 0x01#8
  | .write _ => 0x02#8
  | .read _ => 0x03#8
  | .stop => 0x04#8
  | .sReset => 0x10#8
  | .sReadSn => 0x11#8
  | .sReadRh => 0x12#8
  | .sReadT => 0x13#8
  | .sReadTl => 0x14#8
  | .convRh _ => 0x20#8
  | .convT _ => 0x21#8

/-- The operand field of an operation (30_encoding.md R102). -/
def operandOf (i : Instr) : Half :=
  match i with
  | .init => 0#16
  | .start a d => 0#8 ++ a ++ dirBit d
  | .write b => 0#8 ++ b
  | .read g => 0#15 ++ againBit g
  | .stop => 0#16
  | .sReset => 0#16
  | .sReadSn => 0#16
  | .sReadRh => 0#16
  | .sReadT => 0#16
  | .sReadTl => 0#16
  | .convRh c => c
  | .convT c => c

/-- The command word of an operation. -/
def encode (i : Instr) : Word := wordOf { opcode := opcodeOf i, zero := 0#8, operand := operandOf i }

/-- The rows of spec/opcode_table.json in its order, each as (mask, match). -/
def tableRows : List (Word × Word) :=
  [ (0xFFFFFFFF#32, 0x00000000#32), (0xFFFFFF00#32, 0x01000000#32), (0xFFFFFF00#32, 0x02000000#32),
    (0xFFFFFFFE#32, 0x03000000#32), (0xFFFFFFFF#32, 0x04000000#32), (0xFFFFFFFF#32, 0x10000000#32),
    (0xFFFFFFFF#32, 0x11000000#32), (0xFFFFFFFF#32, 0x12000000#32), (0xFFFFFFFF#32, 0x13000000#32),
    (0xFFFFFFFF#32, 0x14000000#32), (0xFFFF0000#32, 0x20000000#32), (0xFFFF0000#32, 0x21000000#32) ]

/-- What the decoder reads from an instruction whose bits are `w`, bit 0 the least significant; every instruction is
one 32-bit word, so a number that does not fit in 32 bits is none. -/
def decodeTableWord (nbits w : Nat) : Option Instr :=
  if nbits ≤ 32 ∧ w < 2 ^ 32 then (decode (BitVec.ofNat 32 w)).toOption else none

end Sys2Proof
end

