-- ==== Sys2Proof/Machine/State.lean ====
section
/-! DEFINITION. The state of the block (10_state.md R20 to R46), its two traces (20_memory.md R77, R86), the reasons a
step can stop, and the state after a hardware reset (70_reset_and_hazards.md R290). The state is plain data. -/

namespace Sys2Proof.Machine

/-- The protocol phase (10_state.md R26), ghost state. -/
inductive Phase where
  | uninit
  | idle
  | dataW
  | dataR
  deriving DecidableEq, Repr

/-- The operation the engine has in flight (10_state.md R42). -/
inductive Inflight where
  | none
  | addrPh
  | txPh
  | rxPh
  | resetPh
  deriving DecidableEq, Repr

/-- The engine's registers (10_state.md R36). -/
inductive Reg where
  | ctrl
  | baud
  | intflag
  | status
  | data
  | addr
  deriving DecidableEq, Repr

/-- The external events of `INIT` (41_bus_primitives.md R171). -/
inductive ExtEvent where
  | clkEnable
  | clkSelect
  | pinSda
  | pinScl
  deriving DecidableEq, Repr

/-- One entry of the access trace (20_memory.md R77). Values are register values widened with zeros to 32 bits (log
entry 17). -/
inductive Access where
  | rd (r : Reg) (v : Word)
  | wr (r : Reg) (v : Word)
  | set (r : Reg) (m : Word)
  | ext (e : ExtEvent)
  deriving DecidableEq, Repr

/-- One event of the wire trace (20_memory.md R86). -/
inductive Wire where
  /-- START on a bus the engine did not own. -/
  | s
  /-- Repeated START. -/
  | sr
  | address (a8 : Byte)
  | tx (b : Byte)
  | sack
  | snack
  | rx (b : Byte)
  | mack
  | mnack
  /-- STOP. -/
  | p
  deriving DecidableEq, Repr

/-- The status of an operation (30_encoding.md R110; 60_exceptions.md R251, R252). -/
inductive Code where
  | ok
  | notReady
  | timeout
  | busError
  | nackOrArbitrationLost
  | startFailed
  | repeatedStartFailed
  | commandFailed
  deriving DecidableEq, Repr

/-- The stored fields of `CTRL` (10_state.md R30). `SWRST` is no field: it reads 1 exactly while a reset is in
progress (40_bus_engine.md R155 e); `CMD` is a strobe; the other bits read as zero. -/
structure Ctrl where
  enable : Bool
  master : Bool
  ackact : Bool
  deriving DecidableEq, Repr

/-- The flags of `INTFLAG` (10_state.md R32). -/
structure Intflag where
  mb : Bool
  sb : Bool
  error : Bool
  deriving DecidableEq, Repr

/-- The bits of `STATUS` (10_state.md R33). -/
structure StatusReg where
  buserr : Bool
  arblost : Bool
  rxnack : Bool
  deriving DecidableEq, Repr

/-- The engine: its six registers (10_state.md R30 to R35) and its hidden state (R40 to R43). -/
structure Engine where
  ctrl : Ctrl
  baud : Word
  intflag : Intflag
  status : StatusReg
  data : Byte
  addr : Byte
  owned : Bool
  dir : Dir
  inflight : Inflight
  ackPending : Bool
  deriving DecidableEq, Repr

/-- Eight bytes: `buf[0..7]`, `RES_SN0 .. RES_SN7`. -/
structure Bytes8 where
  b0 : Byte
  b1 : Byte
  b2 : Byte
  b3 : Byte
  b4 : Byte
  b5 : Byte
  b6 : Byte
  b7 : Byte
  deriving DecidableEq, Repr

/-- Four bytes: `sn_a[0..3]`. -/
structure Bytes4 where
  b0 : Byte
  b1 : Byte
  b2 : Byte
  b3 : Byte
  deriving DecidableEq, Repr

/-- The result registers (10_state.md R22). -/
structure Results where
  /-- `RES_STATUS`. -/
  status : Byte
  /-- `RES_CAUSE`. -/
  cause : Byte
  /-- `RES_BYTE`. -/
  byte : Byte
  /-- `RES_RAW`. -/
  raw : Half
  /-- `RES_VALUE`. -/
  value : Word
  /-- `RES_SN0 .. RES_SN7`. -/
  sn : Bytes8
  deriving DecidableEq, Repr

/-- A result register, as the host names it (10_state.md R22). -/
inductive ResReg where
  | status
  | cause
  | byte
  | raw
  | value
  | sn (i : Fin 8)
  deriving DecidableEq, Repr

/-- The sequencer's working registers (10_state.md R25, R28). -/
structure Work where
  pollcnt : Nat
  buf : Bytes8
  snA : Bytes4
  flagLatch : Byte
  ctrlLatch : Word
  statLatch : Half
  deriving DecidableEq, Repr

/-- What a failing `START` reports once it has stopped the bus (41_bus_primitives.md R173, R177). -/
inductive StartError where
  | timeout
  | nackOrArbitrationLost
  deriving DecidableEq, Repr

/-- The numbered lines of `INIT` (41_bus_primitives.md R170). -/
inductive InitLine where
  /-- 1: `Ext(CLK_ENABLE)`. -/
  | clkEnable
  /-- 2: `Ext(CLK_SELECT)`. -/
  | clkSelect
  /-- 3: write of `SWRST`. -/
  | swrst
  /-- 4: the reset wait. -/
  | resetWait
  /-- 5: write of `MASTER`. -/
  | master
  /-- 6: write of `BAUD`. -/
  | baud
  /-- 7: set of `ENABLE`. -/
  | enable
  /-- 8: `Ext(PIN_SDA)`. -/
  | pinSda
  /-- 9: `Ext(PIN_SCL)`. -/
  | pinScl
  deriving DecidableEq, Repr

/-- The numbered lines of `START` (41_bus_primitives.md R173). -/
inductive StartLine where
  /-- 1: the enabled check. -/
  | check
  /-- 2: read of `INTFLAG`. -/
  | flags
  /-- 2a: the stale-error cleanup. -/
  | cleanup
  /-- 3: write of `ADDR`. -/
  | address
  /-- 4: the address poll. -/
  | poll
  /-- 5: read of `STATUS`. -/
  | status
  /-- F1: read of `CTRL`. -/
  | failRead (e : StartError)
  /-- F2: the STOP command. -/
  | failStop (e : StartError)
  /-- F3: the error flag cleared. -/
  | failClear (e : StartError)
  deriving DecidableEq, Repr

/-- The numbered lines of `WRITE` (41_bus_primitives.md R179). -/
inductive WriteLine where
  /-- 1: write of `DATA`. -/
  | data
  /-- 2: the transmit wait. -/
  | wait
  deriving DecidableEq, Repr

/-- The numbered lines of `READ` that make an access (41_bus_primitives.md R182). -/
inductive ReadLine where
  /-- 1: the receive poll. -/
  | poll
  /-- 3: read of `CTRL`. -/
  | readCtrl
  /-- 4: the acknowledge update. -/
  | writeCtrl
  /-- 5: read of `DATA`. -/
  | data
  deriving DecidableEq, Repr

/-- The numbered lines of `STOP` (41_bus_primitives.md R187). -/
inductive StopLine where
  /-- 1: read of `CTRL`. -/
  | readCtrl
  /-- 2: the STOP command. -/
  | writeCtrl
  deriving DecidableEq, Repr

/-- The line the sequencer makes next, with the operands of its primitive (10_state.md R25). -/
inductive Line where
  | init (l : InitLine)
  | start (addr7 : BitVec 7) (dir : Dir) (l : StartLine)
  | write (b : Byte) (l : WriteLine)
  | read (again : Bool) (l : ReadLine)
  | stop (l : StopLine)
  /-- The one step of a converter operation (43_converter.md R231, R232). -/
  | convert
  deriving DecidableEq, Repr

/-- The sequencer position (10_state.md R25): the operation that runs, the primitive of its script (a primitive the host
issued is a script of one), and the line that comes next. -/
structure SeqPos where
  op : Instr
  item : Nat
  line : Line
  deriving DecidableEq, Repr

/-- What the host does at one moment (10_state.md R21; 70_reset_and_hazards.md R290). Log entry 8. -/
inductive HostInput where
  /-- Nothing: the moment is another agent's. -/
  | idle
  /-- It issues the command word `w`, once the block is not busy. -/
  | issue (w : Word)
  /-- It asserts `hw_reset`. -/
  | hwReset
  deriving DecidableEq, Repr

/-- The engine's turns to come, and the counter `Config.turn` is applied to once the list is empty: the MODEL's own
field, standing for the schedule and the environment (10_state.md R44). Log entry 3. -/
structure Feed where
  turns : List Turn
  draws : Nat
  deriving DecidableEq, Repr

/-- The state of the block. -/
structure State where
  /-- `CMD_WORD`. -/
  cmdWord : Word
  busy : Bool
  res : Results
  seq : Option SeqPos
  work : Work
  phase : Phase
  eng : Engine
  /-- The access trace, oldest entry first. -/
  trace : List Access
  /-- The wire trace, oldest event first. -/
  wire : List Wire
  /-- The host's inputs to come, the next one first. -/
  host : List HostInput
  feed : Feed
  deriving DecidableEq, Repr

namespace State

def setCmdWord (s : State) (w : Word) : State := { s with cmdWord := w }
def setBusy (s : State) (b : Bool) : State := { s with busy := b }
def setRes (s : State) (r : Results) : State := { s with res := r }
def setSeq (s : State) (q : Option SeqPos) : State := { s with seq := q }
def setWork (s : State) (w : Work) : State := { s with work := w }
def setPhase (s : State) (ph : Phase) : State := { s with phase := ph }
def setEng (s : State) (e : Engine) : State := { s with eng := e }
def pushTrace (s : State) (a : Access) : State := { s with trace := s.trace ++ [a] }
def pushWire (s : State) (ws : List Wire) : State := { s with wire := s.wire ++ ws }
def setHost (s : State) (h : List HostInput) : State := { s with host := h }
def setFeed (s : State) (f : Feed) : State := { s with feed := f }

end State

/-- Nothing in this block is treated as a fault (93_implementation_defined.md, opening; 60_exceptions.md R250: errors
are coded results of operations), so there is no reason to fault. -/
inductive Fault where
  deriving DecidableEq, Repr

/-- Why the model gives a run no meaning (00_scope.md R14, `refuse`). Every one of these is SAFE: the spec itself gives
the run no behaviour, and the model proves nothing about it. -/
inductive Refusal where
  /-- Raised by `exec` for an instruction without a meaning yet; safe. -/
  | notModelled (mnemonic : String)
  /-- Raised by `step`: the command word is no encoding (30_encoding.md R109; U5); safe. -/
  | reservedWord (why : DecodeError)
  /-- Raised by a meaning, and by the step that issues it: the phase table refuses the operation (10_state.md R27; U1 to
  U4); safe. -/
  | illegalInPhase
  /-- Raised by a meaning asked for while another operation is running (10_state.md R21; U6); safe. -/
  | commandWhileBusy
  /-- Raised by `hostRead` while busy (10_state.md R21; U7); safe. -/
  | resultReadWhileBusy
  /-- Raised by a write of `ADDR`, `DATA` or a `CTRL` command: the engine is not active (40_bus_engine.md R131; U8);
  safe. -/
  | engineInactive
  /-- Raised by a write of `ADDR` with an operation in flight (40_bus_engine.md R134; U9); safe. -/
  | addrWhileInFlight
  /-- Raised by a write of `DATA` without an owned Write transaction, or with an operation in flight
  (40_bus_engine.md R140; U10); safe. -/
  | dataOutsideWrite
  /-- Raised by a write of `CTRL` with `CMD` `0b01` or `0b10` (40_bus_engine.md R132; U11); safe. -/
  | reservedCtrlCommand
  /-- Raised by any engine access but a read of `CTRL` while the software reset runs (40_bus_engine.md R151; U12);
  safe. -/
  | accessDuringReset
  /-- Raised by a write of `CTRL` that clears `ENABLE` or `MASTER` mid-transaction, or leaves `ENABLE` without `MASTER`
  (40_bus_engine.md R153; U13); safe. -/
  | modeCleared
  /-- Raised by a write of `STATUS` (10_state.md R33; U14); safe. -/
  | statusReadOnly
  /-- Raised by an access at an offset or of a width that is no register's (20_memory.md R74; U14); safe. -/
  | noSuchRegister
  deriving DecidableEq, Repr

/-- The engine after either reset (10_state.md R46, rows marked E; 40_bus_engine.md R152). -/
def engineReset : Engine :=
  { ctrl := { enable := false, master := false, ackact := false }
    baud := 0#32
    intflag := { mb := false, sb := false, error := false }
    status := { buserr := false, arblost := false, rxnack := false }
    data := 0#8
    addr := 0#8
    owned := false
    dir := .write
    inflight := .none
    ackPending := false }

/-- Eight zero bytes. -/
def bytes8Zero : Bytes8 :=
  { b0 := 0#8, b1 := 0#8, b2 := 0#8, b3 := 0#8, b4 := 0#8, b5 := 0#8, b6 := 0#8, b7 := 0#8 }

/-- The state after a hardware reset: the table of 10_state.md R46. The working registers R46 calls unspecified are
zero here (DESIGN CHOICE, log entry 6); the model's own fields are empty (log entries 3 and 8). -/
def State.reset : State :=
  { cmdWord := 0#32
    busy := false
    res := { status := 0#8, cause := 0#8, byte := 0#8, raw := 0#16, value := 0#32, sn := bytes8Zero }
    seq := none
    work :=
      { pollcnt := 0, buf := bytes8Zero, snA := { b0 := 0#8, b1 := 0#8, b2 := 0#8, b3 := 0#8 },
        flagLatch := 0#8, ctrlLatch := 0#32, statLatch := 0#16 }
    phase := .uninit
    eng := engineReset
    trace := []
    wire := []
    host := []
    feed := { turns := [], draws := 0 } }

end Sys2Proof.Machine
end

