-- ==== Sys2Proof/Machine/Flags.lean ====
section
/-! DEFINITION. The register views, the masks, and every flag's setting and clearing (10_state.md R29 to R33;
40_bus_engine.md R148, R150). -/

namespace Sys2Proof.Machine

/-- `CTRL` masks (10_state.md R30). -/
def maskSwrst : Word := 0x00000001#32
def maskEnable : Word := 0x00000002#32
def maskMaster : Word := 0x00000004#32
def maskCmd : Word := 0x00030000#32
def cmdStop : Word := 0x00030000#32
def maskAckact : Word := 0x00040000#32

/-- `INTFLAG` masks (10_state.md R32). -/
def maskMb : Word := 0x01#32
def maskSb : Word := 0x02#32
def maskError : Word := 0x80#32

/-- `STATUS` mask (10_state.md R33). -/
def maskStatusErr : Word := 0x0007#32

/-- One bit of a register as a word. -/
def bitIf (b : Bool) (m : Word) : Word := if b then m else 0#32

/-- The stored fields of `CTRL` at their places (10_state.md R30). -/
def ctrlBits (c : Ctrl) : Word := bitIf c.enable maskEnable ||| bitIf c.master maskMaster ||| bitIf c.ackact maskAckact

/-- What `CTRL` reads as: `0x0000_0001` while a software reset runs (40_bus_engine.md R151), else its stored fields;
`CMD` and the reserved bits read as zero. -/
def ctrlValue (e : Engine) : Word := if e.inflight = .resetPh then maskSwrst else ctrlBits e.ctrl

/-- The fields a word written to `CTRL` stores (40_bus_engine.md R132 step 2). -/
def ctrlOfWord (v : Word) : Ctrl := { enable := v.getLsbD 1, master := v.getLsbD 2, ackact := v.getLsbD 18 }

/-- The `CMD` strobe of a word written to `CTRL` (10_state.md R30). -/
def ctrlCmd (v : Word) : BitVec 2 := v.extractLsb' 16 2

/-- `INTFLAG` as a word (10_state.md R32). -/
def intflagBits (f : Intflag) : Word := bitIf f.mb maskMb ||| bitIf f.sb maskSb ||| bitIf f.error maskError

/-- `STATUS` as a word (10_state.md R33): `BUSERR` bit 0, `ARBLOST` bit 1, `RXNACK` bit 2. -/
def statusBits (t : StatusReg) : Word := bitIf t.buserr 0x1#32 ||| bitIf t.arblost 0x2#32 ||| bitIf t.rxnack 0x4#32

/-- Write-1-to-clear (40_bus_engine.md R150): bits 0, 1 and 7 of the word clear their flags, the others are ignored. -/
def clearWritten (f : Intflag) (m : Word) : Intflag :=
  { mb := f.mb && !m.getLsbD 0, sb := f.sb && !m.getLsbD 1, error := f.error && !m.getLsbD 7 }

/-- A transmitted byte was acknowledged: `MB` rises, `RXNACK` falls (40_bus_engine.md R136, R141). -/
def flagAcked (e : Engine) : Engine :=
  { e with status := { e.status with rxnack := false }, intflag := { e.intflag with mb := true } }

/-- A transmitted byte was refused: `MB` and `RXNACK` rise, and `ERROR` when `ERR_ON_NACK` (40_bus_engine.md R136,
R141). -/
def flagNacked (p : Params) (e : Engine) : Engine :=
  { e with
    status := { e.status with rxnack := true }
    intflag := { e.intflag with mb := true, error := e.intflag.error || p.errOnNack } }

/-- A bus error: `BUSERR` and `ERROR` rise, the bus is given up (40_bus_engine.md R148). -/
def flagBusError (e : Engine) : Engine :=
  { e with
    status := { e.status with buserr := true }
    intflag := { e.intflag with error := true }
    inflight := .none
    owned := false
    ackPending := false }

/-- Arbitration lost: `ARBLOST` and `ERROR` rise, the bus is given up (40_bus_engine.md R148). DESIGN CHOICE (log entry
23): `ackPending` stays as it is, as R148's own list for `ARBLOST` has it, where 92_eei_decisions.md D18 clears it; the
two differ only in states that R155 (d) excludes. -/
def flagArbLost (e : Engine) : Engine :=
  { e with
    status := { e.status with arblost := true }
    intflag := { e.intflag with error := true }
    inflight := .none
    owned := false }

/-- `MB` and `SB` fall, `ERROR` stays: a write of `ADDR` and a STOP command (40_bus_engine.md R133, R149). -/
def clearMbSb (f : Intflag) : Intflag := { f with mb := false, sb := false }

/-- The three error bits fall (40_bus_engine.md R133). -/
def statusClear : StatusReg := { buserr := false, arblost := false, rxnack := false }

end Sys2Proof.Machine
end

