-- ==== Sys2Proof/Machine/Operands.lean ====
section
/-! DEFINITION. Operand and result forms: the address byte, the byte buffers, the measurement code, the serial-number
selection, the status codes (30_encoding.md R104, R106 to R108, R110). -/

namespace Sys2Proof.Machine

/-- The address byte `(addr7 << 1) | dir` (30_encoding.md R104, 20_memory.md R80). -/
def addrByte (a : BitVec 7) (d : Dir) : Byte := a ++ dirBit d

/-- The direction of an address byte: its bit 0 (30_encoding.md R104). -/
def addrDir (a8 : Byte) : Dir := dirOfBit (a8.getLsbD 0)

/-- The byte of a status code (30_encoding.md R110). -/
def codeByte (c : Code) : Byte :=
  match c with
  | .ok => 0x00#8
  | .notReady => 0xFF#8
  | .timeout => 0xFE#8
  | .busError => 0xFD#8
  | .nackOrArbitrationLost => 0xFC#8
  | .startFailed => 0xFB#8
  | .repeatedStartFailed => 0xFA#8
  | .commandFailed => 0xF9#8

/-- The Bus Error a failing `START` reports (41_bus_primitives.md R173). -/
def startErrorCode (e : StartError) : Code :=
  match e with
  | .timeout => .timeout
  | .nackOrArbitrationLost => .nackOrArbitrationLost

/-- `buf[i] <- v`; there is no `buf[8]` or beyond, and the scripts store to none. -/
def setByte (b : Bytes8) (i : Nat) (v : Byte) : Bytes8 :=
  match i with
  | 0 => { b with b0 := v }
  | 1 => { b with b1 := v }
  | 2 => { b with b2 := v }
  | 3 => { b with b3 := v }
  | 4 => { b with b4 := v }
  | 5 => { b with b5 := v }
  | 6 => { b with b6 := v }
  | 7 => { b with b7 := v }
  | _ => b

/-- The i-th of eight bytes. -/
def getByte (b : Bytes8) (i : Fin 8) : Byte :=
  match i with
  | 0 => b.b0
  | 1 => b.b1
  | 2 => b.b2
  | 3 => b.b3
  | 4 => b.b4
  | 5 => b.b5
  | 6 => b.b6
  | 7 => b.b7

/-- The 16-bit code of a measurement, most significant byte first (30_encoding.md R107, 20_memory.md R79). -/
def measurementCode (b : Bytes8) : Half := b.b0 ++ b.b1

/-- The bytes kept from part A of the serial number: indices 0, 2, 4, 6 (30_encoding.md R106). -/
def keptPartA (b : Bytes8) : Bytes4 := { b0 := b.b0, b1 := b.b2, b2 := b.b4, b3 := b.b6 }

/-- The serial-number result: part A's kept bytes, then part B's bytes 0, 1, 3, 4 (30_encoding.md R108). -/
def serialNumber (a : Bytes4) (b : Bytes8) : Bytes8 :=
  { b0 := a.b0, b1 := a.b1, b2 := a.b2, b3 := a.b3, b4 := b.b0, b5 := b.b1, b6 := b.b3, b7 := b.b4 }

/-- A result register's value, widened with zeros to 32 bits. -/
def resultOf (r : Results) (k : ResReg) : Word :=
  match k with
  | .status => r.status.setWidth 32
  | .cause => r.cause.setWidth 32
  | .byte => r.byte.setWidth 32
  | .raw => r.raw.setWidth 32
  | .value => r.value
  | .sn i => (getByte r.sn i).setWidth 32

end Sys2Proof.Machine
end

