-- ==== Sys2Proof/Machine/Ops.lean ====
section
/-! DEFINITION. The shared operations: the engine's completions (40_bus_engine.md R136 to R148, R152) and its steps
(20_memory.md R82, R87), the reactions to register accesses (R132 to R151), the sequencer's accesses (20_memory.md R73 to
R77), what a line of a primitive can lead to, the bounded poll (41_bus_primitives.md R190), the phase table (10_state.md
R27), and the one way an operation ends, with or without an error (60_exceptions.md R250, R257). -/

namespace Sys2Proof.Machine

/-! ### The engine: what changes in it, and what it puts on the wire -/

/-- An engine after a reaction or a completion, and the wire events it added. -/
structure Reaction where
  eng : Engine
  wire : List Wire
  deriving DecidableEq, Repr

/-- The engine is active (40_bus_engine.md R131). -/
def active (e : Engine) : Bool := e.ctrl.enable && e.ctrl.master && e.inflight != .resetPh

/-- The master's acknowledge bit for a received byte, as `ACKACT` says (40_bus_engine.md R146, R147). -/
def ackEvent (e : Engine) : Wire := if e.ctrl.ackact then .mnack else .mack

/-- The pending acknowledge, if any, sent by a STOP command or a write of `ADDR` (40_bus_engine.md R133, R149). -/
def pendingAck (e : Engine) : List Wire := if e.ackPending then [ackEvent e] else []

/-- The engine's completion of the operation in flight with the outcome `o` (40_bus_engine.md R130, R136, R141, R145,
R148, R152); `none` where nothing is in flight or the operation does not allow the outcome (20_memory.md R87). -/
def complete (p : Params) (o : EnvOutcome) (e : Engine) : Option Reaction :=
  match e.inflight, o with
  | .addrPh, .ack =>
    some { eng := { flagAcked e with inflight := if e.dir = .read then .rxPh else .none }, wire := [.sack] }
  | .addrPh, .nack => some { eng := { flagNacked p e with inflight := .none }, wire := [.snack] }
  | .addrPh, .buserr => some { eng := flagBusError e, wire := [] }
  | .addrPh, .arblost => some { eng := flagArbLost e, wire := [] }
  | .txPh, .ack => some { eng := { flagAcked e with inflight := .none }, wire := [.sack] }
  | .txPh, .nack => some { eng := { flagNacked p e with inflight := .none }, wire := [.snack] }
  | .txPh, .buserr => some { eng := flagBusError e, wire := [] }
  | .txPh, .arblost => some { eng := flagArbLost e, wire := [] }
  | .rxPh, .byte v =>
    some
      { eng := { e with data := v, intflag := { e.intflag with sb := true }, ackPending := true, inflight := .none }
        wire := [.rx v] }
  | .rxPh, .buserr => some { eng := flagBusError e, wire := [] }
  | .resetPh, _ => some { eng := engineReset, wire := [] }
  | _, _ => none

/-- The engine's next turn: the first the state lists, else the free value at the counter (log entry 3). -/
def nextTurn (f : Feed) : Turn × Feed :=
  match f.turns with
  | t :: rest => (t, { f with turns := rest })
  | [] => (Config.turn f.draws, { f with draws := f.draws + 1 })

/-- What the engine does at one moment. -/
inductive EngineMove where
  /-- It takes a step: the moment is its. -/
  | completed (s : State)
  /-- It takes none: the moment is another agent's. -/
  | holds (s : State)
  deriving DecidableEq, Repr

/-- The engine's moment (40_bus_engine.md R130; 20_memory.md R82): its step is enabled when an operation is in flight,
the schedule gives it the moment, and `ENV` offers an outcome the operation allows. With nothing in flight no turn is
taken. -/
def engineMove (p : Params) (s : State) : EngineMove :=
  if s.eng.inflight = .none then .holds s
  else
    match nextTurn s.feed with
    | (.hold, f) => .holds (s.setFeed f)
    | (.go o, f) =>
      match complete p o s.eng with
      | some x => .completed (((s.setFeed f).setEng x.eng).pushWire x.wire)
      | none => .holds (s.setFeed f)

/-! ### Reactions to register accesses -/

/-- The value of a register, with no side effect, widened with zeros. -/
def regValue (r : Reg) (e : Engine) : Word :=
  match r with
  | .ctrl => ctrlValue e
  | .baud => e.baud
  | .intflag => intflagBits e.intflag
  | .status => statusBits e.status
  | .data => e.data.setWidth 32
  | .addr => e.addr.setWidth 32

/-- The acknowledge action of a read of `DATA` (40_bus_engine.md R146). -/
def reactReadData (e : Engine) : Reaction :=
  if e.ackPending then
    { eng :=
        { e with
          ackPending := false
          intflag := { e.intflag with sb := false }
          inflight := if e.ctrl.ackact then e.inflight else .rxPh }
      wire := [ackEvent e] }
  else { eng := e, wire := [] }

/-- A read of a register: the value, and the reaction (20_memory.md R73, R76). While a software reset runs only `CTRL`
may be read (40_bus_engine.md R151). -/
def readReg (r : Reg) (e : Engine) : Except Refusal (Word × Reaction) :=
  if r ≠ .ctrl ∧ e.inflight = .resetPh then .error .accessDuringReset
  else .ok (regValue r e, if r = .data then reactReadData e else { eng := e, wire := [] })

/-- The STOP command (40_bus_engine.md R149). -/
def reactStop (e : Engine) : Reaction :=
  { eng := { e with inflight := .none, ackPending := false, owned := false, intflag := clearMbSb e.intflag }
    wire := pendingAck e ++ (if e.owned then [.p] else []) }

/-- The write `v` clears `ENABLE` or `MASTER` while the bus is owned or an operation is in flight, or leaves `ENABLE`
without `MASTER` (40_bus_engine.md R153). -/
def clearsMode (v : Word) (e : Engine) : Bool :=
  let c := ctrlOfWord v
  ((e.ctrl.enable && !c.enable || e.ctrl.master && !c.master) && (e.owned || e.inflight != .none)) ||
    (c.enable && !c.master)

/-- The reaction to a write of `CTRL` outside a running reset (40_bus_engine.md R132, R151, R153). -/
def reactWriteCtrl (v : Word) (e : Engine) : Except Refusal Reaction :=
  if v.getLsbD 0 then .ok { eng := { e with inflight := .resetPh }, wire := [] }
  else if ctrlCmd v = 0b01#2 ∨ ctrlCmd v = 0b10#2 then .error .reservedCtrlCommand
  else if clearsMode v e then .error .modeCleared
  else
    let e1 := { e with ctrl := ctrlOfWord v }
    if ctrlCmd v = 0b11#2 then
      if active e && active e1 then .ok (reactStop e1) else .error .engineInactive
    else .ok { eng := e1, wire := [] }

/-- The reaction to a write of `ADDR` (40_bus_engine.md R131, R133, R134). -/
def reactWriteAddr (a8 : Byte) (e : Engine) : Except Refusal Reaction :=
  if !active e then .error .engineInactive
  else if e.inflight ≠ .none then .error .addrWhileInFlight
  else
    .ok
      { eng :=
          { e with
            ackPending := false
            addr := a8
            owned := true
            dir := addrDir a8
            intflag := clearMbSb e.intflag
            status := statusClear
            inflight := .addrPh }
        wire := pendingAck e ++ [if e.owned then .sr else .s, .address a8] }

/-- The reaction to a write of `DATA` (40_bus_engine.md R131, R139, R140). -/
def reactWriteData (b : Byte) (e : Engine) : Except Refusal Reaction :=
  if !active e then .error .engineInactive
  else if !e.owned ∨ e.dir = .read ∨ e.inflight ≠ .none then .error .dataOutsideWrite
  else .ok { eng := { e with data := b, intflag := { e.intflag with mb := false }, inflight := .txPh }, wire := [.tx b] }

/-- A write of a register: the reaction to the value, taken at the register's width (20_memory.md R73). -/
def writeReg (r : Reg) (v : Word) (e : Engine) : Except Refusal Reaction :=
  if e.inflight = .resetPh then .error .accessDuringReset
  else
    match r with
    | .ctrl => reactWriteCtrl v e
    | .baud => .ok { eng := { e with baud := v }, wire := [] }
    | .intflag => .ok { eng := { e with intflag := clearWritten e.intflag v }, wire := [] }
    | .status => .error .statusReadOnly
    | .data => reactWriteData (v.setWidth 8) e
    | .addr => reactWriteAddr (v.setWidth 8) e

/-- The atomic set-bits access: a write of the current value with the mask's bits set (20_memory.md R73, R84). -/
def setBitsReg (r : Reg) (m : Word) (e : Engine) : Except Refusal Reaction := writeReg r (regValue r e ||| m) e

/-- The register at an offset for an access of a number of bytes (10_state.md R36; 20_memory.md R74). -/
def regAt (off bytes : Nat) : Option Reg :=
  match off, bytes with
  | 0x00, 4 => some .ctrl
  | 0x04, 4 => some .baud
  | 0x08, 1 => some .intflag
  | 0x0C, 2 => some .status
  | 0x10, 1 => some .data
  | 0x14, 1 => some .addr
  | _, _ => none

/-- `MemRead(off, n)` (00_scope.md R12); any other offset or width is refused (20_memory.md R74). -/
def memRead (off bytes : Nat) (e : Engine) : Except Refusal (Word × Reaction) :=
  match regAt off bytes with
  | some r => readReg r e
  | none => .error .noSuchRegister

/-- `MemWrite(off, n, v)` (00_scope.md R12). -/
def memWrite (off bytes : Nat) (v : Word) (e : Engine) : Except Refusal Reaction :=
  match regAt off bytes with
  | some r => writeReg r v e
  | none => .error .noSuchRegister

/-- `SetBits(off, n, m)` (00_scope.md R12). -/
def memSetBits (off bytes : Nat) (m : Word) (e : Engine) : Except Refusal Reaction :=
  match regAt off bytes with
  | some r => setBitsReg r m e
  | none => .error .noSuchRegister

/-! ### The sequencer's accesses: one step each, recorded (20_memory.md R75, R77) -/

/-- The latch of the register just read (10_state.md R28). -/
def latch (r : Reg) (v : Word) (w : Work) : Work :=
  match r with
  | .ctrl => { w with ctrlLatch := v }
  | .intflag => { w with flagLatch := v.setWidth 8 }
  | .status => { w with statLatch := v.setWidth 16 }
  | .baud => w
  | .data => w
  | .addr => w

/-- The state after an access with a reaction. -/
def afterAccess (a : Access) (x : Reaction) (s : State) : State := ((s.setEng x.eng).pushWire x.wire).pushTrace a

/-- `RD r` (20_memory.md R73). -/
def seqRead (r : Reg) (s : State) : Except Refusal (Word × State) :=
  match readReg r s.eng with
  | .error e => .error e
  | .ok (v, x) => .ok (v, (afterAccess (.rd r v) x s).setWork (latch r v s.work))

/-- `WR r <- v` (20_memory.md R73). -/
def seqWrite (r : Reg) (v : Word) (s : State) : Except Refusal State :=
  match writeReg r v s.eng with
  | .error e => .error e
  | .ok x => .ok (afterAccess (.wr r v) x s)

/-- `SET r, m` (20_memory.md R73). -/
def seqSet (r : Reg) (m : Word) (s : State) : Except Refusal State :=
  match setBitsReg r m s.eng with
  | .error e => .error e
  | .ok x => .ok (afterAccess (.set r m) x s)

/-- `Ext(e)` (41_bus_primitives.md R171): recorded, and nothing else. -/
def seqExt (e : ExtEvent) (s : State) : State := s.pushTrace (.ext e)

/-! ### What a line of a primitive leads to (41_bus_primitives.md R189) -/

/-- After its access a line goes on to another line; it makes its access again, in a bounded poll or in a wait without
bound; it ends the primitive with a status (and, for `READ`, a byte); or its access was refused. -/
inductive LineOut where
  | goto (l : Line) (s : State)
  | again (s : State)
  | spin (s : State)
  | done (st : Code) (d : Byte) (s : State)
  | refused (r : Refusal)
  deriving DecidableEq, Repr

/-- Go on with the value read, in the same step. -/
def onRead (a : Except Refusal (Word × State)) (k : Word → State → LineOut) : LineOut :=
  match a with
  | .ok (v, s) => k v s
  | .error r => .refused r

/-- Go on after a write, in the same step. -/
def onWrite (a : Except Refusal State) (k : State → LineOut) : LineOut :=
  match a with
  | .ok s => k s
  | .error r => .refused r

/-- One iteration of `PollBounded(m)` (41_bus_primitives.md R190): read, count, test. -/
def pollLine (p : Params) (m : Word) (s : State) (exhausted : State → LineOut) (found : Word → State → LineOut) : LineOut :=
  onRead (seqRead .intflag s) fun f s1 =>
  let s2 := s1.setWork { s1.work with pollcnt := s1.work.pollcnt + 1 }
  if f &&& m ≠ 0#32 then found f s2
  else if s1.work.pollcnt + 1 < p.pollBudget then .again s2
  else exhausted s2

/-! ### How an operation begins and ends -/

/-- The phase table (10_state.md R27): whether an operation may be issued in a phase. -/
def legalIn (i : Instr) (ph : Phase) : Bool :=
  match i with
  | .init => ph == .uninit
  | .start _ _ => true
  | .write _ => ph == .dataW
  | .read _ => ph == .dataR
  | .stop => ph != .uninit
  | .sReset => true
  | .sReadSn => true
  | .sReadRh => true
  | .sReadT => true
  | .sReadTl => true
  | .convRh _ => true
  | .convT _ => true

/-- The operation `i` may begin (10_state.md R27), or it is the one that runs already; another one running refuses it
(10_state.md R21). `true` means that it begins. -/
def enter (i : Instr) (s : State) : Except Refusal Bool :=
  match s.seq with
  | some q => if q.op = i then .ok false else .error .commandWhileBusy
  | none => if legalIn i s.phase then .ok true else .error .illegalInPhase

/-- What the last step of every operation adds to its access (10_state.md R21, R23; 41_bus_primitives.md R189;
60_exceptions.md R250, R257): the status and the cause are reported, and the block is no longer busy. This is the block's whole "trap entry":
nothing is saved, no mode changes, control goes nowhere. -/
def finish (st cause : Code) (s : State) : State :=
  ((s.setRes { s.res with status := codeByte st, cause := codeByte cause }).setBusy false).setSeq none

/-- A read of a result register by the host, allowed only when the block is not busy (10_state.md R21; U7). -/
def hostRead (k : ResReg) (s : State) : Except Refusal Word :=
  if s.busy then .error .resultReadWhileBusy else .ok (resultOf s.res k)

/-- The busy bit as the host reads it (10_state.md R21). -/
def hostBusy (s : State) : Bool := s.busy

/-- `hw_reset` (70_reset_and_hazards.md R290): the state after reset, whatever went before; the host's inputs and the
engine's turns still to come are no state of the block and stay. -/
def hwReset (s : State) : State := (State.reset.setHost s.host).setFeed s.feed

end Sys2Proof.Machine
end

