-- ==== Sys2Proof/Machine/Lines.lean ====
section
/-! DEFINITION. The five bus primitives, line by line from 41_bus_primitives.md: each numbered line is one access with
the tests and assignments on it (R189), and says which line comes next. The numbers are those of the spec's
pseudocode. -/

namespace Sys2Proof.Machine

/-- A primitive with its operands, as the host issues it or a script calls it. -/
inductive Prim where
  | init
  | start (a : BitVec 7) (d : Dir)
  | write (b : Byte)
  | read (again : Bool)
  | stop
  deriving DecidableEq, Repr

/-- The first line of a primitive. -/
def firstLine (x : Prim) : Line :=
  match x with
  | .init => .init .clkEnable
  | .start a d => .start a d .check
  | .write b => .write b .data
  | .read again => .read again .poll
  | .stop => .stop .readCtrl

/-- The lines of `INIT` (41_bus_primitives.md R170 to R172). -/
def initLine (p : Params) (l : InitLine) (s : State) : LineOut :=
  match l with
  | .clkEnable => .goto (.init .clkSelect) (seqExt .clkEnable s)                                       -- 1
  | .clkSelect => .goto (.init .swrst) (seqExt .clkSelect s)                                           -- 2
  | .swrst => onWrite (seqWrite .ctrl maskSwrst s) fun s1 => .goto (.init .resetWait) s1               -- 3
  | .resetWait =>                                                                                      -- 4
    onRead (seqRead .ctrl s) fun c s1 => if c.getLsbD 0 then .spin s1 else .goto (.init .master) s1
  | .master => onWrite (seqWrite .ctrl maskMaster s) fun s1 => .goto (.init .baud) s1                  -- 5
  | .baud => onWrite (seqWrite .baud p.baudDiv s) fun s1 => .goto (.init .enable) s1                   -- 6
  | .enable => onWrite (seqSet .ctrl maskEnable s) fun s1 => .goto (.init .pinSda) s1                  -- 7
  | .pinSda => .goto (.init .pinScl) (seqExt .pinSda s)                                                -- 8
  | .pinScl => .done .ok 0#8 ((seqExt .pinScl s).setPhase .idle)                                       -- 9

/-- The value a STOP writes to `CTRL`: the value read with `CMD` = STOP (41_bus_primitives.md R177, R187). -/
def stopWord (c : Word) : Word := (c &&& ~~~maskCmd) ||| cmdStop

/-- The phase a successful `START` leaves (10_state.md R27). -/
def dataPhase (d : Dir) : Phase :=
  match d with
  | .write => .dataW
  | .read => .dataR

/-- The lines of `START` (41_bus_primitives.md R173 to R178). -/
def startLine (p : Params) (a : BitVec 7) (d : Dir) (l : StartLine) (s : State) : LineOut :=
  match l with
  | .check =>                                                                                          -- 1
    onRead (seqRead .ctrl s) fun c s1 => if c.getLsbD 1 then .goto (.start a d .flags) s1 else .done .notReady 0#8 s1
  | .flags =>                                                                                          -- 2
    onRead (seqRead .intflag s) fun f s1 => .goto (.start a d (if f.getLsbD 7 then .cleanup else .address)) s1
  | .cleanup => onWrite (seqWrite .intflag maskError s) fun s1 => .goto (.start a d .address) s1       -- 2a
  | .address =>                                                                                        -- 3
    onWrite (seqWrite .addr ((addrByte a d).setWidth 32) s) fun s1 => .goto (.start a d .poll) s1
  | .poll =>                                                                                           -- 4
    pollLine p (maskMb ||| maskError) s (fun s1 => .goto (.start a d (.failRead .timeout)) s1) fun _ s1 =>
      .goto (.start a d .status) s1
  | .status =>                                                                                         -- 5
    onRead (seqRead .status s) fun t s1 =>
      if t &&& maskStatusErr ≠ 0#32 then .goto (.start a d (.failRead .nackOrArbitrationLost)) s1
      else .done .ok 0#8 (s1.setPhase (dataPhase d))
  | .failRead e => onRead (seqRead .ctrl s) fun _ s1 => .goto (.start a d (.failStop e)) s1            -- F1
  | .failStop e =>                                                                                     -- F2
    onWrite (seqWrite .ctrl (stopWord s.work.ctrlLatch) s) fun s1 => .goto (.start a d (.failClear e)) s1
  | .failClear e =>                                                                                    -- F3
    onWrite (seqWrite .intflag maskError s) fun s1 => .done (startErrorCode e) 0#8 (s1.setPhase .idle)

/-- The lines of `WRITE` (41_bus_primitives.md R179 to R181); line 3 makes no access. -/
def writeLine (b : Byte) (l : WriteLine) (s : State) : LineOut :=
  match l with
  | .data => onWrite (seqWrite .data (b.setWidth 32) s) fun s1 => .goto (.write b .wait) s1            -- 1
  | .wait =>                                                                                           -- 2, 3
    onRead (seqRead .intflag s) fun f s1 =>
      if f &&& (maskMb ||| maskError) = 0#32 then .spin s1
      else if f.getLsbD 7 then .done .nackOrArbitrationLost 0#8 (s1.setPhase .idle)
      else .done .ok 0#8 s1

/-- The value `READ` writes to `CTRL` (41_bus_primitives.md R182 step 4, R185): `ACKACT` from `again`, `CMD` zero,
every other field as read. -/
def ackWord (again : Bool) (c : Word) : Word :=
  (c &&& ~~~(maskCmd ||| maskAckact)) ||| (if again then 0#32 else maskAckact)

/-- The lines of `READ` (41_bus_primitives.md R182 to R186); line 2 makes no access. -/
def readLine (p : Params) (again : Bool) (l : ReadLine) (s : State) : LineOut :=
  match l with
  | .poll =>                                                                                           -- 1, 2
    pollLine p (maskSb ||| maskError) s (fun s1 => .done .timeout 0#8 (s1.setPhase .idle)) fun f s1 =>
      if f.getLsbD 7 then .done .nackOrArbitrationLost 0#8 (s1.setPhase .idle) else .goto (.read again .readCtrl) s1
  | .readCtrl => onRead (seqRead .ctrl s) fun _ s1 => .goto (.read again .writeCtrl) s1                -- 3
  | .writeCtrl =>                                                                                      -- 4
    onWrite (seqWrite .ctrl (ackWord again s.work.ctrlLatch) s) fun s1 => .goto (.read again .data) s1
  | .data => onRead (seqRead .data s) fun d s1 => .done .ok (d.setWidth 8) s1                          -- 5

/-- The lines of `STOP` (41_bus_primitives.md R187, R188). -/
def stopLine (l : StopLine) (s : State) : LineOut :=
  match l with
  | .readCtrl => onRead (seqRead .ctrl s) fun _ s1 => .goto (.stop .writeCtrl) s1                      -- 1
  | .writeCtrl =>                                                                                      -- 2
    onWrite (seqWrite .ctrl (stopWord s.work.ctrlLatch) s) fun s1 => .done .ok 0#8 (s1.setPhase .idle)

/-- What a line does in one sequencer step. A converter operation's one step makes no access and cannot fail
(43_converter.md R231, R232). -/
def runLine (p : Params) (l : Line) (s : State) : LineOut :=
  match l with
  | .init l => initLine p l s
  | .start a d l => startLine p a d l s
  | .write b l => writeLine b l s
  | .read again l => readLine p again l s
  | .stop l => stopLine l s
  | .convert => .done .ok 0#8 s

end Sys2Proof.Machine
end

