-- ==== Sys2Proof/Machine/Sequencer.lean ====
section
/-! DEFINITION. The sequencer: scripts of primitives (42_sensor_ops.md R201 to R205; a primitive the host issued is a
script of one), one sequencer step (10_state.md R25; 41_bus_primitives.md R189), one step of the block by whichever agent
has the moment (00_scope.md R13; 20_memory.md R82), and an operation run to its end by such steps. -/

namespace Sys2Proof.Machine

/-- What the script does with the byte of a primitive that ended OK, in the primitive's last step. -/
inductive Keep where
  | nothing
  /-- `RES_BYTE` (10_state.md R23). -/
  | result
  /-- `buf[slot]` (42_sensor_ops.md R201). -/
  | slot (i : Nat)
  /-- `sn_a[0..3] <- buf[0], buf[2], buf[4], buf[6]` (42_sensor_ops.md R207). -/
  | partA
  deriving DecidableEq, Repr

/-- One item of a script. -/
structure Item where
  prim : Prim
  /-- The Sensor Error of a script whose primitive failed (42_sensor_ops.md R204); `none` for a primitive the host
  issued, which reports its own Bus Error (41_bus_primitives.md R189). -/
  onFail : Option Code
  keep : Keep
  deriving DecidableEq, Repr

/-- An operation: its script, and the results it reports on OK (10_state.md R23). -/
structure Operation where
  script : List Item
  report : Work → Results → Results

/-- No result beyond the status, and the byte of a `READ`, which `Keep.result` stores. -/
def reportNothing (_ : Work) (r : Results) : Results := r

/-- Keep the byte `d`. -/
def keepByte (k : Keep) (d : Byte) (s : State) : State :=
  match k with
  | .nothing => s
  | .result => s.setRes { s.res with byte := d }
  | .slot i => s.setWork { s.work with buf := setByte s.work.buf i d }
  | .partA => s.setWork { s.work with snA := keptPartA s.work.buf }

/-- A line of a bounded poll. -/
def isPollLine (l : Line) : Bool :=
  match l with
  | .start _ _ .poll => true
  | .read _ .poll => true
  | _ => false

/-- The sequencer stands at the line `l` of the item `k`; a bounded poll starts with the count 0 (41_bus_primitives.md
R190). -/
def moveTo (i : Instr) (k : Nat) (l : Line) (s : State) : State :=
  (if isPollLine l then s.setWork { s.work with pollcnt := 0 } else s).setSeq (some { op := i, item := k, line := l })

/-- The first line of the item `k` of an operation; an operation without a script is a conversion. -/
def itemLine (o : Operation) (k : Nat) : Line :=
  match o.script[k]? with
  | some it => firstLine it.prim
  | none => .convert

/-- The operation `i` begins: the block is busy, and the sequencer stands at its first line (10_state.md R21, R25). -/
def beginOperation (i : Instr) (o : Operation) (s : State) : State := moveTo i 0 (itemLine o 0) (s.setBusy true)

/-- What a step of the block leads to: the operation goes on; it stands at a wait without bound whose condition the read
did not show; it ended; or an access was refused. -/
inductive Progress where
  | moved (s : State)
  | waits (s : State)
  | ended (s : State)
  | refused (r : Refusal)
  deriving DecidableEq, Repr

/-- The end of a failing operation: a primitive's Bus Error, or the script's Sensor Error with the Bus Error as its cause
(30_encoding.md R111; 42_sensor_ops.md R205). -/
def finishFailed (onFail : Option Code) (st : Code) (s : State) : State :=
  match onFail with
  | none => finish st .ok s
  | some e => finish e st s

/-- The item `k` of the operation ended with a status: on OK the script goes on, and its end is the operation's; a
failure ends the operation at once (42_sensor_ops.md R202). No step is taken for it (41_bus_primitives.md R189). -/
def itemEnded (i : Instr) (o : Operation) (k : Nat) (st : Code) (d : Byte) (s : State) : Progress :=
  match o.script[k]?, st with
  | none, _ => .ended (finish .ok .ok (s.setRes (o.report s.work s.res)))
  | some it, .ok =>
    let s1 := keepByte it.keep d s
    if k + 1 < o.script.length then .moved (moveTo i (k + 1) (itemLine o (k + 1)) s1)
    else .ended (finish .ok .ok (s1.setRes (o.report s1.work s1.res)))
  | some it, st => .ended (finishFailed it.onFail st s)

/-- One sequencer step of the operation: the access of the line it stands at, with what the line does beside it. -/
def seqStep (p : Params) (o : Operation) (q : SeqPos) (s : State) : Progress :=
  match runLine p q.line s with
  | .goto l s1 => .moved (moveTo q.op q.item l s1)
  | .again s1 => .moved s1
  | .spin s1 => .waits s1
  | .done st d s1 => itemEnded q.op o q.item st d s1
  | .refused r => .refused r

/-- One step of the block while an operation runs: the engine's, when it has the moment, else the sequencer's. -/
def blockStep (p : Params) (o : Operation) (q : SeqPos) (s : State) : Progress :=
  match engineMove p s with
  | .completed s1 => .moved s1
  | .holds s1 => seqStep p o q s1

/-- A step's outcome. -/
def Progress.outcome (x : Progress) : Host.Outcome State Fault Refusal :=
  match x with
  | .moved s => .next s
  | .waits s => .next s
  | .ended s => .next s
  | .refused r => .refused r

/-- At most `n` steps of the block, up to the operation's end, or to a wait without bound whose condition was not
shown. -/
def runSteps (p : Params) (o : Operation) : Nat → State → Host.Outcome State Fault Refusal
  | 0, s => .next s
  | n + 1, s =>
    match s.seq with
    | none => .next s
    | some q =>
      match blockStep p o q s with
      | .moved s1 => runSteps p o n s1
      | .waits s1 => .next s1
      | .ended s1 => .next s1
      | .refused r => .refused r

/-- More steps than an operation takes up to its end or a wait: a primitive makes at most `POLL_BUDGET` and 9 sequencer
steps, and at most two completions can stand before each (an acknowledged read address, then the byte: 40_bus_engine.md
R136, R145). -/
def stepBound (p : Params) (o : Operation) : Nat := 3 * (o.script.length + 1) * p.pollBudget + 27 * (o.script.length + 1)

/-- An operation, begun or gone on with, run step by step to its end or to a wait. Log entry 2. -/
def runOperation (p : Params) (i : Instr) (o : Operation) (s : State) : Host.Outcome State Fault Refusal :=
  match enter i s with
  | .error r => .refused r
  | .ok true => runSteps p o (stepBound p o) (beginOperation i o s)
  | .ok false => runSteps p o (stepBound p o) s

end Sys2Proof.Machine
end

