-- ==== Sys2Proof/Machine/BusPrimitives.lean ====
section
/-! DEFINITION. The five host operations that are one bus primitive: the operation of each, and its meaning. -/

namespace Sys2Proof.Machine

/-- The script of a primitive the host issued. -/
def hostPrimitive (x : Prim) (k : Keep) : Operation :=
  { script := [{ prim := x, onFail := none, keep := k }], report := reportNothing }

/-- The operation `INIT`. -/
def initOperation : Operation := hostPrimitive .init .nothing

/-- The operation `START`. -/
def startOperation (a : BitVec 7) (d : Dir) : Operation := hostPrimitive (.start a d) .nothing

/-- The operation `WRITE`. -/
def writeOperation (b : Byte) : Operation := hostPrimitive (.write b) .nothing

/-- The operation `READ`: on OK its byte is `RES_BYTE` (10_state.md R23). -/
def readOperation (again : Bool) : Operation := hostPrimitive (.read again) .result

/-- The operation `STOP`. -/
def stopOperation : Operation := hostPrimitive .stop .nothing

/-- `INIT` (41_bus_primitives.md R170 to R172). -/
def execInit (s : State) : Host.Outcome State Fault Refusal :=
  runOperation Config.params .init initOperation s

/-- `START` (41_bus_primitives.md R173 to R178). -/
def execStart (a : BitVec 7) (d : Dir) (s : State) : Host.Outcome State Fault Refusal :=
  runOperation Config.params (.start a d) (startOperation a d) s

/-- `WRITE` (41_bus_primitives.md R179 to R181). -/
def execWrite (b : Byte) (s : State) : Host.Outcome State Fault Refusal :=
  runOperation Config.params (.write b) (writeOperation b) s

/-- `READ` (41_bus_primitives.md R182 to R186). -/
def execRead (again : Bool) (s : State) : Host.Outcome State Fault Refusal :=
  runOperation Config.params (.read again) (readOperation again) s

/-- `STOP` (41_bus_primitives.md R187, R188). -/
def execStop (s : State) : Host.Outcome State Fault Refusal :=
  runOperation Config.params .stop stopOperation s

end Sys2Proof.Machine
end

