-- ==== Sys2Proof/Machine/Converter.lean ====
section
/-! DEFINITION. The fixed-point converter (43_converter.md) and the meanings of its two operations. -/

namespace Sys2Proof.Machine

/-- Multiply, divide by 65536, subtract modulo 2^32, in this order (43_converter.md R234, R235). The product is exact:
a constant below 2^16 times a 16-bit code fits in 32 bits. -/
def convert (mul offset : Nat) (code : Half) : Word :=
  BitVec.ofNat 32 (mul * code.toNat / 65536) - BitVec.ofNat 32 offset

/-- `conv_rh` (43_converter.md R231): 12500 and 600. -/
def convRh (code : Half) : Word := convert 12500 600 code

/-- `conv_t` (43_converter.md R232): 17572 and 4685. -/
def convT (code : Half) : Word := convert 17572 4685 code

/-- The raw code and its converted value, as every converting operation reports them (10_state.md R23). -/
def reading (conv : Half → Word) (code : Half) (r : Results) : Results := { r with raw := code, value := conv code }

/-- A conversion: no script, so one step without an access (43_converter.md R231, R232). -/
def conversion (conv : Half → Word) (code : Half) : Operation := { script := [], report := fun _ => reading conv code }

/-- The operation `CONV_RH`. -/
def convRhOperation (code : Half) : Operation := conversion convRh code

/-- The operation `CONV_T`. -/
def convTOperation (code : Half) : Operation := conversion convT code

/-- `CONV_RH` (43_converter.md R231). -/
def execConvRh (code : Half) (s : State) : Host.Outcome State Fault Refusal :=
  runOperation Config.params (.convRh code) (convRhOperation code) s

/-- `CONV_T` (43_converter.md R232). -/
def execConvT (code : Half) (s : State) : Host.Outcome State Fault Refusal :=
  runOperation Config.params (.convT code) (convTOperation code) s

end Sys2Proof.Machine
end

