-- ==== Sys2Proof/Machine/SensorOps.lean ====
section
/-! DEFINITION. The sensor operations: the script procedure `Xfer` (42_sensor_ops.md R201) with its error mapping (R204),
and the five operations with their meanings (R206 to R212). -/

namespace Sys2Proof.Machine

/-- `SENSOR_ADDR` (00_scope.md R9). -/
def sensorAddr : BitVec 7 := 0x40#7

/-- `Xfer(cmd, n)` as the list of its items (42_sensor_ops.md R201, R204); `k` is what is kept at its end. `STOP` cannot
fail. -/
def xfer (cmd : List Byte) (n : Nat) (k : Keep) : List Item :=
  [{ prim := .start sensorAddr .write, onFail := some .startFailed, keep := .nothing }] ++              -- 1
  cmd.map (fun b => { prim := .write b, onFail := some .commandFailed, keep := .nothing }) ++           -- 2
  (if n = 0 then [] else                                                                                -- 3
    [{ prim := .start sensorAddr .read, onFail := some .repeatedStartFailed, keep := .nothing }] ++     -- 4
    (List.range n).map (fun i =>                                                                        -- 5
      { prim := .read (decide (i + 1 < n)), onFail := some .commandFailed, keep := .slot i })) ++
  [{ prim := .stop, onFail := some .commandFailed, keep := k }]                                         -- 3, 6

/-- The operation `S_RESET` (42_sensor_ops.md R206). -/
def sResetOperation : Operation := { script := xfer [0xFE#8] 0 .nothing, report := reportNothing }

/-- The result of the serial-number read (42_sensor_ops.md R207). -/
def serialRead (w : Work) (r : Results) : Results := { r with sn := serialNumber w.snA w.buf }

/-- The operation `S_READ_SN`: part A, then part B, each a transaction of its own (42_sensor_ops.md R207). -/
def sReadSnOperation : Operation :=
  { script := xfer [0xFA#8, 0x0F#8] 8 .partA ++ xfer [0xFC#8, 0xC9#8] 6 .nothing, report := serialRead }

/-- A measurement with the command byte `c` and the conversion `conv` (42_sensor_ops.md R209). -/
def measurement (c : Byte) (conv : Half → Word) : Operation :=
  { script := xfer [c] 2 .nothing, report := fun w r => reading conv (measurementCode w.buf) r }

/-- The operation `S_READ_RH` (42_sensor_ops.md R210). -/
def sReadRhOperation : Operation := measurement 0xE5#8 convRh

/-- The operation `S_READ_T` (42_sensor_ops.md R211). -/
def sReadTOperation : Operation := measurement 0xE3#8 convT

/-- The operation `S_READ_TL` (42_sensor_ops.md R212). -/
def sReadTlOperation : Operation := measurement 0xE0#8 convT

/-- `S_RESET` (42_sensor_ops.md R206). -/
def execSReset (s : State) : Host.Outcome State Fault Refusal :=
  runOperation Config.params .sReset sResetOperation s

/-- `S_READ_SN` (42_sensor_ops.md R207, R208). -/
def execSReadSn (s : State) : Host.Outcome State Fault Refusal :=
  runOperation Config.params .sReadSn sReadSnOperation s

/-- `S_READ_RH` (42_sensor_ops.md R210). -/
def execSReadRh (s : State) : Host.Outcome State Fault Refusal :=
  runOperation Config.params .sReadRh sReadRhOperation s

/-- `S_READ_T` (42_sensor_ops.md R211). -/
def execSReadT (s : State) : Host.Outcome State Fault Refusal :=
  runOperation Config.params .sReadT sReadTOperation s

/-- `S_READ_TL` (42_sensor_ops.md R212). -/
def execSReadTl (s : State) : Host.Outcome State Fault Refusal :=
  runOperation Config.params .sReadTl sReadTlOperation s

end Sys2Proof.Machine
end

