-- ==== Sys2Proof/Machine/Dispatch.lean ====
section
/-! DEFINITION. The dispatch: one arm per instruction, one meaning per arm. -/

namespace Sys2Proof.Machine

def exec (i : Instr) (s : State) : Host.Outcome State Fault Refusal :=
  match i with
  | .init => Sys2Proof.Machine.execInit s
  | .start a d => Sys2Proof.Machine.execStart a d s
  | .write b => Sys2Proof.Machine.execWrite b s
  | .read again => Sys2Proof.Machine.execRead again s
  | .stop => Sys2Proof.Machine.execStop s
  | .sReset => Sys2Proof.Machine.execSReset s
  | .sReadSn => Sys2Proof.Machine.execSReadSn s
  | .sReadRh => Sys2Proof.Machine.execSReadRh s
  | .sReadT => Sys2Proof.Machine.execSReadT s
  | .sReadTl => Sys2Proof.Machine.execSReadTl s
  | .convRh code => Sys2Proof.Machine.execConvRh code s
  | .convT code => Sys2Proof.Machine.execConvT code s

end Sys2Proof.Machine
end

