-- ==== Sys2Proof/Machine/Operations.lean ====
section
/-! DEFINITION. The operation of each instruction, for the step of the machine. -/

namespace Sys2Proof.Machine

/-- The operation of an instruction: the one its meaning runs. -/
def operationOf (i : Instr) : Operation :=
  match i with
  | .init => initOperation
  | .start a d => startOperation a d
  | .write b => writeOperation b
  | .read again => readOperation again
  | .stop => stopOperation
  | .sReset => sResetOperation
  | .sReadSn => sReadSnOperation
  | .sReadRh => sReadRhOperation
  | .sReadT => sReadTOperation
  | .sReadTl => sReadTlOperation
  | .convRh code => convRhOperation code
  | .convT code => convTOperation code

/-- One step of the block with no step of the host: the engine's, when it has the moment, else the sequencer's, if an
operation runs. -/
def advance (s : State) : Host.Outcome State Fault Refusal :=
  match s.seq with
  | some q => (blockStep Config.params (operationOf q.op) q s).outcome
  | none =>
    match engineMove Config.params s with
    | .completed s1 => .next s1
    | .holds s1 => .next s1

/-- The host's step `issue(w)` (10_state.md R21): the word is stored, the block is busy, and the operation it encodes
stands at its first line. A reserved word, or an operation the phase table forbids, is refused (30_encoding.md R109). -/
def issue (w : Word) (s : State) : Host.Outcome State Fault Refusal :=
  match decode w with
  | .error e => .refused (.reservedWord e)
  | .ok i =>
    match enter i s with
    | .error r => .refused r
    | .ok _ => .next (beginOperation i (operationOf i) (s.setCmdWord w))

end Sys2Proof.Machine
end

