-- ==== Sys2Proof/Machine/Step.lean ====
section
/-! DEFINITION. One step of the machine: one step of one agent (00_scope.md R13). The host's next input says whether the
moment is the host's (10_state.md R21; 70_reset_and_hazards.md R290); where it is not, it is the engine's or the
sequencer's. The meanings of Dispatch.lean run these same steps of the block to an operation's end. -/

namespace Sys2Proof.Machine

/-- One step. A command waits in the list while the block is busy: the host has no step then (10_state.md R21). -/
def step (s : State) : Host.Outcome State Fault Refusal :=
  match s.host with
  | [] => advance s
  | .idle :: rest => advance (s.setHost rest)
  | .hwReset :: rest => .next (hwReset (s.setHost rest))
  | .issue w :: rest => if s.busy then advance s else issue w (s.setHost rest)

/-- The state with one more command word at the head of the host's list, and no operation running, so that the very
next step issues it (log entry 8). -/
def State.withFetchWord (s : State) (_nbits w : Nat) : State :=
  ((s.setHost (.issue (BitVec.ofNat 32 w) :: s.host)).setBusy false).setSeq none

end Sys2Proof.Machine
end

