-- ==== Sys2Proof/Safety.lean ====
section
/-! DEFINITION. What the spec promises of the whole machine, in the terms the statements use: the engine's invariants
(40_bus_engine.md R155), the link of phase, mode and sequencer (10_state.md R26, R27; 41_bus_primitives.md R174), the
shape of the wire trace (20_memory.md R88), the status codes an operation may end with (60_exceptions.md R253), the
accesses an operation may make (10_state.md R36; 30_encoding.md R113), and the refusals the sequencer can meet
(93_implementation_defined.md section 2). -/

namespace Sys2Proof.Machine

/-! ### The engine -/

/-- 40_bus_engine.md R155 (a) to (d). -/
abbrev EngineInv (e : Engine) : Prop :=
  (e.inflight = .addrPh → e.owned = true) ∧
  (e.inflight = .txPh → e.owned = true ∧ e.dir = .write) ∧
  (e.inflight = .rxPh → e.owned = true ∧ e.dir = .read ∧ e.ackPending = false) ∧
  (e.ackPending = true → e.owned = true ∧ e.dir = .read ∧ e.inflight = .none)

/-- `SB` is set only while the byte it announces waits for its acknowledge (DEDUCED from 40_bus_engine.md R133, R145,
R146, R149; the sequencer never clears `SB` by writing a 1). -/
abbrev SbInv (e : Engine) : Prop := e.intflag.sb = true → e.ackPending = true

/-! ### Phase, mode and sequencer -/

/-- The engine `INIT` leaves, but for `ENABLE` and `MASTER` as given (41_bus_primitives.md R170, state after). -/
def bootEngine (enable master : Bool) (baud : Word) : Engine :=
  { engineReset with ctrl := { enable := enable, master := master, ackact := false }, baud := baud }

/-- The engine at each line of `INIT`: what the lines before it have written, and nothing else (41_bus_primitives.md
R170). -/
def engineAt (l : InitLine) (e : Engine) : Bool :=
  match l with
  | .clkEnable => e == engineReset
  | .clkSelect => e == engineReset
  | .swrst => e == engineReset
  | .resetWait => e == engineReset || e == { engineReset with inflight := .resetPh }
  | .master => e == engineReset
  | .baud => e == bootEngine false true 0#32
  | .enable => e == bootEngine false true Config.baudDiv
  | .pinSda => e == bootEngine true true Config.baudDiv
  | .pinScl => e == bootEngine true true Config.baudDiv

/-- Before `INIT` has ended the engine is as after reset, but for what `INIT` itself has done. -/
def bootFits (q : Option SeqPos) (e : Engine) : Bool :=
  match q with
  | some { line := .init l, .. } => engineAt l e
  | _ => e == engineReset

/-- Before `INIT` has ended the engine is what the reset and `INIT`'s lines so far have made it; after it, it is enabled,
a master, not resetting, and `BAUD` holds `BAUD_DIV` (41_bus_primitives.md R170, R174). -/
abbrev ModeInv (s : State) : Prop :=
  (s.phase = .uninit → bootFits s.seq s.eng = true) ∧
  (s.phase ≠ .uninit →
    s.eng.ctrl.enable = true ∧ s.eng.ctrl.master = true ∧ s.eng.inflight ≠ .resetPh ∧ s.eng.baud = Config.baudDiv)

/-- The line is one of the primitive. -/
def lineOf (x : Prim) (l : Line) : Bool :=
  match x, l with
  | .init, .init _ => true
  | .start a d, .start a' d' _ => a == a' && d == d'
  | .write b, .write b' _ => b == b'
  | .read g, .read g' _ => g == g'
  | .stop, .stop _ => true
  | _, _ => false

/-- The sequencer stands at a line of the script's item; a conversion, which has no script, at its one line. -/
def inScript (q : SeqPos) : Bool :=
  match (operationOf q.op).script with
  | [] => q.item == 0 && q.line == .convert
  | it :: rest =>
    match (it :: rest)[q.item]? with
    | some x => lineOf x.prim q.line
    | none => false

/-- The five sensor operations. -/
def isSensor (i : Instr) : Bool :=
  match i with
  | .init => false
  | .start _ _ => false
  | .write _ => false
  | .read _ => false
  | .stop => false
  | .sReset => true
  | .sReadSn => true
  | .sReadRh => true
  | .sReadT => true
  | .sReadTl => true
  | .convRh _ => false
  | .convT _ => false

/-- The phase in which a line is made (10_state.md R27; 41_bus_primitives.md R174). -/
def phaseAt (q : SeqPos) (ph : Phase) : Bool :=
  match q.line with
  | .init _ => ph == .uninit
  | .start _ _ .check => q.item == 0 || ph != .uninit
  | .start _ _ _ => ph != .uninit
  | .write _ _ => ph == .dataW
  | .read _ _ => ph == .dataR
  | .stop _ => ph != .uninit
  | .convert => true

/-- `CTRL` still holds the value latched for the write made from it (41_bus_primitives.md R177, R185, R187). -/
def latchHolds (s : State) : Bool := s.work.ctrlLatch == ctrlBits s.eng.ctrl

/-- The bus is held in the direction `d`, and unless the address phase is in flight still, with `MB` clear, it is over:
for a Write nothing is in flight. -/
def addressed (d : Dir) (e : Engine) : Bool :=
  e.owned && e.dir == d &&
    (if e.inflight = .addrPh then !e.intflag.mb else d == .read || e.inflight == .none)

/-- What the engine and the latches are at the lines that rest on what went before: in `START` after the write of
`ADDR`, `ERROR` is set or the transaction is open; past its STOP command the bus is free; at the transmit wait of
`WRITE`, `ERROR` is set or the byte is in flight or over; past the poll of `READ` the byte is there; at the `STOP` of a
sensor script the bus is held with nothing in flight. -/
def engineFits (q : SeqPos) (s : State) : Bool :=
  match q.line with
  | .start _ d .poll => s.eng.intflag.error || addressed d s.eng
  | .start _ d .status => s.eng.intflag.error || addressed d s.eng && s.eng.inflight != .addrPh
  | .start _ _ (.failStop _) => latchHolds s
  | .start _ _ (.failClear _) =>
    !s.eng.owned && s.eng.inflight == .none && !s.eng.ackPending && !s.eng.intflag.mb && !s.eng.intflag.sb
  | .write _ .wait =>
    s.eng.intflag.error ||
      s.eng.owned && s.eng.dir == .write &&
        (s.eng.inflight == .none || s.eng.inflight == .txPh && !s.eng.intflag.mb)
  | .read _ .readCtrl => s.eng.ackPending
  | .read _ .writeCtrl => s.eng.ackPending && latchHolds s
  | .read again .data => s.eng.ackPending && s.eng.ctrl.ackact == !again
  | .stop .readCtrl => !isSensor q.op || s.eng.owned && s.eng.inflight == .none
  | .stop .writeCtrl => (!isSensor q.op || s.eng.owned && s.eng.inflight == .none) && latchHolds s
  | _ => true

/-- The sequencer stands where it can stand: at a line of its script, in a phase and with an engine in which that line
comes, and in a bounded poll with polls left. -/
def standsWell (q : SeqPos) (s : State) : Bool :=
  inScript q && phaseAt q s.phase && engineFits q s &&
    (!isPollLine q.line || decide (s.work.pollcnt < Config.params.pollBudget))

/-- `busy` says that an operation runs (10_state.md R21, R25), one that stands where it can; and `pollcnt` is at most
`POLL_BUDGET`. -/
abbrev SeqInv (s : State) : Prop :=
  s.busy = s.seq.isSome ∧ (s.seq.all fun q => standsWell q s) = true ∧ s.work.pollcnt ≤ Config.params.pollBudget

/-- The sequencer stands at a line of a `START`, which opens the transaction anew, or at the transmit wait of a `WRITE`,
whose byte may be in flight. -/
def underWay (q : Option SeqPos) : Bool :=
  match q with
  | some { line := .start _ _ _, .. } => true
  | some { line := .write _ .wait, .. } => true
  | _ => false

/-- In DATA_W, but while a `START` or a transmit wait is under way, `ERROR` is set or the bus is held to write with nothing
in flight (40_bus_engine.md R140; log entry 15). -/
abbrev WriteInv (s : State) : Prop :=
  s.phase = .dataW → underWay s.seq = false →
    s.eng.intflag.error = true ∨ (s.eng.owned = true ∧ s.eng.dir = .write ∧ s.eng.inflight = .none)

/-- The invariant of the machine. -/
abbrev Inv (s : State) : Prop := EngineInv s.eng ∧ SbInv s.eng ∧ ModeInv s ∧ SeqInv s ∧ WriteInv s

/-- Every state a run can reach from the hardware reset, whatever the host's inputs and the environment's turns. -/
inductive Reachable : State → Prop where
  | reset (h : List HostInput) (f : Feed) : Reachable ((State.reset.setHost h).setFeed f)
  | step {s t : State} : Reachable s → Sys2Proof.Machine.step s = .next t → Reachable t

/-! ### The wire trace -/

/-- Where a wire trace stands in the grammar of 20_memory.md R88. -/
inductive WirePos where
  /-- Between transactions. -/
  | closed
  /-- After `S` or `Sr`. -/
  | begun
  /-- After the address byte. -/
  | addressed (d : Dir)
  /-- A Write body: after the address's acknowledge bit, or a data byte's. -/
  | writing
  /-- After `TX`. -/
  | sent
  /-- A Read body in which a byte may come: after an acknowledged address, or `MACK`. -/
  | reading
  /-- After `RX`. -/
  | received
  /-- A Read body in which no byte may come: after a refused address, or `MNACK`. -/
  | readDone
  deriving DecidableEq, Repr

/-- The grammar of 20_memory.md R88, one event at a time. An `S` may follow any complete part of a transaction, since
the final `P` is absent when the bus was lost. -/
def wireNext (v : WirePos) (w : Wire) : Option WirePos :=
  match v, w with
  | .closed, .s => some .begun
  | .begun, .address a8 => some (.addressed (addrDir a8))
  | .addressed .write, .sack => some .writing
  | .addressed .write, .snack => some .writing
  | .addressed .read, .sack => some .reading
  | .addressed .read, .snack => some .readDone
  | .addressed _, .p => some .closed
  | .addressed _, .sr => some .begun
  | .addressed _, .s => some .begun
  | .writing, .tx _ => some .sent
  | .writing, .p => some .closed
  | .writing, .sr => some .begun
  | .writing, .s => some .begun
  | .sent, .sack => some .writing
  | .sent, .snack => some .writing
  | .sent, .p => some .closed
  | .sent, .sr => some .begun
  | .sent, .s => some .begun
  | .reading, .rx _ => some .received
  | .reading, .p => some .closed
  | .reading, .sr => some .begun
  | .reading, .s => some .begun
  | .received, .mack => some .reading
  | .received, .mnack => some .readDone
  | .readDone, .p => some .closed
  | .readDone, .sr => some .begun
  | .readDone, .s => some .begun
  | _, _ => none

/-- The position a wire trace leads to, if the grammar takes it. -/
def wireRun (v : WirePos) : List Wire → Option WirePos
  | [] => some v
  | w :: rest =>
    match wireNext v w with
    | some v' => wireRun v' rest
    | none => none

/-- The engine's hidden state agrees with the position of the wire trace. -/
def wireAgrees (e : Engine) (v : WirePos) : Bool :=
  match e.inflight with
  | .addrPh => v == .addressed e.dir
  | .txPh => v == .sent
  | .rxPh => v == .reading
  | .resetPh => v != .begun && v != .received
  | .none =>
    if e.ackPending then v == .received
    else if e.owned then (if e.dir = .write then v == .writing else v == .readDone)
    else v != .begun && v != .received

/-- The wire trace has the shape of 20_memory.md R88, and the engine agrees with it. -/
def WireInv (s : State) : Bool :=
  match wireRun .closed s.wire with
  | some v => wireAgrees s.eng v
  | none => false

/-! ### What operations may do -/

/-- The status codes an operation may end with (60_exceptions.md R253). -/
def mayEndWith (i : Instr) : List Byte :=
  match i with
  | .init => [0x00#8]
  | .start _ _ => [0x00#8, 0xFF#8, 0xFE#8, 0xFC#8]
  | .write _ => [0x00#8, 0xFC#8]
  | .read _ => [0x00#8, 0xFE#8, 0xFC#8]
  | .stop => [0x00#8]
  | .sReset => [0x00#8, 0xFB#8, 0xF9#8]
  | .sReadSn => [0x00#8, 0xFB#8, 0xFA#8, 0xF9#8]
  | .sReadRh => [0x00#8, 0xFB#8, 0xFA#8, 0xF9#8]
  | .sReadT => [0x00#8, 0xFB#8, 0xFA#8, 0xF9#8]
  | .sReadTl => [0x00#8, 0xFB#8, 0xFA#8, 0xF9#8]
  | .convRh _ => [0x00#8]
  | .convT _ => [0x00#8]

/-- The (status, cause) pairs of a failed sensor operation (42_sensor_ops.md R204). -/
def sensorFailures : List (Byte × Byte) :=
  [ (0xFB#8, 0xFF#8), (0xFB#8, 0xFE#8), (0xFB#8, 0xFC#8), (0xFA#8, 0xFE#8), (0xFA#8, 0xFC#8), (0xF9#8, 0xFE#8),
    (0xF9#8, 0xFC#8) ]

/-- The two converter operations. -/
def isConv (i : Instr) : Bool :=
  match i with
  | .init => false
  | .start _ _ => false
  | .write _ => false
  | .read _ => false
  | .stop => false
  | .sReset => false
  | .sReadSn => false
  | .sReadRh => false
  | .sReadT => false
  | .sReadTl => false
  | .convRh _ => true
  | .convT _ => true

/-- An operation that contains an unbounded wait (70_reset_and_hazards.md R300). -/
def mayWait (i : Instr) : Bool :=
  match i with
  | .init => true
  | .start _ _ => false
  | .write _ => true
  | .read _ => false
  | .stop => false
  | .sReset => true
  | .sReadSn => true
  | .sReadRh => true
  | .sReadT => true
  | .sReadTl => true
  | .convRh _ => false
  | .convT _ => false

/-- The access of each line, with the value the spec lists for it (10_state.md R36; 30_encoding.md R113;
41_bus_primitives.md R170 to R187), where the engine is `e`: a read answers the register's value; the STOP command and
the acknowledge update write `CTRL` with `ENABLE` and `MASTER` set and every other field as the spec says. -/
def lineAccess (l : Line) (e : Engine) : Option Access :=
  match l with
  | .init .clkEnable => some (.ext .clkEnable)
  | .init .clkSelect => some (.ext .clkSelect)
  | .init .swrst => some (.wr .ctrl 0x00000001#32)
  | .init .resetWait => some (.rd .ctrl (if e.inflight = .resetPh then 0x00000001#32 else 0x00000000#32))
  | .init .master => some (.wr .ctrl 0x00000004#32)
  | .init .baud => some (.wr .baud Config.baudDiv)
  | .init .enable => some (.set .ctrl 0x00000002#32)
  | .init .pinSda => some (.ext .pinSda)
  | .init .pinScl => some (.ext .pinScl)
  | .start _ _ .check => some (.rd .ctrl (regValue .ctrl e))
  | .start _ _ .flags => some (.rd .intflag (regValue .intflag e))
  | .start _ _ .cleanup => some (.wr .intflag 0x80#32)
  | .start a d .address => some (.wr .addr ((a ++ dirBit d).setWidth 32))
  | .start _ _ .poll => some (.rd .intflag (regValue .intflag e))
  | .start _ _ .status => some (.rd .status (regValue .status e))
  | .start _ _ (.failRead _) => some (.rd .ctrl (regValue .ctrl e))
  | .start _ _ (.failStop _) => some (.wr .ctrl (if e.ctrl.ackact then 0x00070006#32 else 0x00030006#32))
  | .start _ _ (.failClear _) => some (.wr .intflag 0x80#32)
  | .write b .data => some (.wr .data (b.setWidth 32))
  | .write _ .wait => some (.rd .intflag (regValue .intflag e))
  | .read _ .poll => some (.rd .intflag (regValue .intflag e))
  | .read _ .readCtrl => some (.rd .ctrl (regValue .ctrl e))
  | .read again .writeCtrl => some (.wr .ctrl (if again then 0x00000006#32 else 0x00040006#32))
  | .read _ .data => some (.rd .data (regValue .data e))
  | .stop .readCtrl => some (.rd .ctrl (regValue .ctrl e))
  | .stop .writeCtrl => some (.wr .ctrl (if e.ctrl.ackact then 0x00070006#32 else 0x00030006#32))
  | .convert => none

/-- What the engine does within an access (40_bus_engine.md R130, a reaction). -/
def reactionOf (a : Access) (e : Engine) : Except Refusal Reaction :=
  match a with
  | .rd r v =>
    match readReg r e with
    | .ok (v', x) => if v = v' then .ok x else .error .noSuchRegister
    | .error r => .error r
  | .wr r v => writeReg r v e
  | .set r m => setBitsReg r m e
  | .ext _ => .ok { eng := e, wire := [] }

/-- The accesses of a primitive (10_state.md R36), with the values it may write. -/
def primMay (x : Prim) (a : Access) : Bool :=
  match x, a with
  | .init, .rd .ctrl _ => true
  | .init, .wr .ctrl v => v == 0x00000001#32 || v == 0x00000004#32
  | .init, .wr .baud v => v == Config.baudDiv
  | .init, .set .ctrl m => m == 0x00000002#32
  | .init, .ext _ => true
  | .start _ _, .rd .ctrl _ => true
  | .start _ _, .rd .intflag _ => true
  | .start _ _, .rd .status _ => true
  | .start _ _, .wr .intflag v => v == 0x80#32
  | .start addr d, .wr .addr v => v == (addr ++ dirBit d).setWidth 32
  | .start _ _, .wr .ctrl v => v == 0x00030006#32 || v == 0x00070006#32
  | .write b, .wr .data v => v == b.setWidth 32
  | .write _, .rd .intflag _ => true
  | .read _, .rd .intflag _ => true
  | .read _, .rd .ctrl _ => true
  | .read again, .wr .ctrl v => v == (if again then 0x00000006#32 else 0x00040006#32)
  | .read _, .rd .data _ => true
  | .stop, .rd .ctrl _ => true
  | .stop, .wr .ctrl v => v == 0x00030006#32 || v == 0x00070006#32
  | _, _ => false

/-- The accesses of an operation: those of the primitives of its script (30_encoding.md R115). -/
def mayAccess (i : Instr) (a : Access) : Bool := (operationOf i).script.any fun it => primMay it.prim a

/-- An access is a read of `INTFLAG`. -/
def readsIntflag (a : Access) : Bool :=
  match a with
  | .rd .intflag _ => true
  | _ => false

/-! ### The terms of the results -/

/-- The engine is enabled, a master, with nothing in flight, and no operation runs: the host may issue a command and
nothing moves before the command does. -/
abbrev Ready (s : State) : Prop :=
  s.seq = none ∧ s.eng.ctrl.enable = true ∧ s.eng.ctrl.master = true ∧ s.eng.inflight = .none

/-- From `s` an operation has ended in `t`: with the results `r`, the phase `ph` and the engine `e`, after the accesses
`acc` and the wire events `ws`, the turns `f` left; the command word and the host's inputs are as before. (The working
registers have no meaning between operations, 10_state.md R28, so nothing is said of them.) -/
abbrev EndsWith (s t : State) (r : Results) (ph : Phase) (e : Engine) (acc : List Access) (ws : List Wire)
    (f : List Turn) : Prop :=
  t.cmdWord = s.cmdWord ∧ t.host = s.host ∧ t.busy = false ∧ t.seq = none ∧ t.res = r ∧ t.phase = ph ∧ t.eng = e ∧
    t.trace = s.trace ++ acc ∧ t.wire = s.wire ++ ws ∧ t.feed = { s.feed with turns := f }

/-- The results with the status and the cause of an operation's end. -/
def reported (r : Results) (st cause : Byte) : Results := { r with status := st, cause := cause }

/-- The accesses of a `START` up to the write of the address byte (41_bus_primitives.md R173 steps 1 to 3). -/
def startAccesses (a8 : Byte) (e : Engine) : List Access :=
  [.rd .ctrl (ctrlBits e.ctrl), .rd .intflag (intflagBits e.intflag)] ++
    (if e.intflag.error then [.wr .intflag 0x80#32] else []) ++ [.wr .addr (a8.setWidth 32)]

/-- The accesses of a `START`'s failure path (41_bus_primitives.md R177), with `CTRL` reading `c`. -/
def failAccesses (c : Word) : List Access := [.rd .ctrl c, .wr .ctrl (stopWord c), .wr .intflag 0x80#32]

/-- The wire events of the write of an address byte (40_bus_engine.md R133). -/
def startWire (a8 : Byte) (e : Engine) : List Wire := pendingAck e ++ [if e.owned then .sr else .s, .address a8]

/-- The engine after a transaction of the sensor scripts that ended with STOP. -/
def stoppedAfter (e : Engine) (ackact : Bool) (data addr : Byte) (d : Dir) : Engine :=
  { e with
    ctrl := { e.ctrl with ackact := ackact }
    intflag := { mb := false, sb := false, error := false }
    status := statusClear
    data := data
    addr := addr
    owned := false
    dir := d
    inflight := .none
    ackPending := false }

/-- The engine's completions alone, up to `n` of them: `s` after them, the sequencer taking no step (40_bus_engine.md
R130). Two at most follow one another (R136, R145). -/
def engineMeanwhile : Nat → State → State
  | 0, s => s
  | n + 1, s =>
    match engineMove Config.params s with
    | .completed t => engineMeanwhile n t
    | .holds t => t

/-- The engine takes no step at this moment. -/
abbrev EngineHolds (s : State) : Prop := s.eng.inflight = .none ∨ s.feed.turns.head? = some .hold

/-! ### How a step of a sensor script fails -/

/-- The Sensor Error of a failing step of `Xfer`, by the primitive it calls (42_sensor_ops.md R204): the first `START`,
the repeated `START`, any `WRITE` and any `READ`. (No script calls `INIT`, and `STOP` cannot fail.) -/
def sensorErrorOf (x : Prim) : Byte :=
  match x with
  | .start _ .write => 0xFB#8
  | .start _ .read => 0xFA#8
  | .write _ => 0xF9#8
  | .read _ => 0xF9#8
  | .init => 0xF9#8
  | .stop => 0xF9#8

/-- The Bus Error with which a line ends its primitive at its access in the state `s`; `none` where it does not end it so
(41_bus_primitives.md R174, R177, R181, R183, R184). -/
def lineFails (l : Line) (s : State) : Option Byte :=
  match l with
  | .start _ _ .check => if s.eng.ctrl.enable then none else some 0xFF#8
  | .start _ _ (.failClear .timeout) => some 0xFE#8
  | .start _ _ (.failClear .nackOrArbitrationLost) => some 0xFC#8
  | .write _ .wait => if s.eng.intflag.error then some 0xFC#8 else none
  | .read _ .poll =>
    if s.eng.intflag.error then some 0xFC#8
    else if s.eng.intflag.sb then none
    else if s.work.pollcnt + 1 < Config.params.pollBudget then none
    else some 0xFE#8
  | _ => none

/-- The line of the failure path of `START` that follows a line, where its access in the state `s` leads there: a spent
address poll, a bit of `STATUS` set, and along the path itself (41_bus_primitives.md R176, R177, R178). -/
def failingNext (l : Line) (s : State) : Option Line :=
  match l with
  | .start a d .poll =>
    if s.eng.intflag.mb || s.eng.intflag.error then none
    else if s.work.pollcnt + 1 < Config.params.pollBudget then none
    else some (.start a d (.failRead .timeout))
  | .start a d .status =>
    if s.eng.status.buserr || s.eng.status.arblost || s.eng.status.rxnack then
      some (.start a d (.failRead .nackOrArbitrationLost))
    else none
  | .start a d (.failRead e) => some (.start a d (.failStop e))
  | .start a d (.failStop e) => some (.start a d (.failClear e))
  | _ => none

/-- The refusals a step can meet in a state of the invariant: what the host issues out of order (U1 to U5), the write
of `ADDR` with an operation in flight (U9), and the write of `DATA` outside a Write transaction (U10; log entry 15). -/
def foreseen (r : Refusal) : Bool :=
  match r with
  | .reservedWord _ => true
  | .illegalInPhase => true
  | .addrWhileInFlight => true
  | .dataOutsideWrite => true
  | _ => false

end Sys2Proof.Machine
end

