-- ==== Sys2Proof/WellFormed.lean ====
section
/-! DEFINITION. When a command word is well formed (30_encoding.md R109): the opcode is in the map, the zero field is
zero, every operand bit the operation does not use is zero. An `Instr` holds each operand at its own width, so every
`Instr` is well formed; what can be ill formed is the three fields of a word. -/

namespace Sys2Proof

/-- The operand bits the operation of an opcode uses (30_encoding.md R102); `none` for a reserved opcode (R101). -/
def usedOperandBits (opcode : Byte) : Option Half :=
  match opcode.toNat with
  | 0x00 => some 0x0000#16
  | 0x01 => some 0x00FF#16
  | 0x02 => some 0x00FF#16
  | 0x03 => some 0x0001#16
  | 0x04 => some 0x0000#16
  | 0x10 => some 0x0000#16
  | 0x11 => some 0x0000#16
  | 0x12 => some 0x0000#16
  | 0x13 => some 0x0000#16
  | 0x14 => some 0x0000#16
  | 0x20 => some 0xFFFF#16
  | 0x21 => some 0xFFFF#16
  | _ => none

namespace Command

/-- The opcode is one of the twelve. -/
def opcodeKnown (c : Command) : Bool := (usedOperandBits c.opcode).isSome

/-- Bits 23:16 are zero. -/
def zeroFieldClear (c : Command) : Bool := c.zero == 0#8

/-- Every operand bit the operation does not use is zero (true of a reserved opcode, which `opcodeKnown` refuses). -/
def unusedBitsClear (c : Command) : Bool :=
  match usedOperandBits c.opcode with
  | some used => c.operand &&& ~~~used == 0#16
  | none => true

/-- 30_encoding.md R109. -/
def wellFormed (c : Command) : Bool := c.opcodeKnown && c.zeroFieldClear && c.unusedBitsClear

end Command

end Sys2Proof
end

