-- ==== Sys2Proof/Certificates/Slice0/Obligations.lean ====
section
/-! DEFINITION. The statements for the provers. Each docstring names the rule it formalises. -/

open Sys2Proof Sys2Proof.Machine

/-! ### Encoding -/

/-- A few words written out from 30_encoding.md R101, R102 (the vectors V1 to V27), decoded. -/
def Obligations.TabulatedWordsDecode : Prop :=
  decode 0x00000000#32 = .ok .init ∧
  decode 0x01000080#32 = .ok (.start 0x40#7 .write) ∧
  decode 0x010000FF#32 = .ok (.start 0x7F#7 .read) ∧
  decode 0x020000E3#32 = .ok (.write 0xE3#8) ∧
  decode 0x03000001#32 = .ok (.read true) ∧
  decode 0x04000000#32 = .ok .stop ∧
  decode 0x11000000#32 = .ok .sReadSn ∧
  decode 0x20006D4B#32 = .ok (.convRh 0x6D4B#16) ∧
  decode 0x2100FFFF#32 = .ok (.convT 0xFFFF#16) ∧
  decode 0x05000000#32 = .error .unknownOpcode ∧
  decode 0x01000100#32 = .error .unusedOperandBitSet ∧
  decode 0x20016D4B#32 = .error .zeroFieldSet

/-- Decoding an encoded instruction gives it back, with every operand at every value (30_encoding.md R100 to R102). -/
def Obligations.DecodeInvertsEncode : Prop := ∀ i : Instr, decode (encode i) = .ok i

/-- Every word that decodes is the encoding of what it decodes to: no second spelling (30_encoding.md R109, R115). -/
def Obligations.EncodeInvertsDecode : Prop := ∀ (w : Word) (i : Instr), decode w = .ok i → encode i = w

/-- The rows of the opcode table are disjoint, and a word decodes exactly when a row matches it. -/
def Obligations.TableRowsAreTheDecodedWords : Prop :=
  (∀ w : Word, ∀ r ∈ tableRows, ∀ r' ∈ tableRows, w &&& r.1 = r.2 → w &&& r'.1 = r'.2 → r = r') ∧
  ∀ w : Word, (∃ i, decode w = .ok i) ↔ ∃ r ∈ tableRows, w &&& r.1 = r.2

/-- 30_encoding.md R109: a word is well formed when its opcode is in the map, its zero field is zero and its unused
operand bits are zero; every other word is refused, and so is a well-formed word whose operation the phase forbids;
the reserved opcodes are among the ill-formed words. -/
def Obligations.ReservedAndIllegalCommandsAreRefused : Prop :=
  ∀ (s : State) (w : Word) (rest : List HostInput),
    s.busy = false → s.seq = none → s.host = .issue w :: rest →
      (((fieldsOf w).wellFormed = true ↔ ∃ i, decode w = .ok i) ∧
       ((fieldsOf w).wellFormed = false → ∃ e, step s = .refused (.reservedWord e)) ∧
       (∀ i, decode w = .ok i → legalIn i s.phase = false → step s = .refused .illegalInPhase) ∧
       ((0x05 ≤ (fieldsOf w).opcode.toNat ∧ (fieldsOf w).opcode.toNat ≤ 0x0F ∨
         0x15 ≤ (fieldsOf w).opcode.toNat ∧ (fieldsOf w).opcode.toNat ≤ 0x1F ∨
         0x22 ≤ (fieldsOf w).opcode.toNat) → (fieldsOf w).wellFormed = false))

/-! ### A step of the machine -/

/-- The block keeps the moments to itself: the host's next input, if it has one, is a command, which waits while the
block is busy (10_state.md R21). -/
abbrev Sys2Proof.Machine.HostWaits (h : List HostInput) : Prop := h = [] ∨ ∃ w rest, h = .issue w :: rest

/-- The step of an idle block whose host issues a command word takes up the decoded operation: the word stored, `busy`
set, the sequencer at the operation's first line, no access made yet (10_state.md R21, R25); an operation the phase
forbids is refused. And with the host waiting, that step and the steps after it, one access or one completion each,
come to what `exec` says of the decoded instruction: its end, its wait, or its refusal (41_bus_primitives.md R189). -/
def Obligations.StepRunsTheDecodedCommand : Prop :=
  ∀ (s : State) (w : Word) (rest : List HostInput) (i : Instr),
    s.busy = false → s.seq = none → s.host = .issue w :: rest → decode w = .ok i →
      (legalIn i s.phase = false → step s = .refused .illegalInPhase) ∧
      (legalIn i s.phase = true → ∃ t, step s = .next t ∧
        t.seq = some { op := i, item := 0, line := itemLine (operationOf i) 0 } ∧
        t = { s with host := rest, cmdWord := w, busy := true, seq := t.seq
                     work := { s.work with pollcnt := t.work.pollcnt } } ∧
        (isPollLine (itemLine (operationOf i) 0) = true → t.work.pollcnt = 0)) ∧
      (HostWaits rest → ∃ n, Host.Core.run core (n + 1) s = exec i { s with host := rest, cmdWord := w, busy := true })

/-- While an operation runs and the host has no step, the steps that follow come to what `exec` says of the running
operation, wherever it stands; a command the host would issue stays in the host's list (10_state.md R21, R25). -/
def Obligations.StepsGoOnWithTheRunningOperation : Prop :=
  ∀ (s : State) (q : SeqPos), s.busy = true → s.seq = some q → HostWaits s.host →
    (∃ n, Host.Core.run core (n + 1) s = exec q.op s) ∧
    ∀ t, step s = .next t → t.host = s.host ∧ t.cmdWord = s.cmdWord

/-- 00_scope.md R13, 40_bus_engine.md R130, 41_bus_primitives.md R189: a step that is no hardware reset is one step of
one agent. The host issues a command, and nothing else of the block moves. Or the engine completes what it has in
flight, and only the engine, the wire and the turns move. Or the sequencer makes one access, the engine reacting to it,
and the turns alone may move beside what the operation does (the one step of a conversion makes none). Or no agent has a
step, and nothing moves but the host's idling and the turns. -/
def Obligations.OneAgentMovesInAStep : Prop :=
  ∀ s t : State, s.host.head? ≠ some .hwReset → step s = .next t →
    (∃ w rest i, s.host = .issue w :: rest ∧ s.busy = false ∧ decode w = .ok i ∧
      t = { s with host := rest, cmdWord := w, busy := true, seq := t.seq, work := t.work }) ∨
    (∃ o x, complete Config.params o s.eng = some x ∧
      t = { s with host := t.host, feed := t.feed, eng := x.eng, wire := s.wire ++ x.wire }) ∨
    (∃ q a x, s.seq = some q ∧ reactionOf a s.eng = .ok x ∧ t.trace = s.trace ++ [a] ∧ t.eng = x.eng ∧
      t.wire = s.wire ++ x.wire ∧ t.cmdWord = s.cmdWord) ∨
    (∃ q, s.seq = some q ∧ q.line = .convert ∧ t.trace = s.trace ∧ t.eng = s.eng ∧ t.wire = s.wire ∧
      t.cmdWord = s.cmdWord) ∨
    (s.seq = none ∧ t = { s with host := t.host, feed := t.feed })

/-- With no operation running and nothing issued, a step is the engine's alone (40_bus_engine.md R130). -/
def Obligations.StepOfAnIdleBlockMovesOnlyTheEngine : Prop :=
  ∀ s : State, s.seq = none → s.host = [] →
    ∃ t, step s = .next t ∧ t = { s with eng := t.eng, wire := t.wire, feed := t.feed } ∧
      (s.eng.inflight = .none → t = s)

/-- 70_reset_and_hazards.md R290: `hw_reset` puts every register, the hidden state, the phase and the traces at the
reset values from any state, also in the middle of an operation. (Nothing is said of the working registers the rule
calls unspecified.) -/
def Obligations.HardwareResetFromAnyState : Prop :=
  ∀ (s : State) (rest : List HostInput), s.host = .hwReset :: rest →
    ∃ t, step s = .next t ∧
      regValue .ctrl t.eng = 0#32 ∧ regValue .baud t.eng = 0#32 ∧ regValue .intflag t.eng = 0#32 ∧
      regValue .status t.eng = 0#32 ∧ regValue .data t.eng = 0#32 ∧ regValue .addr t.eng = 0#32 ∧
      t.eng.owned = false ∧ t.eng.dir = .write ∧ t.eng.inflight = .none ∧ t.eng.ackPending = false ∧
      t.busy = false ∧ t.cmdWord = 0#32 ∧ (∀ k, hostRead k t = .ok 0#32) ∧ t.seq = none ∧ t.work.pollcnt = 0 ∧
      t.phase = .uninit ∧ t.trace = [] ∧ t.wire = []

/-- 10_state.md R46: the reset table, row by row but for the rows it calls unspecified. -/
def Obligations.ResetStateIsTheTable : Prop :=
  regValue .ctrl State.reset.eng = 0#32 ∧ regValue .baud State.reset.eng = 0#32 ∧
  regValue .intflag State.reset.eng = 0#32 ∧ regValue .status State.reset.eng = 0#32 ∧
  regValue .data State.reset.eng = 0#32 ∧ regValue .addr State.reset.eng = 0#32 ∧
  State.reset.eng.owned = false ∧ State.reset.eng.dir = .write ∧ State.reset.eng.inflight = .none ∧
  State.reset.eng.ackPending = false ∧ State.reset.busy = false ∧ State.reset.cmdWord = 0#32 ∧
  (∀ k, hostRead k State.reset = .ok 0#32) ∧ State.reset.seq = none ∧ State.reset.work.pollcnt = 0 ∧
  State.reset.phase = .uninit ∧ State.reset.trace = [] ∧ State.reset.wire = []

/-- 10_state.md R21, 70_reset_and_hazards.md R308: the host reads results only when the block is not busy. -/
def Obligations.ResultsAreReadOnlyWhenNotBusy : Prop :=
  ∀ (s : State) (k : ResReg),
    (s.busy = true → hostRead k s = .error .resultReadWhileBusy) ∧
    (s.busy = false → hostRead k s = .ok (resultOf s.res k))

/-! ### INIT -/

/-- 41_bus_primitives.md R170: `INIT` in UNINIT, the reset completing before the first read of `CTRL`; elsewhere it is
refused. -/
def Obligations.InitCompletes : Prop :=
  ∀ (s : State), s.seq = none →
    (s.phase ≠ .uninit → exec .init s = .refused .illegalInPhase) ∧
    ∀ (o : EnvOutcome) (rest : List Turn),
      s.phase = .uninit → s.eng.inflight = .none → s.feed.turns = .go o :: rest →
        ∃ t, exec .init s = .next t ∧
          EndsWith s t (reported s.res 0x00#8 0x00#8) .idle
            { ctrl := { enable := true, master := true, ackact := false }
              baud := Config.baudDiv
              intflag := { mb := false, sb := false, error := false }
              status := { buserr := false, arblost := false, rxnack := false }
              data := 0#8, addr := 0#8, owned := false, dir := .write, inflight := .none, ackPending := false }
            [.ext .clkEnable, .ext .clkSelect, .wr .ctrl 0x1#32, .rd .ctrl 0x0#32, .wr .ctrl 0x4#32,
              .wr .baud Config.baudDiv, .set .ctrl 0x2#32, .ext .pinSda, .ext .pinScl]
            [] rest

/-- 41_bus_primitives.md R172, R191: the reset wait of `INIT` reads `CTRL` once a step for as long as the engine holds;
once the engine has had its step, the next read ends the wait, and `INIT` makes its last five accesses, one a step. -/
def Obligations.InitWaitsForTheReset : Prop :=
  ∀ (n : Nat) (s : State) (o : EnvOutcome) (rest : List Turn),
    s.seq = some { op := .init, item := 0, line := .init .resetWait } → s.busy = true → s.host = [] →
    s.eng.inflight = .resetPh → s.feed.turns = List.replicate n .hold ++ .go o :: rest →
      (∃ t, Host.Core.run core n s = .next t ∧ t.busy = true ∧ t.eng = s.eng ∧ t.res = s.res ∧
        t.trace = s.trace ++ List.replicate n (.rd .ctrl 0x1#32)) ∧
      (∃ t, Host.Core.run core (n + 1) s = .next t ∧ t.busy = true ∧ t.eng = engineReset ∧
        t.trace = s.trace ++ List.replicate n (.rd .ctrl 0x1#32)) ∧
      ∃ t, Host.Core.run core (n + 7) s = .next t ∧ t.busy = false ∧ t.seq = none ∧
        t.res = reported s.res 0x00#8 0x00#8 ∧ t.phase = .idle ∧ regValue .ctrl t.eng = 0x6#32 ∧
        t.eng.baud = Config.baudDiv ∧
        t.trace = s.trace ++ List.replicate n (.rd .ctrl 0x1#32) ++
          [.rd .ctrl 0x0#32, .wr .ctrl 0x4#32, .wr .baud Config.baudDiv, .set .ctrl 0x2#32, .ext .pinSda,
            .ext .pinScl]

/-! ### START -/

/-- 41_bus_primitives.md R173, R175, R178: `START` to write, its address acknowledged at once, from any phase: a byte
received and not yet acknowledged is acknowledged first, a held bus shows a repeated start, a stale error is cleared. -/
def Obligations.StartToWriteCompletes : Prop :=
  ∀ (s : State) (a : BitVec 7) (rest : List Turn), Ready s → s.feed.turns = .go .ack :: rest →
    ∃ t, exec (.start a .write) s = .next t ∧
      EndsWith s t (reported s.res 0x00#8 0x00#8) .dataW
        { s.eng with
          intflag := { mb := true, sb := false, error := false }
          status := statusClear
          addr := a ++ 0#1, owned := true, dir := .write, ackPending := false }
        (startAccesses (a ++ 0#1) s.eng ++ [.rd .intflag 0x01#32, .rd .status 0x0#32])
        (startWire (a ++ 0#1) s.eng ++ [.sack]) rest

/-- 41_bus_primitives.md R173, R178, 40_bus_engine.md R137: `START` to read: the first byte is received unasked; it may
come at once, or be in flight still when `START` ends. -/
def Obligations.StartToReadCompletes : Prop :=
  ∀ (s : State) (a : BitVec 7) (v : Byte) (rest : List Turn), Ready s →
    (s.feed.turns = .go .ack :: .go (.byte v) :: rest →
      ∃ t, exec (.start a .read) s = .next t ∧
        EndsWith s t (reported s.res 0x00#8 0x00#8) .dataR
          { s.eng with
            intflag := { mb := true, sb := true, error := false }
            status := statusClear
            data := v, addr := a ++ 1#1, owned := true, dir := .read, ackPending := true }
          (startAccesses (a ++ 1#1) s.eng ++ [.rd .intflag 0x03#32, .rd .status 0x0#32])
          (startWire (a ++ 1#1) s.eng ++ [.sack, .rx v]) rest) ∧
    (s.feed.turns = .go .ack :: .hold :: .hold :: rest →
      ∃ t, exec (.start a .read) s = .next t ∧
        EndsWith s t (reported s.res 0x00#8 0x00#8) .dataR
          { s.eng with
            intflag := { mb := true, sb := false, error := false }
            status := statusClear
            addr := a ++ 1#1, owned := true, dir := .read, inflight := .rxPh, ackPending := false }
          (startAccesses (a ++ 1#1) s.eng ++ [.rd .intflag 0x01#32, .rd .status 0x0#32])
          (startWire (a ++ 1#1) s.eng ++ [.sack]) rest)

/-- 41_bus_primitives.md R174: with `ENABLE` 0 `START` makes one access, a read, and ends with `NotReady`, the phase
unchanged; and in every state of the invariant `NotReady` comes exactly in UNINIT. -/
def Obligations.StartBeforeInitIsNotReady : Prop :=
  (∀ (s : State) (a : BitVec 7) (d : Dir),
    s.seq = none → s.eng.ctrl.enable = false → s.eng.inflight = .none →
      ∃ t, exec (.start a d) s = .next t ∧
        EndsWith s t (reported s.res 0xFF#8 0x00#8) s.phase s.eng [.rd .ctrl (regValue .ctrl s.eng)] []
          s.feed.turns) ∧
  ∀ (s t : State) (a : BitVec 7) (d : Dir), Inv s → s.seq = none → exec (.start a d) s = .next t →
    (t.res.status = 0xFF#8 ↔ s.phase = .uninit)

/-- 41_bus_primitives.md R177 with the property T4: a refused address gives `NackOrArbitrationLost`, STOP is issued,
the flags are left clear, the refusal stays in `STATUS`; `ERR_ON_NACK` changes only the flag value read. -/
def Obligations.RefusedAddressFailsTheStart : Prop :=
  ∀ (s : State) (a : BitVec 7) (d : Dir) (rest : List Turn), Ready s → s.feed.turns = .go .nack :: rest →
    ∃ t, exec (.start a d) s = .next t ∧
      EndsWith s t (reported s.res 0xFC#8 0x00#8) .idle
        { s.eng with
          intflag := { mb := false, sb := false, error := false }
          status := { buserr := false, arblost := false, rxnack := true }
          addr := addrByte a d, owned := false, dir := d, ackPending := false }
        (startAccesses (addrByte a d) s.eng ++
          [.rd .intflag (if Config.errOnNack then 0x81#32 else 0x01#32), .rd .status 0x4#32] ++
          failAccesses (ctrlBits s.eng.ctrl))
        (startWire (addrByte a d) s.eng ++ [.snack, .p]) rest

/-- 41_bus_primitives.md R176, R190: an address phase the environment never completes gives `Timeout` after exactly
`POLL_BUDGET` polls, and the STOP cancels the phase. -/
def Obligations.WithheldAddressTimesOut : Prop :=
  ∀ (s : State) (a : BitVec 7) (d : Dir) (rest : List Turn), Ready s →
    s.feed.turns = List.replicate (Config.params.pollBudget + 2) .hold ++ rest →
    ∃ t, exec (.start a d) s = .next t ∧ t.work.pollcnt = Config.params.pollBudget ∧
      EndsWith s t (reported s.res 0xFE#8 0x00#8) .idle
        { s.eng with
          intflag := { mb := false, sb := false, error := false }
          status := statusClear
          addr := addrByte a d, owned := false, dir := d, ackPending := false }
        (startAccesses (addrByte a d) s.eng ++ List.replicate Config.params.pollBudget (.rd .intflag 0x00#32) ++
          failAccesses (ctrlBits s.eng.ctrl))
        (startWire (addrByte a d) s.eng ++ [.p]) rest

/-- 41_bus_primitives.md R177: whatever the environment does, a `START` that ends with `Timeout` or
`NackOrArbitrationLost` has made the three accesses of its failure path last, and leaves the bus not owned, nothing in
flight, no acknowledge pending, `INTFLAG` zero and the phase IDLE; one that ends with `NotReady` has written nothing. -/
def Obligations.FailedStartReleasesTheBus : Prop :=
  ∀ (s t : State) (a : BitVec 7) (d : Dir), Inv s → s.seq = none → exec (.start a d) s = .next t →
    ((t.res.status = 0xFE#8 ∨ t.res.status = 0xFC#8) →
      t.eng.owned = false ∧ t.eng.inflight = .none ∧ t.eng.ackPending = false ∧ regValue .intflag t.eng = 0#32 ∧
        t.phase = .idle ∧ ∃ pre c, t.trace = s.trace ++ pre ++ failAccesses c) ∧
    (t.res.status = 0xFF#8 → ∃ c, t.trace = s.trace ++ [.rd .ctrl c])

/-! ### WRITE -/

/-- 41_bus_primitives.md R179: `WRITE` in DATA_W on an owned bus, its byte acknowledged at once; in any other phase it
is refused. -/
def Obligations.WriteCompletes : Prop :=
  ∀ (s : State) (b : Byte), s.seq = none →
    (s.phase ≠ .dataW → exec (.write b) s = .refused .illegalInPhase) ∧
    ∀ rest : List Turn,
      s.phase = .dataW → Ready s → s.eng.owned = true → s.eng.dir = .write → s.eng.intflag.error = false →
      s.feed.turns = .go .ack :: rest →
        ∃ t, exec (.write b) s = .next t ∧
          EndsWith s t (reported s.res 0x00#8 0x00#8) .dataW
            { s.eng with
              data := b
              intflag := { s.eng.intflag with mb := true }
              status := { s.eng.status with rxnack := false } }
            [.wr .data (b.setWidth 32), .rd .intflag (if s.eng.intflag.sb then 0x03#32 else 0x01#32)]
            [.tx b, .sack] rest

/-- 41_bus_primitives.md R181: a byte that meets a bus error or lost arbitration fails, with no STOP and no flag
cleared; a refused byte fails exactly when `ERR_ON_NACK`, and passes as sent otherwise, the bus held either way. That
`ack_pending` stays on lost arbitration is the model's choice (log entry 23); in states of R155 (d) it is clear before. -/
def Obligations.WriteReportsOnlyTheErrorFlag : Prop :=
  ∀ (s : State) (b : Byte) (rest : List Turn),
    s.phase = .dataW → Ready s → s.eng.owned = true → s.eng.dir = .write →
    s.eng.intflag = { mb := true, sb := false, error := false } →
    (s.feed.turns = .go .buserr :: rest →
      ∃ t, exec (.write b) s = .next t ∧
        EndsWith s t (reported s.res 0xFC#8 0x00#8) .idle
          { s.eng with
            data := b
            intflag := { mb := false, sb := false, error := true }
            status := { s.eng.status with buserr := true }
            owned := false, ackPending := false }
          [.wr .data (b.setWidth 32), .rd .intflag 0x80#32] [.tx b] rest) ∧
    (s.feed.turns = .go .arblost :: rest →
      ∃ t, exec (.write b) s = .next t ∧
        EndsWith s t (reported s.res 0xFC#8 0x00#8) .idle
          { s.eng with
            data := b
            intflag := { mb := false, sb := false, error := true }
            status := { s.eng.status with arblost := true }
            owned := false }
          [.wr .data (b.setWidth 32), .rd .intflag 0x80#32] [.tx b] rest) ∧
    (s.feed.turns = .go .nack :: rest →
      ∃ t, exec (.write b) s = .next t ∧
        EndsWith s t (reported s.res (if Config.errOnNack then 0xFC#8 else 0x00#8) 0x00#8)
          (if Config.errOnNack then .idle else .dataW)
          { s.eng with
            data := b
            intflag := { mb := true, sb := false, error := Config.errOnNack }
            status := { s.eng.status with rxnack := true } }
          [.wr .data (b.setWidth 32), .rd .intflag (if Config.errOnNack then 0x81#32 else 0x01#32)]
          [.tx b, .snack] rest)

/-- 41_bus_primitives.md R180, R191, 70_reset_and_hazards.md R300: the transmit wait has no bound: it reads `INTFLAG`
once a step for as long as the environment withholds, busy all the while, and ends at the first read after the engine's
step in which the byte is acknowledged. -/
def Obligations.WriteWaitsWithoutBound : Prop :=
  ∀ (n : Nat) (s : State) (b : Byte) (rest : List Turn),
    s.seq = some { op := .write b, item := 0, line := .write b .wait } → s.busy = true → s.host = [] →
    s.eng.inflight = .txPh → s.eng.intflag = { mb := false, sb := false, error := false } →
    s.feed.turns = List.replicate n .hold ++ .go .ack :: rest →
      (∃ t, Host.Core.run core n s = .next t ∧ t.busy = true ∧ t.eng = s.eng ∧ t.res = s.res ∧ t.phase = s.phase ∧
        t.trace = s.trace ++ List.replicate n (.rd .intflag 0x00#32)) ∧
      ∃ t, Host.Core.run core (n + 2) s = .next t ∧ t.busy = false ∧ t.seq = none ∧
        t.res = reported s.res 0x00#8 0x00#8 ∧ t.phase = s.phase ∧ t.wire = s.wire ++ [.sack] ∧
        t.trace = s.trace ++ List.replicate n (.rd .intflag 0x00#32) ++ [.rd .intflag 0x01#32]

/-! ### READ -/

/-- 41_bus_primitives.md R182, R185, 40_bus_engine.md R146: `READ` with the byte waiting: the acknowledge setting is
stored first and the byte read second; `READ NACK` ends the reception; `READ ACK` ends with the next reception in
flight, and the engine's step that ends it, when the environment gives its byte, is a step of its own after the
operation's end; in any other phase `READ` is refused. -/
def Obligations.ReadCompletes : Prop :=
  ∀ (s : State) (again : Bool), s.seq = none →
    (s.phase ≠ .dataR → exec (.read again) s = .refused .illegalInPhase) ∧
    (s.phase = .dataR → Ready s → s.eng.intflag.sb = true → s.eng.intflag.error = false → s.eng.ackPending = true →
      ∃ t, exec (.read again) s = .next t ∧
        (again = false →
          EndsWith s t { reported s.res 0x00#8 0x00#8 with byte := s.eng.data } .dataR
            { s.eng with
              ctrl := { s.eng.ctrl with ackact := true }
              intflag := { s.eng.intflag with sb := false }
              ackPending := false }
            [.rd .intflag (intflagBits s.eng.intflag), .rd .ctrl (ctrlBits s.eng.ctrl), .wr .ctrl 0x00040006#32,
              .rd .data (s.eng.data.setWidth 32)]
            [.mnack] s.feed.turns) ∧
        (again = true →
          EndsWith s t { reported s.res 0x00#8 0x00#8 with byte := s.eng.data } .dataR
            { s.eng with
              ctrl := { s.eng.ctrl with ackact := false }
              intflag := { s.eng.intflag with sb := false }
              inflight := .rxPh, ackPending := false }
            [.rd .intflag (intflagBits s.eng.intflag), .rd .ctrl (ctrlBits s.eng.ctrl), .wr .ctrl 0x00000006#32,
              .rd .data (s.eng.data.setWidth 32)]
            [.mack] s.feed.turns ∧
          ∀ (v : Byte) (rest : List Turn), s.host = [] → s.feed.turns = .go (.byte v) :: rest →
            step t =
              .next { t with
                eng := { t.eng with
                  data := v, intflag := { t.eng.intflag with sb := true }, inflight := .none, ackPending := true }
                wire := t.wire ++ [.rx v]
                feed := { t.feed with turns := rest } }))

/-- 41_bus_primitives.md R183, R186 b, 70_reset_and_hazards.md R302: a byte the environment withholds, or one no longer
asked for, gives `Timeout` after exactly `POLL_BUDGET` polls; `CTRL` is not written, `DATA` is not read, and a
reception in flight stays in flight. -/
def Obligations.WithheldByteTimesOut : Prop :=
  ∀ (s : State) (again : Bool), s.seq = none → s.phase = .dataR → s.eng.intflag.sb = false →
    s.eng.intflag.error = false →
    (∀ rest : List Turn, s.eng.inflight = .rxPh →
      s.feed.turns = List.replicate Config.params.pollBudget .hold ++ rest →
      ∃ t, exec (.read again) s = .next t ∧
        EndsWith s t (reported s.res 0xFE#8 0x00#8) .idle s.eng
          (List.replicate Config.params.pollBudget (.rd .intflag (intflagBits s.eng.intflag))) [] rest) ∧
    (s.eng.inflight = .none →
      ∃ t, exec (.read again) s = .next t ∧
        EndsWith s t (reported s.res 0xFE#8 0x00#8) .idle s.eng
          (List.replicate Config.params.pollBudget (.rd .intflag (intflagBits s.eng.intflag))) [] s.feed.turns)

/-- 41_bus_primitives.md R184: the error bit of the flag value that ended the poll decides, also when `SB` is set with
it; `STATUS` is not read, no STOP is sent, no flag is cleared. -/
def Obligations.ReadReportsTheErrorFlag : Prop :=
  ∀ (s : State) (again : Bool), Ready s → s.phase = .dataR → s.eng.intflag.error = true →
    ∃ t, exec (.read again) s = .next t ∧
      EndsWith s t (reported s.res 0xFC#8 0x00#8) .idle s.eng [.rd .intflag (intflagBits s.eng.intflag)] []
        s.feed.turns

/-! ### STOP -/

/-- 41_bus_primitives.md R187, R188, 40_bus_engine.md R149: `STOP` in every phase but UNINIT: two accesses, the value
written the value read with `CMD` set; a pending acknowledge goes out, `P` follows where the bus is owned, `MB` and `SB`
fall, `ERROR` and `STATUS` stay; an operation in flight is cancelled. -/
def Obligations.StopCompletes : Prop :=
  ∀ (s : State), s.seq = none →
    (s.phase = .uninit → exec .stop s = .refused .illegalInPhase) ∧
    (s.phase ≠ .uninit → s.eng.ctrl.enable = true → s.eng.ctrl.master = true → s.eng.inflight ≠ .resetPh →
      ∀ rest : List Turn,
        (s.eng.inflight = .none ∧ s.feed.turns = rest ∨
          s.eng.inflight ≠ .none ∧ s.feed.turns = .hold :: .hold :: rest) →
        ∃ t, exec .stop s = .next t ∧
          EndsWith s t (reported s.res 0x00#8 0x00#8) .idle
            { s.eng with
              intflag := { s.eng.intflag with mb := false, sb := false }
              owned := false, inflight := .none, ackPending := false }
            [.rd .ctrl (ctrlBits s.eng.ctrl), .wr .ctrl (ctrlBits s.eng.ctrl ||| 0x00030000#32)]
            ((if s.eng.ackPending then [if s.eng.ctrl.ackact then .mnack else .mack] else []) ++
              (if s.eng.owned then [.p] else []))
            rest)

/-! ### The sensor operations -/

/-- 42_sensor_ops.md R206: `S_RESET` with every phase acknowledged. -/
def Obligations.SensorResetCompletes : Prop :=
  ∀ (s : State) (rest : List Turn), Ready s → s.feed.turns = .go .ack :: .go .ack :: rest →
    ∃ t, exec .sReset s = .next t ∧
      EndsWith s t (reported s.res 0x00#8 0x00#8) .idle (stoppedAfter s.eng s.eng.ctrl.ackact 0xFE#8 0x80#8 .write)
        (startAccesses 0x80#8 s.eng ++
          [.rd .intflag 0x01#32, .rd .status 0x0#32, .wr .data 0xFE#32, .rd .intflag 0x01#32,
            .rd .ctrl (ctrlBits s.eng.ctrl), .wr .ctrl (stopWord (ctrlBits s.eng.ctrl))])
        (startWire 0x80#8 s.eng ++ [.sack, .tx 0xFE#8, .sack, .p]) rest

/-- A measurement with the command byte `c` and the conversion `conv`, every phase acknowledged and the sensor
answering `h` then `l` (42_sensor_ops.md R209). -/
def Sys2Proof.Machine.measurementCompletes (i : Instr) (c : Byte) (conv : Half → Word) : Prop :=
  ∀ (s : State) (h l : Byte) (rest : List Turn), Ready s →
    s.feed.turns = .go .ack :: .go .ack :: .go .ack :: .go (.byte h) :: .go (.byte l) :: rest →
    ∃ t, exec i s = .next t ∧
      EndsWith s t { reported s.res 0x00#8 0x00#8 with raw := h ++ l, value := conv (h ++ l) } .idle
        (stoppedAfter s.eng true l 0x81#8 .read)
        (startAccesses 0x80#8 s.eng ++
          [.rd .intflag 0x01#32, .rd .status 0x0#32, .wr .data (c.setWidth 32), .rd .intflag 0x01#32,
            .rd .ctrl (ctrlBits s.eng.ctrl), .rd .intflag 0x01#32, .wr .addr 0x81#32, .rd .intflag 0x03#32,
            .rd .status 0x0#32, .rd .intflag 0x03#32, .rd .ctrl (ctrlBits s.eng.ctrl), .wr .ctrl 0x00000006#32,
            .rd .data (h.setWidth 32), .rd .intflag 0x03#32, .rd .ctrl 0x00000006#32, .wr .ctrl 0x00040006#32,
            .rd .data (l.setWidth 32), .rd .ctrl 0x00040006#32, .wr .ctrl 0x00070006#32])
        (startWire 0x80#8 s.eng ++
          [.sack, .tx c, .sack, .sr, .address 0x81#8, .sack, .rx h, .mack, .rx l, .mnack, .p])
        rest

/-- 42_sensor_ops.md R209 to R212: the three measurement operations, with their command bytes and conversions. -/
def Obligations.MeasurementsComplete : Prop :=
  measurementCompletes .sReadRh 0xE5#8 convRh ∧ measurementCompletes .sReadT 0xE3#8 convT ∧
    measurementCompletes .sReadTl 0xE0#8 convT

/-- 42_sensor_ops.md R207, R208: the serial-number read keeps the bytes of indices 0, 2, 4, 6 of part A and 0, 1, 3, 4
of part B, whatever the fourteen bytes; each part is a transaction of its own. -/
def Obligations.SerialNumberReadCompletes : Prop :=
  ∀ (s : State) (a0 a1 a2 a3 a4 a5 a6 a7 b0 b1 b2 b3 b4 b5 : Byte) (rest : List Turn), Ready s →
    s.feed.turns =
      [.go .ack, .go .ack, .go .ack, .go .ack, .go (.byte a0), .go (.byte a1), .go (.byte a2), .go (.byte a3),
        .go (.byte a4), .go (.byte a5), .go (.byte a6), .go (.byte a7), .go .ack, .go .ack, .go .ack, .go .ack,
        .go (.byte b0), .go (.byte b1), .go (.byte b2), .go (.byte b3), .go (.byte b4), .go (.byte b5)] ++ rest →
    ∃ t, exec .sReadSn s = .next t ∧ t.cmdWord = s.cmdWord ∧ t.host = s.host ∧ t.busy = false ∧ t.seq = none ∧
      t.res =
        { reported s.res 0x00#8 0x00#8 with
          sn := { b0 := a0, b1 := a2, b2 := a4, b3 := a6, b4 := b0, b5 := b1, b6 := b3, b7 := b4 } } ∧
      t.phase = .idle ∧ t.eng = stoppedAfter s.eng true b5 0x81#8 .read ∧ t.feed = { s.feed with turns := rest } ∧
      t.wire = s.wire ++ startWire 0x80#8 s.eng ++
        [.sack, .tx 0xFA#8, .sack, .tx 0x0F#8, .sack, .sr, .address 0x81#8, .sack, .rx a0, .mack, .rx a1, .mack,
          .rx a2, .mack, .rx a3, .mack, .rx a4, .mack, .rx a5, .mack, .rx a6, .mack, .rx a7, .mnack, .p,
          .s, .address 0x80#8, .sack, .tx 0xFC#8, .sack, .tx 0xC9#8, .sack, .sr, .address 0x81#8, .sack, .rx b0, .mack,
          .rx b1, .mack, .rx b2, .mack, .rx b3, .mack, .rx b4, .mack, .rx b5, .mnack, .p]

/-- 70_reset_and_hazards.md R293, 42_sensor_ops.md R204: before `INIT` every sensor operation fails with `StartFailed`,
cause `NotReady`, after one read, and changes nothing but the result. -/
def Obligations.SensorOperationsBeforeInitFail : Prop :=
  ∀ (s : State) (i : Instr), isSensor i = true → s.seq = none → s.eng.ctrl.enable = false → s.eng.inflight = .none →
    ∃ t, exec i s = .next t ∧
      EndsWith s t (reported s.res 0xFB#8 0xFF#8) s.phase s.eng [.rd .ctrl (regValue .ctrl s.eng)] [] s.feed.turns

/-- 42_sensor_ops.md R202, R204: the step of the script at which a sensor operation fails, whichever item of whichever
script it is. Where the sequencer's line fails with the Bus Error `c`, the operation ends in that step, with the Sensor
Error of the item's primitive, the cause `c`, and no other result changed; a step in which a sensor operation ends with a
failure is such a step; and where `START` enters its failure path, or is in it, the operation goes on along it with no
result changed, to the line that fails. -/
def Sys2Proof.Machine.failingStepsEnd : Prop :=
  ∀ (s : State) (q : SeqPos) (it : Item), isSensor q.op = true → Inv s → s.seq = some q →
    (operationOf q.op).script[q.item]? = some it →
    (∀ c : Byte, HostWaits s.host → EngineHolds s → lineFails q.line s = some c →
      ∃ t, step s = .next t ∧ t.busy = false ∧ t.res = reported s.res (sensorErrorOf it.prim) c) ∧
    (∀ t : State, s.host.head? ≠ some .hwReset → step s = .next t → t.busy = false → t.res.status ≠ 0x00#8 →
      ∃ c, lineFails q.line s = some c ∧ t.res = reported s.res (sensorErrorOf it.prim) c) ∧
    (∀ l : Line, HostWaits s.host → EngineHolds s → failingNext q.line s = some l →
      ∃ t, step s = .next t ∧ t.seq = some { q with line := l } ∧ t.busy = true ∧ t.res = s.res)

/-- 42_sensor_ops.md R204: the failing step names the Sensor Error, and the cause is the Bus Error behind it: at every item
of every script, step by step (`failingStepsEnd`); and, from a ready state to the operation's end: the first
address refused (every sensor operation); the command byte met lost arbitration (every sensor operation); the read
address refused, and the first byte met a bus error (the three measurements). -/
def Obligations.FailingStepNamesTheSensorError : Prop :=
  failingStepsEnd ∧
  ∀ (s : State) (i : Instr) (rest : List Turn), isSensor i = true → Ready s →
    (s.feed.turns = .go .nack :: rest →
      ∃ t, exec i s = .next t ∧ t.busy = false ∧ t.res = reported s.res 0xFB#8 0xFC#8 ∧ t.eng.owned = false ∧
        t.wire = s.wire ++ startWire 0x80#8 s.eng ++ [.snack, .p]) ∧
    (s.feed.turns = .go .ack :: .go .arblost :: rest →
      ∃ t, exec i s = .next t ∧ t.busy = false ∧ t.res = reported s.res 0xF9#8 0xFC#8 ∧ t.eng.intflag.error = true ∧
        ∃ c, t.wire = s.wire ++ startWire 0x80#8 s.eng ++ [.sack, .tx c]) ∧
    (i = .sReadRh ∨ i = .sReadT ∨ i = .sReadTl →
      (s.feed.turns = .go .ack :: .go .ack :: .go .nack :: rest →
        ∃ t c, exec i s = .next t ∧ t.busy = false ∧ t.res = reported s.res 0xFA#8 0xFC#8 ∧ t.eng.owned = false ∧
          t.wire = s.wire ++ startWire 0x80#8 s.eng ++ [.sack, .tx c, .sack, .sr, .address 0x81#8, .snack, .p]) ∧
      (s.feed.turns = .go .ack :: .go .ack :: .go .ack :: .hold :: .hold :: .go .buserr :: rest →
        ∃ t c, exec i s = .next t ∧ t.busy = false ∧ t.res = reported s.res 0xF9#8 0xFC#8 ∧
          t.eng.intflag.error = true ∧
          t.wire = s.wire ++ startWire 0x80#8 s.eng ++ [.sack, .tx c, .sack, .sr, .address 0x81#8, .sack]))

/-- 42_sensor_ops.md R205, R213 (a) and (b): whatever the environment does, a sensor operation that ends leaves the
phase IDLE (UNINIT when it failed with cause `NotReady`); after OK the last wire event is `P`; after OK, `StartFailed`
or `RepeatedStartFailed` (but for `NotReady`) the bus is not owned, nothing is in flight, no acknowledge is pending and
`MB` and `SB` are clear, and after the two failures `INTFLAG` is zero. -/
def Obligations.BusIsFreeAfterAnOrderlySensorOperation : Prop :=
  ∀ (s t : State) (i : Instr), isSensor i = true → Inv s → exec i s = .next t → t.busy = false →
    (t.phase = (if t.res.cause = 0xFF#8 then .uninit else .idle)) ∧
    (t.res.status = 0x00#8 → t.wire.getLast? = some .p) ∧
    ((t.res.status = 0x00#8 ∨ t.res.status = 0xFB#8 ∧ t.res.cause ≠ 0xFF#8 ∨ t.res.status = 0xFA#8) →
      t.eng.owned = false ∧ t.eng.inflight = .none ∧ t.eng.ackPending = false ∧ t.eng.intflag.mb = false ∧
        t.eng.intflag.sb = false) ∧
    ((t.res.status = 0xFB#8 ∧ t.res.cause ≠ 0xFF#8 ∨ t.res.status = 0xFA#8) → regValue .intflag t.eng = 0#32)

/-- 30_encoding.md R115: `S_RESET` leaves the same engine, traces, phase, results and turns as its three primitives
issued one by one, all of them ending OK. -/
def Obligations.SensorResetIsItsPrimitives : Prop :=
  ∀ s s1 s2 s3 : State, s.seq = none → Inv s →
    exec (.start 0x40#7 .write) s = .next s1 → s1.res.status = 0x00#8 →
    exec (.write 0xFE#8) s1 = .next s2 → s2.busy = false → s2.res.status = 0x00#8 →
    exec .stop s2 = .next s3 →
      ∃ t, exec .sReset s = .next t ∧ t.eng = s3.eng ∧ t.trace = s3.trace ∧ t.wire = s3.wire ∧ t.phase = s3.phase ∧
        t.feed = s3.feed ∧ t.res = s3.res ∧ t.busy = false

/-! ### The converter -/

/-- 43_converter.md R231, R232: `CONV_RH` and `CONV_T` in every phase: the code and its converted value, and nothing of
the engine, the phase or the access trace changed by the operation: the engine, the wire trace and the turns are those
that the engine's own completions alone leave, of which two at most precede the operation's one step (with nothing in
flight, or the engine holding, there are none); the value read as two's complement is the quotient less the offset; and
the command words. -/
def Obligations.ConversionsComplete : Prop :=
  ∀ (s : State) (code : Half), s.seq = none →
    encode (.convRh code) = 0x20000000#32 ||| code.setWidth 32 ∧
    encode (.convT code) = 0x21000000#32 ||| code.setWidth 32 ∧
    (convRh code).toInt = (12500 * (code.toNat : Int)) / 65536 - 600 ∧
    (convT code).toInt = (17572 * (code.toNat : Int)) / 65536 - 4685 ∧
    (∃ e ws f,
      exec (.convRh code) s =
        .next { s with
          busy := false
          res := { reported s.res 0x00#8 0x00#8 with raw := code, value := convRh code }
          eng := e, wire := s.wire ++ ws, feed := f } ∧
      engineMeanwhile 2 s = { s with eng := e, wire := s.wire ++ ws, feed := f } ∧
      (s.eng.inflight = .none → e = s.eng ∧ ws = [] ∧ f = s.feed) ∧
      (s.feed.turns.head? = some .hold → e = s.eng ∧ ws = [])) ∧
    ∃ e ws f,
      exec (.convT code) s =
        .next { s with
          busy := false
          res := { reported s.res 0x00#8 0x00#8 with raw := code, value := convT code }
          eng := e, wire := s.wire ++ ws, feed := f } ∧
      engineMeanwhile 2 s = { s with eng := e, wire := s.wire ++ ws, feed := f } ∧
      (s.eng.inflight = .none → e = s.eng ∧ ws = [] ∧ f = s.feed) ∧
      (s.feed.turns.head? = some .hold → e = s.eng ∧ ws = [])

/-- 43_converter.md R237: consecutive codes convert to values that differ by 0 or 1, upwards; with its example. -/
def Obligations.ConversionsAreMonotone : Prop :=
  (∀ (c d : Half), d.toNat = c.toNat + 1 →
    ((convRh d).toInt = (convRh c).toInt ∨ (convRh d).toInt = (convRh c).toInt + 1) ∧
    ((convT d).toInt = (convT c).toInt ∨ (convT d).toInt = (convT c).toInt + 1)) ∧
  (convT 0#16).toInt = -4685 ∧ (convT 3#16).toInt = -4685 ∧ (convT 4#16).toInt = -4684

/-- 43_converter.md R236: the ranges, the codes at which zero is first reached, and no clamping at the ends. -/
def Obligations.ConversionRanges : Prop :=
  (∀ c : Half, -600 ≤ (convRh c).toInt ∧ (convRh c).toInt ≤ 11899 ∧ (0 ≤ (convRh c).toInt ↔ 3146 ≤ c.toNat)) ∧
  (∀ c : Half, -4685 ≤ (convT c).toInt ∧ (convT c).toInt ≤ 12886 ∧ (0 ≤ (convT c).toInt ↔ 17474 ≤ c.toNat)) ∧
  convRh 0x0000#16 = 0xFFFFFDA8#32 ∧ convRh 0xFFFF#16 = 0x00002E7B#32 ∧ convRh 0x0C4A#16 = 0#32 ∧
  convT 0x0000#16 = 0xFFFFEDB3#32 ∧ convT 0xFFFF#16 = 0x00003256#32 ∧ convT 0x4442#16 = 0#32

/-! ### The engine's registers -/

/-- 40_bus_engine.md R132, R151, R152, 10_state.md R30: after a write of `CTRL` that does not trigger a reset, `CTRL`
reads as the written `ENABLE`, `MASTER` and `ACKACT` and nothing else; after one that does, it reads 1 until the reset
completes, and the completion asks the environment nothing and leaves every engine register and hidden bit zero. -/
def Obligations.CtrlReadsBackItsFields : Prop :=
  ∀ (p : Params) (e : Engine) (v : Word) (x : Reaction), writeReg .ctrl v e = .ok x →
    (v.getLsbD 0 = false → regValue .ctrl x.eng = v &&& 0x00040006#32) ∧
    (v.getLsbD 0 = true →
      regValue .ctrl x.eng = 0x00000001#32 ∧ x.wire = [] ∧ x.eng.inflight = .resetPh ∧
        ∀ o, complete p o x.eng = some { eng := engineReset, wire := [] }) ∧
    regValue .ctrl engineReset = 0#32

/-- 40_bus_engine.md R150: a write of `INTFLAG` clears the flags written 1, ignores the reserved bits, and changes
nothing else: no acknowledge, no wire event; and `0x80` is the only value an operation writes to it. -/
def Obligations.IntflagWriteClearsWhatIsWritten : Prop :=
  (∀ (e : Engine) (v : Word) (x : Reaction), writeReg .intflag v e = .ok x →
    regValue .intflag x.eng = regValue .intflag e &&& ~~~(v &&& 0x83#32) ∧
      x.eng = { e with intflag := x.eng.intflag } ∧ x.wire = []) ∧
  ∀ (i : Instr) (s t : State), exec i s = .next t →
    ∃ new, t.trace = s.trace ++ new ∧ ∀ v, .wr .intflag v ∈ new → v = 0x80#32

/-- 40_bus_engine.md R146: a read of `DATA` answers the byte as it stood; with an acknowledge pending it sends `MACK`
or `MNACK` as `ACKACT` says, clears `SB`, and on ACK starts the next reception; with none pending it does nothing. And
20_memory.md R76: a read of any other register answers its value and changes nothing. -/
def Obligations.OnlyReadingDataHasAnEffect : Prop :=
  ∀ (r : Reg) (e : Engine) (v : Word) (x : Reaction), readReg r e = .ok (v, x) →
    v = regValue r e ∧
    (r ≠ .data ∨ e.ackPending = false → x = { eng := e, wire := [] }) ∧
    (r = .data → e.ackPending = true → e.ctrl.ackact = false →
      x.wire = [.mack] ∧ x.eng = { e with ackPending := false, intflag := { e.intflag with sb := false },
                                          inflight := .rxPh }) ∧
    (r = .data → e.ackPending = true → e.ctrl.ackact = true →
      x.wire = [.mnack] ∧ x.eng = { e with ackPending := false, intflag := { e.intflag with sb := false } })

/-- 20_memory.md R74, with the offsets, names and widths of 10_state.md R36: each of the six registers is reached at its
own offset and width, by a read, a write and the set-bits access, and an access at another offset or of another width is
refused. -/
def Obligations.ForeignAccessesAreRefused : Prop :=
  (regAt 0x00 4 = some .ctrl ∧ regAt 0x04 4 = some .baud ∧ regAt 0x08 1 = some .intflag ∧ regAt 0x0C 2 = some .status ∧
    regAt 0x10 1 = some .data ∧ regAt 0x14 1 = some .addr) ∧
  ∀ (off n : Nat) (v : Word) (e : Engine),
    (regAt off n = none ↔ (off, n) ∉ [(0x00, 4), (0x04, 4), (0x08, 1), (0x0C, 2), (0x10, 1), (0x14, 1)]) ∧
    (regAt off n = none →
      memRead off n e = .error .noSuchRegister ∧ memWrite off n v e = .error .noSuchRegister ∧
        memSetBits off n v e = .error .noSuchRegister) ∧
    (∀ r, regAt off n = some r →
      memRead off n e = readReg r e ∧ memWrite off n v e = writeReg r v e ∧ memSetBits off n v e = setBitsReg r v e)

/-- 40_bus_engine.md R148: the flags each completion of a bus phase raises, and that `ERROR` is never raised without a
bit of `STATUS`. -/
def Obligations.CompletionFlags : Prop :=
  ∀ (p : Params) (o : EnvOutcome) (e : Engine) (x : Reaction), complete p o e = some x → e.inflight ≠ .resetPh →
    (o = .ack → x.eng.intflag = { e.intflag with mb := true } ∧
      x.eng.status = { e.status with rxnack := false } ∧ x.eng.owned = e.owned ∧ x.wire = [.sack]) ∧
    (o = .nack → x.eng.intflag = { e.intflag with mb := true, error := e.intflag.error || p.errOnNack } ∧
      x.eng.status = { e.status with rxnack := true } ∧ x.eng.owned = e.owned ∧ x.wire = [.snack]) ∧
    (∀ v, o = .byte v → x.eng.intflag = { e.intflag with sb := true } ∧ x.eng.status = e.status ∧
      x.eng.owned = e.owned ∧ x.eng.data = v ∧ x.wire = [.rx v]) ∧
    (o = .buserr → x.eng.intflag = { e.intflag with error := true } ∧ x.eng.status = { e.status with buserr := true } ∧
      x.eng.owned = false ∧ x.eng.inflight = .none ∧ x.eng.ackPending = false ∧ x.wire = []) ∧
    (o = .arblost → x.eng.intflag = { e.intflag with error := true } ∧
      x.eng.status = { e.status with arblost := true } ∧ x.eng.owned = false ∧ x.eng.inflight = .none ∧
      x.wire = []) ∧
    (e.intflag.error = false → x.eng.intflag.error = true →
      x.eng.status.buserr = true ∨ x.eng.status.arblost = true ∨ (x.eng.status.rxnack = true ∧ p.errOnNack = true))

/-! ### The whole machine -/

/-- The state after a hardware reset meets the invariants, whatever the host's inputs and the engine's turns. -/
def Obligations.ResetMeetsTheInvariants : Prop :=
  ∀ (h : List HostInput) (f : Feed),
    Inv ((State.reset.setHost h).setFeed f) ∧ WireInv ((State.reset.setHost h).setFeed f) = true

/-- Every step keeps the invariant of the machine: the engine's invariants (40_bus_engine.md R155 a to d), the link of
phase, mode and `INIT`'s progress (41_bus_primitives.md R170, R174), the sequencer's position with what its line rests
on (10_state.md R21, R25), the poll count's bound (R190), and what `DATA_W` says of the engine (40_bus_engine.md
R140). -/
def Obligations.StepKeepsTheInvariant : Prop := ∀ s t : State, Inv s → step s = .next t → Inv t

/-- 20_memory.md R88: every step keeps the shape of the wire trace, and the engine in agreement with it. -/
def Obligations.StepKeepsTheWireShape : Prop :=
  ∀ s t : State, Inv s → WireInv s = true → step s = .next t → WireInv t = true

/-- The flags of 40_bus_engine.md R155 (f) and (g) do not fall from the engine `e` to the engine `e'`, unless the write
`w` lets them: `ERROR` a write of `INTFLAG` with bit 7 set, `BUSERR` and `ARBLOST` a write of `ADDR`. -/
def Sys2Proof.Machine.flagsStand (e e' : Engine) (w : Option (Reg × Word)) : Prop :=
  (e.intflag.error = true → e'.intflag.error = true ∨ ∃ v : Word, w = some (.intflag, v) ∧ v.getLsbD 7 = true) ∧
  (e.status.buserr = true → e'.status.buserr = true ∨ ∃ v : Word, w = some (.addr, v)) ∧
  (e.status.arblost = true → e'.status.arblost = true ∨ ∃ v : Word, w = some (.addr, v))

/-- 40_bus_engine.md R155: (a) to (e) hold of every state a run reaches; (f) and (g) of every reaction to an access and
every completion but a reset's, and so of every step that is no hardware reset: `ERROR` falls only with a write of
`INTFLAG` that has bit 7 set or with a software reset, and the bus error and lost arbitration bits fall only with a
write of `ADDR` or a software reset. -/
def Obligations.EngineInvariantsHoldInEveryRun : Prop :=
  (∀ (p : Params) (o : EnvOutcome) (e : Engine) (x : Reaction), complete p o e = some x → e.inflight ≠ .resetPh →
    flagsStand e x.eng none) ∧
  (∀ (r : Reg) (e : Engine) (v : Word) (x : Reaction), readReg r e = .ok (v, x) → flagsStand e x.eng none) ∧
  (∀ (r : Reg) (e : Engine) (v : Word) (x : Reaction), writeReg r v e = .ok x → flagsStand e x.eng (some (r, v))) ∧
  ∀ s : State, Reachable s →
    EngineInv s.eng ∧
    ((regValue .ctrl s.eng &&& 0x00030000#32 = 0#32) ∧
      ((regValue .ctrl s.eng).getLsbD 0 = true ↔ s.eng.inflight = .resetPh)) ∧
    ∀ t : State, s.host.head? ≠ some .hwReset → step s = .next t →
      ∃ new, t.trace = s.trace ++ new ∧
        ((s.eng.intflag.error = true ∧ t.eng.intflag.error = false) →
          .wr .ctrl 0x1#32 ∈ new ∨ s.eng.inflight = .resetPh ∨ ∃ v : Word, v.getLsbD 7 = true ∧ .wr .intflag v ∈ new) ∧
        ((s.eng.status.buserr = true ∧ t.eng.status.buserr = false ∨
            s.eng.status.arblost = true ∧ t.eng.status.arblost = false) →
          .wr .ctrl 0x1#32 ∈ new ∨ s.eng.inflight = .resetPh ∨ ∃ v : Word, .wr .addr v ∈ new)

/-- 93_implementation_defined.md section 2, 40_bus_engine.md R131: from a state of the invariant the sequencer never
presents an access to an inactive engine, during a reset, with a reserved command, that clears a mode bit, or that
names no register; the refusals left are the host's own, the write of `ADDR` with an operation in flight (U9), and the
write of `DATA` outside a Write transaction (U10), this one only with `ERROR` standing. -/
def Obligations.OnlyForeseenRefusals : Prop :=
  ∀ (s : State) (r : Refusal), Inv s → step s = .refused r →
    foreseen r = true ∧
    (r = .addrWhileInFlight → s.eng.inflight ≠ .none) ∧
    (r = .dataOutsideWrite → s.eng.intflag.error = true)

/-- 41_bus_primitives.md R178, 40_bus_engine.md R140: after a `START` to write that began with nothing in flight and
ended OK the engine owns the bus to write with nothing in flight, so the `WRITE` that follows is not refused. -/
def Obligations.CalmStartReadiesTheWrite : Prop :=
  ∀ (s t : State) (a : BitVec 7), Inv s → Ready s → exec (.start a .write) s = .next t → t.res.status = 0x00#8 →
    t.eng.owned = true ∧ t.eng.dir = .write ∧ t.eng.inflight = .none ∧ t.eng.status = statusClear ∧
      t.eng.intflag = { mb := true, sb := false, error := false } ∧ t.phase = .dataW ∧
      ∀ b, ∃ u, exec (.write b) t = .next u

/-- The model's finding on 41_bus_primitives.md R178 a and 40_bus_engine.md R140 (log entry 15): a reception that fails
between the stale-error check of a `START` and its write of `ADDR` leaves `ERROR` set, `STATUS` cleared; the poll then
ends at once and `START` ends OK with its address phase in flight, and the `WRITE` that follows is refused. A run from
the hardware reset reaches the state, in IDLE with the reception in flight, from which this happens: `START` reads
`INTFLAG` without `ERROR` before its write of `ADDR` and with it after, and shows `S`, not `Sr`, the bus it held lost. -/
def Obligations.StaleErrorCanEndTheAddressPoll : Prop :=
  ∃ s t : State, Reachable s ∧ Inv s ∧ WireInv s = true ∧ s.phase = .idle ∧ s.seq = none ∧ s.eng.inflight = .rxPh ∧
    exec (.start 0x40#7 .write) s = .next t ∧ t.res.status = 0x00#8 ∧ t.phase = .dataW ∧ t.eng.inflight = .addrPh ∧
    t.trace = s.trace ++
      [.rd .ctrl 0x6#32, .rd .intflag 0x01#32, .wr .addr 0x80#32, .rd .intflag 0x80#32, .rd .status 0x0#32] ∧
    s.eng.owned = true ∧ t.wire = s.wire ++ [.s, .address 0x80#8] ∧
    exec (.write 0xFE#8) t = .refused .dataOutsideWrite

/-- 60_exceptions.md R253, R258, 30_encoding.md R111: the status an operation may end with; the cause is `0x00` but
after a failed sensor operation, where it is a Bus Error other than `BusError`. -/
def Obligations.StatusCodesOfEachOperation : Prop :=
  ∀ (i : Instr) (s t : State), Inv s → exec i s = .next t → t.busy = false →
    t.res.status ∈ mayEndWith i ∧
    ((isSensor i = false ∨ t.res.status = 0x00#8) → t.res.cause = 0x00#8) ∧
    (isSensor i = true → t.res.status ≠ 0x00#8 → t.res.cause ∈ [0xFF#8, 0xFE#8, 0xFC#8])

/-- 42_sensor_ops.md R204: the pairs of status and cause a failed sensor operation may report. -/
def Obligations.SensorFailurePairs : Prop :=
  ∀ (i : Instr) (s t : State), isSensor i = true → Inv s → exec i s = .next t → t.busy = false →
    t.res.status = 0x00#8 ∨ (t.res.status, t.res.cause) ∈ sensorFailures

/-- 10_state.md R23: which result registers an operation writes: on failure, and while it waits, none but the status
and the cause; on OK those of the table. -/
def Obligations.ResultUpdatePolicy : Prop :=
  ∀ (i : Instr) (s t : State), Inv s → exec i s = .next t →
    (t.busy = true → t.res = s.res) ∧
    (t.busy = false →
      (t.res.status ≠ 0x00#8 → t.res = reported s.res t.res.status t.res.cause) ∧
      ((∀ g, i ≠ .read g) → t.res.byte = s.res.byte) ∧
      (i ≠ .sReadRh → i ≠ .sReadT → i ≠ .sReadTl → isConv i = false → t.res.raw = s.res.raw ∧ t.res.value = s.res.value) ∧
      (i ≠ .sReadSn → t.res.sn = s.res.sn) ∧
      (t.res.status = 0x00#8 → i = .sReadRh → t.res.value = convRh t.res.raw) ∧
      (t.res.status = 0x00#8 → i = .sReadT ∨ i = .sReadTl → t.res.value = convT t.res.raw))

/-- 10_state.md R36, 30_encoding.md R113: a step that records an access records the one of the line the sequencer stands
at, a line of the operation's script, with the value listed for it: a read answers the register's value, `CTRL` is
written `0x30006` or `0x70006` by the STOP command and `0x6` or `0x40006` by `READ`. And what an operation records from
where it is taken up is made of its primitives' accesses, with those values. -/
def Obligations.EveryAccessIsInTheTable : Prop :=
  (∀ s t : State, Inv s → s.host.head? ≠ some .hwReset → step s = .next t →
    t.trace = s.trace ∨
    ∃ q a, s.seq = some q ∧ inScript q = true ∧ lineAccess q.line s.eng = some a ∧ t.trace = s.trace ++ [a]) ∧
  ∀ (i : Instr) (s t : State), Inv s → exec i s = .next t →
    ∃ new, t.trace = s.trace ++ new ∧ ∀ a ∈ new, mayAccess i a = true

/-- The frame of every operation: the command word and the host's inputs stay, and the wire trace only grows; and but
for `INIT`, so do `BAUD`, `ENABLE` and `MASTER` (40_bus_engine.md R131, R153). -/
def Obligations.FrameOfEveryOperation : Prop :=
  ∀ (i : Instr) (s t : State), Inv s → exec i s = .next t →
    t.cmdWord = s.cmdWord ∧ t.host = s.host ∧ (∃ new, t.wire = s.wire ++ new) ∧
    (i ≠ .init → t.eng.baud = s.eng.baud ∧ t.eng.ctrl.enable = s.eng.ctrl.enable ∧
      t.eng.ctrl.master = s.eng.ctrl.master)

/-- The frame of `WRITE`, `READ` and `STOP` (10_state.md R41; 40_bus_engine.md R133, R150): the address register and the
direction stay, `BUSERR`, `ARBLOST` and `ERROR` never fall, and only `READ` changes `ACKACT`. -/
def Obligations.FrameOfWriteReadAndStop : Prop :=
  ∀ (i : Instr) (s t : State), (i = .stop ∨ (∃ b, i = .write b) ∨ ∃ g, i = .read g) →
    Inv s → exec i s = .next t →
    t.eng.addr = s.eng.addr ∧ t.eng.dir = s.eng.dir ∧
    (s.eng.status.buserr = true → t.eng.status.buserr = true) ∧
    (s.eng.status.arblost = true → t.eng.status.arblost = true) ∧
    (s.eng.intflag.error = true → t.eng.intflag.error = true) ∧
    ((∀ g, i ≠ .read g) → t.eng.ctrl = s.eng.ctrl)

/-- 41_bus_primitives.md R190, 60_exceptions.md R271: no bounded poll makes more than `POLL_BUDGET` reads: a `START` reads
`INTFLAG` once before its poll and at most `POLL_BUDGET` times in it, a `READ` at most `POLL_BUDGET` times, whatever the
environment does; and no operation leaves `pollcnt` above it. -/
def Obligations.PollCountStaysWithinTheBudget : Prop :=
  (∀ (i : Instr) (s t : State), Inv s → exec i s = .next t → t.work.pollcnt ≤ Config.params.pollBudget) ∧
  ∀ s t : State, Inv s → s.seq = none →
    (∀ (a : BitVec 7) (d : Dir), exec (.start a d) s = .next t →
      ∃ new, t.trace = s.trace ++ new ∧ (new.filter readsIntflag).length ≤ Config.params.pollBudget + 1) ∧
    (∀ g : Bool, exec (.read g) s = .next t →
      ∃ new, t.trace = s.trace ++ new ∧ (new.filter readsIntflag).length ≤ Config.params.pollBudget)

/-- 41_bus_primitives.md R176, R183, R190, R191: a flag that rises before the budget is spent is found, at the first read
that shows it: `START` to write, its address acknowledged after `n` polls, and `READ NACK`, its byte received after `n`
polls, for every `n` below `POLL_BUDGET`. -/
def Obligations.PollsFindTheFlagWithinTheBudget : Prop :=
  ∀ (n : Nat), n < Config.params.pollBudget →
    (∀ (s : State) (a : BitVec 7) (rest : List Turn), Ready s →
      s.feed.turns = List.replicate n .hold ++ .go .ack :: rest →
        ∃ t, exec (.start a .write) s = .next t ∧ t.work.pollcnt = n + 1 ∧
          EndsWith s t (reported s.res 0x00#8 0x00#8) .dataW
            { s.eng with
              intflag := { mb := true, sb := false, error := false }
              status := statusClear
              addr := a ++ 0#1, owned := true, dir := .write, ackPending := false }
            (startAccesses (a ++ 0#1) s.eng ++ List.replicate n (.rd .intflag 0x00#32) ++
              [.rd .intflag 0x01#32, .rd .status 0x0#32])
            (startWire (a ++ 0#1) s.eng ++ [.sack]) rest) ∧
    (∀ (s : State) (v : Byte) (rest : List Turn),
      s.seq = none → s.phase = .dataR → s.eng.ctrl.enable = true → s.eng.ctrl.master = true →
      s.eng.inflight = .rxPh → s.eng.intflag = { mb := true, sb := false, error := false } →
      s.feed.turns = List.replicate n .hold ++ .go (.byte v) :: rest →
        ∃ t, exec (.read false) s = .next t ∧ t.work.pollcnt = n + 1 ∧
          EndsWith s t { reported s.res 0x00#8 0x00#8 with byte := v } .dataR
            { s.eng with
              ctrl := { s.eng.ctrl with ackact := true }
              data := v, inflight := .none, ackPending := false }
            (List.replicate n (.rd .intflag 0x01#32) ++
              [.rd .intflag 0x03#32, .rd .ctrl (ctrlBits s.eng.ctrl), .wr .ctrl 0x00040006#32,
                .rd .data (v.setWidth 32)])
            [.rx v, .mnack] rest)

/-- 70_reset_and_hazards.md R300: the operations with no unbounded wait always end; the others, when they do not, stand
at one of their two waits, its condition not shown. -/
def Obligations.OnlyTheTwoWaitsAreUnbounded : Prop :=
  ∀ (i : Instr) (s t : State), Inv s → exec i s = .next t →
    (mayWait i = false → t.busy = false) ∧
    (t.busy = true → ∃ k,
      (t.seq = some { op := i, item := k, line := .init .resetWait } ∧ i = .init ∧ t.eng.inflight = .resetPh) ∨
      ∃ b, t.seq = some { op := i, item := k, line := .write b .wait } ∧ t.eng.intflag.mb = false ∧
        t.eng.intflag.error = false)

/-- 70_reset_and_hazards.md R306: with `ERROR` set, `WRITE` and `READ` fail at once and leave it set, `STOP` leaves it
set, and the next `START` clears it. -/
def Obligations.ErrorFlagOutlivesThePrimitive : Prop :=
  ∀ (s : State), Ready s → s.eng.intflag.error = true →
    (∀ (b : Byte) (t : State), exec (.write b) s = .next t → t.busy = false ∧ t.res.status = 0xFC#8 ∧
      t.eng.intflag.error = true) ∧
    (∀ (g : Bool) (t : State), exec (.read g) s = .next t → t.res.status = 0xFC#8 ∧ t.eng.intflag.error = true) ∧
    (∀ t : State, exec .stop s = .next t → t.eng.intflag.error = true) ∧
    (∀ (a : BitVec 7) (d : Dir) (t : State), exec (.start a d) s = .next t →
      ∃ new, t.trace = s.trace ++ new ∧ .wr .intflag 0x80#32 ∈ new)

/-- 70_reset_and_hazards.md R302: with a reception in flight that the environment holds, `START` is refused at its
write of `ADDR`, its two reads made: issued by the host, three steps lead to a busy block with those reads recorded, and
the fourth is refused; `STOP` cancels the reception and releases the bus. -/
def Obligations.ReceptionInFlightBlocksTheStart : Prop :=
  ∀ (s : State) (a : BitVec 7) (d : Dir) (rest : List Turn),
    Inv s → s.seq = none → s.phase ≠ .uninit → s.eng.inflight = .rxPh → s.eng.intflag.error = false →
    s.feed.turns = .hold :: .hold :: .hold :: rest →
      exec (.start a d) s = .refused .addrWhileInFlight ∧
      (∃ u, Host.Core.run core 3 (s.setHost [.issue (encode (.start a d))]) = .next u ∧ u.busy = true ∧ u.eng = s.eng ∧
        u.wire = s.wire ∧ u.res = s.res ∧ u.phase = s.phase ∧
        u.trace = s.trace ++ [.rd .ctrl (ctrlBits s.eng.ctrl), .rd .intflag (intflagBits s.eng.intflag)] ∧
        step u = .refused .addrWhileInFlight) ∧
      ∃ t, exec .stop s = .next t ∧ t.res.status = 0x00#8 ∧ t.eng.inflight = .none ∧ t.eng.owned = false ∧
        t.wire = s.wire ++ [.p] ∧ t.phase = .idle
end

