-- ==== Sys2Proof/Laws/State.lean ====
section
/-! SUPPORT. One lemma per field per update of the state, so that no proof unfolds a record update; and the frame of
the shared operations that are updates only. -/

namespace Sys2Proof.Machine

namespace State

@[simp] theorem setCmdWord_cmdWord (s : State) (w : Word) : (s.setCmdWord w).cmdWord = w := rfl
@[simp] theorem setCmdWord_busy (s : State) (w : Word) : (s.setCmdWord w).busy = s.busy := rfl
@[simp] theorem setCmdWord_res (s : State) (w : Word) : (s.setCmdWord w).res = s.res := rfl
@[simp] theorem setCmdWord_seq (s : State) (w : Word) : (s.setCmdWord w).seq = s.seq := rfl
@[simp] theorem setCmdWord_work (s : State) (w : Word) : (s.setCmdWord w).work = s.work := rfl
@[simp] theorem setCmdWord_phase (s : State) (w : Word) : (s.setCmdWord w).phase = s.phase := rfl
@[simp] theorem setCmdWord_eng (s : State) (w : Word) : (s.setCmdWord w).eng = s.eng := rfl
@[simp] theorem setCmdWord_trace (s : State) (w : Word) : (s.setCmdWord w).trace = s.trace := rfl
@[simp] theorem setCmdWord_wire (s : State) (w : Word) : (s.setCmdWord w).wire = s.wire := rfl
@[simp] theorem setCmdWord_host (s : State) (w : Word) : (s.setCmdWord w).host = s.host := rfl
@[simp] theorem setCmdWord_feed (s : State) (w : Word) : (s.setCmdWord w).feed = s.feed := rfl

@[simp] theorem setBusy_cmdWord (s : State) (b : Bool) : (s.setBusy b).cmdWord = s.cmdWord := rfl
@[simp] theorem setBusy_busy (s : State) (b : Bool) : (s.setBusy b).busy = b := rfl
@[simp] theorem setBusy_res (s : State) (b : Bool) : (s.setBusy b).res = s.res := rfl
@[simp] theorem setBusy_seq (s : State) (b : Bool) : (s.setBusy b).seq = s.seq := rfl
@[simp] theorem setBusy_work (s : State) (b : Bool) : (s.setBusy b).work = s.work := rfl
@[simp] theorem setBusy_phase (s : State) (b : Bool) : (s.setBusy b).phase = s.phase := rfl
@[simp] theorem setBusy_eng (s : State) (b : Bool) : (s.setBusy b).eng = s.eng := rfl
@[simp] theorem setBusy_trace (s : State) (b : Bool) : (s.setBusy b).trace = s.trace := rfl
@[simp] theorem setBusy_wire (s : State) (b : Bool) : (s.setBusy b).wire = s.wire := rfl
@[simp] theorem setBusy_host (s : State) (b : Bool) : (s.setBusy b).host = s.host := rfl
@[simp] theorem setBusy_feed (s : State) (b : Bool) : (s.setBusy b).feed = s.feed := rfl

@[simp] theorem setRes_cmdWord (s : State) (r : Results) : (s.setRes r).cmdWord = s.cmdWord := rfl
@[simp] theorem setRes_busy (s : State) (r : Results) : (s.setRes r).busy = s.busy := rfl
@[simp] theorem setRes_res (s : State) (r : Results) : (s.setRes r).res = r := rfl
@[simp] theorem setRes_seq (s : State) (r : Results) : (s.setRes r).seq = s.seq := rfl
@[simp] theorem setRes_work (s : State) (r : Results) : (s.setRes r).work = s.work := rfl
@[simp] theorem setRes_phase (s : State) (r : Results) : (s.setRes r).phase = s.phase := rfl
@[simp] theorem setRes_eng (s : State) (r : Results) : (s.setRes r).eng = s.eng := rfl
@[simp] theorem setRes_trace (s : State) (r : Results) : (s.setRes r).trace = s.trace := rfl
@[simp] theorem setRes_wire (s : State) (r : Results) : (s.setRes r).wire = s.wire := rfl
@[simp] theorem setRes_host (s : State) (r : Results) : (s.setRes r).host = s.host := rfl
@[simp] theorem setRes_feed (s : State) (r : Results) : (s.setRes r).feed = s.feed := rfl

@[simp] theorem setSeq_cmdWord (s : State) (q : Option SeqPos) : (s.setSeq q).cmdWord = s.cmdWord := rfl
@[simp] theorem setSeq_busy (s : State) (q : Option SeqPos) : (s.setSeq q).busy = s.busy := rfl
@[simp] theorem setSeq_res (s : State) (q : Option SeqPos) : (s.setSeq q).res = s.res := rfl
@[simp] theorem setSeq_seq (s : State) (q : Option SeqPos) : (s.setSeq q).seq = q := rfl
@[simp] theorem setSeq_work (s : State) (q : Option SeqPos) : (s.setSeq q).work = s.work := rfl
@[simp] theorem setSeq_phase (s : State) (q : Option SeqPos) : (s.setSeq q).phase = s.phase := rfl
@[simp] theorem setSeq_eng (s : State) (q : Option SeqPos) : (s.setSeq q).eng = s.eng := rfl
@[simp] theorem setSeq_trace (s : State) (q : Option SeqPos) : (s.setSeq q).trace = s.trace := rfl
@[simp] theorem setSeq_wire (s : State) (q : Option SeqPos) : (s.setSeq q).wire = s.wire := rfl
@[simp] theorem setSeq_host (s : State) (q : Option SeqPos) : (s.setSeq q).host = s.host := rfl
@[simp] theorem setSeq_feed (s : State) (q : Option SeqPos) : (s.setSeq q).feed = s.feed := rfl

@[simp] theorem setWork_cmdWord (s : State) (w : Work) : (s.setWork w).cmdWord = s.cmdWord := rfl
@[simp] theorem setWork_busy (s : State) (w : Work) : (s.setWork w).busy = s.busy := rfl
@[simp] theorem setWork_res (s : State) (w : Work) : (s.setWork w).res = s.res := rfl
@[simp] theorem setWork_seq (s : State) (w : Work) : (s.setWork w).seq = s.seq := rfl
@[simp] theorem setWork_work (s : State) (w : Work) : (s.setWork w).work = w := rfl
@[simp] theorem setWork_phase (s : State) (w : Work) : (s.setWork w).phase = s.phase := rfl
@[simp] theorem setWork_eng (s : State) (w : Work) : (s.setWork w).eng = s.eng := rfl
@[simp] theorem setWork_trace (s : State) (w : Work) : (s.setWork w).trace = s.trace := rfl
@[simp] theorem setWork_wire (s : State) (w : Work) : (s.setWork w).wire = s.wire := rfl
@[simp] theorem setWork_host (s : State) (w : Work) : (s.setWork w).host = s.host := rfl
@[simp] theorem setWork_feed (s : State) (w : Work) : (s.setWork w).feed = s.feed := rfl

@[simp] theorem setPhase_cmdWord (s : State) (ph : Phase) : (s.setPhase ph).cmdWord = s.cmdWord := rfl
@[simp] theorem setPhase_busy (s : State) (ph : Phase) : (s.setPhase ph).busy = s.busy := rfl
@[simp] theorem setPhase_res (s : State) (ph : Phase) : (s.setPhase ph).res = s.res := rfl
@[simp] theorem setPhase_seq (s : State) (ph : Phase) : (s.setPhase ph).seq = s.seq := rfl
@[simp] theorem setPhase_work (s : State) (ph : Phase) : (s.setPhase ph).work = s.work := rfl
@[simp] theorem setPhase_phase (s : State) (ph : Phase) : (s.setPhase ph).phase = ph := rfl
@[simp] theorem setPhase_eng (s : State) (ph : Phase) : (s.setPhase ph).eng = s.eng := rfl
@[simp] theorem setPhase_trace (s : State) (ph : Phase) : (s.setPhase ph).trace = s.trace := rfl
@[simp] theorem setPhase_wire (s : State) (ph : Phase) : (s.setPhase ph).wire = s.wire := rfl
@[simp] theorem setPhase_host (s : State) (ph : Phase) : (s.setPhase ph).host = s.host := rfl
@[simp] theorem setPhase_feed (s : State) (ph : Phase) : (s.setPhase ph).feed = s.feed := rfl

@[simp] theorem setEng_cmdWord (s : State) (e : Engine) : (s.setEng e).cmdWord = s.cmdWord := rfl
@[simp] theorem setEng_busy (s : State) (e : Engine) : (s.setEng e).busy = s.busy := rfl
@[simp] theorem setEng_res (s : State) (e : Engine) : (s.setEng e).res = s.res := rfl
@[simp] theorem setEng_seq (s : State) (e : Engine) : (s.setEng e).seq = s.seq := rfl
@[simp] theorem setEng_work (s : State) (e : Engine) : (s.setEng e).work = s.work := rfl
@[simp] theorem setEng_phase (s : State) (e : Engine) : (s.setEng e).phase = s.phase := rfl
@[simp] theorem setEng_eng (s : State) (e : Engine) : (s.setEng e).eng = e := rfl
@[simp] theorem setEng_trace (s : State) (e : Engine) : (s.setEng e).trace = s.trace := rfl
@[simp] theorem setEng_wire (s : State) (e : Engine) : (s.setEng e).wire = s.wire := rfl
@[simp] theorem setEng_host (s : State) (e : Engine) : (s.setEng e).host = s.host := rfl
@[simp] theorem setEng_feed (s : State) (e : Engine) : (s.setEng e).feed = s.feed := rfl

@[simp] theorem pushTrace_cmdWord (s : State) (a : Access) : (s.pushTrace a).cmdWord = s.cmdWord := rfl
@[simp] theorem pushTrace_busy (s : State) (a : Access) : (s.pushTrace a).busy = s.busy := rfl
@[simp] theorem pushTrace_res (s : State) (a : Access) : (s.pushTrace a).res = s.res := rfl
@[simp] theorem pushTrace_seq (s : State) (a : Access) : (s.pushTrace a).seq = s.seq := rfl
@[simp] theorem pushTrace_work (s : State) (a : Access) : (s.pushTrace a).work = s.work := rfl
@[simp] theorem pushTrace_phase (s : State) (a : Access) : (s.pushTrace a).phase = s.phase := rfl
@[simp] theorem pushTrace_eng (s : State) (a : Access) : (s.pushTrace a).eng = s.eng := rfl
@[simp] theorem pushTrace_trace (s : State) (a : Access) : (s.pushTrace a).trace = s.trace ++ [a] := rfl
@[simp] theorem pushTrace_wire (s : State) (a : Access) : (s.pushTrace a).wire = s.wire := rfl
@[simp] theorem pushTrace_host (s : State) (a : Access) : (s.pushTrace a).host = s.host := rfl
@[simp] theorem pushTrace_feed (s : State) (a : Access) : (s.pushTrace a).feed = s.feed := rfl

@[simp] theorem pushWire_cmdWord (s : State) (ws : List Wire) : (s.pushWire ws).cmdWord = s.cmdWord := rfl
@[simp] theorem pushWire_busy (s : State) (ws : List Wire) : (s.pushWire ws).busy = s.busy := rfl
@[simp] theorem pushWire_res (s : State) (ws : List Wire) : (s.pushWire ws).res = s.res := rfl
@[simp] theorem pushWire_seq (s : State) (ws : List Wire) : (s.pushWire ws).seq = s.seq := rfl
@[simp] theorem pushWire_work (s : State) (ws : List Wire) : (s.pushWire ws).work = s.work := rfl
@[simp] theorem pushWire_phase (s : State) (ws : List Wire) : (s.pushWire ws).phase = s.phase := rfl
@[simp] theorem pushWire_eng (s : State) (ws : List Wire) : (s.pushWire ws).eng = s.eng := rfl
@[simp] theorem pushWire_trace (s : State) (ws : List Wire) : (s.pushWire ws).trace = s.trace := rfl
@[simp] theorem pushWire_wire (s : State) (ws : List Wire) : (s.pushWire ws).wire = s.wire ++ ws := rfl
@[simp] theorem pushWire_host (s : State) (ws : List Wire) : (s.pushWire ws).host = s.host := rfl
@[simp] theorem pushWire_feed (s : State) (ws : List Wire) : (s.pushWire ws).feed = s.feed := rfl

@[simp] theorem setHost_cmdWord (s : State) (h : List HostInput) : (s.setHost h).cmdWord = s.cmdWord := rfl
@[simp] theorem setHost_busy (s : State) (h : List HostInput) : (s.setHost h).busy = s.busy := rfl
@[simp] theorem setHost_res (s : State) (h : List HostInput) : (s.setHost h).res = s.res := rfl
@[simp] theorem setHost_seq (s : State) (h : List HostInput) : (s.setHost h).seq = s.seq := rfl
@[simp] theorem setHost_work (s : State) (h : List HostInput) : (s.setHost h).work = s.work := rfl
@[simp] theorem setHost_phase (s : State) (h : List HostInput) : (s.setHost h).phase = s.phase := rfl
@[simp] theorem setHost_eng (s : State) (h : List HostInput) : (s.setHost h).eng = s.eng := rfl
@[simp] theorem setHost_trace (s : State) (h : List HostInput) : (s.setHost h).trace = s.trace := rfl
@[simp] theorem setHost_wire (s : State) (h : List HostInput) : (s.setHost h).wire = s.wire := rfl
@[simp] theorem setHost_host (s : State) (h : List HostInput) : (s.setHost h).host = h := rfl
@[simp] theorem setHost_feed (s : State) (h : List HostInput) : (s.setHost h).feed = s.feed := rfl

@[simp] theorem setFeed_cmdWord (s : State) (f : Feed) : (s.setFeed f).cmdWord = s.cmdWord := rfl
@[simp] theorem setFeed_busy (s : State) (f : Feed) : (s.setFeed f).busy = s.busy := rfl
@[simp] theorem setFeed_res (s : State) (f : Feed) : (s.setFeed f).res = s.res := rfl
@[simp] theorem setFeed_seq (s : State) (f : Feed) : (s.setFeed f).seq = s.seq := rfl
@[simp] theorem setFeed_work (s : State) (f : Feed) : (s.setFeed f).work = s.work := rfl
@[simp] theorem setFeed_phase (s : State) (f : Feed) : (s.setFeed f).phase = s.phase := rfl
@[simp] theorem setFeed_eng (s : State) (f : Feed) : (s.setFeed f).eng = s.eng := rfl
@[simp] theorem setFeed_trace (s : State) (f : Feed) : (s.setFeed f).trace = s.trace := rfl
@[simp] theorem setFeed_wire (s : State) (f : Feed) : (s.setFeed f).wire = s.wire := rfl
@[simp] theorem setFeed_host (s : State) (f : Feed) : (s.setFeed f).host = s.host := rfl
@[simp] theorem setFeed_feed (s : State) (f : Feed) : (s.setFeed f).feed = f := rfl

/-- Adding no wire event changes nothing. -/
@[simp] theorem pushWire_nil (s : State) : s.pushWire [] = s := by simp [pushWire]

/-- Writing back the engine, or the feed, changes nothing. -/
@[simp] theorem setEng_self (s : State) : s.setEng s.eng = s := rfl
@[simp] theorem setFeed_self (s : State) : s.setFeed s.feed = s := rfl

end State

/-! ### An access changes the engine and the traces, and nothing else -/

@[simp] theorem afterAccess_cmdWord (a : Access) (x : Reaction) (s : State) : (afterAccess a x s).cmdWord = s.cmdWord := rfl
@[simp] theorem afterAccess_busy (a : Access) (x : Reaction) (s : State) : (afterAccess a x s).busy = s.busy := rfl
@[simp] theorem afterAccess_res (a : Access) (x : Reaction) (s : State) : (afterAccess a x s).res = s.res := rfl
@[simp] theorem afterAccess_seq (a : Access) (x : Reaction) (s : State) : (afterAccess a x s).seq = s.seq := rfl
@[simp] theorem afterAccess_work (a : Access) (x : Reaction) (s : State) : (afterAccess a x s).work = s.work := rfl
@[simp] theorem afterAccess_phase (a : Access) (x : Reaction) (s : State) : (afterAccess a x s).phase = s.phase := rfl
@[simp] theorem afterAccess_eng (a : Access) (x : Reaction) (s : State) : (afterAccess a x s).eng = x.eng := rfl
@[simp] theorem afterAccess_trace (a : Access) (x : Reaction) (s : State) : (afterAccess a x s).trace = s.trace ++ [a] := rfl
@[simp] theorem afterAccess_wire (a : Access) (x : Reaction) (s : State) : (afterAccess a x s).wire = s.wire ++ x.wire := rfl
@[simp] theorem afterAccess_host (a : Access) (x : Reaction) (s : State) : (afterAccess a x s).host = s.host := rfl
@[simp] theorem afterAccess_feed (a : Access) (x : Reaction) (s : State) : (afterAccess a x s).feed = s.feed := rfl

/-! ### The end of an operation -/

@[simp] theorem finish_cmdWord (st c : Code) (s : State) : (finish st c s).cmdWord = s.cmdWord := rfl
@[simp] theorem finish_busy (st c : Code) (s : State) : (finish st c s).busy = false := rfl
@[simp] theorem finish_res (st c : Code) (s : State) : (finish st c s).res = { s.res with status := codeByte st, cause := codeByte c } := rfl
@[simp] theorem finish_seq (st c : Code) (s : State) : (finish st c s).seq = none := rfl
@[simp] theorem finish_work (st c : Code) (s : State) : (finish st c s).work = s.work := rfl
@[simp] theorem finish_phase (st c : Code) (s : State) : (finish st c s).phase = s.phase := rfl
@[simp] theorem finish_eng (st c : Code) (s : State) : (finish st c s).eng = s.eng := rfl
@[simp] theorem finish_trace (st c : Code) (s : State) : (finish st c s).trace = s.trace := rfl
@[simp] theorem finish_wire (st c : Code) (s : State) : (finish st c s).wire = s.wire := rfl
@[simp] theorem finish_host (st c : Code) (s : State) : (finish st c s).host = s.host := rfl
@[simp] theorem finish_feed (st c : Code) (s : State) : (finish st c s).feed = s.feed := rfl

/-! ### The sequencer moves to a line: its position and, entering a bounded poll, the count -/

@[simp] theorem moveTo_seq (i : Instr) (k : Nat) (l : Line) (s : State) :
    (moveTo i k l s).seq = some { op := i, item := k, line := l } := rfl

theorem moveTo_work (i : Instr) (k : Nat) (l : Line) (s : State) :
    (moveTo i k l s).work = if isPollLine l then { s.work with pollcnt := 0 } else s.work := by
  unfold moveTo
  split <;> rfl

@[simp] theorem moveTo_latches (i : Instr) (k : Nat) (l : Line) (s : State) :
    (moveTo i k l s).work.buf = s.work.buf ∧ (moveTo i k l s).work.snA = s.work.snA ∧
      (moveTo i k l s).work.ctrlLatch = s.work.ctrlLatch := by
  rw [moveTo_work]
  split <;> exact ⟨rfl, rfl, rfl⟩

@[simp] theorem moveTo_cmdWord (i : Instr) (k : Nat) (l : Line) (s : State) : (moveTo i k l s).cmdWord = s.cmdWord := by
  unfold moveTo
  split <;> rfl

@[simp] theorem moveTo_busy (i : Instr) (k : Nat) (l : Line) (s : State) : (moveTo i k l s).busy = s.busy := by
  unfold moveTo
  split <;> rfl

@[simp] theorem moveTo_res (i : Instr) (k : Nat) (l : Line) (s : State) : (moveTo i k l s).res = s.res := by
  unfold moveTo
  split <;> rfl

@[simp] theorem moveTo_phase (i : Instr) (k : Nat) (l : Line) (s : State) : (moveTo i k l s).phase = s.phase := by
  unfold moveTo
  split <;> rfl

@[simp] theorem moveTo_eng (i : Instr) (k : Nat) (l : Line) (s : State) : (moveTo i k l s).eng = s.eng := by
  unfold moveTo
  split <;> rfl

@[simp] theorem moveTo_trace (i : Instr) (k : Nat) (l : Line) (s : State) : (moveTo i k l s).trace = s.trace := by
  unfold moveTo
  split <;> rfl

@[simp] theorem moveTo_wire (i : Instr) (k : Nat) (l : Line) (s : State) : (moveTo i k l s).wire = s.wire := by
  unfold moveTo
  split <;> rfl

@[simp] theorem moveTo_host (i : Instr) (k : Nat) (l : Line) (s : State) : (moveTo i k l s).host = s.host := by
  unfold moveTo
  split <;> rfl

@[simp] theorem moveTo_feed (i : Instr) (k : Nat) (l : Line) (s : State) : (moveTo i k l s).feed = s.feed := by
  unfold moveTo
  split <;> rfl

/-! ### An operation begins -/

@[simp] theorem beginOperation_busy (i : Instr) (o : Operation) (s : State) : (beginOperation i o s).busy = true := by
  simp [beginOperation]

@[simp] theorem beginOperation_seq (i : Instr) (o : Operation) (s : State) :
    (beginOperation i o s).seq = some { op := i, item := 0, line := itemLine o 0 } := rfl

@[simp] theorem beginOperation_cmdWord (i : Instr) (o : Operation) (s : State) : (beginOperation i o s).cmdWord = s.cmdWord := by
  simp [beginOperation]

@[simp] theorem beginOperation_res (i : Instr) (o : Operation) (s : State) : (beginOperation i o s).res = s.res := by
  simp [beginOperation]

@[simp] theorem beginOperation_phase (i : Instr) (o : Operation) (s : State) : (beginOperation i o s).phase = s.phase := by
  simp [beginOperation]

@[simp] theorem beginOperation_eng (i : Instr) (o : Operation) (s : State) : (beginOperation i o s).eng = s.eng := by
  simp [beginOperation]

@[simp] theorem beginOperation_trace (i : Instr) (o : Operation) (s : State) : (beginOperation i o s).trace = s.trace := by
  simp [beginOperation]

@[simp] theorem beginOperation_wire (i : Instr) (o : Operation) (s : State) : (beginOperation i o s).wire = s.wire := by
  simp [beginOperation]

@[simp] theorem beginOperation_host (i : Instr) (o : Operation) (s : State) : (beginOperation i o s).host = s.host := by
  simp [beginOperation]

@[simp] theorem beginOperation_feed (i : Instr) (o : Operation) (s : State) : (beginOperation i o s).feed = s.feed := by
  simp [beginOperation]

/-! ### The byte kept: it is in the results or in the working registers -/

@[simp] theorem keepByte_cmdWord (k : Keep) (d : Byte) (s : State) : (keepByte k d s).cmdWord = s.cmdWord := by
  cases k <;> rfl

@[simp] theorem keepByte_busy (k : Keep) (d : Byte) (s : State) : (keepByte k d s).busy = s.busy := by
  cases k <;> rfl

@[simp] theorem keepByte_seq (k : Keep) (d : Byte) (s : State) : (keepByte k d s).seq = s.seq := by
  cases k <;> rfl

@[simp] theorem keepByte_phase (k : Keep) (d : Byte) (s : State) : (keepByte k d s).phase = s.phase := by
  cases k <;> rfl

@[simp] theorem keepByte_eng (k : Keep) (d : Byte) (s : State) : (keepByte k d s).eng = s.eng := by
  cases k <;> rfl

@[simp] theorem keepByte_trace (k : Keep) (d : Byte) (s : State) : (keepByte k d s).trace = s.trace := by
  cases k <;> rfl

@[simp] theorem keepByte_wire (k : Keep) (d : Byte) (s : State) : (keepByte k d s).wire = s.wire := by
  cases k <;> rfl

@[simp] theorem keepByte_host (k : Keep) (d : Byte) (s : State) : (keepByte k d s).host = s.host := by
  cases k <;> rfl

@[simp] theorem keepByte_feed (k : Keep) (d : Byte) (s : State) : (keepByte k d s).feed = s.feed := by
  cases k <;> rfl

theorem keepByte_res (k : Keep) (d : Byte) (s : State) :
    (keepByte k d s).res = if k = .result then { s.res with byte := d } else s.res := by
  cases k <;> rfl

@[simp] theorem keepByte_pollcnt (k : Keep) (d : Byte) (s : State) : (keepByte k d s).work.pollcnt = s.work.pollcnt := by
  cases k <;> rfl

end Sys2Proof.Machine
end

