-- ==== Sys2Proof/Laws/Engine.lean ====
section
/-! SUPPORT. What the engine can do: its completions, its moment, and its reactions to accesses,
each said once. -/

namespace Sys2Proof.Machine

/-! ### Completions -/

/-- Something is in flight when a completion happens. -/
theorem complete_inflight {p : Params} {o : EnvOutcome} {e : Engine} {x : Reaction} (h : complete p o e = some x) :
    e.inflight ≠ .none := by
  intro hn
  simp [complete, hn] at h

/-- A completion leaves nothing in flight, but for an acknowledged read address, which leaves a reception. -/
theorem complete_leaves {p : Params} {o : EnvOutcome} {e : Engine} {x : Reaction} (h : complete p o e = some x) :
    x.eng.inflight = .none ∨ (e.inflight = .addrPh ∧ o = .ack ∧ e.dir = .read ∧ x.eng.inflight = .rxPh) := by
  unfold complete at h
  split at h <;> simp at h <;> subst h <;> simp_all [flagBusError, flagArbLost, engineReset]
  by_cases hd : e.dir = .read <;> simp [hd]

/-- Outside a software reset a completion leaves `CTRL`, `BAUD`, `ADDR` and the direction, and starts no reset. -/
theorem complete_keeps_mode {p : Params} {o : EnvOutcome} {e : Engine} {x : Reaction} (h : complete p o e = some x)
    (hr : e.inflight ≠ .resetPh) :
    x.eng.ctrl = e.ctrl ∧ x.eng.baud = e.baud ∧ x.eng.addr = e.addr ∧ x.eng.dir = e.dir ∧ x.eng.inflight ≠ .resetPh := by
  unfold complete at h
  split at h <;> simp at h <;> subst h <;> simp_all [flagAcked, flagNacked, flagBusError, flagArbLost]
  by_cases hd : e.dir = .read <;> simp [hd]

/-- Outside a software reset a completion never clears `ERROR` (40_bus_engine.md R155 f). -/
theorem complete_keeps_error {p : Params} {o : EnvOutcome} {e : Engine} {x : Reaction} (h : complete p o e = some x)
    (hr : e.inflight ≠ .resetPh) (he : e.intflag.error = true) : x.eng.intflag.error = true := by
  unfold complete at h
  split at h <;> simp at h <;> subst h <;> simp_all [flagAcked, flagNacked, flagBusError, flagArbLost]

/-! ### The engine's moment -/

/-- With nothing in flight the engine takes no turn, and the moment is another agent's. -/
@[simp] theorem engineMove_quiet {p : Params} {s : State} (h : s.eng.inflight = .none) : engineMove p s = .holds s := by
  simp [engineMove, h]

/-- The engine holds. -/
theorem engineMove_hold {p : Params} {s : State} {rest : List Turn} (h : s.eng.inflight ≠ .none)
    (ht : s.feed.turns = .hold :: rest) : engineMove p s = .holds (s.setFeed { s.feed with turns := rest }) := by
  simp [engineMove, h, nextTurn, ht]

/-- The engine completes the operation in flight. -/
theorem engineMove_complete {p : Params} {s : State} {o : EnvOutcome} {rest : List Turn} {x : Reaction}
    (hc : complete p o s.eng = some x) (ht : s.feed.turns = .go o :: rest) :
    engineMove p s = .completed (((s.setFeed { s.feed with turns := rest }).setEng x.eng).pushWire x.wire) := by
  simp [engineMove, complete_inflight hc, nextTurn, ht, hc]

/-- All the engine can do at one moment: hold, a turn used at most; or complete the operation in flight (40_bus_engine.md
R130). -/
theorem engineMove_cases (p : Params) (s : State) :
    (∃ f, engineMove p s = .holds (s.setFeed f)) ∨
    (∃ f o x, complete p o s.eng = some x ∧ engineMove p s = .completed (((s.setFeed f).setEng x.eng).pushWire x.wire)) := by
  unfold engineMove
  split
  · exact .inl ⟨s.feed, rfl⟩
  · split
    · exact .inl ⟨_, rfl⟩
    · split
      · rename_i hx
        exact .inr ⟨_, _, _, hx, rfl⟩
      · exact .inl ⟨_, rfl⟩

/-- After two completions with no access between them nothing is in flight. -/
theorem complete_twice {p : Params} {o o' : EnvOutcome} {e : Engine} {x y : Reaction} (h : complete p o e = some x)
    (h' : complete p o' x.eng = some y) : y.eng.inflight = .none := by
  rcases complete_leaves h with hx | ⟨_, _, _, hx⟩
  · exact absurd hx (complete_inflight h')
  · rcases complete_leaves h' with hy | ⟨hy, _⟩
    · exact hy
    · exact absurd (hx.symm.trans hy) (by decide)

/-! ### Register values bit by bit -/

@[simp] theorem ctrlBits_bit0 (c : Ctrl) : (ctrlBits c).getLsbD 0 = false := by
  rcases c with ⟨_ | _, _ | _, _ | _⟩ <;> decide

@[simp] theorem ctrlBits_bit1 (c : Ctrl) : (ctrlBits c).getLsbD 1 = c.enable := by
  rcases c with ⟨_ | _, _ | _, _ | _⟩ <;> decide

@[simp] theorem ctrlOfWord_ctrlBits (c : Ctrl) : ctrlOfWord (ctrlBits c) = c := by
  rcases c with ⟨_ | _, _ | _, _ | _⟩ <;> decide

@[simp] theorem intflagBits_bit7 (f : Intflag) : (intflagBits f).getLsbD 7 = f.error := by
  rcases f with ⟨_ | _, _ | _, _ | _⟩ <;> decide

/-- The mask of `START`'s and `WRITE`'s waits shows `MB` or `ERROR`. -/
theorem intflagBits_mb_or_error (f : Intflag) :
    (intflagBits f &&& (maskMb ||| maskError) = 0#32) ↔ (f.mb = false ∧ f.error = false) := by
  rcases f with ⟨_ | _, _ | _, _ | _⟩ <;> decide

/-- The mask of `READ`'s wait shows `SB` or `ERROR`. -/
theorem intflagBits_sb_or_error (f : Intflag) :
    (intflagBits f &&& (maskSb ||| maskError) = 0#32) ↔ (f.sb = false ∧ f.error = false) := by
  rcases f with ⟨_ | _, _ | _, _ | _⟩ <;> decide

/-- `START`'s status test is of the three bits together (41_bus_primitives.md R173 step 5). -/
theorem statusBits_error (t : StatusReg) :
    (statusBits t &&& maskStatusErr = 0#32) ↔ (t.buserr = false ∧ t.arblost = false ∧ t.rxnack = false) := by
  rcases t with ⟨_ | _, _ | _, _ | _⟩ <;> decide

/-- Writing `0x80` to `INTFLAG` clears `ERROR` and nothing else (41_bus_primitives.md R175). -/
@[simp] theorem clearWritten_maskError (f : Intflag) : clearWritten f maskError = { f with error := false } := by
  rcases f with ⟨_ | _, _ | _, _ | _⟩ <;> decide

@[simp] theorem addrDir_addrByte (a : BitVec 7) (d : Dir) : addrDir (addrByte a d) = d := by
  have h : (addrByte a d).getLsbD 0 = (dirBit d).getLsbD 0 := BitVec.getLsbD_append.trans (if_pos Nat.zero_lt_one)
  rw [addrDir, h]
  cases d <;> rfl

@[simp] theorem setWidth_byte (b : Byte) : (b.setWidth 32).setWidth 8 = b := by
  apply BitVec.eq_of_toNat_eq
  simp only [BitVec.toNat_setWidth]
  have := b.isLt
  omega

/-! ### Reactions to writes of `CTRL` -/

/-- The `CTRL` value of an engine that is not resetting. -/
theorem ctrlValue_running {e : Engine} (h : e.inflight ≠ .resetPh) : ctrlValue e = ctrlBits e.ctrl := by
  simp [ctrlValue, h]

/-- Writing back an enabled master's own mode bits clears no mode. -/
theorem clearsMode_writeBack {e : Engine} {v : Word} (hm : e.ctrl.enable = true → e.ctrl.master = true)
    (h1 : v.getLsbD 1 = e.ctrl.enable) (h2 : v.getLsbD 2 = e.ctrl.master) : clearsMode v e = false := by
  cases he : e.ctrl.enable <;> cases hma : e.ctrl.master <;> simp_all [clearsMode, ctrlOfWord]

end Sys2Proof.Machine
end

