-- ==== Sys2Proof/Laws/Primitives.lean ====
section
/-! SUPPORT. What an access and a line of a primitive can do, each said once: a line makes one access, and beside it
touches the working registers and the phase only. -/

namespace Sys2Proof.Machine

/-! ### Lost arbitration -/

/-- Where arbitration can be lost, with an operation in flight, the engine's invariants leave no acknowledge pending
(40_bus_engine.md R155 d): clearing it too would make no difference (log entry 23). -/
theorem flagArbLost_ackPending {e : Engine} (h : EngineInv e) (hi : e.inflight ≠ .none) :
    flagArbLost e = { flagArbLost e with ackPending := false } := by
  have ha : e.ackPending = false := by
    cases hp : e.ackPending with
    | false => rfl
    | true => exact absurd (h.2.2.2 hp).2.2 hi
  simp [flagArbLost, ha]

/-! ### Accesses -/

/-- A read answers the register's value; what it leaves is the reaction, the record and the latch. -/
theorem seqRead_cases {r : Reg} {s t : State} {v : Word} (h : seqRead r s = .ok (v, t)) :
    v = regValue r s.eng ∧ (r = .ctrl ∨ s.eng.inflight ≠ .resetPh) ∧
      t = (afterAccess (.rd r v) (if r = .data then reactReadData s.eng else { eng := s.eng, wire := [] }) s).setWork
        (latch r v s.work) := by
  unfold seqRead readReg at h
  split at h
  · cases h
  · rename_i v' x hx
    split at hx
    · cases hx
    · rename_i hn
      cases hx
      cases h
      refine ⟨rfl, ?_, rfl⟩
      by_cases hr : r = .ctrl
      · exact .inl hr
      · exact .inr fun hi => hn ⟨hr, hi⟩

/-- Outside a software reset, and of `CTRL` always, a read is answered. -/
theorem seqRead_ok {r : Reg} {s : State} (h : r = .ctrl ∨ s.eng.inflight ≠ .resetPh) :
    seqRead r s = .ok (regValue r s.eng,
      (afterAccess (.rd r (regValue r s.eng))
        (if r = .data then reactReadData s.eng else { eng := s.eng, wire := [] }) s).setWork
        (latch r (regValue r s.eng) s.work)) := by
  have hn : ¬(r ≠ .ctrl ∧ s.eng.inflight = .resetPh) := fun ⟨a, b⟩ => h.elim a (· b)
  simp [seqRead, readReg, hn]

/-- A write leaves the reaction and the record; none is answered while a software reset runs. -/
theorem seqWrite_cases {r : Reg} {v : Word} {s t : State} (h : seqWrite r v s = .ok t) :
    ∃ x, writeReg r v s.eng = .ok x ∧ s.eng.inflight ≠ .resetPh ∧ t = afterAccess (.wr r v) x s := by
  unfold seqWrite at h
  split at h
  · cases h
  · rename_i x hx
    cases h
    refine ⟨x, hx, ?_, rfl⟩
    intro hi
    simp [writeReg, hi] at hx

/-- The same of the set-bits access. -/
theorem seqSet_cases {r : Reg} {m : Word} {s t : State} (h : seqSet r m s = .ok t) :
    ∃ x, setBitsReg r m s.eng = .ok x ∧ t = afterAccess (.set r m) x s := by
  unfold seqSet at h
  split at h
  · cases h
  · rename_i x hx
    cases h
    exact ⟨x, hx, rfl⟩

/-! ### One access, and the bookkeeping beside it -/

/-- From `s` to `t` one access was made, with the engine's reaction to it; beside it only the working registers and the
phase may differ. -/
def Accessed (s t : State) : Prop :=
  ∃ a x w ph, reactionOf a s.eng = .ok x ∧ t = ((afterAccess a x s).setWork w).setPhase ph

/-- An access touches neither the host's side nor the sequencer's position nor the turns to come. -/
theorem Accessed.frame {s t : State} (h : Accessed s t) :
    t.cmdWord = s.cmdWord ∧ t.busy = s.busy ∧ t.res = s.res ∧ t.seq = s.seq ∧ t.host = s.host ∧ t.feed = s.feed := by
  obtain ⟨a, x, w, ph, _, rfl⟩ := h
  exact ⟨rfl, rfl, rfl, rfl, rfl, rfl⟩

/-- An access is recorded once, and the engine changes by its reaction. -/
theorem Accessed.record {s t : State} (h : Accessed s t) :
    ∃ a x, reactionOf a s.eng = .ok x ∧ t.trace = s.trace ++ [a] ∧ t.eng = x.eng ∧ t.wire = s.wire ++ x.wire := by
  obtain ⟨a, x, w, ph, hx, rfl⟩ := h
  exact ⟨a, x, hx, rfl, rfl, rfl⟩

theorem Accessed.setWork {s t : State} (h : Accessed s t) (w : Work) : Accessed s (t.setWork w) := by
  obtain ⟨a, x, _, ph, hx, rfl⟩ := h
  exact ⟨a, x, w, ph, hx, rfl⟩

theorem Accessed.setPhase {s t : State} (h : Accessed s t) (ph : Phase) : Accessed s (t.setPhase ph) := by
  obtain ⟨a, x, w, _, hx, rfl⟩ := h
  exact ⟨a, x, w, ph, hx, rfl⟩

theorem accessed_seqRead {r : Reg} {s t : State} {v : Word} (h : seqRead r s = .ok (v, t)) : Accessed s t := by
  unfold seqRead at h
  split at h
  · cases h
  · rename_i x hx
    cases h
    exact ⟨.rd r v, x, latch r v s.work, s.phase, by simp [reactionOf, hx], rfl⟩

theorem accessed_seqWrite {r : Reg} {v : Word} {s t : State} (h : seqWrite r v s = .ok t) : Accessed s t := by
  obtain ⟨x, hx, _, rfl⟩ := seqWrite_cases h
  exact ⟨.wr r v, x, s.work, s.phase, hx, rfl⟩

theorem accessed_seqSet {r : Reg} {m : Word} {s t : State} (h : seqSet r m s = .ok t) : Accessed s t := by
  obtain ⟨x, hx, rfl⟩ := seqSet_cases h
  exact ⟨.set r m, x, s.work, s.phase, hx, rfl⟩

theorem accessed_seqExt (e : ExtEvent) (s : State) : Accessed s (seqExt e s) :=
  ⟨.ext e, { eng := s.eng, wire := [] }, s.work, s.phase, rfl, by
    simp [afterAccess, seqExt, State.setEng, State.pushWire, State.pushTrace, State.setWork, State.setPhase]⟩

/-! ### What a line leads to -/

/-- `G` holds of the line gone on to and the state, `A` of a read made again in a bounded poll, `W` of one made again in
a wait without bound, `D` of an end. -/
def LineOut.Holds (G : Line → State → Prop) (A W : State → Prop) (D : Code → Byte → State → Prop) : LineOut → Prop
  | .goto l s => G l s
  | .again s => A s
  | .spin s => W s
  | .done st d s => D st d s
  | .refused _ => True

section
variable {G : Line → State → Prop} {A W : State → Prop} {D : Code → Byte → State → Prop}

theorem onRead_holds {a : Except Refusal (Word × State)} {k : Word → State → LineOut}
    (h : ∀ v t, a = .ok (v, t) → (k v t).Holds G A W D) : (onRead a k).Holds G A W D := by
  unfold onRead
  split
  · exact h _ _ rfl
  · trivial

theorem onWrite_holds {a : Except Refusal State} {k : State → LineOut} (h : ∀ t, a = .ok t → (k t).Holds G A W D) :
    (onWrite a k).Holds G A W D := by
  unfold onWrite
  split
  · exact h _ rfl
  · trivial

/-- One iteration of a bounded poll reads `INTFLAG` once and counts it; the poll ends when the flag is shown, or when
the budget is spent, and makes its read again otherwise (41_bus_primitives.md R190). -/
theorem pollLine_holds {p : Params} {m : Word} {s : State} {x : State → LineOut} {k : Word → State → LineOut}
    (hk : ∀ f t, seqRead .intflag s = .ok (f, t) → f &&& m ≠ 0#32 →
      (k f (t.setWork { t.work with pollcnt := t.work.pollcnt + 1 })).Holds G A W D)
    (ha : ∀ f t, seqRead .intflag s = .ok (f, t) → f &&& m = 0#32 → t.work.pollcnt + 1 < p.pollBudget →
      A (t.setWork { t.work with pollcnt := t.work.pollcnt + 1 }))
    (hx : ∀ f t, seqRead .intflag s = .ok (f, t) → f &&& m = 0#32 → ¬ t.work.pollcnt + 1 < p.pollBudget →
      (x (t.setWork { t.work with pollcnt := t.work.pollcnt + 1 })).Holds G A W D) :
    (pollLine p m s x k).Holds G A W D := by
  refine onRead_holds fun f t h => ?_
  by_cases hm : f &&& m = 0#32
  · by_cases hb : t.work.pollcnt + 1 < p.pollBudget
    · simpa [hm, hb, LineOut.Holds] using ha f t h hm hb
    · simpa [hm, hb] using hx f t h hm hb
  · simpa [hm] using hk f t h hm

end

/-- Every line but a conversion's makes exactly one access (41_bus_primitives.md R189). -/
theorem runLine_accessed {p : Params} {l : Line} (hl : l ≠ .convert) (s : State) :
    (runLine p l s).Holds (fun _ t => Accessed s t) (Accessed s) (Accessed s) (fun _ _ t => Accessed s t) := by
  rcases l with l | ⟨a, d, l⟩ | ⟨b, l⟩ | ⟨again, l⟩ | l | _
  · cases l <;> dsimp only [runLine, initLine]
    case clkEnable | clkSelect | pinSda => exact accessed_seqExt _ _
    case pinScl => exact (accessed_seqExt _ _).setPhase _
    case swrst | master | baud => exact onWrite_holds fun _ h => accessed_seqWrite h
    case enable => exact onWrite_holds fun _ h => accessed_seqSet h
    case resetWait =>
      refine onRead_holds fun _ _ h => ?_
      split <;> exact accessed_seqRead h
  · cases l <;> dsimp only [runLine, startLine]
    case check =>
      refine onRead_holds fun _ _ h => ?_
      split <;> exact accessed_seqRead h
    case flags | failRead => exact onRead_holds fun _ _ h => accessed_seqRead h
    case cleanup | address | failStop => exact onWrite_holds fun _ h => accessed_seqWrite h
    case failClear => exact onWrite_holds fun _ h => (accessed_seqWrite h).setPhase _
    case poll =>
      exact pollLine_holds (fun _ _ h _ => (accessed_seqRead h).setWork _) (fun _ _ h _ _ => (accessed_seqRead h).setWork _)
        fun _ _ h _ _ => (accessed_seqRead h).setWork _
    case status =>
      refine onRead_holds fun _ _ h => ?_
      split
      · exact accessed_seqRead h
      · exact (accessed_seqRead h).setPhase _
  · cases l <;> dsimp only [runLine, writeLine]
    case data => exact onWrite_holds fun _ h => accessed_seqWrite h
    case wait =>
      refine onRead_holds fun _ _ h => ?_
      split
      · exact accessed_seqRead h
      · split
        · exact (accessed_seqRead h).setPhase _
        · exact accessed_seqRead h
  · cases l <;> dsimp only [runLine, readLine]
    case poll =>
      refine pollLine_holds (fun _ _ h _ => ?_) (fun _ _ h _ _ => (accessed_seqRead h).setWork _)
        fun _ _ h _ _ => ((accessed_seqRead h).setWork _).setPhase _
      split
      · exact ((accessed_seqRead h).setWork _).setPhase _
      · exact (accessed_seqRead h).setWork _
    case readCtrl | data => exact onRead_holds fun _ _ h => accessed_seqRead h
    case writeCtrl => exact onWrite_holds fun _ h => accessed_seqWrite h
  · cases l <;> dsimp only [runLine, stopLine]
    case readCtrl => exact onRead_holds fun _ _ h => accessed_seqRead h
    case writeCtrl => exact onWrite_holds fun _ h => (accessed_seqWrite h).setPhase _
  · exact absurd rfl hl

/-- Only the two waits make a read again without bound (70_reset_and_hazards.md R300). -/
theorem runLine_spin {p : Params} {l : Line} {s t : State} (h : runLine p l s = .spin t) :
    l = .init .resetWait ∨ ∃ b, l = .write b .wait := by
  have hr : ∀ {a k}, (∀ v u, k v u ≠ .spin t) → onRead a k ≠ .spin t := by
    intro a k hk h
    unfold onRead at h
    split at h
    · exact hk _ _ h
    · cases h
  have hw : ∀ {a k}, (∀ u, k u ≠ .spin t) → onWrite a k ≠ .spin t := by
    intro a k hk h
    unfold onWrite at h
    split at h
    · exact hk _ h
    · cases h
  have hp : ∀ {m x k}, (∀ u, x u ≠ .spin t) → (∀ v u, k v u ≠ .spin t) → pollLine p m s x k ≠ .spin t := by
    intro m x k hx hk
    refine hr fun v u => ?_
    by_cases hm : v &&& m = 0#32
    · by_cases hb : u.work.pollcnt + 1 < p.pollBudget <;> simp [hm, hb, hx]
    · simp [hm, hk]
  rcases l with l | ⟨a, d, l⟩ | ⟨b, l⟩ | ⟨again, l⟩ | l | _
  · cases l <;> dsimp only [runLine, initLine] at h
    case clkEnable | clkSelect | pinSda | pinScl => cases h
    case swrst | master | baud | enable => exact absurd h (hw fun _ => by simp)
    case resetWait => exact .inl rfl
  · cases l <;> dsimp only [runLine, startLine] at h
    case check => exact absurd h (hr fun _ _ => by split <;> simp)
    case flags | failRead => exact absurd h (hr fun _ _ => by simp)
    case status => exact absurd h (hr fun _ _ => by split <;> simp)
    case cleanup | address | failStop | failClear => exact absurd h (hw fun _ => by simp)
    case poll => exact absurd h (hp (fun _ => by simp) fun _ _ => by simp)
  · cases l <;> dsimp only [runLine, writeLine] at h
    case data => exact absurd h (hw fun _ => by simp)
    case wait => exact .inr ⟨b, rfl⟩
  · cases l <;> dsimp only [runLine, readLine] at h
    case poll => exact absurd h (hp (fun _ => by simp) fun _ _ => by split <;> simp)
    case readCtrl | data => exact absurd h (hr fun _ _ => by simp)
    case writeCtrl => exact absurd h (hw fun _ => by simp)
  · cases l <;> dsimp only [runLine, stopLine] at h
    case readCtrl => exact absurd h (hr fun _ _ => by simp)
    case writeCtrl => exact absurd h (hw fun _ => by simp)
  · cases h

end Sys2Proof.Machine
end

