-- ==== Sys2Proof/Laws/Operations.lean ====
section
/-! SUPPORT. How a step of the sequencer, of the block and of the machine can go, and how an operation does: where each
begins and how each ends, said once. -/

namespace Sys2Proof.Machine

/-! ### How an item of a script ends -/

/-- On OK the script goes on to its next item, or the operation ends with its results; a failure ends it at once, with
the item's error (42_sensor_ops.md R202, R204). -/
theorem itemEnded_cases (i : Instr) (o : Operation) (k : Nat) (st : Code) (d : Byte) (s : State) :
    (o.script[k]? = none ∧ itemEnded i o k st d s = .ended (finish .ok .ok (s.setRes (o.report s.work s.res)))) ∨
    (∃ it, o.script[k]? = some it ∧ st = .ok ∧ k + 1 < o.script.length ∧
      itemEnded i o k st d s = .moved (moveTo i (k + 1) (itemLine o (k + 1)) (keepByte it.keep d s))) ∨
    (∃ it, o.script[k]? = some it ∧ st = .ok ∧ ¬ k + 1 < o.script.length ∧
      itemEnded i o k st d s =
        .ended (finish .ok .ok ((keepByte it.keep d s).setRes
          (o.report (keepByte it.keep d s).work (keepByte it.keep d s).res)))) ∨
    (∃ it, o.script[k]? = some it ∧ st ≠ .ok ∧ itemEnded i o k st d s = .ended (finishFailed it.onFail st s)) := by
  cases hk : o.script[k]? with
  | none => exact .inl ⟨rfl, by simp [itemEnded, hk]⟩
  | some it =>
    by_cases hst : st = .ok
    · subst hst
      by_cases hl : k + 1 < o.script.length
      · exact .inr (.inl ⟨it, rfl, rfl, hl, by simp [itemEnded, hk, hl]⟩)
      · exact .inr (.inr (.inl ⟨it, rfl, rfl, hl, by simp [itemEnded, hk, hl]⟩))
    · refine .inr (.inr (.inr ⟨it, rfl, hst, ?_⟩))
      cases st <;> first | exact absurd rfl hst | simp [itemEnded, hk]

/-- A failure reports its status and cause and nothing else. -/
theorem finishFailed_cases (f : Option Code) (st : Code) (s : State) :
    ∃ c c', finishFailed f st s = finish c c' s := by
  cases f with
  | none => exact ⟨st, .ok, rfl⟩
  | some e => exact ⟨e, st, rfl⟩

/-! ### How a step goes -/

/-- `M` holds of a state the operation goes on from, `W` of one that waits, `E` of its end. -/
def Progress.Holds (M W E : State → Prop) : Progress → Prop
  | .moved s => M s
  | .waits s => W s
  | .ended s => E s
  | .refused _ => True

/-- `t` is `s` after a sequencer step: the command word, the host's inputs and the turns stay, and one access at most is
recorded. -/
def SeqFrame (s t : State) : Prop :=
  t.cmdWord = s.cmdWord ∧ t.host = s.host ∧ t.feed = s.feed ∧
    ((t.trace = s.trace ∧ t.wire = s.wire ∧ t.eng = s.eng) ∨
      ∃ a x, reactionOf a s.eng = .ok x ∧ t.trace = s.trace ++ [a] ∧ t.eng = x.eng ∧ t.wire = s.wire ++ x.wire)

theorem SeqFrame.of_eq {s t u : State} (h : SeqFrame s t) (h1 : u.cmdWord = t.cmdWord) (h2 : u.host = t.host)
    (h3 : u.feed = t.feed) (h4 : u.trace = t.trace) (h5 : u.wire = t.wire) (h6 : u.eng = t.eng) : SeqFrame s u := by
  unfold SeqFrame at *
  rw [h1, h2, h3, h4, h5, h6]
  exact h

theorem Accessed.seqFrame {s t : State} (h : Accessed s t) : SeqFrame s t := by
  obtain ⟨a, x, hx, h1, h2, h3⟩ := h.record
  obtain ⟨f1, _, _, _, f2, f3⟩ := h.frame
  exact ⟨f1, f2, f3, .inr ⟨a, x, hx, h1, h2, h3⟩⟩

/-- Every outcome of a line is one access, and a conversion's is none. -/
theorem runLine_frame (p : Params) (l : Line) (s : State) :
    (runLine p l s).Holds (fun _ t => SeqFrame s t ∧ t.busy = s.busy ∧ t.res = s.res)
      (fun t => SeqFrame s t ∧ t.busy = s.busy ∧ t.res = s.res ∧ t.seq = s.seq)
      (fun t => SeqFrame s t ∧ t.busy = s.busy ∧ t.res = s.res ∧ t.seq = s.seq)
      (fun _ _ t => SeqFrame s t ∧ t.busy = s.busy ∧ t.res = s.res) := by
  by_cases hl : l = .convert
  · subst hl
    exact ⟨⟨rfl, rfl, rfl, .inl ⟨rfl, rfl, rfl⟩⟩, rfl, rfl⟩
  · have h := runLine_accessed (p := p) hl s
    generalize runLine p l s = x at h
    have f : ∀ {t}, Accessed s t → t.busy = s.busy ∧ t.res = s.res ∧ t.seq = s.seq := fun h =>
      ⟨h.frame.2.1, h.frame.2.2.1, h.frame.2.2.2.1⟩
    cases x with
    | goto l t => exact ⟨Accessed.seqFrame h, (f h).1, (f h).2.1⟩
    | again t => exact ⟨Accessed.seqFrame h, (f h).1, (f h).2.1, (f h).2.2⟩
    | spin t => exact ⟨Accessed.seqFrame h, (f h).1, (f h).2.1, (f h).2.2⟩
    | done st d t => exact ⟨Accessed.seqFrame h, (f h).1, (f h).2.1⟩
    | refused r => trivial

/-- A sequencer step that does not end the operation leaves the block as busy as it was, at a line of the same
operation; one that ends it leaves the block idle. -/
theorem seqStep_frame (p : Params) (o : Operation) (q : SeqPos) (s : State) (hq : s.seq = some q) :
    (seqStep p o q s).Holds
      (fun t => SeqFrame s t ∧ t.busy = s.busy ∧ ∃ q', t.seq = some q' ∧ q'.op = q.op)
      (fun t => SeqFrame s t ∧ t.busy = s.busy ∧ t.seq = some q ∧ t.res = s.res)
      (fun t => SeqFrame s t ∧ t.busy = false ∧ t.seq = none) := by
  have h := runLine_frame p q.line s
  unfold seqStep
  cases hx : runLine p q.line s with
  | goto l t =>
    rw [hx] at h
    exact ⟨h.1.of_eq (by simp) (by simp) (by simp) (by simp) (by simp) (by simp), by simpa using h.2.1, _, moveTo_seq ..,
      rfl⟩
  | again t =>
    rw [hx] at h
    exact ⟨h.1, h.2.1, q, h.2.2.2.trans hq, rfl⟩
  | spin t =>
    rw [hx] at h
    exact ⟨h.1, h.2.1, h.2.2.2.trans hq, h.2.2.1⟩
  | done st d t =>
    rw [hx] at h
    show (itemEnded q.op o q.item st d t).Holds _ _ _
    rcases itemEnded_cases q.op o q.item st d t with ⟨_, e⟩ | ⟨it, _, _, _, e⟩ | ⟨it, _, _, _, e⟩ | ⟨it, _, _, e⟩
    · rw [e]
      exact ⟨h.1.of_eq rfl rfl rfl rfl rfl rfl, rfl, rfl⟩
    · rw [e]
      exact ⟨h.1.of_eq (by simp) (by simp) (by simp) (by simp) (by simp) (by simp), by simpa using h.2.1, _,
        moveTo_seq .., rfl⟩
    · rw [e]
      exact ⟨h.1.of_eq (by simp) (by simp) (by simp) (by simp) (by simp) (by simp), rfl, rfl⟩
    · rw [e]
      obtain ⟨c, c', e'⟩ := finishFailed_cases it.onFail st t
      rw [e']
      exact ⟨h.1.of_eq rfl rfl rfl rfl rfl rfl, rfl, rfl⟩
  | refused r => trivial

/-- A step of the block is the engine's, or the sequencer's after a moment in which the engine holds. -/
theorem blockStep_cases (p : Params) (o : Operation) (q : SeqPos) (s : State) :
    (∃ f out x, complete p out s.eng = some x ∧
      blockStep p o q s = .moved (((s.setFeed f).setEng x.eng).pushWire x.wire)) ∨
    (∃ f, blockStep p o q s = seqStep p o q (s.setFeed f)) := by
  rcases engineMove_cases p s with ⟨f, h⟩ | ⟨f, out, x, hc, h⟩
  · exact .inr ⟨f, by simp [blockStep, h]⟩
  · exact .inl ⟨f, out, x, hc, by simp [blockStep, h]⟩

/-! ### How the steps of an operation follow one another -/

theorem runSteps_moved {p : Params} {o : Operation} {n : Nat} {s t : State} {q : SeqPos} (hq : s.seq = some q)
    (h : blockStep p o q s = .moved t) : runSteps p o (n + 1) s = runSteps p o n t := by
  simp [runSteps, hq, h]

theorem runSteps_waits {p : Params} {o : Operation} {n : Nat} {s t : State} {q : SeqPos} (hq : s.seq = some q)
    (h : blockStep p o q s = .waits t) : runSteps p o (n + 1) s = .next t := by
  simp [runSteps, hq, h]

theorem runSteps_ended {p : Params} {o : Operation} {n : Nat} {s t : State} {q : SeqPos} (hq : s.seq = some q)
    (h : blockStep p o q s = .ended t) : runSteps p o (n + 1) s = .next t := by
  simp [runSteps, hq, h]

theorem runSteps_refused {p : Params} {o : Operation} {n : Nat} {s : State} {r : Refusal} {q : SeqPos} (hq : s.seq = some q)
    (h : blockStep p o q s = .refused r) : runSteps p o (n + 1) s = .refused r := by
  simp [runSteps, hq, h]

/-- What every step of the block keeps holds where its steps stop; where they stop at a wait or at the operation's end,
what that step leaves holds. -/
theorem runSteps_next {p : Params} {o : Operation} {Q R : State → Prop}
    (hm : ∀ {s t q}, Q s → s.seq = some q → blockStep p o q s = .moved t → Q t)
    (hw : ∀ {s t q}, Q s → s.seq = some q → blockStep p o q s = .waits t → R t)
    (he : ∀ {s t q}, Q s → s.seq = some q → blockStep p o q s = .ended t → R t) :
    ∀ {n : Nat} {s t : State}, Q s → runSteps p o n s = .next t → Q t ∨ R t := by
  intro n
  induction n with
  | zero =>
    intro s t hs h
    cases h
    exact .inl hs
  | succ n ih =>
    intro s t hs h
    unfold runSteps at h
    split at h
    · cases h
      exact .inl hs
    · rename_i q hq
      split at h
      · rename_i hb
        exact ih (hm hs hq hb) h
      · rename_i hb
        cases h
        exact .inr (hw hs hq hb)
      · rename_i hb
        cases h
        exact .inr (he hs hq hb)
      · cases h

/-- There are steps for at least one step of the block. -/
theorem stepBound_pos (p : Params) (o : Operation) : 27 ≤ stepBound p o := by
  unfold stepBound
  generalize 3 * (o.script.length + 1) * p.pollBudget = a
  omega

/-! ### Where an operation is taken up -/

/-- An operation begins only with no other running, in a phase that allows it. -/
theorem enter_begin {i : Instr} {s : State} (h : enter i s = .ok true) : s.seq = none ∧ legalIn i s.phase = true := by
  unfold enter at h
  split at h
  · split at h <;> simp at h
  · rename_i hs
    split at h
    · exact ⟨hs, by assumption⟩
    · simp at h

/-- An operation goes on only where it stands. -/
theorem enter_resume {i : Instr} {s : State} (h : enter i s = .ok false) : ∃ q, s.seq = some q ∧ q.op = i := by
  unfold enter at h
  split at h
  · rename_i q hq
    split at h
    · exact ⟨q, hq, by assumption⟩
    · simp at h
  · split at h <;> simp at h

theorem enter_of_begin {i : Instr} {s : State} (hs : s.seq = none) (hl : legalIn i s.phase = true) :
    enter i s = .ok true := by
  simp [enter, hs, hl]

theorem enter_of_resume {i : Instr} {s : State} {q : SeqPos} (hs : s.seq = some q) (hi : q.op = i) :
    enter i s = .ok false := by
  simp [enter, hs, hi]

theorem enter_illegal {i : Instr} {s : State} (hs : s.seq = none) (hl : legalIn i s.phase = false) :
    enter i s = .error .illegalInPhase := by
  simp [enter, hs, hl]

/-- An operation begins at its first line, or goes on from the line it stands at. -/
theorem runOperation_cases {p : Params} {i : Instr} {o : Operation} {s : State} {x : Host.Outcome State Fault Refusal}
    (h : runOperation p i o s = x) :
    (s.seq = none ∧ legalIn i s.phase = true ∧ runSteps p o (stepBound p o) (beginOperation i o s) = x) ∨
    (∃ q, s.seq = some q ∧ q.op = i ∧ runSteps p o (stepBound p o) s = x) ∨ (∃ r, enter i s = .error r ∧ x = .refused r) := by
  unfold runOperation at h
  split at h
  · exact .inr (.inr ⟨_, by assumption, h.symm⟩)
  · rename_i he
    exact .inl ⟨(enter_begin he).1, (enter_begin he).2, h⟩
  · rename_i he
    obtain ⟨q, hq, hi⟩ := enter_resume he
    exact .inr (.inl ⟨q, hq, hi, h⟩)

/-- The meaning of an instruction runs its operation. -/
theorem exec_runs (i : Instr) (s : State) : exec i s = runOperation Config.params i (operationOf i) s := by
  cases i <;> rfl

/-! ### How a step of the machine goes -/

/-- With no step of the host the block's step goes on with the operation, or is the engine's moment. -/
theorem advance_cases {s t : State} (h : advance s = .next t) :
    (∃ q, s.seq = some q ∧ (blockStep Config.params (operationOf q.op) q s).outcome = .next t) ∨
    (s.seq = none ∧ (engineMove Config.params s = .completed t ∨ engineMove Config.params s = .holds t)) := by
  unfold advance at h
  split at h
  · rename_i q hq
    exact .inl ⟨q, hq, h⟩
  · rename_i hq
    refine .inr ⟨hq, ?_⟩
    split at h <;> cases h
    · exact .inl (by assumption)
    · exact .inr (by assumption)

/-- A step is a hardware reset, the issue of an operation, or the block's own. -/
theorem step_cases {s t : State} (h : step s = .next t) :
    (∃ rest, s.host = .hwReset :: rest ∧ t = hwReset (s.setHost rest)) ∨
    (∃ w rest i b, s.host = .issue w :: rest ∧ s.busy = false ∧ decode w = .ok i ∧ enter i (s.setHost rest) = .ok b ∧
      t = beginOperation i (operationOf i) ((s.setHost rest).setCmdWord w)) ∨
    (∃ hs, (hs = s.host ∨ s.host = .idle :: hs) ∧ advance (s.setHost hs) = .next t) := by
  unfold step at h
  split at h
  · exact .inr (.inr ⟨s.host, .inl rfl, h⟩)
  · rename_i hh
    exact .inr (.inr ⟨_, .inr hh, h⟩)
  · rename_i rest hh
    cases h
    exact .inl ⟨rest, hh, rfl⟩
  · rename_i w rest hh
    split at h
    · exact .inr (.inr ⟨s.host, .inl rfl, h⟩)
    · rename_i hb
      unfold issue at h
      split at h
      · cases h
      · rename_i i hd
        split at h
        · cases h
        · rename_i b he
          cases h
          exact .inr (.inl ⟨w, rest, i, b, hh, by simpa using hb, hd, he, rfl⟩)

/-! ### The engine's moments before a conversion, and with the engine holding -/

/-- An engine that holds leaves the moment to the sequencer, and itself as it is. -/
theorem engineMove_of_holds {p : Params} {s : State} (h : EngineHolds s) :
    ∃ f, engineMove p s = .holds (s.setFeed f) := by
  rcases h with h | h
  · exact ⟨s.feed, by simp [engineMove, h]⟩
  · by_cases hi : s.eng.inflight = .none
    · exact ⟨s.feed, by simp [engineMove, hi]⟩
    · cases ht : s.feed.turns with
      | nil => simp [ht] at h
      | cons t rest =>
        obtain rfl : t = .hold := by simpa [ht] using h
        exact ⟨{ s.feed with turns := rest }, by simp [engineMove, hi, nextTurn, ht]⟩

/-- With nothing in flight the engine completes nothing. -/
@[simp] theorem engineMeanwhile_of_none {n : Nat} {s : State} (h : s.eng.inflight = .none) :
    engineMeanwhile n s = s := by
  cases n <;> simp [engineMeanwhile, engineMove, h]

/-! ### Runs -/

/-- A run's first step and the rest of it. -/
theorem run_cons {n : Nat} {s t : State} (h : step s = .next t) :
    Host.Core.run core (n + 1) s = Host.Core.run core n t := by
  have h' : core.step s = .next t := h
  simp [Host.Core.run, h']

/-- A run that answers a next state has a first step that does. -/
theorem run_succ_next {n : Nat} {s t : State} (h : Host.Core.run core (n + 1) s = .next t) :
    ∃ u, step s = .next u ∧ Host.Core.run core n u = .next t := by
  cases hs : step s with
  | next u => exact ⟨u, rfl, by rwa [run_cons hs] at h⟩
  | fault r => cases r
  | refused r =>
    have h' : core.step s = .refused r := hs
    simp [Host.Core.run, h'] at h

/-- The steps of a run lead from a reachable state to one. -/
theorem Reachable.run : ∀ {n : Nat} {s t : State}, Reachable s → Host.Core.run core n s = .next t → Reachable t := by
  intro n
  induction n with
  | zero =>
    intro s t hs h
    cases h
    exact hs
  | succ n ih =>
    intro s t hs h
    obtain ⟨u, hu, hr⟩ := run_succ_next h
    exact ih (hs.step hu) hr

/-- A run of `m + n` steps is `m` steps and then `n`. -/
theorem run_add {n : Nat} : ∀ {m : Nat} {s t : State}, Host.Core.run core m s = .next t →
    Host.Core.run core (m + n) s = Host.Core.run core n t := by
  intro m
  induction m with
  | zero =>
    intro s t h
    cases h
    rw [Nat.zero_add]
  | succ m ih =>
    intro s t h
    obtain ⟨u, hu, hr⟩ := run_succ_next h
    rw [Nat.succ_add, run_cons hu]
    exact ih hr

/-- One read of a receive poll whose byte the environment withholds: it is made again, or, the budget spent, it ends the
`READ` with `Timeout`; the engine stands as it stood (41_bus_primitives.md R183, R190). -/
theorem step_read_withheld {g : Bool} {rest : List Turn} {s : State}
    (hq : s.seq = some { op := .read g, item := 0, line := .read g .poll }) (hh : s.host = [])
    (hi : s.eng.inflight = .rxPh) (hs : s.eng.intflag.sb = false) (he : s.eng.intflag.error = false)
    (ht : s.feed.turns = .hold :: rest) :
    ∃ t, step s = .next t ∧ t.eng = s.eng ∧ t.wire = s.wire ∧ t.host = [] ∧ t.feed = { s.feed with turns := rest } ∧
      t.work.pollcnt = s.work.pollcnt + 1 ∧
      if s.work.pollcnt + 1 < Config.params.pollBudget then t.seq = s.seq ∧ t.busy = s.busy ∧ t.phase = s.phase
      else t.seq = none ∧ t.busy = false ∧ t.phase = .idle := by
  have hf : regValue .intflag s.eng &&& (maskSb ||| maskError) = 0#32 := by
    cases hm : s.eng.intflag.mb <;> simp [regValue, intflagBits, hm, hs, he] <;> decide
  have hr : seqRead .intflag (s.setFeed { s.feed with turns := rest }) = .ok (regValue .intflag s.eng,
      (afterAccess (.rd .intflag (regValue .intflag s.eng)) { eng := s.eng, wire := [] }
        (s.setFeed { s.feed with turns := rest })).setWork (latch .intflag (regValue .intflag s.eng) s.work)) :=
    seqRead_ok (r := .intflag) (.inr (by simp [hi]))
  have hm : engineMove Config.params s = .holds (s.setFeed { s.feed with turns := rest }) := by
    simp [engineMove, hi, nextTurn, ht]
  have hstep : step s = (seqStep Config.params (operationOf (.read g)) { op := .read g, item := 0, line := .read g .poll }
      (s.setFeed { s.feed with turns := rest })).outcome := by
    simp [step, hh, advance, hq, blockStep, hm]
  rw [hstep]
  by_cases hb : s.work.pollcnt + 1 < Config.params.pollBudget
  · refine ⟨_, by
      simp [seqStep, runLine, readLine, pollLine, onRead, hr, hf, latch, hb, Progress.outcome]
      rfl, ?_⟩
    simp [hb, hq, hh, afterAccess]
  · refine ⟨_, by
      simp [seqStep, runLine, readLine, pollLine, onRead, hr, hf, latch, hb, Progress.outcome]
      rfl, ?_⟩
    simp [hb, hh, afterAccess, finishFailed, finish]

/-- A receive poll whose byte the environment withholds until the budget is spent ends the `READ` with `Timeout`; the
engine stands as it stood (41_bus_primitives.md R183). -/
theorem run_read_timeout {g : Bool} {rest : List Turn} : ∀ {n : Nat} {s : State},
    s.seq = some { op := .read g, item := 0, line := .read g .poll } → s.host = [] → s.eng.inflight = .rxPh →
    s.eng.intflag.sb = false → s.eng.intflag.error = false →
    s.work.pollcnt + (n + 1) = Config.params.pollBudget → s.feed.turns = List.replicate (n + 1) .hold ++ rest →
    ∃ t, Host.Core.run core (n + 1) s = .next t ∧ t.eng = s.eng ∧ t.wire = s.wire ∧ t.host = [] ∧ t.seq = none ∧
      t.busy = false ∧ t.phase = .idle ∧ t.feed = { s.feed with turns := rest } := by
  intro n
  induction n with
  | zero =>
    intro s hq hh hi hs he hb ht
    obtain ⟨t, h, h1, h2, h3, h4, _, h5⟩ := step_read_withheld hq hh hi hs he ht
    rw [if_neg (by omega)] at h5
    exact ⟨t, (run_cons h).trans rfl, h1, h2, h3, h5.1, h5.2.1, h5.2.2, h4⟩
  | succ n ih =>
    intro s hq hh hi hs he hb ht
    obtain ⟨t, h, h1, h2, h3, h4, h6, h5⟩ :=
      step_read_withheld (rest := List.replicate (n + 1) .hold ++ rest) hq hh hi hs he (ht.trans rfl)
    rw [if_pos (by omega)] at h5
    obtain ⟨u, hu, k1, k2, k3, k4, k5, k6, k7⟩ := ih (s := t) (h5.1.trans hq) h3 (h1 ▸ hi) (h1 ▸ hs) (h1 ▸ he)
      (by omega) (by rw [h4])
    exact ⟨u, (run_cons h).trans hu, k1.trans h1, k2.trans h2, k3, k4, k5, k6, by rw [k7, h4]⟩

end Sys2Proof.Machine
end

