-- ==== Sys2Proof/Laws/PerInstr.lean ====
section
/-! SUPPORT. What holds of the encoding of every instruction, one lemma per constructor (30_encoding.md R100 to R102,
R109): the fields of the encoded word are the operation's, and they are well formed. -/

namespace Sys2Proof.Laws.EncodingShape

/-- The fields of an encoded instruction are its opcode, zero and its operand, and the word is well formed. -/
def Statement (i : Instr) : Prop :=
  fieldsOf (encode i) = { opcode := opcodeOf i, zero := 0#8, operand := operandOf i } ∧
    (fieldsOf (encode i)).wellFormed = true

/-- A word's fields are those it was made of. -/
theorem fieldsOf_wordOf (c : Command) : fieldsOf (wordOf c) = c := by
  have h1 : (c.opcode ++ c.zero ++ c.operand).extractLsb' 24 8 = c.opcode := by
    ext i hi
    simp only [BitVec.getElem_extractLsb', BitVec.getLsbD_append]
    rw [if_neg (by omega), if_neg (by omega), show 24 + i - 16 - 8 = i by omega]
    simp [BitVec.getLsbD_eq_getElem hi]
  have h2 : (c.opcode ++ c.zero ++ c.operand).extractLsb' 16 8 = c.zero := by
    ext i hi
    simp only [BitVec.getElem_extractLsb', BitVec.getLsbD_append]
    rw [if_neg (by omega), if_pos (by omega), show 16 + i - 16 = i by omega]
    simp [BitVec.getLsbD_eq_getElem hi]
  have h3 : (c.opcode ++ c.zero ++ c.operand).extractLsb' 0 16 = c.operand := by
    ext i hi
    simp only [BitVec.getElem_extractLsb', BitVec.getLsbD_append]
    rw [if_pos (by omega), show 0 + i = i by omega]
    simp [BitVec.getLsbD_eq_getElem hi]
  show Command.mk _ _ _ = c
  rw [wordOf, h1, h2, h3]

/-- The statement follows from the operand's unused bits being zero. -/
theorem of_operand {i : Instr} {used : Half} (h : usedOperandBits (opcodeOf i) = some used)
    (hz : operandOf i &&& ~~~used = 0#16) : Statement i := by
  refine ⟨fieldsOf_wordOf _, ?_⟩
  rw [encode, fieldsOf_wordOf]
  simp [Command.wellFormed, Command.opcodeKnown, Command.zeroFieldClear, Command.unusedBitsClear, h, hz]

/-- An operand of one byte leaves the upper byte zero. -/
theorem byte_operand (b : BitVec 8) : (0#8 ++ b : Half) &&& ~~~0x00FF#16 = 0#16 := by
  revert b
  decide

theorem init : Statement .init := of_operand (used := 0x0000#16) rfl rfl

theorem start (a : BitVec 7) (d : Dir) : Statement (.start a d) := by
  refine of_operand (used := 0x00FF#16) rfl ?_
  show (0#8 ++ a ++ dirBit d : Half) &&& _ = _
  revert a
  cases d <;> decide

theorem write (b : Byte) : Statement (.write b) := of_operand (used := 0x00FF#16) rfl (byte_operand b)

theorem read (again : Bool) : Statement (.read again) := by
  refine of_operand (used := 0x0001#16) rfl ?_
  cases again <;> rfl

theorem stop : Statement .stop := of_operand (used := 0x0000#16) rfl rfl

theorem sReset : Statement .sReset := of_operand (used := 0x0000#16) rfl rfl

theorem sReadSn : Statement .sReadSn := of_operand (used := 0x0000#16) rfl rfl

theorem sReadRh : Statement .sReadRh := of_operand (used := 0x0000#16) rfl rfl

theorem sReadT : Statement .sReadT := of_operand (used := 0x0000#16) rfl rfl

theorem sReadTl : Statement .sReadTl := of_operand (used := 0x0000#16) rfl rfl

theorem convRh (code : Half) : Statement (.convRh code) :=
  of_operand (used := 0xFFFF#16) rfl (by show code &&& ~~~0xFFFF#16 = 0#16; simp [show ~~~0xFFFF#16 = 0#16 from rfl])

theorem convT (code : Half) : Statement (.convT code) :=
  of_operand (used := 0xFFFF#16) rfl (by show code &&& ~~~0xFFFF#16 = 0#16; simp [show ~~~0xFFFF#16 = 0#16 from rfl])

end Sys2Proof.Laws.EncodingShape
end

