-- ==== Sys2Proof/Tests/Slice0.lean ====
section
/-! SUPPORT. The model's own tests. Expected results are those of 95_test_vectors.md (the vector's name stands in each
test's comment) or are written out from the rules named. The `witness_` theorems show, for a statement with hypotheses,
states and operands that meet them; they claim nothing of what the statement concludes. -/

namespace Sys2Proof.Tests

open Sys2Proof.Machine

set_option maxRecDepth 100000

/-! ### Ill-formed words (30_encoding.md R109) -/

/-- V20: an opcode not in the map. -/
theorem test_wellFormed_unknown_opcode :
    Command.wellFormed { opcode := 0x05#8, zero := 0#8, operand := 0#16 } = false ∧
      Command.opcodeKnown { opcode := 0x05#8, zero := 0#8, operand := 0#16 } = false := by decide

/-- V27: the zero field set. -/
theorem test_wellFormed_zero_field_set :
    Command.wellFormed { opcode := 0x20#8, zero := 0x01#8, operand := 0x6D4B#16 } = false ∧
      Command.zeroFieldClear { opcode := 0x20#8, zero := 0x01#8, operand := 0x6D4B#16 } = false := by decide

/-- V23: an operand bit that `START` does not use. -/
theorem test_wellFormed_unused_operand_bit :
    Command.wellFormed { opcode := 0x01#8, zero := 0#8, operand := 0x0100#16 } = false ∧
      Command.unusedBitsClear { opcode := 0x01#8, zero := 0#8, operand := 0x0100#16 } = false := by decide

/-- V21: the boundary opcodes are unknown. -/
theorem test_decode_reserved_opcodes :
    decode 0x0F000000#32 = .error .unknownOpcode ∧ decode 0x15000000#32 = .error .unknownOpcode ∧
      decode 0x1F000000#32 = .error .unknownOpcode ∧ decode 0x22000000#32 = .error .unknownOpcode ∧
      decode 0xFF000000#32 = .error .unknownOpcode := ⟨rfl, rfl, rfl, rfl, rfl⟩

/-- V22, V24, V25, V26: operand bits set that the operation does not use. -/
theorem test_decode_unused_bits :
    decode 0x00000001#32 = .error .unusedOperandBitSet ∧ decode 0x02000100#32 = .error .unusedOperandBitSet ∧
      decode 0x03000002#32 = .error .unusedOperandBitSet ∧ decode 0x03000003#32 = .error .unusedOperandBitSet ∧
      decode 0x04000001#32 = .error .unusedOperandBitSet ∧ decode 0x13000001#32 = .error .unusedOperandBitSet :=
  ⟨rfl, rfl, rfl, rfl, rfl, rfl⟩

/-! ### Every constructor, from a word written out from 30_encoding.md R101, R102 (V1 to V18) -/

theorem test_decode_init : decode 0x00000000#32 = .ok .init := rfl
theorem test_decode_start_write : decode 0x01000080#32 = .ok (.start 0x40#7 .write) := rfl
theorem test_decode_start_read : decode 0x010000FF#32 = .ok (.start 0x7F#7 .read) := rfl
theorem test_decode_write : decode 0x020000E3#32 = .ok (.write 0xE3#8) := rfl
theorem test_decode_read_ack : decode 0x03000001#32 = .ok (.read true) := rfl
theorem test_decode_read_nack : decode 0x03000000#32 = .ok (.read false) := rfl
theorem test_decode_stop : decode 0x04000000#32 = .ok .stop := rfl
theorem test_decode_sReset : decode 0x10000000#32 = .ok .sReset := rfl
theorem test_decode_sReadSn : decode 0x11000000#32 = .ok .sReadSn := rfl
theorem test_decode_sReadRh : decode 0x12000000#32 = .ok .sReadRh := rfl
theorem test_decode_sReadT : decode 0x13000000#32 = .ok .sReadT := rfl
theorem test_decode_sReadTl : decode 0x14000000#32 = .ok .sReadTl := rfl
theorem test_decode_convRh : decode 0x20006D4B#32 = .ok (.convRh 0x6D4B#16) := rfl
theorem test_decode_convT : decode 0x2100FFFF#32 = .ok (.convT 0xFFFF#16) := rfl

/-! ### Small states -/

/-- After reset, with the turns `ts`. -/
def fresh (ts : List Turn) : State := State.reset.setFeed { turns := ts, draws := 0 }

/-- The engine `INIT` leaves. -/
def engineOn : Engine :=
  { engineReset with ctrl := { enable := true, master := true, ackact := false }, baud := Config.baudDiv }

/-- "After `INIT`" (95_test_vectors.md section 0). -/
def idle (ts : List Turn) : State := ((fresh ts).setPhase .idle).setEng engineOn

/-- "In `DATA_W`". -/
def dataW (ts : List Turn) : State :=
  ((fresh ts).setPhase .dataW).setEng
    { engineOn with intflag := { mb := true, sb := false, error := false }, addr := 0x80#8, owned := true, dir := .write }

/-- "In `DATA_R` with byte `b`". -/
def dataR (b : Byte) (ts : List Turn) : State :=
  ((fresh ts).setPhase .dataR).setEng
    { engineOn with
      intflag := { mb := true, sb := true, error := false }, data := b, addr := 0x81#8, owned := true, dir := .read,
      ackPending := true }

/-- In `DATA_R` with the first byte in flight. -/
def dataRWaiting (ts : List Turn) : State :=
  ((fresh ts).setPhase .dataR).setEng
    { engineOn with
      intflag := { mb := true, sb := false, error := false }, addr := 0x81#8, owned := true, dir := .read,
      inflight := .rxPh }

/-- The same with the phase IDLE: a `READ` has timed out. -/
def timedOut (ts : List Turn) : State := (dataRWaiting ts).setPhase .idle

/-- `DATA_W` with `ERROR` set. -/
def dataWError (ts : List Turn) : State :=
  (dataW ts).setEng { (dataW ts).eng with intflag := { mb := true, sb := false, error := true } }

/-- `DATA_R` with `ERROR` set. -/
def dataRError (ts : List Turn) : State :=
  (dataR 0x11#8 ts).setEng { (dataR 0x11#8 ts).eng with intflag := { mb := true, sb := true, error := true } }

/-- The operation `i` runs and stands at the line `l` of its one primitive. -/
def standing (i : Instr) (l : Line) (s : State) : State :=
  (s.setBusy true).setSeq (some { op := i, item := 0, line := l })

/-- `WRITE 0xE3` at its transmit wait. -/
def writeWaiting (ts : List Turn) : State :=
  standing (.write 0xE3#8) (.write 0xE3#8 .wait)
    ((dataW ts).setEng
      { (dataW ts).eng with
        intflag := { mb := false, sb := false, error := false }, data := 0xE3#8, inflight := .txPh })

/-- `INIT` at its reset wait. -/
def initWaiting (ts : List Turn) : State :=
  standing .init (.init .resetWait) ((fresh ts).setEng { engineReset with inflight := .resetPh })

/-! ### They meet the invariant -/

theorem inv_fresh (ts : List Turn) : Inv (fresh ts) := by
  simp +decide [Machine.Inv, ModeInv, SeqInv, WriteInv, State.setFeed, fresh, State.reset, engineReset, bootFits]

theorem inv_idle (ts : List Turn) : Inv (idle ts) := by
  simp +decide [Machine.Inv, ModeInv, SeqInv, WriteInv, State.setFeed, State.setPhase, State.setEng, idle, fresh,
    State.reset, engineOn, engineReset, underWay]

theorem inv_dataW (ts : List Turn) : Inv (dataW ts) := by
  simp +decide [Machine.Inv, ModeInv, SeqInv, WriteInv, State.setFeed, State.setPhase, State.setEng, dataW, fresh,
    State.reset, engineOn, engineReset, underWay]

theorem inv_dataWError (ts : List Turn) : Inv (dataWError ts) := by
  simp +decide [Machine.Inv, ModeInv, SeqInv, WriteInv, State.setFeed, State.setPhase, State.setEng, dataWError, dataW,
    fresh, State.reset, engineOn, engineReset, underWay]

theorem inv_dataR (b : Byte) (ts : List Turn) : Inv (dataR b ts) := by
  simp +decide [Machine.Inv, EngineInv, ModeInv, SeqInv, WriteInv, State.setFeed, State.setPhase, State.setEng, dataR,
    fresh, State.reset, engineOn, engineReset, underWay]

theorem inv_timedOut (ts : List Turn) : Inv (timedOut ts) := by
  simp +decide [Machine.Inv, ModeInv, SeqInv, WriteInv, State.setFeed, State.setPhase, State.setEng, timedOut,
    dataRWaiting, fresh, State.reset, engineOn, engineReset, underWay]

theorem inv_writeWaiting (ts : List Turn) : Inv (writeWaiting ts) := by
  simp +decide [Machine.Inv, ModeInv, SeqInv, WriteInv, State.setFeed, State.setPhase, State.setEng, State.setBusy,
    State.setSeq, writeWaiting, standing, dataW, fresh, State.reset, engineOn, engineReset, underWay, standsWell,
    inScript, operationOf, writeOperation, startOperation, hostPrimitive, lineOf, phaseAt, engineFits, isPollLine]

/-! ### Outcomes -/

def isNext (o : Host.Outcome State Fault Refusal) : Bool :=
  match o with
  | .next _ => true
  | _ => false

/-- The next state of an outcome that is one. -/
def nextOf (o : Host.Outcome State Fault Refusal) : State :=
  match o with
  | .next t => t
  | _ => State.reset

/-- The outcome is a next state with the property. -/
def goesTo (o : Host.Outcome State Fault Refusal) (P : State → Bool) : Bool :=
  match o with
  | .next t => P t
  | _ => false

theorem next_of_isNext {o : Host.Outcome State Fault Refusal} (h : isNext o = true) : o = .next (nextOf o) := by
  cases o with
  | next t => rfl
  | fault f => cases f
  | refused r => cases h

theorem exists_of_goesTo {o : Host.Outcome State Fault Refusal} {P : State → Bool} (h : goesTo o P = true) :
    ∃ t, o = .next t ∧ P t = true := by
  cases o with
  | next t => exact ⟨t, rfl, h⟩
  | fault f => cases f
  | refused r => cases h

abbrev ack : Turn := .go .ack
abbrev nack : Turn := .go .nack
abbrev lost : Turn := .go .arblost
abbrev byte (v : Byte) : Turn := .go (.byte v)

/-- `POLL_BUDGET` 3 and `ERR_ON_NACK` as given. -/
def par (onNack : Bool) : Params := { pollBudget := 3, baudDiv := 0x17#32, errOnNack := onNack }

/-! ### Instructions -/

/-- V33. -/
theorem test_init :
    goesTo (exec .init (fresh [ack])) (fun t =>
      t.res.status == 0x00#8 && t.phase == .idle && regValue .ctrl t.eng == 0x6#32 && t.trace.length == 9 && t.wire == []) =
      true := by decide

/-- V34, its first reads. -/
theorem test_init_waits :
    goesTo (exec .init (fresh [.hold, .hold])) (fun t =>
      t.busy && t.trace == [.ext .clkEnable, .ext .clkSelect, .wr .ctrl 0x1#32, .rd .ctrl 0x1#32]) = true := by decide

/-- T3. -/
theorem test_start_before_init :
    goesTo (exec (.start 0x40#7 .write) (fresh [])) (fun t =>
      t.res.status == 0xFF#8 && t.trace == [.rd .ctrl 0x0#32] && t.wire == [] && t.phase == .uninit) = true := by decide

/-- V36i: acknowledged just after the last poll. -/
theorem test_start_too_late :
    goesTo (runOperation (par false) (.start 0x40#7 .write) (startOperation 0x40#7 .write) (idle [.hold, .hold, .hold, ack]))
      (fun t => t.res.status == 0xFE#8 && t.wire == [.s, .address 0x80#8, .sack, .p] && regValue .intflag t.eng == 0#32 &&
        t.trace == [.rd .ctrl 0x6#32, .rd .intflag 0#32, .wr .addr 0x80#32, .rd .intflag 0#32, .rd .intflag 0#32,
          .rd .intflag 0#32, .rd .ctrl 0x6#32, .wr .ctrl 0x30006#32, .wr .intflag 0x80#32]) = true := by decide

/-- V36g: the automatic reception fails before `STATUS` is read. -/
theorem test_start_reception_fails :
    goesTo (exec (.start 0x40#7 .read) (idle [ack, .go .buserr])) (fun t =>
      t.res.status == 0xFC#8 && t.wire == [.s, .address 0x81#8, .sack] && regValue .status t.eng == 0x1#32 &&
        regValue .intflag t.eng == 0#32 && !t.eng.owned) = true := by decide

/-- V37: a repeated start with a byte unacknowledged. -/
theorem test_start_repeated :
    goesTo (exec (.start 0x40#7 .write) (dataR 0x11#8 [ack])) (fun t =>
      t.wire == [.mack, .sr, .address 0x80#8, .sack] && t.eng.data == 0x11#8 && t.phase == .dataW &&
        regValue .intflag t.eng == 0x1#32) = true := by decide

/-- V45a. -/
theorem test_write :
    goesTo (exec (.write 0xE3#8) (dataW [ack])) (fun t =>
      t.res.status == 0x00#8 && t.trace == [.wr .data 0xE3#32, .rd .intflag 0x1#32] && t.wire == [.tx 0xE3#8, .sack] &&
        t.phase == .dataW) = true := by decide

/-- V45c: a refused byte with `ERR_ON_NACK`. -/
theorem test_write_refused_byte :
    goesTo (runOperation (par true) (.write 0xE3#8) (writeOperation 0xE3#8) (dataW [nack])) (fun t =>
      t.res.status == 0xFC#8 && regValue .intflag t.eng == 0x81#32 && regValue .status t.eng == 0x4#32 &&
        t.eng.owned && t.phase == .idle) = true := by decide

/-- V48a: the byte is answered, and the next one is asked for. -/
theorem test_read_ack :
    goesTo (exec (.read true) (dataR 0x66#8 [byte 0x48#8])) (fun t =>
      t.res.byte == 0x66#8 && t.wire == [.mack] && t.eng.inflight == .rxPh &&
        t.trace == [.rd .intflag 0x3#32, .rd .ctrl 0x6#32, .wr .ctrl 0x6#32, .rd .data 0x66#32] &&
        goesTo (step t) (fun u => u.wire == [.mack, .rx 0x48#8] && u.eng.data == 0x48#8 && u.eng.ackPending)) = true := by
  decide

/-- V48f: `START` with a reception in flight: two accesses, each a step of its own, and the third refused. -/
theorem test_start_refused_at_its_third_access :
    goesTo (Host.Core.run core 3 ((timedOut [.hold, .hold, .hold]).setHost [.issue 0x01000080#32])) (fun t =>
      t.busy && t.trace == [.rd .ctrl 0x6#32, .rd .intflag 0x1#32] && t.wire == [] &&
        match step t with
        | .refused .addrWhileInFlight => true
        | _ => false) = true := by decide

/-- 41_bus_primitives.md R189: the same `START` step by step, the first states. -/
theorem test_start_one_access_a_step :
    goesTo (step ((idle [ack]).setHost [.issue 0x01000080#32])) (fun t => t.busy && t.trace == [] &&
      goesTo (step t) (fun u => u.busy && u.trace == [.rd .ctrl 0x6#32])) = true := by decide

/-- V48d: a byte withheld. -/
theorem test_read_timeout :
    goesTo (runOperation (par false) (.read true) (readOperation true) (dataRWaiting [.hold, .hold, .hold])) (fun t =>
      t.res.status == 0xFE#8 && t.trace == [.rd .intflag 0x1#32, .rd .intflag 0x1#32, .rd .intflag 0x1#32] &&
        t.eng.inflight == .rxPh && t.eng.owned && t.phase == .idle) = true := by decide

/-- V48e: `STOP` after it. -/
theorem test_stop_cancels :
    goesTo (exec .stop (timedOut [.hold, .hold])) (fun t =>
      t.res.status == 0x00#8 && t.wire == [.p] && t.eng.inflight == .none && regValue .intflag t.eng == 0#32 &&
        t.trace == [.rd .ctrl 0x6#32, .wr .ctrl 0x30006#32]) = true := by decide

/-- V48j: `STOP` on a bus already stopped. -/
theorem test_stop_idle :
    goesTo (exec .stop (idle [])) (fun t => t.wire == [] && t.trace.length == 2 && t.phase == .idle) = true := by decide

/-- 42_sensor_ops.md R206, its worked example. -/
theorem test_sReset :
    goesTo (exec .sReset (idle [ack, ack])) (fun t =>
      t.res.status == 0x00#8 && t.wire == [.s, .address 0x80#8, .sack, .tx 0xFE#8, .sack, .p]) = true := by decide

/-- T8. -/
theorem test_sReadSn :
    goesTo
      (exec .sReadSn
        (idle
          [ack, ack, ack, ack, byte 0xA0#8, byte 0xC0#8, byte 0xA1#8, byte 0xC1#8, byte 0xA2#8, byte 0xC2#8, byte 0xA3#8,
            byte 0xC3#8, ack, ack, ack, ack, byte 0x15#8, byte 0xFF#8, byte 0xB5#8, byte 0x4B#8, byte 0x00#8,
            byte 0x9C#8]))
      (fun t =>
        t.res.sn == { b0 := 0xA0#8, b1 := 0xA1#8, b2 := 0xA2#8, b3 := 0xA3#8, b4 := 0x15#8, b5 := 0xFF#8, b6 := 0x4B#8,
                      b7 := 0x00#8 }) = true := by decide

/-- V41, T7. -/
theorem test_sReadRh :
    goesTo (exec .sReadRh (idle [ack, ack, ack, byte 0x6D#8, byte 0x4B#8])) (fun t =>
      t.res.raw == 0x6D4B#16 && t.res.value == 0x1280#32 && t.wire.contains (.tx 0xE5#8)) = true := by decide

/-- V40, T7. -/
theorem test_sReadT :
    goesTo (exec .sReadT (idle [ack, ack, ack, byte 0x66#8, byte 0x48#8])) (fun t =>
      t.res.raw == 0x6648#16 && t.res.value == 0x91F#32 && t.trace.length == 22 &&
        t.wire == [.s, .address 0x80#8, .sack, .tx 0xE3#8, .sack, .sr, .address 0x81#8, .sack, .rx 0x66#8, .mack,
          .rx 0x48#8, .mnack, .p]) = true := by decide

/-- 42_sensor_ops.md R212, its worked example. -/
theorem test_sReadTl :
    goesTo (exec .sReadTl (idle [ack, ack, ack, byte 0x68#8, byte 0x04#8])) (fun t =>
      t.res.raw == 0x6804#16 && t.res.value == 0x996#32 && t.wire.contains (.tx 0xE0#8)) = true := by decide

/-- V30a, V30d, V30g, V30m. -/
theorem test_convRh :
    convRh 0x0000#16 = 0xFFFFFDA8#32 ∧ convRh 0x0C49#16 = 0xFFFFFFFF#32 ∧ convRh 0x6D4B#16 = 0x1280#32 ∧
      convRh 0xFFFF#16 = 0x2E7B#32 := by decide

/-- V31a, V31e, V31h, V31k. -/
theorem test_convT :
    convT 0x0000#16 = 0xFFFFEDB3#32 ∧ convT 0x4441#16 = 0xFFFFFFFF#32 ∧ convT 0x6648#16 = 0x91F#32 ∧
      convT 0xFFFF#16 = 0x3256#32 := by decide

/-! ### Witnesses: the hypotheses of each statement, met -/

theorem witness_EncodeInvertsDecode : ∃ i, decode 0x01000081#32 = .ok i := ⟨_, rfl⟩

theorem witness_TableRowsAreTheDecodedWords :
    ∃ r ∈ tableRows, (0x21000000#32 : Word) &&& r.1 = r.2 := by decide

/-- A host about to issue `w`. -/
def about (w : Word) (s : State) : State := s.setHost [.issue w]

theorem witness_ReservedAndIllegalCommandsAreRefused :
    (about 0x05000000#32 (fresh [])).busy = false ∧ (about 0x05000000#32 (fresh [])).seq = none ∧
    (about 0x05000000#32 (fresh [])).host = [.issue 0x05000000#32] ∧
    (fieldsOf 0x05000000#32).wellFormed = false ∧ (fieldsOf 0x0F000000#32).wellFormed = false ∧
    (fieldsOf 0x15000000#32).wellFormed = false ∧ (fieldsOf 0x1F000000#32).wellFormed = false ∧
    (fieldsOf 0x22000000#32).wellFormed = false ∧ (fieldsOf 0xFF000000#32).wellFormed = false ∧
    (fieldsOf 0x14000000#32).wellFormed = true ∧
    decode 0x020000E3#32 = .ok (.write 0xE3#8) ∧ legalIn (.write 0xE3#8) (about 0x020000E3#32 (fresh [])).phase = false := by
  decide

theorem witness_StepRunsTheDecodedCommand :
    (about 0x13000000#32 (idle [])).busy = false ∧ (about 0x13000000#32 (idle [])).seq = none ∧
    (about 0x13000000#32 (idle [])).host = .issue 0x13000000#32 :: [] ∧ decode 0x13000000#32 = .ok .sReadT ∧
    legalIn .sReadT (about 0x13000000#32 (idle [])).phase = true ∧ HostWaits [] ∧
    decode 0x03000001#32 = .ok (.read true) ∧ legalIn (.read true) (about 0x03000001#32 (dataR 1#8 [])).phase = true ∧
    isPollLine (itemLine (operationOf (.read true)) 0) = true ∧ legalIn (.read true) (idle []).phase = false :=
  ⟨rfl, rfl, rfl, rfl, rfl, .inl rfl, rfl, rfl, rfl, rfl⟩

theorem witness_StepsGoOnWithTheRunningOperation :
    (writeWaiting []).busy = true ∧
    (writeWaiting []).seq = some { op := .write 0xE3#8, item := 0, line := .write 0xE3#8 .wait } ∧
    HostWaits (writeWaiting []).host ∧ HostWaits (about 0#32 (writeWaiting [])).host ∧
    isNext (step (about 0#32 (writeWaiting [.hold]))) = true :=
  ⟨rfl, rfl, .inl rfl, .inr ⟨_, _, rfl⟩, by decide⟩

theorem witness_OneAgentMovesInAStep :
    isNext (step (about 0x01000080#32 (idle []))) = true ∧ isNext (step (dataRWaiting [byte 0x66#8])) = true ∧
    isNext (step (writeWaiting [.hold])) = true ∧ isNext (step (idle [])) = true ∧
    isNext (step (standing (.convT 0#16) .convert (idle []))) = true ∧
    (writeWaiting [.hold]).host.head? ≠ some .hwReset := by
  refine ⟨?_, ?_, ?_, ?_, ?_, ?_⟩ <;> decide

theorem witness_StepOfAnIdleBlockMovesOnlyTheEngine :
    (dataRWaiting [byte 0x66#8]).seq = none ∧ (dataRWaiting [byte 0x66#8]).host = [] ∧
    (idle []).seq = none ∧ (idle []).host = [] ∧ (idle []).eng.inflight = .none := by decide

theorem witness_HardwareResetFromAnyState :
    ((writeWaiting []).setHost [.hwReset, .idle]).host = .hwReset :: [.idle] := by decide

theorem witness_ResultsAreReadOnlyWhenNotBusy : (writeWaiting []).busy = true ∧ (idle []).busy = false := by decide

theorem witness_InitCompletes :
    (fresh [ack]).seq = none ∧ (fresh [ack]).phase = .uninit ∧ (fresh [ack]).eng.inflight = .none ∧
    (fresh [ack]).feed.turns = .go .ack :: [] ∧ (idle []).seq = none ∧ (idle []).phase ≠ .uninit := by decide

theorem witness_InitWaitsForTheReset :
    (initWaiting [.hold, .hold, ack]).seq = some { op := .init, item := 0, line := .init .resetWait } ∧
    (initWaiting [.hold, .hold, ack]).busy = true ∧ (initWaiting [.hold, .hold, ack]).host = [] ∧
    (initWaiting [.hold, .hold, ack]).eng.inflight = .resetPh ∧
    (initWaiting [.hold, .hold, ack]).feed.turns = List.replicate 2 .hold ++ .go .ack :: [] := by decide

theorem witness_StartToWriteCompletes :
    Ready (idle [ack]) ∧ (idle [ack]).feed.turns = .go .ack :: [] ∧ Ready (dataR 0x11#8 [ack]) := by decide

theorem witness_StartToReadCompletes :
    Ready (idle [ack, byte 0x66#8]) ∧ (idle [ack, byte 0x66#8]).feed.turns = .go .ack :: .go (.byte 0x66#8) :: [] ∧
    Ready (idle [ack, .hold, .hold]) ∧
    (idle [ack, .hold, .hold]).feed.turns = .go .ack :: .hold :: .hold :: [] := by decide

theorem witness_StartBeforeInitIsNotReady :
    ((fresh []).seq = none ∧ (fresh []).eng.ctrl.enable = false ∧ (fresh []).eng.inflight = .none) ∧
    Inv (idle [lost]) ∧ (idle [lost]).seq = none ∧ isNext (exec (.start 0x40#7 .write) (idle [lost])) = true ∧
    Inv (fresh []) ∧ isNext (exec (.start 0x40#7 .write) (fresh [])) = true :=
  ⟨by decide, inv_idle _, rfl, by decide, inv_fresh _, by decide⟩

theorem witness_RefusedAddressFailsTheStart :
    Ready (idle [nack]) ∧ (idle [nack]).feed.turns = .go .nack :: [] := by decide

/-- The turns of `WithheldAddressTimesOut`, as many as `POLL_BUDGET` says. -/
theorem witness_WithheldAddressTimesOut :
    Ready (idle (List.replicate (Config.params.pollBudget + 2) .hold)) ∧
    (idle (List.replicate (Config.params.pollBudget + 2) .hold)).feed.turns =
      List.replicate (Config.params.pollBudget + 2) .hold ++ [] :=
  ⟨⟨rfl, rfl, rfl, rfl⟩, (List.append_nil _).symm⟩

theorem witness_FailedStartReleasesTheBus :
    Inv (idle [lost]) ∧ (idle [lost]).seq = none ∧
    goesTo (exec (.start 0x40#7 .write) (idle [lost])) (fun t => t.res.status == 0xFC#8) = true ∧
    Inv (fresh []) ∧
    goesTo (exec (.start 0x40#7 .write) (fresh [])) (fun t => t.res.status == 0xFF#8) = true :=
  ⟨inv_idle _, rfl, by decide, inv_fresh _, by decide⟩

theorem witness_WriteCompletes :
    (idle []).seq = none ∧ (idle []).phase ≠ .dataW ∧ (dataW [ack]).phase = .dataW ∧ Ready (dataW [ack]) ∧
    (dataW [ack]).eng.owned = true ∧ (dataW [ack]).eng.dir = .write ∧ (dataW [ack]).eng.intflag.error = false ∧
    (dataW [ack]).feed.turns = .go .ack :: [] := by decide

theorem witness_WriteReportsOnlyTheErrorFlag :
    (dataW [.go .buserr]).phase = .dataW ∧ Ready (dataW [.go .buserr]) ∧ (dataW [.go .buserr]).eng.owned = true ∧
    (dataW [.go .buserr]).eng.dir = .write ∧
    (dataW [.go .buserr]).eng.intflag = { mb := true, sb := false, error := false } ∧
    (dataW [.go .buserr]).feed.turns = .go .buserr :: [] ∧ Ready (dataW [.go .arblost]) ∧
    (dataW [.go .arblost]).feed.turns = .go .arblost :: [] ∧ Ready (dataW [nack]) ∧
    (dataW [nack]).feed.turns = .go .nack :: [] := by decide

theorem witness_WriteWaitsWithoutBound :
    (writeWaiting [.hold, .hold, ack]).seq = some { op := .write 0xE3#8, item := 0, line := .write 0xE3#8 .wait } ∧
    (writeWaiting [.hold, .hold, ack]).busy = true ∧ (writeWaiting [.hold, .hold, ack]).host = [] ∧
    (writeWaiting [.hold, .hold, ack]).eng.inflight = .txPh ∧
    (writeWaiting [.hold, .hold, ack]).eng.intflag = { mb := false, sb := false, error := false } ∧
    (writeWaiting [.hold, .hold, ack]).feed.turns = List.replicate 2 .hold ++ .go .ack :: [] := by decide

theorem witness_ReadCompletes :
    (idle []).seq = none ∧ (idle []).phase ≠ .dataR ∧ (dataR 0x66#8 [byte 0x48#8]).phase = .dataR ∧
    Ready (dataR 0x66#8 [byte 0x48#8]) ∧ (dataR 0x66#8 [byte 0x48#8]).eng.intflag.sb = true ∧
    (dataR 0x66#8 [byte 0x48#8]).eng.intflag.error = false ∧ (dataR 0x66#8 [byte 0x48#8]).eng.ackPending = true ∧
    (dataR 0x66#8 [byte 0x48#8]).host = [] ∧ (dataR 0x66#8 [byte 0x48#8]).feed.turns = .go (.byte 0x48#8) :: [] := by
  decide

theorem witness_WithheldByteTimesOut :
    let s := dataRWaiting (List.replicate Config.params.pollBudget .hold)
    (s.seq = none ∧ s.phase = .dataR ∧ s.eng.intflag.sb = false ∧ s.eng.intflag.error = false ∧ s.eng.inflight = .rxPh ∧
      s.feed.turns = List.replicate Config.params.pollBudget .hold ++ []) ∧
    (s.setEng { s.eng with inflight := .none }).eng.inflight = .none :=
  ⟨⟨rfl, rfl, rfl, rfl, rfl, (List.append_nil _).symm⟩, rfl⟩

theorem witness_ReadReportsTheErrorFlag :
    Ready (dataRError []) ∧ (dataRError []).phase = .dataR ∧ (dataRError []).eng.intflag.error = true := by decide

theorem witness_StopCompletes :
    (fresh []).seq = none ∧ (fresh []).phase = .uninit ∧
    (dataR 0x11#8 []).seq = none ∧ (dataR 0x11#8 []).phase ≠ .uninit ∧ (dataR 0x11#8 []).eng.ctrl.enable = true ∧
    (dataR 0x11#8 []).eng.ctrl.master = true ∧ (dataR 0x11#8 []).eng.inflight = .none ∧
    (timedOut [.hold, .hold]).seq = none ∧ (timedOut [.hold, .hold]).phase ≠ .uninit ∧
    (timedOut [.hold, .hold]).eng.ctrl.enable = true ∧ (timedOut [.hold, .hold]).eng.ctrl.master = true ∧
    (timedOut [.hold, .hold]).eng.inflight ≠ .none ∧ (timedOut [.hold, .hold]).eng.inflight ≠ .resetPh ∧
    (timedOut [.hold, .hold]).feed.turns = .hold :: .hold :: [] := by decide

theorem witness_SensorResetCompletes :
    Ready (idle [ack, ack]) ∧ (idle [ack, ack]).feed.turns = .go .ack :: .go .ack :: [] := by decide

theorem witness_MeasurementsComplete :
    Ready (idle [ack, ack, ack, byte 0x66#8, byte 0x48#8]) ∧
    (idle [ack, ack, ack, byte 0x66#8, byte 0x48#8]).feed.turns =
      .go .ack :: .go .ack :: .go .ack :: .go (.byte 0x66#8) :: .go (.byte 0x48#8) :: [] := by decide

theorem witness_SerialNumberReadCompletes :
    let ts : List Turn :=
      [.go .ack, .go .ack, .go .ack, .go .ack, .go (.byte 0#8), .go (.byte 1#8), .go (.byte 2#8), .go (.byte 3#8),
        .go (.byte 4#8), .go (.byte 5#8), .go (.byte 6#8), .go (.byte 7#8), .go .ack, .go .ack, .go .ack, .go .ack,
        .go (.byte 8#8), .go (.byte 9#8), .go (.byte 10#8), .go (.byte 11#8), .go (.byte 12#8), .go (.byte 13#8)]
    Ready (idle ts) ∧ (idle ts).feed.turns = ts ++ [] := by decide

theorem witness_SensorOperationsBeforeInitFail :
    isSensor .sReadSn = true ∧ (fresh []).seq = none ∧ (fresh []).eng.ctrl.enable = false ∧
    (fresh []).eng.inflight = .none := by decide

theorem witness_FailingStepNamesTheSensorError :
    isSensor .sReadT = true ∧ Ready (idle [nack]) ∧ (idle [nack]).feed.turns = .go .nack :: [] ∧
    Ready (idle [ack, .go .arblost]) ∧ (idle [ack, .go .arblost]).feed.turns = .go .ack :: .go .arblost :: [] ∧
    Ready (idle [ack, ack, nack]) ∧ (idle [ack, ack, nack]).feed.turns = .go .ack :: .go .ack :: .go .nack :: [] ∧
    Ready (idle [ack, ack, ack, .hold, .hold, .go .buserr]) ∧
    (idle [ack, ack, ack, .hold, .hold, .go .buserr]).feed.turns =
      .go .ack :: .go .ack :: .go .ack :: .hold :: .hold :: .go .buserr :: [] := by decide

/-- `S_READ_SN` runs and stands at the line `l` of the item `k` of its script. -/
def inSerialRead (k : Nat) (l : Line) (s : State) : State :=
  (s.setBusy true).setSeq (some { op := .sReadSn, item := k, line := l })

/-- One poll is left of the budget. -/
def lastPoll (s : State) : State := s.setWork { s.work with pollcnt := Config.pollExtra }

/-- Before `INIT`, at the first `START`'s enabled check. -/
def failsNotReady : State := inSerialRead 0 (.start 0x40#7 .write .check) (fresh [])
/-- Part B's second `WRITE` (item 15), at its wait with `ERROR` set. -/
def failsWrite : State := inSerialRead 15 (.write 0xC9#8 .wait) (dataWError [])
/-- Part B's last `READ` (item 22), at its poll with `ERROR` set. -/
def failsRead : State := inSerialRead 22 (.read false .poll) (dataRError [])
/-- Part A's first `READ` (item 4), at the last read of its poll, the byte withheld. -/
def failsReadPoll : State := lastPoll (inSerialRead 4 (.read true .poll) (dataRWaiting [.hold]))
/-- Part B's repeated `START` (item 16), at the last line of its failure path. -/
def failsRepeatedStart : State := inSerialRead 16 (.start 0x40#7 .read (.failClear .timeout)) ((idle []).setPhase .dataW)
/-- Part B's first `START` (item 13), at the last read of its poll, the address phase withheld. -/
def spentStartPoll : State :=
  lastPoll (inSerialRead 13 (.start 0x40#7 .write .poll)
    ((idle [.hold]).setEng { engineOn with addr := 0x80#8, owned := true, dir := .write, inflight := .addrPh }))

theorem inv_failsNotReady : Inv failsNotReady := by decide

theorem inv_failsWrite : Inv failsWrite := by
  simp +decide [Machine.Inv, ModeInv, failsWrite, inSerialRead, dataWError, dataW, fresh, State.reset, engineOn,
    engineReset]

theorem inv_failsRead : Inv failsRead := by
  simp +decide [Machine.Inv, ModeInv, failsRead, inSerialRead, dataRError, dataR, fresh, State.reset, engineOn,
    engineReset]

theorem inv_failsReadPoll : Inv failsReadPoll := by
  simp +decide [Machine.Inv, ModeInv, SeqInv, failsReadPoll, lastPoll, inSerialRead, dataRWaiting, fresh, State.reset,
    engineOn, engineReset, standsWell, operationOf, sReadSnOperation, xfer, inScript, lineOf, phaseAt, engineFits,
    isPollLine, Config.params]

theorem inv_failsRepeatedStart : Inv failsRepeatedStart := by
  simp +decide [Machine.Inv, ModeInv, failsRepeatedStart, inSerialRead, idle, fresh, State.reset, engineOn, engineReset]

theorem inv_spentStartPoll : Inv spentStartPoll := by
  simp +decide [Machine.Inv, ModeInv, SeqInv, spentStartPoll, lastPoll, inSerialRead, idle, fresh, State.reset,
    engineOn, engineReset, standsWell, operationOf, sReadSnOperation, xfer, inScript, lineOf, phaseAt, engineFits,
    addressed, isPollLine, Config.params]

/-- A failing line of each kind, at items of both parts, the boundary of the poll's budget among them. -/
theorem witness_FailingStepNamesTheSensorError_lines :
    (isSensor .sReadSn = true ∧ Inv failsNotReady ∧ HostWaits failsNotReady.host ∧
      EngineHolds failsNotReady ∧ lineFails (.start 0x40#7 .write .check) failsNotReady = some 0xFF#8) ∧
    (Inv failsWrite ∧ EngineHolds failsWrite ∧ lineFails (.write 0xC9#8 .wait) failsWrite = some 0xFC#8 ∧
      sReadSnOperation.script[15]? =
        some { prim := .write 0xC9#8, onFail := some .commandFailed, keep := .nothing }) ∧
    (Inv failsRead ∧ EngineHolds failsRead ∧ lineFails (.read false .poll) failsRead = some 0xFC#8 ∧
      sReadSnOperation.script[22]? = some { prim := .read false, onFail := some .commandFailed, keep := .slot 5 }) ∧
    (Inv failsReadPoll ∧ EngineHolds failsReadPoll ∧ lineFails (.read true .poll) failsReadPoll = some 0xFE#8) ∧
    (Inv failsRepeatedStart ∧ EngineHolds failsRepeatedStart ∧
      lineFails (.start 0x40#7 .read (.failClear .timeout)) failsRepeatedStart = some 0xFE#8 ∧
      sReadSnOperation.script[16]? =
        some { prim := .start 0x40#7 .read, onFail := some .repeatedStartFailed, keep := .nothing }) ∧
    (Inv spentStartPoll ∧ EngineHolds spentStartPoll ∧
      failingNext (.start 0x40#7 .write .poll) spentStartPoll = some (.start 0x40#7 .write (.failRead .timeout))) ∧
    goesTo (step failsRead) (fun t => !t.busy && t.res.status != 0x00#8) = true :=
  ⟨⟨rfl, inv_failsNotReady, .inl rfl, .inl rfl, rfl⟩, ⟨inv_failsWrite, .inl rfl, rfl, rfl⟩,
    ⟨inv_failsRead, .inl rfl, rfl, rfl⟩, ⟨inv_failsReadPoll, .inr rfl, by simp [lineFails, failsReadPoll, lastPoll,
      inSerialRead, dataRWaiting, fresh, Config.params]⟩, ⟨inv_failsRepeatedStart, .inl rfl, rfl, rfl⟩,
    ⟨inv_spentStartPoll, .inr rfl, by simp [failingNext, spentStartPoll, lastPoll, inSerialRead, idle, fresh, engineOn,
      engineReset, Config.params]⟩, by decide⟩

theorem witness_BusIsFreeAfterAnOrderlySensorOperation :
    isSensor .sReset = true ∧ Inv (idle [ack, ack]) ∧
    goesTo (exec .sReset (idle [ack, ack])) (fun t => !t.busy && t.res.status == 0x00#8) = true ∧
    Inv (idle [lost]) ∧
    goesTo (exec .sReset (idle [lost])) (fun t => !t.busy && t.res.status == 0xFB#8 && t.res.cause == 0xFC#8) = true ∧
    isSensor .sReadT = true ∧ Inv (idle [ack, ack, lost]) ∧
    goesTo (exec .sReadT (idle [ack, ack, lost])) (fun t => !t.busy && t.res.status == 0xFA#8) = true :=
  ⟨rfl, inv_idle _, by decide, inv_idle _, by decide, rfl, inv_idle _, by decide⟩

/-- The states of `START`, `WRITE`, `STOP` one after another. -/
def afterStart : State := nextOf (exec (.start 0x40#7 .write) (idle [ack, ack]))
def afterWrite : State := nextOf (exec (.write 0xFE#8) afterStart)

theorem witness_SensorResetIsItsPrimitives :
    ∃ s1 s2 s3, (idle [ack, ack]).seq = none ∧ Inv (idle [ack, ack]) ∧
      exec (.start 0x40#7 .write) (idle [ack, ack]) = .next s1 ∧ s1.res.status = 0x00#8 ∧
      exec (.write 0xFE#8) s1 = .next s2 ∧ s2.busy = false ∧ s2.res.status = 0x00#8 ∧ exec .stop s2 = .next s3 :=
  ⟨afterStart, afterWrite, nextOf (exec .stop afterWrite), rfl, inv_idle _, next_of_isNext (by decide), by decide,
    next_of_isNext (by decide), by decide, by decide, next_of_isNext (by decide)⟩

theorem witness_ConversionsComplete :
    (dataW []).seq = none ∧ (dataW []).eng.inflight = .none ∧ (fresh []).seq = none ∧
    (timedOut [.hold]).seq = none ∧ (timedOut [.hold]).feed.turns.head? = some .hold := by decide

/-- 43_converter.md R231 with 40_bus_engine.md R136, R145: a conversion behind a read address's acknowledge and its
byte. -/
theorem test_conv_behind_two_completions :
    goesTo (exec (.convT 0x6648#16)
        ((dataRWaiting [ack, byte 0x48#8]).setEng { (dataRWaiting []).eng with inflight := .addrPh })) (fun t =>
      t.res.value == 0x91F#32 && t.wire == [.sack, .rx 0x48#8] && t.eng.ackPending && t.feed.turns == [] &&
        t.trace == []) = true := by decide

theorem witness_ConversionsAreMonotone :
    (0x0006#16 : Half).toNat = (0x0005#16 : Half).toNat + 1 ∧ (0xFFFF#16 : Half).toNat = (0xFFFE#16 : Half).toNat + 1 := by
  decide

def okOf (a : Except Refusal Reaction) (P : Reaction → Bool) : Bool :=
  match a with
  | .ok x => P x
  | .error _ => false

theorem witness_CtrlReadsBackItsFields :
    okOf (writeReg .ctrl 0x00070006#32 (dataR 0x11#8 []).eng) (fun _ => true) = true ∧
    (0x00070006#32 : Word).getLsbD 0 = false ∧
    okOf (writeReg .ctrl 0x00000001#32 (dataR 0x11#8 []).eng) (fun _ => true) = true ∧
    (0x00000001#32 : Word).getLsbD 0 = true := by decide

theorem witness_IntflagWriteClearsWhatIsWritten :
    okOf (writeReg .intflag 0x80#32 (dataRError []).eng) (fun x => !x.eng.intflag.error) = true ∧
    isNext (exec (.start 1#7 .read) (idle [lost])) = true := by
  refine ⟨?_, ?_⟩ <;> decide

theorem witness_OnlyReadingDataHasAnEffect :
    readReg .data (dataR 0x66#8 []).eng = .ok (0x66#32, reactReadData (dataR 0x66#8 []).eng) ∧
    (dataR 0x66#8 []).eng.ackPending = true ∧ (dataR 0x66#8 []).eng.ctrl.ackact = false ∧
    readReg .data (idle []).eng = .ok (0x00#32, reactReadData (idle []).eng) ∧ (idle []).eng.ackPending = false ∧
    readReg .intflag (dataR 0x66#8 []).eng = .ok (0x03#32, { eng := (dataR 0x66#8 []).eng, wire := [] }) := by
  refine ⟨rfl, rfl, rfl, rfl, rfl, rfl⟩

theorem witness_OnlyReadingDataHasAnEffect_nack :
    let e := { (dataR 0x66#8 []).eng with ctrl := { enable := true, master := true, ackact := true } }
    readReg .data e = .ok (0x66#32, reactReadData e) ∧ e.ackPending = true ∧ e.ctrl.ackact = true := ⟨rfl, rfl, rfl⟩

theorem witness_ForeignAccessesAreRefused :
    regAt 0x08 4 = none ∧ regAt 0x18 1 = none ∧ regAt 0x0C 4 = none ∧ regAt 0x01 4 = none ∧
    regAt 0x14 1 = some .addr ∧ regAt 0x00 4 = some .ctrl := by decide

/-- The engine with the operation `f` in flight on an owned bus. -/
def flying (f : Inflight) (d : Dir) : Engine :=
  { (dataW []).eng with inflight := f, dir := d, intflag := { mb := false, sb := false, error := false } }

theorem witness_CompletionFlags :
    (complete (par true) .ack (flying .addrPh .read)).isSome = true ∧
    (complete (par true) .nack (flying .txPh .write)).isSome = true ∧
    (complete (par true) (.byte 7#8) (flying .rxPh .read)).isSome = true ∧
    (complete (par true) .buserr (flying .rxPh .read)).isSome = true ∧
    (complete (par true) .arblost (flying .addrPh .write)).isSome = true ∧
    (flying .txPh .write).inflight ≠ .resetPh ∧ (flying .txPh .write).intflag.error = false ∧
    ((complete (par true) .nack (flying .txPh .write)).any fun x => x.eng.intflag.error) = true := by decide

/-- For `StepKeepsTheInvariant` and `StepKeepsTheWireShape`: the host's step, the engine's and the sequencer's. -/
theorem witness_StepKeepsTheInvariant :
    Inv (about 0x01000080#32 (idle [ack])) ∧ WireInv (about 0x01000080#32 (idle [ack])) = true ∧
    isNext (step (about 0x01000080#32 (idle [ack]))) = true ∧
    Inv (timedOut [byte 1#8]) ∧ isNext (step (timedOut [byte 1#8])) = true ∧
    Inv (writeWaiting [.hold]) ∧ isNext (step (writeWaiting [.hold])) = true :=
  ⟨inv_idle [ack], by decide, by decide, inv_timedOut _, by decide, inv_writeWaiting _, by decide⟩

/-- A run from reset: `INIT`, `START`, a `WRITE` that meets a bus error, and the next `START` up to its stale-error
cleanup. -/
def run0 : State :=
  (fresh [ack, ack, .go .buserr, ack]).setHost
    [.issue 0x00000000#32, .issue 0x01000080#32, .issue 0x020000E3#32, .issue 0x01000080#32]

/-- The state after some steps. -/
def after : Nat → State → State
  | 0, s => s
  | n + 1, s => after n (nextOf (step s))

/-- Every one of some steps answers a next state. -/
def allNext : Nat → State → Bool
  | 0, _ => true
  | n + 1, s => isNext (step s) && allNext n (nextOf (step s))

theorem reachable_after : ∀ (n : Nat) (s : State), Reachable s → allNext n s = true → Reachable (after n s)
  | 0, _, hs, _ => hs
  | n + 1, s, hs, h => by
    simp only [allNext, Bool.and_eq_true] at h
    exact reachable_after n _ (hs.step (next_of_isNext h.1)) h.2

/-- 11 steps of `INIT`, 7 of `START`, 4 of `WRITE`, 3 of the next `START`. -/
theorem run25_reachable : Reachable (after 25 run0) :=
  reachable_after 25 run0 (Reachable.reset _ _) (by decide)

theorem witness_EngineInvariantsHoldInEveryRun :
    ∃ s t, Reachable s ∧ s.host.head? ≠ some .hwReset ∧ step s = .next t ∧
      s.eng.intflag.error = true ∧ t.eng.intflag.error = false ∧ s.eng.status.buserr = true :=
  ⟨after 25 run0, nextOf (step (after 25 run0)), run25_reachable, by decide, next_of_isNext (by decide), by decide,
    by decide, by decide⟩

/-- And the step after it: the write of `ADDR` clears `BUSERR`. -/
theorem witness_EngineInvariantsHoldInEveryRun_status :
    ∃ s t, Reachable s ∧ s.host.head? ≠ some .hwReset ∧ step s = .next t ∧
      s.eng.status.buserr = true ∧ t.eng.status.buserr = false :=
  ⟨after 26 run0, nextOf (step (after 26 run0)), reachable_after 26 run0 (Reachable.reset _ _) (by decide), by decide,
    next_of_isNext (by decide), by decide, by decide⟩

/-- `START` about to write `ADDR` with a reception in flight. -/
def startBlocked (ts : List Turn) : State :=
  standing (.start 0x40#7 .write) (.start 0x40#7 .write .address) (timedOut ts)

/-- `WRITE` about to write `DATA` with `ERROR` standing and the bus given up. -/
def writeBlocked (ts : List Turn) : State :=
  standing (.write 1#8) (.write 1#8 .data)
    ((dataWError ts).setEng { (dataWError ts).eng with owned := false })

theorem inv_writeBlocked (ts : List Turn) : Inv (writeBlocked ts) := by
  simp +decide [Machine.Inv, ModeInv, SeqInv, WriteInv, State.setFeed, State.setPhase, State.setEng, State.setBusy,
    State.setSeq, writeBlocked, standing, dataWError, dataW, fresh, State.reset, engineOn, engineReset, underWay,
    standsWell, inScript, operationOf, writeOperation, startOperation, hostPrimitive, lineOf, phaseAt, engineFits,
    isPollLine]

theorem inv_startBlocked (ts : List Turn) : Inv (startBlocked ts) := by
  simp +decide [Machine.Inv, ModeInv, SeqInv, WriteInv, State.setFeed, State.setPhase, State.setEng, State.setBusy,
    State.setSeq, startBlocked, standing, timedOut, dataRWaiting, fresh, State.reset, engineOn, engineReset, underWay,
    standsWell, inScript, operationOf, writeOperation, startOperation, hostPrimitive, lineOf, phaseAt, engineFits,
    isPollLine]

theorem witness_OnlyForeseenRefusals :
    Inv (about 0x03000001#32 (fresh [])) ∧ step (about 0x03000001#32 (fresh [])) = .refused .illegalInPhase ∧
    Inv (startBlocked [.hold]) ∧ step (startBlocked [.hold]) = .refused .addrWhileInFlight ∧
    Inv (writeBlocked []) ∧ step (writeBlocked []) = .refused .dataOutsideWrite :=
  ⟨inv_fresh [], rfl, inv_startBlocked [.hold], rfl, inv_writeBlocked [], rfl⟩

/-- `INIT`, a `START` to read whose byte is withheld, and a `READ` that times out; a bus error is to come. -/
def run1 : State :=
  (fresh ([ack, ack, .hold, .hold] ++ (List.replicate Config.params.pollBudget .hold ++ [.hold, .hold, .go .buserr]))).setHost
    [.issue 0x00000000#32, .issue 0x01000081#32, .issue 0x03000001#32]

/-- A run leads to IDLE with a reception in flight (70_reset_and_hazards.md R302; log entry 15): 19 steps to the `READ`'s
first poll, and `POLL_BUDGET` polls. -/
theorem reachable_reception_in_idle :
    ∃ s, Reachable s ∧ s.phase = .idle ∧ s.seq = none ∧ s.host = [] ∧ s.eng.inflight = .rxPh ∧
      s.feed.turns = [.hold, .hold, .go .buserr] := by
  have h19 : Reachable (after 19 run1) := reachable_after 19 run1 (Reachable.reset _ _) (by decide)
  obtain ⟨t, ht, he, _, hh, hs, _, hp, hf⟩ := run_read_timeout (g := true) (n := Config.pollExtra)
    (rest := [.hold, .hold, .go .buserr]) (s := after 19 run1) (by decide) (by decide) (by decide) (by decide) (by decide)
    (Nat.zero_add _) rfl
  exact ⟨t, h19.run ht, hp, hs, hh, he ▸ by decide, by rw [hf]⟩

theorem witness_CalmStartReadiesTheWrite :
    Inv (idle [ack]) ∧ Ready (idle [ack]) ∧
    goesTo (exec (.start 0x40#7 .write) (idle [ack])) (fun t => t.res.status == 0x00#8) = true :=
  ⟨inv_idle _, by decide, by decide⟩

theorem witness_StatusCodesOfEachOperation :
    Inv (idle []) ∧ goesTo (exec (.convT 0#16) (idle [])) (fun t => !t.busy && t.res.status == 0x00#8) = true ∧
    isSensor .sReadT = true ∧ Inv (idle [lost]) ∧
    goesTo (exec .sReadT (idle [lost])) (fun t => !t.busy && t.res.status != 0x00#8) = true :=
  ⟨inv_idle _, by decide, rfl, inv_idle _, by decide⟩

theorem witness_SensorFailurePairs :
    isSensor .sReadT = true ∧ Inv (idle [lost]) ∧ goesTo (exec .sReadT (idle [lost])) (fun t => !t.busy) = true :=
  ⟨rfl, inv_idle _, by decide⟩

theorem witness_ResultUpdatePolicy :
    Inv (writeWaiting [.hold]) ∧ goesTo (exec (.write 0xE3#8) (writeWaiting [.hold])) (fun t => t.busy) = true ∧
    Inv (idle [lost]) ∧ goesTo (exec (.start 1#7 .read) (idle [lost])) (fun t => !t.busy && t.res.status != 0x00#8) = true ∧
    Inv (idle [ack, ack, ack, byte 1#8, byte 2#8]) ∧
    goesTo (exec .sReadRh (idle [ack, ack, ack, byte 1#8, byte 2#8])) (fun t => !t.busy && t.res.status == 0x00#8) =
      true ∧
    goesTo (exec .sReadTl (idle [ack, ack, ack, byte 1#8, byte 2#8])) (fun t => !t.busy && t.res.status == 0x00#8) =
      true :=
  ⟨inv_writeWaiting _, by decide, inv_idle _, by decide, inv_idle _, by decide, by decide⟩

theorem witness_EveryAccessIsInTheTable :
    Inv (idle [lost]) ∧ isNext (exec .sReadT (idle [lost])) = true ∧ Inv (writeWaiting [.hold]) ∧
    (writeWaiting [.hold]).host.head? ≠ some .hwReset ∧ isNext (step (writeWaiting [.hold])) = true :=
  ⟨inv_idle _, by decide, inv_writeWaiting _, by decide, by decide⟩

theorem witness_FrameOfEveryOperation : Inv (dataW []) ∧ isNext (exec .stop (dataW [])) = true :=
  ⟨inv_dataW _, by decide⟩

theorem witness_FrameOfWriteReadAndStop :
    Inv (dataWError []) ∧ isNext (exec .stop (dataWError [])) = true ∧ Inv (dataW [ack]) ∧
    isNext (exec (.write 0#8) (dataW [ack])) = true ∧ Inv (dataR 1#8 []) ∧
    isNext (exec (.read false) (dataR 1#8 [])) = true :=
  ⟨inv_dataWError _, by decide, inv_dataW _, by decide, inv_dataR _ _, by decide⟩

theorem witness_PollCountStaysWithinTheBudget :
    Inv (idle [lost]) ∧ (idle [lost]).seq = none ∧ isNext (exec (.start 1#7 .read) (idle [lost])) = true ∧
    Inv (dataR 1#8 []) ∧ (dataR 1#8 []).seq = none ∧ isNext (exec (.read true) (dataR 1#8 [])) = true :=
  ⟨inv_idle _, rfl, by decide, inv_dataR _ _, rfl, by decide⟩

theorem witness_PollsFindTheFlagWithinTheBudget :
    0 < Config.params.pollBudget ∧ Ready (idle [ack]) ∧ (idle [ack]).feed.turns = List.replicate 0 .hold ++ .go .ack :: [] ∧
    (dataRWaiting [byte 7#8]).seq = none ∧ (dataRWaiting [byte 7#8]).phase = .dataR ∧
    (dataRWaiting [byte 7#8]).eng.ctrl.enable = true ∧ (dataRWaiting [byte 7#8]).eng.ctrl.master = true ∧
    (dataRWaiting [byte 7#8]).eng.inflight = .rxPh ∧
    (dataRWaiting [byte 7#8]).eng.intflag = { mb := true, sb := false, error := false } ∧
    (dataRWaiting [byte 7#8]).feed.turns = List.replicate 0 .hold ++ .go (.byte 7#8) :: [] :=
  ⟨Nat.succ_pos _, by decide, rfl, rfl, rfl, rfl, rfl, rfl, rfl, rfl⟩

theorem witness_OnlyTheTwoWaitsAreUnbounded :
    (mayWait .stop = false ∧ Inv (idle []) ∧ isNext (exec .stop (idle [])) = true) ∧
    Inv (idle [ack, .hold, .hold]) ∧ goesTo (exec .sReset (idle [ack, .hold, .hold])) (fun t => t.busy) = true ∧
    Inv (fresh [.hold]) ∧ goesTo (exec .init (fresh [.hold])) (fun t => t.busy) = true :=
  ⟨⟨rfl, inv_idle _, by decide⟩, inv_idle _, by decide, inv_fresh _, by decide⟩

theorem witness_ErrorFlagOutlivesThePrimitive :
    Ready (dataWError [.hold, .hold]) ∧ (dataWError [.hold, .hold]).eng.intflag.error = true ∧
    isNext (exec (.write 0#8) (dataWError [.hold, .hold])) = true ∧ Ready (dataRError []) ∧
    (dataRError []).eng.intflag.error = true ∧ isNext (exec (.read true) (dataRError [])) = true ∧
    isNext (exec .stop (dataRError [])) = true ∧ isNext (exec (.start 1#7 .read) (dataWError [lost])) = true := by
  decide

theorem witness_ReceptionInFlightBlocksTheStart :
    Inv (timedOut [.hold, .hold, .hold]) ∧ (timedOut [.hold, .hold, .hold]).seq = none ∧
    (timedOut [.hold, .hold, .hold]).phase ≠ .uninit ∧ (timedOut [.hold, .hold, .hold]).eng.inflight = .rxPh ∧
    (timedOut [.hold, .hold, .hold]).eng.intflag.error = false ∧
    (timedOut [.hold, .hold, .hold]).feed.turns = .hold :: .hold :: .hold :: [] :=
  ⟨inv_timedOut _, rfl, by decide, rfl, rfl, rfl⟩

end Sys2Proof.Tests
end

section
/-! What one sequencer step adds to its line's access, and O8 (00_scope.md R13). -/

namespace Sys2Proof.Machine

/-! ### What the sequencer's bookkeeping may touch -/

/-- From `u` to `t` the sequencer keeps its books: only the busy bit, the results, its position and the working registers
may differ. -/
def Bookkept (u t : State) : Prop :=
  ∃ b r q w, t = (((u.setBusy b).setRes r).setSeq q).setWork w

theorem Bookkept.refl (s : State) : Bookkept s s := ⟨s.busy, s.res, s.seq, s.work, rfl⟩

theorem Bookkept.trans {s u t : State} (h : Bookkept s u) (h' : Bookkept u t) : Bookkept s t := by
  obtain ⟨_, _, _, _, rfl⟩ := h
  obtain ⟨b, r, q, w, rfl⟩ := h'
  exact ⟨b, r, q, w, rfl⟩

/-- The books are no part of what the block's other agents see. -/
theorem Bookkept.keeps {u t : State} (h : Bookkept u t) :
    t.trace = u.trace ∧ t.eng = u.eng ∧ t.wire = u.wire ∧ t.cmdWord = u.cmdWord := by
  obtain ⟨b, r, q, w, rfl⟩ := h
  exact ⟨rfl, rfl, rfl, rfl⟩

theorem bookkept_setRes (r : Results) (s : State) : Bookkept s (s.setRes r) := ⟨s.busy, r, s.seq, s.work, rfl⟩

theorem bookkept_finish (st c : Code) (s : State) : Bookkept s (finish st c s) :=
  ⟨false, (finish st c s).res, none, s.work, rfl⟩

theorem bookkept_moveTo (i : Instr) (k : Nat) (l : Line) (s : State) : Bookkept s (moveTo i k l s) := by
  refine ⟨s.busy, s.res, (moveTo i k l s).seq, (moveTo i k l s).work, ?_⟩
  unfold moveTo
  split <;> rfl

theorem bookkept_keepByte (k : Keep) (d : Byte) (s : State) : Bookkept s (keepByte k d s) :=
  ⟨s.busy, (keepByte k d s).res, s.seq, (keepByte k d s).work, by cases k <;> rfl⟩

/-- However an item ends, only the sequencer's books are written. -/
theorem itemEnded_bookkept (i : Instr) (o : Operation) (k : Nat) (st : Code) (d : Byte) (s : State) :
    (itemEnded i o k st d s).Holds (Bookkept s) (Bookkept s) (Bookkept s) := by
  rcases itemEnded_cases i o k st d s with ⟨_, e⟩ | ⟨it, _, _, _, e⟩ | ⟨it, _, _, _, e⟩ | ⟨it, _, _, e⟩
  · rw [e]
    exact (bookkept_setRes _ s).trans (bookkept_finish ..)
  · rw [e]
    exact (bookkept_keepByte ..).trans (bookkept_moveTo ..)
  · rw [e]
    exact ((bookkept_keepByte ..).trans (bookkept_setRes ..)).trans (bookkept_finish ..)
  · obtain ⟨c, c', e'⟩ := finishFailed_cases it.onFail st s
    rw [e, e']
    exact bookkept_finish ..

/-! ### A sequencer step is its line, and the books -/

theorem Progress.Holds.mono {M W E M' W' E' : State → Prop} {x : Progress} (h : x.Holds M W E) (hM : ∀ t, M t → M' t)
    (hW : ∀ t, W t → W' t) (hE : ∀ t, E t → E' t) : x.Holds M' W' E' := by
  cases x with
  | moved t => exact hM t h
  | waits t => exact hW t h
  | ended t => exact hE t h
  | refused r => trivial

/-- What holds however a step goes holds of its next state. -/
theorem Progress.Holds.of_next {P : State → Prop} {x : Progress} {t : State} (h : x.Holds P P P)
    (hx : x.outcome = .next t) : P t := by
  cases x <;> cases hx <;> exact h

/-- What a line leaves holds after the sequencer step too, if the sequencer's bookkeeping keeps it. -/
theorem seqStep_of_runLine {P : State → Prop} {p : Params} {o : Operation} {q : SeqPos} {s : State}
    (hP : ∀ u t, Bookkept u t → P u → P t) (h : (runLine p q.line s).Holds (fun _ => P) P P (fun _ _ => P)) :
    (seqStep p o q s).Holds P P P := by
  unfold seqStep
  generalize runLine p q.line s = out at h
  cases out with
  | goto l u => exact hP u _ (bookkept_moveTo ..) h
  | again u => exact h
  | spin u => exact h
  | done st d u =>
    have keep : ∀ t, Bookkept u t → P t := fun t hb => hP u t hb h
    exact (itemEnded_bookkept q.op o q.item st d u).mono keep keep keep
  | refused r => trivial

/-- Where an operation stands at a line with an access, a sequencer step makes it, and the books beside it. -/
theorem seqStep_accessed {p : Params} {o : Operation} {q : SeqPos} {s t : State} (hl : q.line ≠ .convert)
    (h : (seqStep p o q s).outcome = .next t) : ∃ u, Accessed s u ∧ Bookkept u t := by
  refine (seqStep_of_runLine (P := fun t => ∃ u, Accessed s u ∧ Bookkept u t) ?_ ?_).of_next h
  · rintro v t hb ⟨u, ha, hu⟩
    exact ⟨u, ha, hu.trans hb⟩
  · have hr := runLine_accessed (p := p) hl s
    generalize runLine p q.line s = out at hr
    cases out with
    | goto l u => exact ⟨u, hr, .refl u⟩
    | again u => exact ⟨u, hr, .refl u⟩
    | spin u => exact ⟨u, hr, .refl u⟩
    | done st d u => exact ⟨u, hr, .refl u⟩
    | refused r => trivial

/-- A conversion's one step writes the books alone. -/
theorem seqStep_convert {p : Params} {o : Operation} {q : SeqPos} {s t : State} (hl : q.line = .convert)
    (h : (seqStep p o q s).outcome = .next t) : Bookkept s t := by
  refine (seqStep_of_runLine (P := Bookkept s) (fun u t hb hu => hu.trans hb) ?_).of_next h
  rw [hl]
  exact Bookkept.refl s

/-! ### O8 -/

/-- The issue of an operation writes the busy bit, the sequencer's position and the working registers. -/
theorem beginOperation_eq (i : Instr) (o : Operation) (s : State) :
    beginOperation i o s =
      { s with busy := true, seq := (beginOperation i o s).seq, work := (beginOperation i o s).work } := by
  unfold beginOperation moveTo
  split <;> rfl

/-- The block's own step is the engine's completion, the sequencer's one access, a conversion's one step, or, with no
operation running, a moment in which nothing of the block moves. -/
theorem advance_one_agent {s t : State} (h : advance s = .next t) :
    (∃ o x, complete Config.params o s.eng = some x ∧
      t = { s with feed := t.feed, eng := x.eng, wire := s.wire ++ x.wire }) ∨
    (∃ q a x, s.seq = some q ∧ reactionOf a s.eng = .ok x ∧ t.trace = s.trace ++ [a] ∧ t.eng = x.eng ∧
      t.wire = s.wire ++ x.wire ∧ t.cmdWord = s.cmdWord) ∨
    (∃ q, s.seq = some q ∧ q.line = .convert ∧ t.trace = s.trace ∧ t.eng = s.eng ∧ t.wire = s.wire ∧
      t.cmdWord = s.cmdWord) ∨
    (s.seq = none ∧ t = { s with feed := t.feed }) := by
  rcases advance_cases h with ⟨q, hq, hb⟩ | ⟨hq, hm⟩
  · rcases blockStep_cases Config.params (operationOf q.op) q s with ⟨f, o, x, hc, e⟩ | ⟨f, e⟩
    · rw [e] at hb
      cases hb
      exact .inl ⟨o, x, hc, rfl⟩
    · rw [e] at hb
      by_cases hl : q.line = .convert
      · exact .inr (.inr (.inl ⟨q, hq, hl, (seqStep_convert hl hb).keeps⟩))
      · obtain ⟨u, hu, hk⟩ := seqStep_accessed hl hb
        obtain ⟨a, x, hx, htrace, heng, hwire⟩ := hu.record
        obtain ⟨ktrace, keng, kwire, kcmd⟩ := hk.keeps
        exact .inr (.inl ⟨q, a, x, hq, hx, ktrace.trans htrace, keng.trans heng, kwire.trans hwire,
          kcmd.trans hu.frame.1⟩)
  · rcases engineMove_cases Config.params s with ⟨f, e⟩ | ⟨f, o, x, hc, e⟩
    · simp only [e, reduceCtorEq, false_or, EngineMove.holds.injEq] at hm
      subst hm
      exact .inr (.inr (.inr ⟨hq, rfl⟩))
    · simp only [e, reduceCtorEq, or_false, EngineMove.completed.injEq] at hm
      subst hm
      exact .inl ⟨o, x, hc, rfl⟩

/-- Settles O8: a step is the issue of an operation or, the host's moment past, the block's own. -/
theorem oneAgentMovesInAStep : Obligations.OneAgentMovesInAStep := by
  intro s t hr h
  rcases step_cases h with ⟨rest, hh, _⟩ | ⟨w, rest, i, b, hh, hb, hd, _, rfl⟩ | ⟨hs, _, ha⟩
  · exact absurd (by rw [hh]; rfl) hr
  · exact .inl ⟨w, rest, i, hh, hb, hd, beginOperation_eq ..⟩
  · rcases advance_one_agent ha with ⟨o, x, hc, e⟩ | access | conversion | ⟨hq, e⟩
    · exact .inr (.inl ⟨o, x, hc, e.trans (by rw [e]; rfl)⟩)
    · exact .inr (.inr (.inl access))
    · exact .inr (.inr (.inr (.inl conversion)))
    · exact .inr (.inr (.inr (.inr ⟨hq, e.trans (by rw [e]; rfl)⟩)))

end Sys2Proof.Machine
end

section
/-! The steps of the machine come to what `exec` says: O7 and O6 (10_state.md R21, R25; 41_bus_primitives.md R189). -/

namespace Sys2Proof.Machine

/-! ### A step of the block leaves the host's side alone -/

/-- The host's side of the block, which only a step of the host moves: its inputs to come and the command word. -/
def SameHostSide (s t : State) : Prop := t.host = s.host ∧ t.cmdWord = s.cmdWord

/-- A step of the block leaves the host's side; the operation goes on, or waits, as busy as it was, or has ended. -/
theorem blockStep_frame (p : Params) (o : Operation) {q : SeqPos} {s : State} (hq : s.seq = some q) :
    (blockStep p o q s).Holds
      (fun t => SameHostSide s t ∧ t.busy = s.busy ∧ ∃ q', t.seq = some q' ∧ q'.op = q.op)
      (fun t => SameHostSide s t ∧ t.busy = s.busy)
      (fun t => SameHostSide s t ∧ t.busy = false) := by
  rcases blockStep_cases p o q s with ⟨f, out, x, _, e⟩ | ⟨f, e⟩
  · rw [e]
    exact ⟨⟨rfl, rfl⟩, rfl, q, hq, rfl⟩
  · rw [e]
    exact (seqStep_frame p o q (s.setFeed f) hq).mono
      (fun _ ⟨⟨hcmd, hhost, _⟩, hb, hs⟩ => ⟨⟨hhost, hcmd⟩, hb, hs⟩)
      (fun _ ⟨⟨hcmd, hhost, _⟩, hb, _⟩ => ⟨⟨hhost, hcmd⟩, hb⟩)
      (fun _ ⟨⟨hcmd, hhost, _⟩, hb, _⟩ => ⟨⟨hhost, hcmd⟩, hb⟩)

/-! ### A step of the machine while the host waits -/

/-- The next step of a busy block whose host waits is the block's own step of the running operation. -/
theorem step_running {s : State} {q : SeqPos} (hb : s.busy = true) (hq : s.seq = some q) (hw : HostWaits s.host) :
    step s = (blockStep Config.params (operationOf q.op) q s).outcome := by
  have ha : step s = advance s := by
    rcases hw with hh | ⟨w, rest, hh⟩ <;> simp [step, hh, hb]
  simp [ha, advance, hq]

/-- A run of one step is that step. -/
theorem run_one (s : State) : Host.Core.run core 1 s = step s := by
  cases h : step s with
  | next t => exact run_cons h
  | fault r => cases r
  | refused r =>
    have h' : core.step s = .refused r := h
    simp only [Host.Core.run, h']
    rfl

/-- The steps of a running operation up to its end, its wait, its refusal or a bound are steps of the machine. -/
theorem run_eq_runSteps (n : Nat) : ∀ {s : State} {q : SeqPos}, s.busy = true → s.seq = some q → HostWaits s.host →
    ∃ m, Host.Core.run core (m + 1) s = runSteps Config.params (operationOf q.op) (n + 1) s := by
  induction n with
  | zero =>
    intro s q hb hq hw
    refine ⟨0, (run_one s).trans ((step_running hb hq hw).trans ?_)⟩
    cases h : blockStep Config.params (operationOf q.op) q s <;> simp [runSteps, hq, h, Progress.outcome]
  | succ n ih =>
    intro s q hb hq hw
    have hs := step_running hb hq hw
    have hf := blockStep_frame Config.params (operationOf q.op) hq
    cases h : blockStep Config.params (operationOf q.op) q s with
    | moved t =>
      rw [h] at hs hf
      obtain ⟨⟨hhost, _⟩, hbusy, q', hq', hop⟩ := hf
      obtain ⟨m, hm⟩ := ih (hbusy.trans hb) hq' (hhost ▸ hw)
      refine ⟨m + 1, ?_⟩
      rw [run_cons hs, hm, hop, runSteps_moved hq h]
    | waits t => exact ⟨0, by rw [run_one, hs, h, runSteps_waits hq h]; rfl⟩
    | ended t => exact ⟨0, by rw [run_one, hs, h, runSteps_ended hq h]; rfl⟩
    | refused r => exact ⟨0, by rw [run_one, hs, h, runSteps_refused hq h]; rfl⟩

/-! ### What `exec` comes to, by where the operation stands -/

/-- The run of an operation, up to the bound `exec` gives it. -/
def runFrom (i : Instr) (s : State) : Host.Outcome State Fault Refusal :=
  runSteps Config.params (operationOf i) (stepBound Config.params (operationOf i)) s

theorem exec_of_resume {s : State} {q : SeqPos} (hq : s.seq = some q) : exec q.op s = runFrom q.op s := by
  simp only [exec_runs, runOperation, enter_of_resume hq rfl, runFrom]

theorem exec_of_begin {i : Instr} {s : State} (hq : s.seq = none) (hl : legalIn i s.phase = true) :
    exec i s = runFrom i (beginOperation i (operationOf i) s) := by
  simp only [exec_runs, runOperation, enter_of_begin hq hl, runFrom]

theorem exec_illegal {i : Instr} {s : State} (hq : s.seq = none) (hl : legalIn i s.phase = false) :
    exec i s = .refused .illegalInPhase := by
  simp only [exec_runs, runOperation, enter_illegal hq hl]

/-- The steps of a running operation come to what the run of its meaning comes to. -/
theorem run_eq_runFrom {s : State} {q : SeqPos} (hb : s.busy = true) (hq : s.seq = some q) (hw : HostWaits s.host) :
    ∃ m, Host.Core.run core (m + 1) s = runFrom q.op s := by
  have hpos := stepBound_pos Config.params (operationOf q.op)
  obtain ⟨n, hn⟩ := Nat.exists_eq_succ_of_ne_zero (n := stepBound Config.params (operationOf q.op)) (by omega)
  rw [runFrom, hn]
  exact run_eq_runSteps n hb hq hw

/-! ### O7 -/

/-- Settles O7: by induction on the bound of `exec`'s run, each of whose steps is the machine's. -/
theorem stepsGoOnWithTheRunningOperation : Obligations.StepsGoOnWithTheRunningOperation := by
  intro s q hb hq hw
  constructor
  · rw [exec_of_resume hq]
    exact run_eq_runFrom hb hq hw
  · intro t ht
    rw [step_running hb hq hw] at ht
    exact ((blockStep_frame Config.params (operationOf q.op) hq).mono (fun _ h => h.1) (fun _ h => h.1)
      (fun _ h => h.1)).of_next ht

/-! ### O6 -/

/-- The step of an idle block whose host issues a word is the issue of that word. -/
theorem step_issue {s : State} {w : Word} {rest : List HostInput} (hb : s.busy = false) (hh : s.host = .issue w :: rest) :
    step s = issue w (s.setHost rest) := by
  simp [step, hh, hb]

theorem issue_illegal {s : State} {w : Word} {i : Instr} (hd : decode w = .ok i) (hq : s.seq = none)
    (hl : legalIn i s.phase = false) : issue w s = .refused .illegalInPhase := by
  simp [issue, hd, enter_illegal hq hl]

theorem issue_legal {s : State} {w : Word} {i : Instr} (hd : decode w = .ok i) (hq : s.seq = none)
    (hl : legalIn i s.phase = true) : issue w s = .next (beginOperation i (operationOf i) (s.setCmdWord w)) := by
  simp [issue, hd, enter_of_begin hq hl]

/-- The issue of an operation touches, of the working registers, the count of a bounded poll alone. -/
theorem beginOperation_work (i : Instr) (o : Operation) (s : State) :
    (beginOperation i o s).work =
      if isPollLine (itemLine o 0) then { s.work with pollcnt := 0 } else s.work := moveTo_work ..

/-- What the issue of an operation writes. -/
theorem beginOperation_eq_of_pollcnt (i : Instr) (o : Operation) (s : State) :
    beginOperation i o s =
      { s with busy := true, seq := (beginOperation i o s).seq
               work := { s.work with pollcnt := (beginOperation i o s).work.pollcnt } } := by
  have hw : (beginOperation i o s).work = { s.work with pollcnt := (beginOperation i o s).work.pollcnt } := by
    rw [beginOperation_work]
    split <;> rfl
  exact (beginOperation_eq i o s).trans (by rw [← hw])

/-- Settles O6: the step is the issue of the decoded operation, and the steps after it go on with it as O7 says. -/
theorem stepRunsTheDecodedCommand : Obligations.StepRunsTheDecodedCommand := by
  intro s w rest i hb hq hh hd
  have hstep := step_issue hb hh
  refine ⟨fun hl => hstep.trans (issue_illegal hd hq hl), fun hl => ?_, fun hw => ?_⟩
  · refine ⟨_, hstep.trans (issue_legal hd hq hl), rfl, beginOperation_eq_of_pollcnt .., fun hp => ?_⟩
    rw [beginOperation_work, if_pos hp]
  · cases hl : legalIn i s.phase with
    | false =>
      have hx := exec_illegal (s := { s with host := rest, cmdWord := w, busy := true }) hq hl
      exact ⟨0, (run_one s).trans ((hstep.trans (issue_illegal hd hq hl)).trans hx.symm)⟩
    | true =>
      obtain ⟨m, hm⟩ := run_eq_runFrom (s := beginOperation i (operationOf i) ((s.setHost rest).setCmdWord w))
        (beginOperation_busy ..) (beginOperation_seq ..) (by simpa using hw)
      have hx := exec_of_begin (s := { s with host := rest, cmdWord := w, busy := true }) hq hl
      exact ⟨m + 1, ((run_cons (hstep.trans (issue_legal hd hq hl))).trans hm).trans hx.symm⟩

end Sys2Proof.Machine
end

section
/-! The reset state and the host's reads: O11, O12 and O43 (10_state.md R21, R46). -/

namespace Sys2Proof.Machine

/-! ### The host's reads -/

theorem hostRead_busy (k : ResReg) {s : State} (h : s.busy = true) : hostRead k s = .error .resultReadWhileBusy := by
  simp [hostRead, h]

theorem hostRead_idle (k : ResReg) {s : State} (h : s.busy = false) : hostRead k s = .ok (resultOf s.res k) := by
  simp [hostRead, h]

/-- Settles O12. -/
theorem resultsAreReadOnlyWhenNotBusy : Obligations.ResultsAreReadOnlyWhenNotBusy :=
  fun _ k => ⟨hostRead_busy k, hostRead_idle k⟩

/-! ### The state after reset -/

theorem getByte_zero (i : Fin 8) : getByte bytes8Zero i = 0#8 := by
  revert i
  decide

/-- Every result register is zero after reset. -/
theorem resultOf_reset (k : ResReg) : resultOf State.reset.res k = 0#32 := by
  cases k with
  | sn i => exact congrArg (BitVec.setWidth 32) (getByte_zero i)
  | status | cause | byte | raw | value => rfl

/-- Every register of the engine reads zero after either reset. -/
theorem regValue_engineReset (r : Reg) : regValue r engineReset = 0#32 := by
  cases r <;> rfl

/-- Settles O11. -/
theorem resetStateIsTheTable : Obligations.ResetStateIsTheTable :=
  ⟨regValue_engineReset .ctrl, regValue_engineReset .baud, regValue_engineReset .intflag, regValue_engineReset .status,
    regValue_engineReset .data, regValue_engineReset .addr, rfl, rfl, rfl, rfl, rfl, rfl,
    fun k => (hostRead_idle k rfl).trans (congrArg Except.ok (resultOf_reset k)), rfl, rfl, rfl, rfl, rfl⟩

theorem engineInv_reset : EngineInv engineReset := by decide

theorem sbInv_reset : SbInv engineReset := by decide

/-- In UNINIT with no operation running, the engine as after reset is the one the mode asks for. -/
theorem modeInv_of_uninit {s : State} (hp : s.phase = .uninit) (hq : s.seq = none) (he : s.eng = engineReset) :
    ModeInv s :=
  ⟨fun _ => by rw [hq, he]; rfl, fun hn => absurd hp hn⟩

/-- Settles O43: the host's inputs and the engine's turns are no part of either invariant. -/
theorem resetMeetsTheInvariants : Obligations.ResetMeetsTheInvariants := by
  intro h f
  have hseq : SeqInv ((State.reset.setHost h).setFeed f) := ⟨rfl, rfl, Nat.zero_le _⟩
  have hwrite : WriteInv ((State.reset.setHost h).setFeed f) := fun hp => nomatch hp
  exact ⟨⟨engineInv_reset, sbInv_reset, modeInv_of_uninit rfl rfl rfl, hseq, hwrite⟩, rfl⟩

end Sys2Proof.Machine
end

section
/-! Which result registers an operation writes, and O52 (10_state.md R23; 42_sensor_ops.md R204, R209). -/

namespace Sys2Proof.Machine

/-! ### What `exec` leads to, by one induction -/

/-- What an operation has where it is taken up and every step of the block keeps holds where `exec` stops; or what the
last step, a wait's or the operation's end, leaves. -/
theorem exec_next_holds {i : Instr} {Q R : State → Prop} {s t : State}
    (hstep : ∀ {u q}, Q u → u.seq = some q → q.op = i → (blockStep Config.params (operationOf i) q u).Holds Q R R)
    (hbegin : s.seq = none → legalIn i s.phase = true → Q (beginOperation i (operationOf i) s))
    (hresume : ∀ q, s.seq = some q → q.op = i → Q s) (h : exec i s = .next t) : Q t ∨ R t := by
  have hruns : ∀ {u}, (Q u ∧ ∀ q, u.seq = some q → q.op = i) →
      runFrom i u = .next t → Q t ∨ R t := by
    intro u hu hr
    refine (runSteps_next (Q := fun u => Q u ∧ ∀ q, u.seq = some q → q.op = i) (R := R) ?_ ?_ ?_ hu hr).imp_left And.left
    · intro v w q ⟨hv, hop⟩ hq hb
      have hs := hstep hv hq (hop q hq)
      have hf := blockStep_frame Config.params (operationOf i) hq
      rw [hb] at hs hf
      obtain ⟨_, _, q', hq', hop'⟩ := hf
      refine ⟨hs, fun q'' hq'' => ?_⟩
      cases hq'.symm.trans hq''
      exact hop'.trans (hop q hq)
    · intro v w q ⟨hv, hop⟩ hq hb
      have hs := hstep hv hq (hop q hq)
      rwa [hb] at hs
    · intro v w q ⟨hv, hop⟩ hq hb
      have hs := hstep hv hq (hop q hq)
      rwa [hb] at hs
  rcases runOperation_cases ((exec_runs i s).symm.trans h) with ⟨hq, hl, hr⟩ | ⟨q, hq, hop, hr⟩ | ⟨r, _, hr⟩
  · refine hruns ⟨hbegin hq hl, fun q hq' => ?_⟩ hr
    cases (beginOperation_seq ..).symm.trans hq'
    rfl
  · refine hruns ⟨hresume q hq hop, fun q' hq' => ?_⟩ hr
    cases hq.symm.trans hq'
    exact hop
  · cases hr

/-! ### The scripts -/

/-- The scripts of the sensor operations call no `INIT`, keep no byte in `RES_BYTE`, and map no failure to OK
(42_sensor_ops.md R201, R204). -/
theorem sensor_script {i : Instr} (h : isSensor i = true) :
    ∀ it ∈ (operationOf i).script, it.prim ≠ .init ∧ it.keep ≠ .result ∧ it.onFail ≠ some .ok := by
  cases i with
  | sReset | sReadSn | sReadRh | sReadT | sReadTl => decide
  | init | start | write | read | stop | convRh | convT => cases h

/-- A primitive the host issued is a script of one, a conversion has none; the byte of a `READ` is `RES_BYTE`. -/
theorem host_script {i : Instr} (h : isSensor i = false) :
    (operationOf i).script = [] ∨
      ∃ x k, (operationOf i).script = [{ prim := x, onFail := none, keep := k }] ∧ (k = .result → ∃ g, i = .read g) := by
  cases i with
  | init => exact .inr ⟨.init, .nothing, rfl, nofun⟩
  | start a d => exact .inr ⟨.start a d, .nothing, rfl, nofun⟩
  | write b => exact .inr ⟨.write b, .nothing, rfl, nofun⟩
  | read g => exact .inr ⟨.read g, .result, rfl, fun _ => ⟨g, rfl⟩⟩
  | stop => exact .inr ⟨.stop, .nothing, rfl, nofun⟩
  | convRh code | convT code => exact .inl rfl
  | sReset | sReadSn | sReadRh | sReadT | sReadTl => cases h

/-- A script of more than one item is a sensor operation's. -/
theorem isSensor_of_more {i : Instr} {k : Nat} (h : k + 1 < (operationOf i).script.length) : isSensor i = true := by
  cases hs : isSensor i with
  | true => rfl
  | false =>
    rcases host_script hs with e | ⟨x, kp, e, _⟩ <;> simp [e] at h

/-- No item of a script maps a failure to OK, and only a `READ` keeps its byte in `RES_BYTE`. -/
theorem script_item {i : Instr} {it : Item} (h : it ∈ (operationOf i).script) :
    it.onFail ≠ some .ok ∧ (it.keep = .result → ∃ g, i = .read g) := by
  cases hs : isSensor i with
  | true =>
    obtain ⟨_, hk, hf⟩ := sensor_script hs it h
    exact ⟨hf, fun e => absurd e hk⟩
  | false =>
    rcases host_script hs with e | ⟨x, k, e, hk⟩
    · simp [e] at h
    · obtain rfl : it = _ := by simpa [e] using h
      exact ⟨nofun, hk⟩

/-! ### The results an operation ends with -/

/-- From the results `r` an operation that ends OK leaves `r'`: those of the table of 10_state.md R23, a measurement's
value being its code's conversion (42_sensor_ops.md R209). -/
def OkResults (i : Instr) (r r' : Results) : Prop :=
  ((∀ g, i ≠ .read g) → r'.byte = r.byte) ∧
  (i ≠ .sReadRh → i ≠ .sReadT → i ≠ .sReadTl → isConv i = false → r'.raw = r.raw ∧ r'.value = r.value) ∧
  (i ≠ .sReadSn → r'.sn = r.sn) ∧
  (i = .sReadRh → r'.value = convRh r'.raw) ∧
  (i = .sReadT ∨ i = .sReadTl → r'.value = convT r'.raw)

/-- From the results `r` an operation ends with `r'`: a failure has reported its status and cause and nothing else; or it
has ended OK. -/
def EndResults (i : Instr) (r r' : Results) : Prop :=
  (∃ st cause, st ≠ 0x00#8 ∧ r' = reported r st cause) ∨ (r'.status = 0x00#8 ∧ OkResults i r r')

theorem codeByte_ne_zero {c : Code} (h : c ≠ .ok) : codeByte c ≠ 0x00#8 := by
  cases c with
  | ok => exact absurd rfl h
  | notReady | timeout | busError | nackOrArbitrationLost | startFailed | repeatedStartFailed | commandFailed => decide

/-- A failing item ends its operation with a failure, if the script does not map it to OK. -/
theorem finishFailed_results {i : Instr} {f : Option Code} {st : Code} (s : State) (hf : f ≠ some .ok) (hst : st ≠ .ok) :
    (finishFailed f st s).busy = false ∧ EndResults i s.res (finishFailed f st s).res := by
  cases f with
  | none => exact ⟨rfl, .inl ⟨_, _, codeByte_ne_zero hst, rfl⟩⟩
  | some e => exact ⟨rfl, .inl ⟨_, _, codeByte_ne_zero fun he => hf (congrArg some he), rfl⟩⟩

/-- What an operation reports on OK, `READ`'s byte already kept. -/
theorem report_results {i : Instr} {r r1 : Results} (w : Work)
    (h : r1 = r ∨ (∃ g, i = .read g) ∧ ∃ b, r1 = { r with byte := b }) (s : State) :
    EndResults i r (finish .ok .ok (s.setRes ((operationOf i).report w r1))).res := by
  refine .inr ⟨rfl, ?_⟩
  rcases h with rfl | ⟨⟨g, rfl⟩, b, rfl⟩
  · cases i with
    | init | start | write | read | stop | sReset =>
      exact ⟨fun _ => rfl, fun _ _ _ _ => ⟨rfl, rfl⟩, fun _ => rfl, nofun, nofun⟩
    | sReadSn => exact ⟨fun _ => rfl, fun _ _ _ _ => ⟨rfl, rfl⟩, fun h => absurd rfl h, nofun, nofun⟩
    | sReadRh => exact ⟨fun _ => rfl, fun h => absurd rfl h, fun _ => rfl, fun _ => rfl, nofun⟩
    | sReadT => exact ⟨fun _ => rfl, fun _ h => absurd rfl h, fun _ => rfl, nofun, fun _ => rfl⟩
    | sReadTl => exact ⟨fun _ => rfl, fun _ _ h => absurd rfl h, fun _ => rfl, nofun, fun _ => rfl⟩
    | convRh | convT => exact ⟨fun _ => rfl, fun _ _ _ h => (nomatch h), fun _ => rfl, nofun, nofun⟩
  · exact ⟨fun h => absurd rfl (h g), fun _ _ _ _ => ⟨rfl, rfl⟩, fun _ => rfl, nofun, nofun⟩

/-- The byte kept is `RES_BYTE` in a `READ`, and no result otherwise. -/
theorem keepByte_results {i : Instr} {it : Item} (h : it ∈ (operationOf i).script) (d : Byte) (s : State) :
    (keepByte it.keep d s).res = s.res ∨
      (∃ g, i = .read g) ∧ ∃ b, (keepByte it.keep d s).res = { s.res with byte := b } := by
  rw [keepByte_res]
  split
  · exact .inr ⟨(script_item h).2 (by assumption), d, rfl⟩
  · exact .inl rfl

/-- Between two items of a script no result is written; where an item ends the operation, its results are. -/
theorem itemEnded_results (i j : Instr) (k : Nat) (st : Code) (d : Byte) (s : State) :
    (itemEnded j (operationOf i) k st d s).Holds (fun t => t.busy = s.busy ∧ t.res = s.res)
      (fun t => t.busy = s.busy ∧ t.res = s.res) (fun t => t.busy = false ∧ EndResults i s.res t.res) := by
  rcases itemEnded_cases j (operationOf i) k st d s with
    ⟨_, e⟩ | ⟨it, hit, _, hmore, e⟩ | ⟨it, hit, _, _, e⟩ | ⟨it, hit, hst, e⟩
  · rw [e]
    exact ⟨rfl, report_results _ (.inl rfl) s⟩
  · obtain ⟨_, hk, _⟩ := sensor_script (isSensor_of_more hmore) it (List.mem_of_getElem? hit)
    rw [e]
    exact ⟨by simp, by simp [keepByte_res, hk]⟩
  · rw [e]
    exact ⟨rfl, report_results _ (keepByte_results (List.mem_of_getElem? hit) d s) _⟩
  · rw [e]
    exact finishFailed_results s (script_item (List.mem_of_getElem? hit)).1 hst

/-- A sequencer step writes no result before the operation's end. -/
theorem seqStep_results (i : Instr) (q : SeqPos) (s : State) :
    (seqStep Config.params (operationOf i) q s).Holds (fun t => t.busy = s.busy ∧ t.res = s.res)
      (fun t => t.busy = s.busy ∧ t.res = s.res) (fun t => t.busy = false ∧ EndResults i s.res t.res) := by
  have h := runLine_frame Config.params q.line s
  unfold seqStep
  generalize runLine Config.params q.line s = out at h
  cases out with
  | goto l t =>
    obtain ⟨_, hbusy, hres⟩ := h
    exact ⟨(moveTo_busy ..).trans hbusy, (moveTo_res ..).trans hres⟩
  | again t | spin t =>
    obtain ⟨_, hbusy, hres, _⟩ := h
    exact ⟨hbusy, hres⟩
  | done st d t =>
    obtain ⟨_, hbusy, hres⟩ := h
    have he := itemEnded_results i q.op q.item st d t
    rwa [hbusy, hres] at he
  | refused r => trivial

/-- Nor does a step of the block. -/
theorem blockStep_results (i : Instr) (q : SeqPos) (s : State) :
    (blockStep Config.params (operationOf i) q s).Holds (fun t => t.busy = s.busy ∧ t.res = s.res)
      (fun t => t.busy = s.busy ∧ t.res = s.res) (fun t => t.busy = false ∧ EndResults i s.res t.res) := by
  rcases blockStep_cases Config.params (operationOf i) q s with ⟨f, out, x, _, e⟩ | ⟨f, e⟩
  · rw [e]
    exact ⟨rfl, rfl⟩
  · rw [e]
    exact seqStep_results i q (s.setFeed f)

/-- Where `exec` stops, the operation is under way with every result as it was, or it has ended. -/
theorem exec_results {i : Instr} {s t : State} (hb : s.busy = s.seq.isSome) (h : exec i s = .next t) :
    (t.busy = true ∧ t.res = s.res) ∨ (t.busy = false ∧ EndResults i s.res t.res) := by
  refine (exec_next_holds (Q := fun t => t.busy = true ∧ t.res = s.res)
    (R := fun t => (t.busy = true ∧ t.res = s.res) ∨ (t.busy = false ∧ EndResults i s.res t.res)) ?_ ?_ ?_ h).elim .inl id
  · intro u q ⟨hbusy, hres⟩ _ _
    have hstep := blockStep_results i q u
    rw [hbusy, hres] at hstep
    exact hstep.mono (fun _ => id) (fun _ => .inl) (fun _ => .inr)
  · exact fun _ _ => ⟨beginOperation_busy .., beginOperation_res ..⟩
  · exact fun q hq _ => ⟨by rw [hb, hq]; rfl, rfl⟩

/-! ### O52 -/

/-- Settles O52. -/
theorem resultUpdatePolicy : Obligations.ResultUpdatePolicy := by
  intro i s t hinv h
  obtain ⟨_, _, _, ⟨hb, _⟩, _⟩ := hinv
  rcases exec_results hb h with ⟨hbusy, hres⟩ | ⟨hbusy, hend⟩
  · exact ⟨fun _ => hres, fun hf => absurd hbusy (by simp [hf])⟩
  · refine ⟨fun ht => absurd hbusy (by simp [ht]), fun _ => ?_⟩
    rcases hend with ⟨st, cause, hst, e⟩ | ⟨hok, hbyte, hraw, hsn, hrh, htemp⟩
    · rw [e]
      exact ⟨fun _ => rfl, fun _ => rfl, fun _ _ _ _ => ⟨rfl, rfl⟩, fun _ => rfl, fun h0 => absurd h0 hst,
        fun h0 => absurd h0 hst⟩
    · exact ⟨fun hne => absurd hok hne, hbyte, hraw, hsn, fun _ => hrh, fun _ => htemp⟩

end Sys2Proof.Machine
end

section
/-! What the lines' accesses rest on, kept by every step of the block, and O53 (10_state.md R36; 30_encoding.md R113). -/

namespace Sys2Proof.Machine

/-! ### What a line's access rests on -/

/-- `ENABLE` and `MASTER` are set and no software reset runs, as after `INIT` (41_bus_primitives.md R170, R174). -/
def ModeSet (e : Engine) : Prop := e.ctrl.enable = true ∧ e.ctrl.master = true ∧ e.inflight ≠ .resetPh

/-- What has to hold at a line for its access to be the listed one, and for this to hold at the lines after it: the mode
is set, from `START`'s enabled check on; the latch holds `CTRL` where `CTRL` is written from it; `CTRL` reads zero once
the reset of `INIT` is over. -/
def LineRests (l : Line) (s : State) : Prop :=
  match l with
  | .init .resetWait => s.eng.inflight = .resetPh ∨ ctrlBits s.eng.ctrl = 0#32
  | .init _ => True
  | .start _ _ .check => s.eng.ctrl.enable = true → ModeSet s.eng
  | .start _ _ (.failStop _) => ModeSet s.eng ∧ s.work.ctrlLatch = ctrlBits s.eng.ctrl
  | .read _ .writeCtrl => ModeSet s.eng ∧ s.work.ctrlLatch = ctrlBits s.eng.ctrl
  | .stop .writeCtrl => ModeSet s.eng ∧ s.work.ctrlLatch = ctrlBits s.eng.ctrl
  | .convert => True
  | _ => ModeSet s.eng

/-- From `s` to `t` the access of the line `l`, if it makes one, was recorded, and nothing else. -/
def Recorded (l : Line) (s t : State) : Prop := t.trace = s.trace ++ (lineAccess l s.eng).toList

/-- The primitive a line is of; a conversion's is of none. -/
def primOf (l : Line) : Option Prim :=
  match l with
  | .init _ => some .init
  | .start a d _ => some (.start a d)
  | .write b _ => some (.write b)
  | .read g _ => some (.read g)
  | .stop _ => some .stop
  | .convert => none

theorem primOf_of_lineOf {x : Prim} {l : Line} (h : lineOf x l = true) : primOf l = some x := by
  unfold lineOf at h
  split at h <;> simp_all [primOf]

/-! ### The mode and the latch under an access -/

theorem stopWord_ctrlBits {c : Ctrl} (he : c.enable = true) (hm : c.master = true) :
    stopWord (ctrlBits c) = if c.ackact then 0x00070006#32 else 0x00030006#32 := by
  rcases c with ⟨_ | _, _ | _, _ | _⟩ <;> simp at he hm <;> decide

theorem ackWord_ctrlBits {c : Ctrl} (g : Bool) (he : c.enable = true) (hm : c.master = true) :
    ackWord g (ctrlBits c) = if g then 0x00000006#32 else 0x00040006#32 := by
  rcases c with ⟨_ | _, _ | _, _ | _⟩ <;> simp at he hm <;> cases g <;> decide

/-- A write of `CTRL` with `ENABLE` and `MASTER` set and no software reset keeps the mode. -/
theorem reactWriteCtrl_modeSet {v : Word} {e : Engine} {x : Reaction} (h : reactWriteCtrl v e = .ok x)
    (h0 : v.getLsbD 0 = false) (h1 : v.getLsbD 1 = true) (h2 : v.getLsbD 2 = true) (hm : ModeSet e) : ModeSet x.eng := by
  have hc : (ctrlOfWord v).enable = true ∧ (ctrlOfWord v).master = true := ⟨h1, h2⟩
  simp only [reactWriteCtrl, h0, Bool.false_eq_true, if_false] at h
  split at h
  · cases h
  · split at h
    · cases h
    · split at h
      · split at h
        · cases h
          exact ⟨hc.1, hc.2, nofun⟩
        · cases h
      · cases h
        exact ⟨hc.1, hc.2, hm.2.2⟩

/-- A write of another register keeps the mode. -/
theorem writeReg_modeSet {r : Reg} {v : Word} {e : Engine} {x : Reaction} (h : writeReg r v e = .ok x) (hr : r ≠ .ctrl)
    (hm : ModeSet e) : ModeSet x.eng := by
  obtain ⟨he, hma, hi⟩ := hm
  simp only [writeReg, hi, if_false] at h
  cases r with
  | ctrl => exact absurd rfl hr
  | baud | intflag =>
    cases h
    exact ⟨he, hma, hi⟩
  | status => cases h
  | data =>
    simp only [reactWriteData] at h
    split at h
    · cases h
    · split at h
      · cases h
      · cases h
        exact ⟨he, hma, nofun⟩
  | addr =>
    simp only [reactWriteAddr] at h
    split at h
    · cases h
    · split at h
      · cases h
      · cases h
        exact ⟨he, hma, nofun⟩

/-- Reading `DATA` keeps the mode: its acknowledge may start a reception, no reset. -/
theorem reactReadData_modeSet {e : Engine} (hm : ModeSet e) : ModeSet (reactReadData e).eng := by
  obtain ⟨he, hma, hi⟩ := hm
  unfold reactReadData
  split
  · refine ⟨he, hma, ?_⟩
    dsimp only
    split
    · exact hi
    · nofun
  · exact ⟨he, hma, hi⟩

section
variable {r : Reg} {v : Word} {s t : State}

theorem seqRead_modeSet (h : seqRead r s = .ok (v, t)) (hm : ModeSet s.eng) : ModeSet t.eng := by
  obtain ⟨_, _, rfl⟩ := seqRead_cases h
  show ModeSet (if r = .data then reactReadData s.eng else { eng := s.eng, wire := [] }).eng
  split
  · exact reactReadData_modeSet hm
  · exact hm

theorem seqRead_trace (h : seqRead r s = .ok (v, t)) : t.trace = s.trace ++ [.rd r (regValue r s.eng)] := by
  obtain ⟨rfl, _, rfl⟩ := seqRead_cases h
  rfl

/-- A read of `CTRL` leaves the engine, and its latch holds what was read. -/
theorem seqRead_ctrl (h : seqRead .ctrl s = .ok (v, t)) :
    v = ctrlValue s.eng ∧ t.eng = s.eng ∧ t.work.ctrlLatch = ctrlValue s.eng := by
  obtain ⟨rfl, _, rfl⟩ := seqRead_cases h
  exact ⟨rfl, rfl, rfl⟩

/-- With the mode set, a read of `CTRL` latches its stored fields. -/
theorem seqRead_latches (h : seqRead .ctrl s = .ok (v, t)) (hm : ModeSet s.eng) :
    ModeSet t.eng ∧ t.work.ctrlLatch = ctrlBits t.eng.ctrl := by
  obtain ⟨_, he, hl⟩ := seqRead_ctrl h
  rw [he, hl, ctrlValue_running hm.2.2]
  exact ⟨hm, rfl⟩

theorem seqWrite_modeSet (h : seqWrite r v s = .ok t) (hr : r ≠ .ctrl) (hm : ModeSet s.eng) : ModeSet t.eng := by
  obtain ⟨x, hx, _, rfl⟩ := seqWrite_cases h
  exact writeReg_modeSet hx hr hm

theorem seqWrite_ctrl_modeSet (h : seqWrite .ctrl v s = .ok t) (h0 : v.getLsbD 0 = false) (h1 : v.getLsbD 1 = true)
    (h2 : v.getLsbD 2 = true) (hm : ModeSet s.eng) : ModeSet t.eng := by
  obtain ⟨x, hx, hi, rfl⟩ := seqWrite_cases h
  simp only [writeReg, hi, if_false] at hx
  exact reactWriteCtrl_modeSet hx h0 h1 h2 hm

theorem seqWrite_trace (h : seqWrite r v s = .ok t) : t.trace = s.trace ++ [.wr r v] := by
  obtain ⟨_, _, _, rfl⟩ := seqWrite_cases h
  rfl

theorem seqSet_trace {m : Word} (h : seqSet r m s = .ok t) : t.trace = s.trace ++ [.set r m] := by
  obtain ⟨_, _, rfl⟩ := seqSet_cases h
  rfl

/-- The write of `SWRST` starts a software reset. -/
theorem seqWrite_swrst (h : seqWrite .ctrl maskSwrst s = .ok t) : t.eng.inflight = .resetPh := by
  obtain ⟨x, hx, hi, rfl⟩ := seqWrite_cases h
  simp only [writeReg, hi, if_false, reactWriteCtrl, show maskSwrst.getLsbD 0 = true from rfl, if_true] at hx
  cases hx
  rfl

end

/-- The STOP command keeps the mode, and is recorded with the word the spec lists. -/
theorem seqWrite_stopWord {s t : State} (h : seqWrite .ctrl (stopWord s.work.ctrlLatch) s = .ok t)
    (hr : ModeSet s.eng ∧ s.work.ctrlLatch = ctrlBits s.eng.ctrl) :
    t.trace = s.trace ++ [.wr .ctrl (if s.eng.ctrl.ackact then 0x00070006#32 else 0x00030006#32)] ∧ ModeSet t.eng := by
  obtain ⟨hm, hl⟩ := hr
  rw [hl, stopWord_ctrlBits hm.1 hm.2.1] at h
  refine ⟨seqWrite_trace h, seqWrite_ctrl_modeSet h ?_ ?_ ?_ hm⟩ <;> split <;> rfl

/-- So does `READ`'s acknowledge update. -/
theorem seqWrite_ackWord {g : Bool} {s t : State} (h : seqWrite .ctrl (ackWord g s.work.ctrlLatch) s = .ok t)
    (hr : ModeSet s.eng ∧ s.work.ctrlLatch = ctrlBits s.eng.ctrl) :
    t.trace = s.trace ++ [.wr .ctrl (if g then 0x00000006#32 else 0x00040006#32)] ∧ ModeSet t.eng := by
  obtain ⟨hm, hl⟩ := hr
  rw [hl, ackWord_ctrlBits g hm.1 hm.2.1] at h
  refine ⟨seqWrite_trace h, seqWrite_ctrl_modeSet h ?_ ?_ ?_ hm⟩ <;> split <;> rfl

/-! ### A line records its access, and what the next line rests on holds -/

/-- The outcome of the line `l` made in `s`: its access is recorded; the line gone on to is of the same primitive and has
what it rests on; and the mode is set where a primitive but `INIT` ends OK. -/
def LineKeeps (l : Line) (s : State) (out : LineOut) : Prop :=
  out.Holds (fun l' t => Recorded l s t ∧ primOf l' = primOf l ∧ LineRests l' t)
    (fun t => Recorded l s t ∧ LineRests l t) (fun t => Recorded l s t ∧ LineRests l t)
    (fun st _ t => Recorded l s t ∧ (st = .ok → ∀ x, primOf l = some x → x ≠ .init → ModeSet t.eng))

theorem initLine_keeps {l : InitLine} {s : State} (h : LineRests (.init l) s) :
    LineKeeps (.init l) s (initLine Config.params l s) := by
  cases l <;> dsimp only [initLine]
  case clkEnable | clkSelect | pinSda => exact ⟨rfl, rfl, trivial⟩
  case pinScl => exact ⟨rfl, fun _ x hx hn => absurd (Option.some.inj hx).symm hn⟩
  case swrst => exact onWrite_holds fun _ hw => ⟨(seqWrite_trace hw :), rfl, .inl (seqWrite_swrst hw)⟩
  case master | baud => exact onWrite_holds fun _ hw => ⟨(seqWrite_trace hw :), rfl, trivial⟩
  case enable => exact onWrite_holds fun _ hw => ⟨seqSet_trace hw, rfl, trivial⟩
  case resetWait =>
    refine onRead_holds fun _ t hr => ?_
    have ht : Recorded (.init .resetWait) s t := by
      rw [Recorded, seqRead_trace hr]
      rcases h with hi | h0
      · simp [lineAccess, regValue, ctrlValue, hi, maskSwrst]
      · simp [lineAccess, regValue, ctrlValue, h0, maskSwrst]
    split
    · refine ⟨ht, ?_⟩
      rw [LineRests, (seqRead_ctrl hr).2.1]
      exact h
    · exact ⟨ht, rfl, trivial⟩

theorem startLine_keeps {a : BitVec 7} {d : Dir} {l : StartLine} {s : State} (h : LineRests (.start a d l) s) :
    LineKeeps (.start a d l) s (startLine Config.params a d l s) := by
  cases l <;> dsimp only [startLine]
  case check =>
    refine onRead_holds fun v t hr => ?_
    obtain ⟨hv, he, _⟩ := seqRead_ctrl hr
    split
    · refine ⟨(seqRead_trace hr :), rfl, seqRead_modeSet hr (h ?_)⟩
      by_cases hi : s.eng.inflight = .resetPh
      · rename_i hbit
        simp [hv, ctrlValue, hi, maskSwrst] at hbit
      · rename_i hbit
        simpa only [hv, ctrlValue_running hi, ctrlBits_bit1] using hbit
    · exact ⟨(seqRead_trace hr :), nofun⟩
  case flags =>
    refine onRead_holds fun _ _ hr => ⟨(seqRead_trace hr :), rfl, ?_⟩
    split <;> exact seqRead_modeSet hr h
  case cleanup | address =>
    exact onWrite_holds fun _ hw => ⟨(seqWrite_trace hw :), rfl, (seqWrite_modeSet hw (by decide) h :)⟩
  case poll =>
    exact pollLine_holds (fun _ _ hr _ => ⟨(seqRead_trace hr :), rfl, (seqRead_modeSet hr h :)⟩)
      (fun _ _ hr _ _ => ⟨(seqRead_trace hr :), (seqRead_modeSet hr h :)⟩)
      fun _ _ hr _ _ => ⟨(seqRead_trace hr :), rfl, (seqRead_modeSet hr h :)⟩
  case status =>
    refine onRead_holds fun _ _ hr => ?_
    split
    · exact ⟨(seqRead_trace hr :), rfl, (seqRead_modeSet hr h :)⟩
    · exact ⟨(seqRead_trace hr :), fun _ _ _ _ => (seqRead_modeSet hr h :)⟩
  case failRead => exact onRead_holds fun _ _ hr => ⟨(seqRead_trace hr :), rfl, seqRead_latches hr h⟩
  case failStop =>
    exact onWrite_holds fun _ hw => ⟨(seqWrite_stopWord hw h).1, rfl, (seqWrite_stopWord hw h).2⟩
  case failClear =>
    exact onWrite_holds fun _ hw => ⟨(seqWrite_trace hw :), fun _ _ _ _ => (seqWrite_modeSet hw (by decide) h :)⟩

theorem writeLine_keeps {b : Byte} {l : WriteLine} {s : State} (h : LineRests (.write b l) s) :
    LineKeeps (.write b l) s (writeLine b l s) := by
  cases l <;> dsimp only [writeLine]
  case data => exact onWrite_holds fun _ hw => ⟨(seqWrite_trace hw :), rfl, (seqWrite_modeSet hw (by decide) h :)⟩
  case wait =>
    refine onRead_holds fun _ _ hr => ?_
    split
    · exact ⟨(seqRead_trace hr :), (seqRead_modeSet hr h :)⟩
    · split <;> exact ⟨(seqRead_trace hr :), fun _ _ _ _ => (seqRead_modeSet hr h :)⟩

theorem readLine_keeps {g : Bool} {l : ReadLine} {s : State} (h : LineRests (.read g l) s) :
    LineKeeps (.read g l) s (readLine Config.params g l s) := by
  cases l <;> dsimp only [readLine]
  case poll =>
    refine pollLine_holds (fun _ _ hr _ => ?_) (fun _ _ hr _ _ => ⟨(seqRead_trace hr :), (seqRead_modeSet hr h :)⟩)
      fun _ _ hr _ _ => ⟨(seqRead_trace hr :), fun _ _ _ _ => (seqRead_modeSet hr h :)⟩
    split
    · exact ⟨(seqRead_trace hr :), fun _ _ _ _ => (seqRead_modeSet hr h :)⟩
    · exact ⟨(seqRead_trace hr :), rfl, (seqRead_modeSet hr h :)⟩
  case readCtrl => exact onRead_holds fun _ _ hr => ⟨(seqRead_trace hr :), rfl, seqRead_latches hr h⟩
  case writeCtrl => exact onWrite_holds fun _ hw => ⟨(seqWrite_ackWord hw h).1, rfl, (seqWrite_ackWord hw h).2⟩
  case data => exact onRead_holds fun _ _ hr => ⟨(seqRead_trace hr :), fun _ _ _ _ => (seqRead_modeSet hr h :)⟩

theorem stopLine_keeps {l : StopLine} {s : State} (h : LineRests (.stop l) s) :
    LineKeeps (.stop l) s (stopLine l s) := by
  cases l <;> dsimp only [stopLine]
  case readCtrl => exact onRead_holds fun _ _ hr => ⟨(seqRead_trace hr :), rfl, seqRead_latches hr h⟩
  case writeCtrl =>
    exact onWrite_holds fun _ hw => ⟨(seqWrite_stopWord hw h).1, fun _ _ _ _ => (seqWrite_stopWord hw h).2⟩

theorem runLine_keeps {l : Line} {s : State} (h : LineRests l s) : LineKeeps l s (runLine Config.params l s) := by
  cases l with
  | init l => exact initLine_keeps h
  | start a d l => exact startLine_keeps h
  | write b l => exact writeLine_keeps h
  | read g l => exact readLine_keeps h
  | stop l => exact stopLine_keeps h
  | convert => exact ⟨(List.append_nil _).symm, fun _ _ hx => nomatch hx⟩

/-! ### Where the sequencer stands, and what keeps it there -/

/-- The sequencer stands at a line of its script's item, and the line has what it rests on. -/
def Standing (q : SeqPos) (s : State) : Prop :=
  (operationOf q.op).script[q.item]?.map Item.prim = primOf q.line ∧ LineRests q.line s

/-- A primitive may begin where the mode is set; so may `INIT` where it is not. -/
theorem lineRests_firstLine {x : Prim} {s : State} (h : x ≠ .init → ModeSet s.eng) : LineRests (firstLine x) s := by
  cases x with
  | init => trivial
  | start a d => exact fun _ => h nofun
  | write b | read g | stop => exact h nofun

theorem primOf_firstLine (x : Prim) : primOf (firstLine x) = some x := by
  cases x <;> rfl

/-- The first line of a script's item. -/
theorem itemLine_of_get {o : Operation} {k : Nat} {it : Item} (h : o.script[k]? = some it) :
    itemLine o k = firstLine it.prim := by
  simp [itemLine, h]

/-- A completion keeps what a line rests on: a software reset's leaves `CTRL` zero, any other leaves the mode. -/
theorem lineRests_complete {l : Line} {s t : State} {o : EnvOutcome} {x : Reaction}
    (hc : complete Config.params o s.eng = some x) (he : t.eng = x.eng) (hw : t.work = s.work) (h : LineRests l s) :
    LineRests l t := by
  by_cases hi : s.eng.inflight = .resetPh
  · have hx : t.eng = engineReset := by
      simp only [complete, hi, Option.some.injEq] at hc
      rw [he, ← hc]
    clear he hc
    unfold LineRests at *
    split at h <;> simp_all [ModeSet, engineReset, ctrlBits, bitIf]
  · obtain ⟨hctrl, _, _, _, hx⟩ := complete_keeps_mode hc hi
    unfold LineRests at *
    split at h <;> simp_all [ModeSet]

/-- Where an item ends nothing is recorded, and the script's next one, if it has one, has what its first line rests on. -/
theorem itemEnded_keeps {q : SeqPos} {st : Code} {s : State} (d : Byte)
    (hitem : (operationOf q.op).script[q.item]?.map Item.prim = primOf q.line)
    (hm : st = .ok → ∀ x, primOf q.line = some x → x ≠ .init → ModeSet s.eng) :
    (itemEnded q.op (operationOf q.op) q.item st d s).Holds
      (fun t => t.trace = s.trace ∧ ∃ q', t.seq = some q' ∧ q'.op = q.op ∧ Standing q' t)
      (fun t => t.trace = s.trace) (fun t => t.trace = s.trace) := by
  have hbooks := itemEnded_bookkept q.op (operationOf q.op) q.item st d s
  rcases itemEnded_cases q.op (operationOf q.op) q.item st d s with
    ⟨_, e⟩ | ⟨it, hit, hst, hmore, e⟩ | ⟨_, _, _, _, e⟩ | ⟨_, _, _, e⟩
  · rw [e] at hbooks ⊢
    exact hbooks.keeps.1
  · rw [e] at hbooks ⊢
    have hinit := (sensor_script (isSensor_of_more hmore) it (List.mem_of_getElem? hit)).1
    have hmode := hm hst it.prim (by rw [← hitem, hit]; rfl) hinit
    have hnext := List.getElem?_eq_getElem hmore
    refine ⟨hbooks.keeps.1, _, moveTo_seq .., rfl, ?_, ?_⟩
    · simp [itemLine_of_get hnext, hnext, primOf_firstLine]
    · rw [itemLine_of_get hnext]
      exact lineRests_firstLine fun _ => by simpa using hmode
  · rw [e] at hbooks ⊢
    exact hbooks.keeps.1
  · rw [e] at hbooks ⊢
    exact hbooks.keeps.1

/-- The line stays with what it rests on when the sequencer moves to it. -/
theorem lineRests_moveTo {i : Instr} {k : Nat} {l : Line} {s : State} (h : LineRests l s) :
    LineRests l (moveTo i k l s) := by
  have hl := (moveTo_latches i k l s).2.2
  unfold LineRests at *
  simpa only [moveTo_eng, hl] using h

/-- A sequencer step records its line's access, and goes on to where the sequencer can stand. -/
theorem seqStep_keeps {q : SeqPos} {s : State} (hq : s.seq = some q) (h : Standing q s) :
    (seqStep Config.params (operationOf q.op) q s).Holds
      (fun t => Recorded q.line s t ∧ ∃ q', t.seq = some q' ∧ q'.op = q.op ∧ Standing q' t)
      (Recorded q.line s) (Recorded q.line s) := by
  obtain ⟨hitem, hrests⟩ := h
  have hl := runLine_keeps hrests
  have hf := runLine_frame Config.params q.line s
  unfold seqStep
  generalize runLine Config.params q.line s = out at hl hf
  cases out with
  | goto l t =>
    obtain ⟨ht, hp, hr⟩ := hl
    exact ⟨(moveTo_trace ..).trans ht, _, moveTo_seq .., rfl, hitem.trans hp.symm, lineRests_moveTo hr⟩
  | again t =>
    obtain ⟨ht, hr⟩ := hl
    obtain ⟨_, _, _, hseq⟩ := hf
    exact ⟨ht, q, hseq.trans hq, rfl, hitem, hr⟩
  | spin t => exact hl.1
  | done st d t =>
    obtain ⟨ht, hm⟩ := hl
    exact (itemEnded_keeps d hitem hm).mono (fun _ ⟨hu, hs⟩ => ⟨hu.trans ht, hs⟩) (fun _ hu => hu.trans ht)
      (fun _ hu => hu.trans ht)
  | refused r => trivial

/-- A step of the block records the access of the line the sequencer stands at, or none; and the sequencer stands where
it can. -/
theorem blockStep_keeps {q : SeqPos} {s : State} (hq : s.seq = some q) (h : Standing q s) :
    (blockStep Config.params (operationOf q.op) q s).Holds
      (fun t => (t.trace = s.trace ∨ Recorded q.line s t) ∧ ∃ q', t.seq = some q' ∧ q'.op = q.op ∧ Standing q' t)
      (Recorded q.line s) (Recorded q.line s) := by
  rcases blockStep_cases Config.params (operationOf q.op) q s with ⟨f, o, x, hc, e⟩ | ⟨f, e⟩
  · rw [e]
    exact ⟨.inl rfl, q, hq, rfl, h.1, lineRests_complete hc rfl rfl h.2⟩
  · rw [e]
    exact (seqStep_keeps (s := s.setFeed f) hq h).mono (fun _ ⟨ht, hs⟩ => ⟨.inr ht, hs⟩) (fun _ => id) (fun _ => id)

/-! ### From the invariant the sequencer stands where it can -/

theorem modeSet_of_phase {s : State} (hmode : ModeInv s) (hp : s.phase ≠ .uninit) : ModeSet s.eng :=
  have ⟨he, hm, hi, _⟩ := hmode.2 hp
  ⟨he, hm, hi⟩

/-- Before `INIT` has ended, and outside `INIT`, the engine is not enabled. -/
theorem modeSet_of_enabled {s : State} (hmode : ModeInv s) (hq : ∀ q l, s.seq = some q → q.line ≠ .init l)
    (he : s.eng.ctrl.enable = true) : ModeSet s.eng := by
  by_cases hp : s.phase = .uninit
  · have hboot : s.eng = engineReset := by
      have hb := hmode.1 hp
      unfold bootFits at hb
      split at hb
      · rename_i hs
        exact absurd rfl (hq _ _ hs)
      · exact eq_of_beq hb
    rw [hboot] at he
    cases he
  · exact modeSet_of_phase hmode hp

/-- At the reset wait of `INIT` the engine resets, or is as after reset. -/
theorem lineRests_resetWait {s : State} {q : SeqPos} (hmode : ModeInv s) (hp : s.phase = .uninit) (hq : s.seq = some q)
    (hl : q.line = .init .resetWait) : LineRests q.line s := by
  have hb := hmode.1 hp
  obtain ⟨op, k, l⟩ := q
  obtain rfl : l = .init .resetWait := hl
  simp only [hq, bootFits, engineAt, Bool.or_eq_true, beq_iff_eq] at hb
  rcases hb with he | he
  · exact .inr (by rw [he]; rfl)
  · exact .inl (by rw [he])

/-- In a state of the invariant the line the sequencer stands at has what it rests on. -/
theorem lineRests_of_standsWell {q : SeqPos} {s : State} (hmode : ModeInv s) (hq : s.seq = some q)
    (hp : phaseAt q s.phase = true) (he : engineFits q s = true) : LineRests q.line s := by
  obtain ⟨op, k, l⟩ := q
  have mode : s.phase ≠ .uninit → ModeSet s.eng := modeSet_of_phase hmode
  cases l with
  | init l =>
    cases l with
    | resetWait => exact lineRests_resetWait hmode (eq_of_beq hp) hq rfl
    | clkEnable | clkSelect | swrst | master | baud | enable | pinSda | pinScl => trivial
  | start a d l =>
    cases l with
    | check =>
      refine modeSet_of_enabled hmode fun q' l' hq' => ?_
      cases hq.symm.trans hq'
      nofun
    | failStop e => exact ⟨mode (by simpa [phaseAt] using hp), eq_of_beq he⟩
    | flags | cleanup | address | poll | status | failRead | failClear => exact mode (by simpa [phaseAt] using hp)
  | write b l =>
    have hm := mode (by rw [eq_of_beq hp]; nofun)
    cases l <;> exact hm
  | read g l =>
    have hm := mode (by rw [eq_of_beq hp]; nofun)
    cases l with
    | writeCtrl => exact ⟨hm, eq_of_beq (Bool.and_eq_true_iff.mp he).2⟩
    | poll | readCtrl | data => exact hm
  | stop l =>
    have hm := mode (by simpa [phaseAt] using hp)
    cases l with
    | writeCtrl => exact ⟨hm, eq_of_beq (Bool.and_eq_true_iff.mp he).2⟩
    | readCtrl => exact hm
  | convert => trivial

/-- A line of the script is of its item's primitive. -/
theorem primOf_of_inScript {q : SeqPos} (h : inScript q = true) :
    (operationOf q.op).script[q.item]?.map Item.prim = primOf q.line := by
  unfold inScript at h
  split at h
  · rename_i hs
    have hc : q.item = 0 ∧ q.line = .convert := by simpa using h
    simp [hs, hc.2, primOf]
  · rename_i it rest hs
    rw [hs]
    split at h
    · rename_i x hx
      rw [hx, primOf_of_lineOf h]
      rfl
    · cases h

theorem standing_of_inv {q : SeqPos} {s : State} (h : Inv s) (hq : s.seq = some q) : inScript q = true ∧ Standing q s := by
  obtain ⟨_, _, hmode, ⟨_, hseq, _⟩, _⟩ := h
  have hw : standsWell q s = true := by simpa [hq] using hseq
  simp only [standsWell, Bool.and_eq_true] at hw
  obtain ⟨⟨⟨hin, hp⟩, he⟩, _⟩ := hw
  exact ⟨hin, primOf_of_inScript hin, lineRests_of_standsWell hmode hq hp he⟩

/-- Where an operation begins, it stands at its first line, with what this rests on. -/
theorem standing_beginOperation {i : Instr} {s : State} (h : Inv s) (hq : s.seq = none) (hl : legalIn i s.phase = true) :
    Standing { op := i, item := 0, line := itemLine (operationOf i) 0 } (beginOperation i (operationOf i) s) := by
  obtain ⟨_, _, hmode, _, _⟩ := h
  have mode : s.phase ≠ .uninit → ModeSet (beginOperation i (operationOf i) s).eng := fun hp => by
    simpa using modeSet_of_phase hmode hp
  have check : (beginOperation i (operationOf i) s).eng.ctrl.enable = true →
      ModeSet (beginOperation i (operationOf i) s).eng := fun he => by
    simpa using modeSet_of_enabled hmode (fun q l hs => nomatch hq.symm.trans hs) (by simpa using he)
  cases i with
  | init => exact ⟨rfl, trivial⟩
  | start a d => exact ⟨rfl, check⟩
  | write b => exact ⟨rfl, mode (by rw [eq_of_beq hl]; nofun)⟩
  | read g => exact ⟨rfl, mode (by rw [eq_of_beq hl]; nofun)⟩
  | stop => exact ⟨rfl, mode (by simpa [legalIn] using hl)⟩
  | sReset | sReadSn | sReadRh | sReadT | sReadTl => exact ⟨rfl, check⟩
  | convRh c | convT c => exact ⟨rfl, trivial⟩

/-! ### The accesses of an operation -/

/-- A line's listed access is one its primitive may make. -/
theorem primMay_lineAccess {l : Line} {x : Prim} {e : Engine} {a : Access} (hx : primOf l = some x)
    (ha : lineAccess l e = some a) : primMay x a = true := by
  unfold lineAccess at ha
  split at ha <;> cases ha <;> cases hx <;> simp [primMay]

/-- A line of no primitive, a conversion's, makes no access. -/
theorem lineAccess_of_primOf_none {l : Line} (e : Engine) (h : primOf l = none) : lineAccess l e = none := by
  cases l with
  | convert => rfl
  | init | start | write | read | stop => cases h

/-- What a standing line records, its operation may record. -/
theorem mayAccess_lineAccess {q : SeqPos} {s : State} {e : Engine} {a : Access} (h : Standing q s)
    (ha : lineAccess q.line e = some a) : mayAccess q.op a = true := by
  obtain ⟨hitem, _⟩ := h
  cases hit : (operationOf q.op).script[q.item]? with
  | none =>
    rw [hit] at hitem
    cases (lineAccess_of_primOf_none e hitem.symm).symm.trans ha
  | some it =>
    rw [hit] at hitem
    exact List.any_eq_true.mpr ⟨it, List.mem_of_getElem? hit, primMay_lineAccess hitem.symm ha⟩

/-- From `s` to `t` only accesses that the operation `i` may make were recorded. -/
def RecordsOnly (i : Instr) (s t : State) : Prop :=
  ∃ new, t.trace = s.trace ++ new ∧ ∀ a ∈ new, mayAccess i a = true

theorem recordsOnly_of_eq {i : Instr} {s t : State} (h : t.trace = s.trace) : RecordsOnly i s t :=
  ⟨[], by simp [h], nofun⟩

theorem RecordsOnly.trans {i : Instr} {s u t : State} (h : RecordsOnly i s u) (h' : RecordsOnly i u t) :
    RecordsOnly i s t := by
  obtain ⟨new, hu, hnew⟩ := h
  obtain ⟨new', ht, hnew'⟩ := h'
  exact ⟨new ++ new', by rw [ht, hu, List.append_assoc], fun a ha => (List.mem_append.mp ha).elim (hnew a) (hnew' a)⟩

theorem recordsOnly_of_recorded {q : SeqPos} {s t : State} (hs : Standing q s) (h : Recorded q.line s t) :
    RecordsOnly q.op s t :=
  ⟨_, h, fun _ ha => mayAccess_lineAccess hs (Option.mem_toList.mp ha)⟩

/-- What an operation records, from wherever it stands, are accesses it may make. -/
theorem exec_recordsOnly {i : Instr} {s t : State} (hinv : Inv s) (h : exec i s = .next t) : RecordsOnly i s t := by
  refine (exec_next_holds (Q := fun t => RecordsOnly i s t ∧ ∀ q, t.seq = some q → Standing q t)
    (R := RecordsOnly i s) ?_ ?_ ?_ h).elim And.left id
  · rintro u q ⟨hu, hstand⟩ hq rfl
    have hs := hstand q hq
    have record : ∀ v, Recorded q.line u v → RecordsOnly q.op s v := fun v hv => hu.trans (recordsOnly_of_recorded hs hv)
    refine (blockStep_keeps hq hs).mono (fun v ⟨hv, q', hq', _, hs'⟩ => ⟨?_, fun p hp => ?_⟩) record record
    · exact hv.elim (fun e => hu.trans (recordsOnly_of_eq e)) (record v)
    · cases hq'.symm.trans hp
      exact hs'
  · intro hq hl
    refine ⟨recordsOnly_of_eq (beginOperation_trace ..), fun p hp => ?_⟩
    cases (beginOperation_seq ..).symm.trans hp
    exact standing_beginOperation hinv hq hl
  · exact fun _ _ _ => ⟨recordsOnly_of_eq rfl, fun q hq => (standing_of_inv hinv hq).2⟩

/-! ### O53 -/

/-- The block's own step records the listed access of the line the sequencer stands at, or none. -/
theorem advance_records {s t : State} (hinv : Inv s) (h : advance s = .next t) :
    t.trace = s.trace ∨
      ∃ q a, s.seq = some q ∧ inScript q = true ∧ lineAccess q.line s.eng = some a ∧ t.trace = s.trace ++ [a] := by
  rcases advance_cases h with ⟨q, hq, hb⟩ | ⟨_, hm⟩
  · obtain ⟨hin, hs⟩ := standing_of_inv hinv hq
    have ht : t.trace = s.trace ∨ Recorded q.line s t :=
      ((blockStep_keeps hq hs).mono (fun _ => And.left) (fun _ => .inr) (fun _ => .inr)).of_next hb
    rcases ht with ht | hr
    · exact .inl ht
    · rw [Recorded] at hr
      cases ha : lineAccess q.line s.eng with
      | none => exact .inl (by simpa [ha] using hr)
      | some a => exact .inr ⟨q, a, hq, hin, ha, by simpa [ha] using hr⟩
  · left
    rcases engineMove_cases Config.params s with ⟨f, e⟩ | ⟨f, o, x, _, e⟩
    all_goals
      rw [e] at hm
      rcases hm with hm | hm <;> cases hm
      rfl

/-- Settles O53. -/
theorem everyAccessIsInTheTable : Obligations.EveryAccessIsInTheTable := by
  refine ⟨fun s t hinv hr h => ?_, fun i s t hinv h => exec_recordsOnly hinv h⟩
  rcases step_cases h with ⟨rest, hh, _⟩ | ⟨w, rest, i, b, _, _, _, _, rfl⟩ | ⟨hs, _, ha⟩
  · exact absurd (by rw [hh]; rfl) hr
  · exact .inl (beginOperation_trace ..)
  · exact advance_records (s := s.setHost hs) hinv ha

end Sys2Proof.Machine
end

section
/-! The register map, and O41 (10_state.md R36; 20_memory.md R74). -/

namespace Sys2Proof.Machine

/-- No register is where the table of 10_state.md R36 lists none. -/
theorem regAt_none_iff (off n : Nat) :
    regAt off n = none ↔
      (off, n) ∉ [(0x00, 4), (0x04, 4), (0x08, 1), (0x0C, 2), (0x10, 1), (0x14, 1)] := by
  unfold regAt
  split
  case h_7 h0 h1 h2 h3 h4 h5 =>
    refine iff_of_true rfl fun hmem => ?_
    simp only [List.mem_cons, Prod.mk.injEq, List.not_mem_nil, or_false] at hmem
    rcases hmem with ⟨ho, hn⟩ | ⟨ho, hn⟩ | ⟨ho, hn⟩ | ⟨ho, hn⟩ | ⟨ho, hn⟩ | ⟨ho, hn⟩
    · exact h0 ho hn
    · exact h1 ho hn
    · exact h2 ho hn
    · exact h3 ho hn
    · exact h4 ho hn
    · exact h5 ho hn
  all_goals decide

section
variable {off n : Nat} (v : Word) (e : Engine)

/-- Where no register is, every kind of access is refused. -/
theorem access_refused_of_regAt_none (h : regAt off n = none) :
    memRead off n e = .error .noSuchRegister ∧ memWrite off n v e = .error .noSuchRegister ∧
      memSetBits off n v e = .error .noSuchRegister := by
  simp only [memRead, memWrite, memSetBits, h, and_self]

/-- Where a register is, every kind of access is the register's. -/
theorem access_of_regAt_some {r : Reg} (h : regAt off n = some r) :
    memRead off n e = readReg r e ∧ memWrite off n v e = writeReg r v e ∧ memSetBits off n v e = setBitsReg r v e := by
  simp only [memRead, memWrite, memSetBits, h, and_self]

end

/-- Settles O41. -/
theorem foreignAccessesAreRefused : Obligations.ForeignAccessesAreRefused :=
  ⟨⟨rfl, rfl, rfl, rfl, rfl, rfl⟩, fun off n v e =>
    ⟨regAt_none_iff off n, access_refused_of_regAt_none v e, fun _ => access_of_regAt_some v e⟩⟩

end Sys2Proof.Machine
end

section
/-! The grammar of the wire trace under the engine's reactions and completions, and O45 (20_memory.md R86, R88). -/

namespace Sys2Proof.Machine

/-! ### The grammar -/

theorem wireRun_append (v : WirePos) (ws ws' : List Wire) :
    wireRun v (ws ++ ws') = (wireRun v ws).bind fun u => wireRun u ws' := by
  induction ws generalizing v with
  | nil => rfl
  | cons w ws ih =>
    simp only [List.cons_append, wireRun]
    cases wireNext v w with
    | none => rfl
    | some u => exact ih u

/-- At `v` neither an address byte nor the master's acknowledge is due, so an open transaction may be broken off. -/
def Breakable (v : WirePos) : Prop := v ≠ .begun ∧ v ≠ .received

/-- Where a transaction may be broken off `S` may follow, and within one `Sr` and `P` too. -/
theorem wireNext_of_breakable {v : WirePos} (h : Breakable v) :
    wireNext v .s = some .begun ∧ (v ≠ .closed → wireNext v .sr = some .begun ∧ wireNext v .p = some .closed) := by
  obtain ⟨hb, hr⟩ := h
  cases v with
  | begun => exact absurd rfl hb
  | received => exact absurd rfl hr
  | closed => exact ⟨rfl, fun hc => absurd rfl hc⟩
  | addressed d => cases d <;> exact ⟨rfl, fun _ => ⟨rfl, rfl⟩⟩
  | writing | sent | reading | readDone => exact ⟨rfl, fun _ => ⟨rfl, rfl⟩⟩

/-! ### The engine's agreement with a position, by what it has in flight -/

section
variable {e : Engine} {v : WirePos}

theorem wireAgrees_addrPh (h : e.inflight = .addrPh) : wireAgrees e v = true ↔ v = .addressed e.dir := by
  simp [wireAgrees, h]

theorem wireAgrees_txPh (h : e.inflight = .txPh) : wireAgrees e v = true ↔ v = .sent := by
  simp [wireAgrees, h]

theorem wireAgrees_rxPh (h : e.inflight = .rxPh) : wireAgrees e v = true ↔ v = .reading := by
  simp [wireAgrees, h]

theorem wireAgrees_resetPh (h : e.inflight = .resetPh) : wireAgrees e v = true ↔ Breakable v := by
  simp [wireAgrees, h, Breakable]

theorem wireAgrees_pending (h : e.inflight = .none) (ha : e.ackPending = true) :
    wireAgrees e v = true ↔ v = .received := by
  simp [wireAgrees, h, ha]

theorem wireAgrees_owned (h : e.inflight = .none) (ha : e.ackPending = false) (ho : e.owned = true) :
    wireAgrees e v = true ↔ v = if e.dir = .write then .writing else .readDone := by
  by_cases hd : e.dir = .write <;> simp [wireAgrees, h, ha, ho, hd]

theorem wireAgrees_free (h : e.inflight = .none) (ha : e.ackPending = false) (ho : e.owned = false) :
    wireAgrees e v = true ↔ Breakable v := by
  simp [wireAgrees, h, ha, ho, Breakable]

/-- Where the master owes no acknowledge the transaction may be broken off, and while the bus is owned one is open. -/
theorem breakable_of_wireAgrees (ha : e.ackPending = false) (h : wireAgrees e v = true) :
    Breakable v ∧ (e.owned = true → e.inflight ≠ .resetPh → v ≠ .closed) := by
  cases hi : e.inflight with
  | addrPh =>
    obtain rfl := (wireAgrees_addrPh hi).mp h
    exact ⟨⟨nofun, nofun⟩, nofun⟩
  | txPh =>
    obtain rfl := (wireAgrees_txPh hi).mp h
    exact ⟨⟨nofun, nofun⟩, nofun⟩
  | rxPh =>
    obtain rfl := (wireAgrees_rxPh hi).mp h
    exact ⟨⟨nofun, nofun⟩, nofun⟩
  | resetPh => exact ⟨(wireAgrees_resetPh hi).mp h, fun _ hn => absurd rfl hn⟩
  | none =>
    cases ho : e.owned with
    | false => exact ⟨(wireAgrees_free hi ha ho).mp h, nofun⟩
    | true =>
      obtain rfl := (wireAgrees_owned hi ha ho).mp h
      split <;> exact ⟨⟨nofun, nofun⟩, nofun⟩

end

/-! ### When the master owes an acknowledge -/

theorem pending_of_ackPending {e : Engine} (hinv : EngineInv e) (ha : e.ackPending = true) :
    e.owned = true ∧ e.dir = .read ∧ e.inflight = .none := by
  obtain ⟨_, _, _, hpending⟩ := hinv
  exact hpending ha

theorem not_ackPending_of_inflight {e : Engine} (hinv : EngineInv e) (hi : e.inflight ≠ .none) : e.ackPending = false := by
  refine Bool.eq_false_iff.mpr fun ha => ?_
  obtain ⟨_, _, hnone⟩ := pending_of_ackPending hinv ha
  exact hi hnone

theorem not_ackPending_of_write {e : Engine} (hinv : EngineInv e) (hd : e.dir = .write) : e.ackPending = false := by
  refine Bool.eq_false_iff.mpr fun ha => ?_
  obtain ⟨_, hread, _⟩ := pending_of_ackPending hinv ha
  exact nomatch hd.symm.trans hread

/-! ### The agreement under a completion -/

/-- From every position the engine `e` agrees with, the events of `x` lead to one that the engine after them agrees
with. -/
def KeepsWire (e : Engine) (x : Reaction) : Prop :=
  ∀ v, wireAgrees e v = true → ∃ v', wireRun v x.wire = some v' ∧ wireAgrees x.eng v' = true

/-- With no event, an engine with the same hidden state agrees with what it agreed with. -/
theorem keepsWire_of_silent {e e' : Engine} (hi : e'.inflight = e.inflight) (ha : e'.ackPending = e.ackPending)
    (ho : e'.owned = e.owned) (hd : e'.dir = e.dir) : KeepsWire e { eng := e', wire := [] } := by
  intro v h
  refine ⟨v, rfl, ?_⟩
  simpa only [wireAgrees, hi, ha, ho, hd] using h

/-- An engine that gives up the bus, with no event, agrees with every position the master owes no acknowledge at. -/
theorem keepsWire_of_givenUp {e e' : Engine} (ha : e.ackPending = false) (hi : e'.inflight = .none)
    (ha' : e'.ackPending = false) (ho : e'.owned = false) : KeepsWire e { eng := e', wire := [] } :=
  fun v h => ⟨v, rfl, (wireAgrees_free hi ha' ho).mpr (breakable_of_wireAgrees ha h).1⟩

/-- The acknowledge bit of an address byte opens the body the direction says: a Write body, and a Read body in which a
byte may come after an acknowledged address only. -/
theorem keepsWire_addrPh {e e' : Engine} {w : Wire} (hi : e.inflight = .addrPh) (ho : e'.owned = true)
    (ha : e'.ackPending = false) (hd : e'.dir = e.dir)
    (hw : w = .sack ∧ e'.inflight = (if e.dir = .read then .rxPh else .none) ∨ w = .snack ∧ e'.inflight = .none) :
    KeepsWire e { eng := e', wire := [w] } := by
  intro v h
  obtain rfl := (wireAgrees_addrPh hi).mp h
  cases hdir : e.dir with
  | write =>
    have hi' : e'.inflight = .none := by simpa [hdir, ← or_and_right] using hw.imp And.right And.right
    refine ⟨.writing, ?_, (wireAgrees_owned hi' ha ho).mpr (by simp [hd, hdir])⟩
    rcases hw with ⟨rfl, _⟩ | ⟨rfl, _⟩ <;> rfl
  | read =>
    rcases hw with ⟨rfl, hi'⟩ | ⟨rfl, hi'⟩
    · exact ⟨.reading, rfl, (wireAgrees_rxPh (by simpa [hdir] using hi')).mpr rfl⟩
    · exact ⟨.readDone, rfl, (wireAgrees_owned hi' ha ho).mpr (by simp [hd, hdir])⟩

/-- The acknowledge bit of a data byte goes on with the Write body. -/
theorem keepsWire_txPh {e e' : Engine} {w : Wire} (hi : e.inflight = .txPh) (hi' : e'.inflight = .none)
    (ho : e'.owned = true) (ha : e'.ackPending = false) (hd : e'.dir = .write) (hw : w = .sack ∨ w = .snack) :
    KeepsWire e { eng := e', wire := [w] } := by
  intro v h
  obtain rfl := (wireAgrees_txPh hi).mp h
  refine ⟨.writing, ?_, (wireAgrees_owned hi' ha ho).mpr (by simp [hd])⟩
  rcases hw with rfl | rfl <;> rfl

/-- A received byte leaves the master's acknowledge due. -/
theorem keepsWire_rxPh {e e' : Engine} (b : Byte) (hi : e.inflight = .rxPh) (hi' : e'.inflight = .none)
    (ha : e'.ackPending = true) : KeepsWire e { eng := e', wire := [.rx b] } := by
  intro v h
  obtain rfl := (wireAgrees_rxPh hi).mp h
  exact ⟨.received, rfl, (wireAgrees_pending hi' ha).mpr rfl⟩

/-- A completion sends the bit or the byte the grammar has next, or gives the bus up. -/
theorem complete_keepsWire {p : Params} {o : EnvOutcome} {e : Engine} {x : Reaction} (hinv : EngineInv e)
    (h : complete p o e = some x) : KeepsWire e x := by
  have ha : e.ackPending = false := not_ackPending_of_inflight hinv (complete_inflight h)
  obtain ⟨haddr, htx, _, _⟩ := hinv
  unfold complete at h
  split at h <;> cases h
  case h_1 hi => exact keepsWire_addrPh hi (haddr hi) ha rfl (.inl ⟨rfl, rfl⟩)
  case h_2 hi => exact keepsWire_addrPh hi (haddr hi) ha rfl (.inr ⟨rfl, rfl⟩)
  case h_5 hi =>
    obtain ⟨ho, hd⟩ := htx hi
    exact keepsWire_txPh hi rfl ho ha hd (.inl rfl)
  case h_6 hi =>
    obtain ⟨ho, hd⟩ := htx hi
    exact keepsWire_txPh hi rfl ho ha hd (.inr rfl)
  case h_9 b hi => exact keepsWire_rxPh b hi rfl rfl
  case h_3 | h_7 | h_10 | h_11 => exact keepsWire_of_givenUp ha rfl rfl rfl
  case h_4 | h_8 => exact keepsWire_of_givenUp ha rfl ha rfl

/-! ### The agreement under an access -/

/-- The pending acknowledge, sent, leaves the transaction where it may be broken off; and while the bus is owned one is
open. -/
theorem wireRun_pendingAck {e : Engine} {v : WirePos} (hinv : EngineInv e) (hr : e.inflight ≠ .resetPh)
    (h : wireAgrees e v = true) :
    ∃ v', wireRun v (pendingAck e) = some v' ∧ Breakable v' ∧ (e.owned = true → v' ≠ .closed) := by
  unfold pendingAck
  cases ha : e.ackPending with
  | false =>
    obtain ⟨hb, hc⟩ := breakable_of_wireAgrees ha h
    exact ⟨v, rfl, hb, fun ho => hc ho hr⟩
  | true =>
    obtain ⟨_, _, hi⟩ := pending_of_ackPending hinv ha
    obtain rfl := (wireAgrees_pending hi ha).mp h
    unfold ackEvent
    cases e.ctrl.ackact with
    | false => exact ⟨.reading, rfl, ⟨nofun, nofun⟩, nofun⟩
    | true => exact ⟨.readDone, rfl, ⟨nofun, nofun⟩, nofun⟩

/-- The STOP command ends the transaction, if one is open. -/
theorem reactStop_keepsWire {e : Engine} (hinv : EngineInv e) (hr : e.inflight ≠ .resetPh) :
    KeepsWire e (reactStop e) := by
  intro v h
  obtain ⟨v', hv', hb, hopen⟩ := wireRun_pendingAck hinv hr h
  have hfree : ∀ {u}, wireAgrees (reactStop e).eng u = true ↔ Breakable u := wireAgrees_free rfl rfl rfl
  cases ho : e.owned with
  | false => exact ⟨v', by simp [reactStop, ho, hv'], hfree.mpr hb⟩
  | true =>
    have hp := ((wireNext_of_breakable hb).2 (hopen ho)).2
    exact ⟨.closed, by simp [reactStop, ho, wireRun_append, hv', wireRun, hp], hfree.mpr ⟨nofun, nofun⟩⟩

theorem active_not_resetting {e : Engine} (h : active e = true) : e.inflight ≠ .resetPh := by
  simp only [active, Bool.and_eq_true, bne_iff_ne] at h
  exact h.2

/-- A write of `ADDR` begins a transaction with the address byte, on an owned bus by a repeated START. -/
theorem reactWriteAddr_keepsWire {a8 : Byte} {e : Engine} {x : Reaction} (hinv : EngineInv e)
    (h : reactWriteAddr a8 e = .ok x) : KeepsWire e x := by
  unfold reactWriteAddr at h
  split at h
  · cases h
  · rename_i hactive
    split at h
    · cases h
    · cases h
      intro v hv
      obtain ⟨v', hv', hb, hopen⟩ := wireRun_pendingAck hinv (active_not_resetting (by simpa using hactive)) hv
      obtain ⟨hs, hwithin⟩ := wireNext_of_breakable hb
      refine ⟨.addressed (addrDir a8), ?_, (wireAgrees_addrPh rfl).mpr rfl⟩
      have hbegin : wireNext v' (if e.owned then .sr else .s) = some .begun := by
        cases ho : e.owned with
        | false => exact hs
        | true => exact (hwithin (hopen ho)).1
      simp only [wireRun_append, hv', Option.bind_some, wireRun, hbegin]
      rfl

/-- A write of `DATA` sends a byte of a Write body. -/
theorem reactWriteData_keepsWire {b : Byte} {e : Engine} {x : Reaction} (hinv : EngineInv e)
    (h : reactWriteData b e = .ok x) : KeepsWire e x := by
  unfold reactWriteData at h
  split at h
  · cases h
  · split at h
    · cases h
    · rename_i hopen
      cases h
      simp only [Bool.not_eq_true', not_or, Bool.not_eq_false, ne_eq, not_not] at hopen
      obtain ⟨ho, hread, hi⟩ := hopen
      have hd : e.dir = .write := by
        cases hdir : e.dir with
        | write => rfl
        | read => exact absurd hdir hread
      intro v hv
      obtain rfl := (wireAgrees_owned hi (not_ackPending_of_write hinv hd) ho).mp hv
      exact ⟨.sent, by simp [hd, wireRun, wireNext], (wireAgrees_txPh rfl).mpr rfl⟩

/-- A read of `DATA` sends the acknowledge due: after an ACK the next byte may come, after a NACK none. -/
theorem reactReadData_keepsWire {e : Engine} (hinv : EngineInv e) : KeepsWire e (reactReadData e) := by
  unfold reactReadData
  split
  · rename_i ha
    obtain ⟨ho, hd, hi⟩ := pending_of_ackPending hinv ha
    intro v hv
    obtain rfl := (wireAgrees_pending hi ha).mp hv
    cases hk : e.ctrl.ackact with
    | false => exact ⟨.reading, by simp [ackEvent, hk, wireRun, wireNext], (wireAgrees_rxPh (by simp)).mpr rfl⟩
    | true =>
      refine ⟨.readDone, by simp [ackEvent, hk, wireRun, wireNext], (wireAgrees_owned ?_ ?_ ?_).mpr ?_⟩
      · exact hi
      · rfl
      · exact ho
      · rw [hd]
        rfl
  · exact keepsWire_of_silent rfl rfl rfl rfl

/-- A write of `CTRL` starts a software reset, sends STOP, or leaves the wire and the hidden state as they are. -/
theorem reactWriteCtrl_keepsWire {v : Word} {e : Engine} {x : Reaction} (hinv : EngineInv e)
    (hreset : v.getLsbD 0 = true → e.ackPending = false) (h : reactWriteCtrl v e = .ok x) : KeepsWire e x := by
  unfold reactWriteCtrl at h
  dsimp only at h
  split at h
  · rename_i h0
    cases h
    exact fun u hu => ⟨u, rfl, (wireAgrees_resetPh rfl).mpr (breakable_of_wireAgrees (hreset h0) hu).1⟩
  · split at h
    · cases h
    · split at h
      · cases h
      · split at h
        · split at h
          · rename_i hactive
            cases h
            have hr : e.inflight ≠ .resetPh := active_not_resetting (Bool.and_eq_true_iff.mp hactive).1
            exact reactStop_keepsWire (e := { e with ctrl := ctrlOfWord v }) hinv hr
          · cases h
        · cases h
          exact keepsWire_of_silent rfl rfl rfl rfl

theorem readReg_keepsWire {r : Reg} {e : Engine} {v : Word} {x : Reaction} (hinv : EngineInv e)
    (h : readReg r e = .ok (v, x)) : KeepsWire e x := by
  unfold readReg at h
  split at h
  · cases h
  · cases h
    split
    · exact reactReadData_keepsWire hinv
    · exact keepsWire_of_silent rfl rfl rfl rfl

theorem writeReg_keepsWire {r : Reg} {v : Word} {e : Engine} {x : Reaction} (hinv : EngineInv e)
    (hreset : r = .ctrl → v.getLsbD 0 = true → e.ackPending = false) (h : writeReg r v e = .ok x) : KeepsWire e x := by
  unfold writeReg at h
  split at h
  · cases h
  · cases r with
    | ctrl => exact reactWriteCtrl_keepsWire hinv (hreset rfl) h
    | status => cases h
    | data => exact reactWriteData_keepsWire hinv h
    | addr => exact reactWriteAddr_keepsWire hinv h
    | baud | intflag =>
      cases h
      exact keepsWire_of_silent rfl rfl rfl rfl

/-- The access is a write of `CTRL` that sets `SWRST` (40_bus_engine.md R151). -/
def setsSwrst (a : Access) : Bool :=
  match a with
  | .wr .ctrl v => v.getLsbD 0
  | .set .ctrl m => m.getLsbD 0
  | _ => false

/-- An access keeps the agreement, where a software reset drops no acknowledge due. -/
theorem reactionOf_keepsWire {a : Access} {e : Engine} {x : Reaction} (hinv : EngineInv e)
    (hreset : setsSwrst a = true → e.ackPending = false) (h : reactionOf a e = .ok x) : KeepsWire e x := by
  cases a with
  | rd r v =>
    simp only [reactionOf] at h
    split at h
    · rename_i hread
      split at h <;> cases h
      exact readReg_keepsWire hinv hread
    · cases h
  | wr r v => exact writeReg_keepsWire hinv (by rintro rfl; exact hreset) h
  | set r m =>
    refine writeReg_keepsWire hinv ?_ h
    rintro rfl h0
    by_cases hi : e.inflight = .resetPh
    · exact not_ackPending_of_inflight hinv (by simp [hi])
    · rw [regValue, ctrlValue_running hi, BitVec.getLsbD_or, ctrlBits_bit0, Bool.false_or] at h0
      exact hreset h0
  | ext =>
    cases h
    exact keepsWire_of_silent rfl rfl rfl rfl

/-! ### Where the sequencer resets the engine -/

/-- Of the listed accesses only the one of `INIT`'s third line sets `SWRST`. -/
theorem line_of_setsSwrst {l : Line} {e : Engine} {a : Access} (h : lineAccess l e = some a)
    (hs : setsSwrst a = true) : l = .init .swrst := by
  rcases l with l | ⟨_, _, l⟩ | ⟨_, l⟩ | ⟨g, l⟩ | l | _
  · cases l <;> cases h
    case swrst.refl => rfl
    all_goals cases hs
  · cases l <;> cases h
    case failStop.refl => cases hk : e.ctrl.ackact <;> simp [setsSwrst, hk] at hs
    all_goals cases hs
  · cases l <;> cases h <;> cases hs
  · cases l <;> cases h
    case writeCtrl.refl => cases g <;> cases hs
    all_goals cases hs
  · cases l <;> cases h
    case writeCtrl.refl => cases hk : e.ctrl.ackact <;> simp [setsSwrst, hk] at hs
    all_goals cases hs
  · cases h

/-- Where `INIT` is about to set `SWRST` the engine is as after reset, so no acknowledge is due. -/
theorem not_ackPending_at_swrst {s : State} {q : SeqPos} (h : Inv s) (hq : s.seq = some q) (hl : q.line = .init .swrst) :
    s.eng.ackPending = false := by
  obtain ⟨_, _, ⟨hboot, _⟩, ⟨_, hseq, _⟩, _⟩ := h
  obtain ⟨op, k, l⟩ := q
  obtain rfl : l = .init .swrst := hl
  have hw : standsWell ⟨op, k, .init .swrst⟩ s = true := by simpa [hq] using hseq
  simp only [standsWell, phaseAt, Bool.and_eq_true, beq_iff_eq] at hw
  obtain ⟨⟨⟨_, hp⟩, _⟩, _⟩ := hw
  have he : s.eng = engineReset := by simpa [hq, bootFits, engineAt] using hboot hp
  rw [he]
  rfl

/-! ### O45 -/

theorem wireInv_iff {s : State} :
    WireInv s = true ↔ ∃ v, wireRun .closed s.wire = some v ∧ wireAgrees s.eng v = true := by
  unfold WireInv
  cases wireRun .closed s.wire <;> simp

/-- What keeps the agreement keeps the invariant of the wire trace. -/
theorem KeepsWire.wireInv {s t : State} {x : Reaction} (h : KeepsWire s.eng x) (he : t.eng = x.eng)
    (hw : t.wire = s.wire ++ x.wire) (hs : WireInv s = true) : WireInv t = true := by
  obtain ⟨v, hrun, hv⟩ := wireInv_iff.mp hs
  obtain ⟨v', hrun', hv'⟩ := h v hv
  exact wireInv_iff.mpr ⟨v', by rw [hw, wireRun_append, hrun]; exact hrun', by rwa [he]⟩

theorem wireInv_of_same {s t : State} (he : t.eng = s.eng) (hw : t.wire = s.wire) (hs : WireInv s = true) :
    WireInv t = true := by
  rwa [WireInv, he, hw]

/-- The block's own step is a completion, the access of a line, or nothing on the wire. -/
theorem advance_keeps_wireInv {s t : State} (hinv : Inv s) (hs : WireInv s = true) (h : advance s = .next t) :
    WireInv t = true := by
  have ⟨hengine, _⟩ := hinv
  rcases advance_one_agent h with ⟨o, x, hc, e⟩ | ⟨q, a, x, _, hx, htrace, heng, hwire, _⟩ | ⟨_, _, _, _, heng, hwire, _⟩ |
    ⟨_, e⟩
  · exact (complete_keepsWire hengine hc).wireInv (by rw [e]) (by rw [e]) hs
  · refine (reactionOf_keepsWire hengine (fun hswrst => ?_) hx).wireInv heng hwire hs
    rcases advance_records hinv h with hnone | ⟨q', a', hq', _, ha', htrace'⟩
    · simp [htrace] at hnone
    · obtain rfl : a = a' := by simpa [htrace] using htrace'
      exact not_ackPending_at_swrst hinv hq' (line_of_setsSwrst ha' hswrst)
  · exact wireInv_of_same heng hwire hs
  · exact wireInv_of_same (by rw [e]) (by rw [e]) hs

/-- Settles O45: a hardware reset empties the wire trace, an issue leaves it, the block's own step keeps its shape. -/
theorem stepKeepsTheWireShape : Obligations.StepKeepsTheWireShape := by
  intro s t hinv hs h
  rcases step_cases h with ⟨rest, _, rfl⟩ | ⟨w, rest, i, b, _, _, _, _, rfl⟩ | ⟨hs', _, ha⟩
  · exact (resetMeetsTheInvariants _ _).2
  · exact wireInv_of_same (beginOperation_eng ..) (beginOperation_wire ..) hs
  · exact advance_keeps_wireInv (s := s.setHost hs') hinv hs ha

end Sys2Proof.Machine
end

section
/-! The decoder and the encoder, the opcode table, and O1 to O5 (30_encoding.md R100 to R104, R109). -/

namespace Sys2Proof

/-! ### The fields of a word -/

/-- A word is made of its fields. -/
theorem wordOf_fieldsOf (w : Word) : wordOf (fieldsOf w) = w := by
  calc wordOf (fieldsOf w)
      = (w.extractLsb' 16 16 ++ w.extractLsb' 0 16 : Word) :=
        congrArg (· ++ w.extractLsb' 0 16) (BitVec.extractLsb'_append_extractLsb'_eq_extractLsb' rfl)
    _ = w.extractLsb' 0 32 := BitVec.extractLsb'_append_extractLsb'_eq_extractLsb' rfl
    _ = w := BitVec.extractLsb'_eq_self

theorem wordOf_injective : Function.Injective wordOf :=
  Function.LeftInverse.injective Laws.EncodingShape.fieldsOf_wordOf

/-- The conjunction of two words is taken field by field. -/
theorem wordOf_and (c d : Command) :
    wordOf c &&& wordOf d =
      wordOf { opcode := c.opcode &&& d.opcode, zero := c.zero &&& d.zero, operand := c.operand &&& d.operand } :=
  BitVec.and_append.trans (congrArg (· ++ (c.operand &&& d.operand)) BitVec.and_append)

/-! ### Well-formed fields (R109) -/

theorem wellFormed_iff (c : Command) :
    c.wellFormed = true ↔
      ∃ used, usedOperandBits c.opcode = some used ∧ c.zero = 0#8 ∧ c.operand &&& ~~~used = 0#16 := by
  cases h : usedOperandBits c.opcode <;>
    simp [Command.wellFormed, Command.opcodeKnown, Command.zeroFieldClear, Command.unusedBitsClear, h]

/-- Every encoded instruction has the fields of its operation, and they are well formed. -/
theorem encodingShape (i : Instr) : Laws.EncodingShape.Statement i := by
  cases i with
  | init => exact Laws.EncodingShape.init
  | start a d => exact Laws.EncodingShape.start a d
  | write b => exact Laws.EncodingShape.write b
  | read g => exact Laws.EncodingShape.read g
  | stop => exact Laws.EncodingShape.stop
  | sReset => exact Laws.EncodingShape.sReset
  | sReadSn => exact Laws.EncodingShape.sReadSn
  | sReadRh => exact Laws.EncodingShape.sReadRh
  | sReadT => exact Laws.EncodingShape.sReadT
  | sReadTl => exact Laws.EncodingShape.sReadTl
  | convRh code => exact Laws.EncodingShape.convRh code
  | convT code => exact Laws.EncodingShape.convT code

/-! ### The decoder -/

theorem withUsedBits_ok_iff {used v : Half} {i j : Instr} :
    withUsedBits used v i = .ok j ↔ v &&& ~~~used = 0#16 ∧ i = j := by
  unfold withUsedBits
  split <;> simp [*]

theorem decode_ok_iff {w : Word} {i : Instr} :
    decode w = .ok i ↔
      (fieldsOf w).zero = 0#8 ∧ decodeOperation (fieldsOf w).opcode (fieldsOf w).operand = .ok i := by
  unfold decode
  simp only
  split <;> simp [*]

theorem dirOfBit_dirBit (d : Dir) : dirOfBit ((dirBit d).getLsbD 0) = d := by
  cases d <;> rfl

theorem dirBit_dirOfBit (b : Bool) : dirBit (dirOfBit b) = BitVec.ofBool b := by
  cases b <;> rfl

theorem againBit_eq_ofBool (b : Bool) : againBit b = BitVec.ofBool b := by
  cases b <;> rfl

/-! ### Operand fields (R102) -/

/-- An operand of which the upper bits are unused is zero there. -/
theorem operand_of_unused {k : Nat} {v used : Half}
    (hu : (~~~used).extractLsb' k (16 - k) = BitVec.allOnes (16 - k)) (h : v &&& ~~~used = 0#16) :
    v.extractLsb' k (16 - k) = 0#(16 - k) := by
  have h' := congrArg (BitVec.extractLsb' k (16 - k)) h
  rw [BitVec.extractLsb'_and, hu, BitVec.and_allOnes] at h'
  simpa using h'

theorem operand_unused {v : Half} (h : v &&& ~~~0x0000#16 = 0#16) : 0#16 = v :=
  h.symm.trans BitVec.and_allOnes

theorem operand_byte {v : Half} (h : v &&& ~~~0x00FF#16 = 0#16) : (0#8 ++ v.extractLsb' 0 8 : Half) = v := by
  rw [← operand_of_unused (k := 8) rfl h]
  exact (BitVec.extractLsb'_append_extractLsb'_eq_extractLsb' rfl).trans BitVec.extractLsb'_eq_self

theorem extract_bit {n : Nat} (v : BitVec n) : BitVec.ofBool (v.getLsbD 0) = v.extractLsb' 0 1 := by
  ext i hi
  obtain rfl : i = 0 := by omega
  simp

theorem operand_bit {v : Half} (h : v &&& ~~~0x0001#16 = 0#16) : (0#15 ++ againBit (v.getLsbD 0) : Half) = v := by
  rw [← operand_of_unused (k := 1) rfl h, againBit_eq_ofBool, extract_bit]
  exact (BitVec.extractLsb'_append_extractLsb'_eq_extractLsb' rfl).trans BitVec.extractLsb'_eq_self

theorem operand_address {v : Half} (h : v &&& ~~~0x00FF#16 = 0#16) :
    (0#8 ++ v.extractLsb' 1 7 ++ dirBit (dirOfBit (v.getLsbD 0)) : Half) = v := by
  rw [← operand_of_unused (k := 8) rfl h, dirBit_dirOfBit, extract_bit]
  calc (v.extractLsb' 8 8 ++ v.extractLsb' 1 7 ++ v.extractLsb' 0 1 : Half)
      = (v.extractLsb' 1 15 ++ v.extractLsb' 0 1 : Half) :=
        congrArg (· ++ v.extractLsb' 0 1) (BitVec.extractLsb'_append_extractLsb'_eq_extractLsb' rfl)
    _ = v.extractLsb' 0 16 := BitVec.extractLsb'_append_extractLsb'_eq_extractLsb' rfl
    _ = v := BitVec.extractLsb'_eq_self

/-- The decoder knows no other opcodes than those with operand bits to use (R101). -/
theorem decodeOperation_reserved {op : Byte} (h : usedOperandBits op = none) (v : Half) :
    decodeOperation op v = .error .unknownOpcode := by
  unfold usedOperandBits at h
  split at h
  case h_13 =>
    unfold decodeOperation
    split
    case h_13 => rfl
    all_goals contradiction
  all_goals cases h

/-- An opcode is reserved, whatever its operand; or it is an operation's, which the operand makes. -/
theorem decodeOperation_cases (op : Byte) (v : Half) :
    (usedOperandBits op = none ∧ decodeOperation op v = .error .unknownOpcode) ∨
    ∃ used i, usedOperandBits op = some used ∧ decodeOperation op v = withUsedBits used v i ∧ opcodeOf i = op ∧
      (v &&& ~~~used = 0#16 → operandOf i = v) := by
  have hop : ∀ {n : Nat}, op.toNat = n → op = BitVec.ofNat 8 n := fun h => by
    rw [← h, BitVec.ofNat_toNat, BitVec.setWidth_eq]
  cases hu : usedOperandBits op with
  | none => exact .inl ⟨rfl, decodeOperation_reserved hu v⟩
  | some used =>
    unfold usedOperandBits at hu
    refine .inr ⟨used, ?_⟩
    split at hu <;> cases hu
    case h_2 h => exact hop h ▸ ⟨_, rfl, rfl, rfl, operand_address⟩
    case h_3 h => exact hop h ▸ ⟨_, rfl, rfl, rfl, operand_byte⟩
    case h_4 h => exact hop h ▸ ⟨_, rfl, rfl, rfl, operand_bit⟩
    case h_11 h | h_12 h => exact hop h ▸ ⟨_, rfl, rfl, rfl, fun _ => rfl⟩
    case h_1 h | h_5 h | h_6 h | h_7 h | h_8 h | h_9 h | h_10 h => exact hop h ▸ ⟨_, rfl, rfl, rfl, operand_unused⟩

/-- The fields that decode to an operation are its own. -/
theorem operation_of_decodeOperation {op : Byte} {v : Half} {i : Instr} (h : decodeOperation op v = .ok i) :
    opcodeOf i = op ∧ operandOf i = v := by
  rcases decodeOperation_cases op v with ⟨_, e⟩ | ⟨used, j, _, e, hop, hv⟩
  · rw [e] at h
    cases h
  · obtain ⟨hz, rfl⟩ := withUsedBits_ok_iff.mp (e.symm.trans h)
    exact ⟨hop, hv hz⟩

theorem decodeOperation_ok_iff (op : Byte) (v : Half) :
    (∃ i, decodeOperation op v = .ok i) ↔ ∃ used, usedOperandBits op = some used ∧ v &&& ~~~used = 0#16 := by
  rcases decodeOperation_cases op v with ⟨hu, e⟩ | ⟨used, j, hu, e, _⟩
  · simp [hu, e]
  · simp [hu, e, withUsedBits_ok_iff]

theorem extract_address (a : BitVec 7) (d : Dir) : (0#8 ++ a ++ dirBit d : Half).extractLsb' 1 7 = a := by
  revert a
  cases d <;> decide

theorem address_bit0 (a : BitVec 7) (d : Dir) : (0#8 ++ a ++ dirBit d : Half).getLsbD 0 = (dirBit d).getLsbD 0 := by
  revert a
  cases d <;> decide

theorem extract_byte (b : Byte) : (0#8 ++ b : Half).extractLsb' 0 8 = b := by
  revert b
  decide

/-- The operand field of an operation is read as that operation. -/
theorem decodeOperation_fieldsOf_operation (i : Instr) :
    ∃ used, decodeOperation (opcodeOf i) (operandOf i) = withUsedBits used (operandOf i) i := by
  cases i with
  | start a d =>
    refine ⟨0x00FF#16, ?_⟩
    show withUsedBits _ _ (.start ((0#8 ++ a ++ dirBit d : Half).extractLsb' 1 7)
      (dirOfBit ((0#8 ++ a ++ dirBit d : Half).getLsbD 0))) = _
    rw [extract_address, address_bit0, dirOfBit_dirBit]
  | write b => exact ⟨0x00FF#16, congrArg (fun b' => withUsedBits _ _ (.write b')) (extract_byte b)⟩
  | read g => exact ⟨0x0001#16, by cases g <;> rfl⟩
  | init | stop | sReset | sReadSn | sReadRh | sReadT | sReadTl => exact ⟨0x0000#16, rfl⟩
  | convRh code | convT code => exact ⟨0xFFFF#16, rfl⟩

/-! ### O2, O3 -/

/-- A word decodes exactly when its fields are well formed (R109). -/
theorem wellFormed_iff_decode (w : Word) : (fieldsOf w).wellFormed = true ↔ ∃ i, decode w = .ok i := by
  rw [wellFormed_iff]
  constructor
  · rintro ⟨used, hu, hz, hv⟩
    obtain ⟨i, hi⟩ := (decodeOperation_ok_iff _ _).mpr ⟨used, hu, hv⟩
    exact ⟨i, decode_ok_iff.mpr ⟨hz, hi⟩⟩
  · rintro ⟨i, hi⟩
    obtain ⟨hz, hd⟩ := decode_ok_iff.mp hi
    obtain ⟨used, hu, hv⟩ := (decodeOperation_ok_iff _ _).mp ⟨i, hd⟩
    exact ⟨used, hu, hz, hv⟩

/-- Settles O2: the encoded word is well formed, so it decodes to an operation, and its fields are read as `i`. -/
theorem decodeInvertsEncode : Obligations.DecodeInvertsEncode := by
  intro i
  obtain ⟨hfields, hwf⟩ := encodingShape i
  obtain ⟨j, hj⟩ := (wellFormed_iff_decode _).mp hwf
  have ⟨_, hd⟩ := decode_ok_iff.mp hj
  obtain ⟨used, hi⟩ := decodeOperation_fieldsOf_operation i
  rw [hfields, hi] at hd
  obtain ⟨_, rfl⟩ := withUsedBits_ok_iff.mp hd
  exact hj

/-- Settles O3: the fields of a word that decodes are those of what it decodes to, and they make the word. -/
theorem encodeInvertsDecode : Obligations.EncodeInvertsDecode := by
  intro w i h
  obtain ⟨hz, hd⟩ := decode_ok_iff.mp h
  obtain ⟨hop, hv⟩ := operation_of_decodeOperation hd
  rw [encode, hop, hv, ← hz]
  exact wordOf_fieldsOf w

/-! ### O4 -/

/-- The row of an opcode of which the operand bits `used` are free: the rest of the word is fixed (R102). -/
def rowOf (op : Byte) (used : Half) : Word × Word :=
  (wordOf { opcode := BitVec.allOnes 8, zero := BitVec.allOnes 8, operand := ~~~used },
    wordOf { opcode := op, zero := 0#8, operand := 0#16 })

/-- The opcodes of the map, in its order (R101). -/
def opcodes : List Byte :=
  [0x00#8, 0x01#8, 0x02#8, 0x03#8, 0x04#8, 0x10#8, 0x11#8, 0x12#8, 0x13#8, 0x14#8, 0x20#8, 0x21#8]

theorem tableRows_eq : tableRows = opcodes.filterMap fun op => (usedOperandBits op).map (rowOf op) := by
  decide

theorem mem_opcodes_of_used : ∀ op : Byte, (usedOperandBits op).isSome = true → op ∈ opcodes := by
  decide

theorem mem_tableRows_iff (r : Word × Word) :
    r ∈ tableRows ↔ ∃ op used, usedOperandBits op = some used ∧ r = rowOf op used := by
  simp only [tableRows_eq, List.mem_filterMap, Option.map_eq_some_iff]
  constructor
  · rintro ⟨op, _, used, hu, rfl⟩
    exact ⟨op, used, hu, rfl⟩
  · rintro ⟨op, used, hu, rfl⟩
    exact ⟨op, mem_opcodes_of_used op (by rw [hu]; rfl), used, hu, rfl⟩

/-- A word matches a row when its opcode is the row's, its zero field is zero, and its unused operand bits are. -/
theorem matches_rowOf_iff (w : Word) (op : Byte) (used : Half) :
    w &&& (rowOf op used).1 = (rowOf op used).2 ↔
      (fieldsOf w).opcode = op ∧ (fieldsOf w).zero = 0#8 ∧ (fieldsOf w).operand &&& ~~~used = 0#16 := by
  conv_lhs => rw [← wordOf_fieldsOf w]
  rw [rowOf, wordOf_and, wordOf_injective.eq_iff, Command.mk.injEq, BitVec.and_allOnes, BitVec.and_allOnes]

/-- Settles O4: a row is its opcode's, and a word matches it exactly when the word is well formed with that opcode. -/
theorem tableRowsAreTheDecodedWords : Obligations.TableRowsAreTheDecodedWords := by
  constructor
  · intro w r hr r' hr' h h'
    obtain ⟨op, used, hu, rfl⟩ := (mem_tableRows_iff r).mp hr
    obtain ⟨op', used', hu', rfl⟩ := (mem_tableRows_iff r').mp hr'
    obtain ⟨rfl, _⟩ := (matches_rowOf_iff w op used).mp h
    obtain ⟨rfl, _⟩ := (matches_rowOf_iff w op' used').mp h'
    obtain rfl : used = used' := Option.some.inj (hu.symm.trans hu')
    rfl
  · intro w
    rw [← wellFormed_iff_decode, wellFormed_iff]
    constructor
    · rintro ⟨used, hu, hfields⟩
      exact ⟨rowOf _ used, (mem_tableRows_iff _).mpr ⟨_, used, hu, rfl⟩, (matches_rowOf_iff w _ used).mpr ⟨rfl, hfields⟩⟩
    · rintro ⟨r, hr, h⟩
      obtain ⟨op, used, hu, rfl⟩ := (mem_tableRows_iff r).mp hr
      obtain ⟨rfl, hfields⟩ := (matches_rowOf_iff w op used).mp h
      exact ⟨used, hu, hfields⟩

/-! ### O5 -/

namespace Machine

/-- A word that is not well formed is refused where it is issued, with the reason (R109). -/
theorem issue_reserved {w : Word} (h : (fieldsOf w).wellFormed = false) (s : State) :
    ∃ e, issue w s = .refused (.reservedWord e) := by
  cases hd : decode w with
  | error e => exact ⟨e, by simp [issue, hd]⟩
  | ok i =>
    have hwf := (wellFormed_iff_decode w).mpr ⟨i, hd⟩
    rw [h] at hwf
    cases hwf

/-- The reserved opcodes have no operand bits to use (R101). -/
theorem usedOperandBits_reserved {op : Byte}
    (h : 0x05 ≤ op.toNat ∧ op.toNat ≤ 0x0F ∨ 0x15 ≤ op.toNat ∧ op.toNat ≤ 0x1F ∨ 0x22 ≤ op.toNat) :
    usedOperandBits op = none := by
  unfold usedOperandBits
  split
  case h_13 => rfl
  all_goals omega

theorem wellFormed_of_reserved {c : Command} (h : usedOperandBits c.opcode = none) : c.wellFormed = false := by
  simp [Command.wellFormed, Command.opcodeKnown, h]

/-- Settles O5: the step is the issue of the word, which decodes exactly when it is well formed. -/
theorem reservedAndIllegalCommandsAreRefused : Obligations.ReservedAndIllegalCommandsAreRefused := by
  intro s w rest hb hq hh
  have hstep := step_issue hb hh
  rw [hstep]
  exact ⟨wellFormed_iff_decode w, fun h => issue_reserved h _, fun i hd hl => issue_illegal hd hq hl,
    fun h => wellFormed_of_reserved (usedOperandBits_reserved h)⟩

end Machine

/-! ### O1 -/

/-- Settles O1: each word's fields are looked up in the two tables. -/
theorem tabulatedWordsDecode : Obligations.TabulatedWordsDecode := by
  unfold Obligations.TabulatedWordsDecode
  decide

end Sys2Proof
end

section
/-! A primitive runs as an item of a script as it runs by itself, and O34 (42_sensor_ops.md R206; 30_encoding.md R115). -/

namespace Sys2Proof.Machine

/-! ### A run of the block's steps -/

/-- Of `n` steps of the block from `s` each but the last moves the operation on, and the last comes to `x`. -/
inductive Leads (p : Params) (o : Operation) : Nat → State → Progress → Prop
  | last {s : State} {q : SeqPos} {x : Progress} : s.seq = some q → blockStep p o q s = x → Leads p o 1 s x
  | more {n : Nat} {s u : State} {q : SeqPos} {x : Progress} :
    s.seq = some q → blockStep p o q s = .moved u → Leads p o n u x → Leads p o (n + 1) s x

section
variable {p : Params} {o : Operation} {n : Nat} {s t : State} {x : Progress}

/-- A run goes on from where another has moved the operation. -/
theorem Leads.trans {m : Nat} {u : State} (h : Leads p o n s (.moved u)) (h' : Leads p o m u x) :
    Leads p o (m + n) s x := by
  generalize hy : Progress.moved u = y at h
  induction h with
  | last hq hb => exact .more hq (hb.trans hy.symm) h'
  | more hq hb _ ih => exact .more hq hb (ih hy)

/-- What every step keeps while it moves the operation on holds to the last step, and so what that step leaves does. -/
theorem Leads.holds {P W E : State → Prop} (h : Leads p o n s x)
    (hP : ∀ {v q}, P v → v.seq = some q → (blockStep p o q v).Holds P W E) (hs : P s) : x.Holds P W E := by
  induction h with
  | last hq hb => exact hb ▸ hP hs hq
  | more hq hb _ ih =>
    have hu := hP hs hq
    rw [hb] at hu
    exact ih hu

/-- A run that ends the operation within a number of steps is what that number of steps comes to. -/
theorem runSteps_of_leads (h : Leads p o n s (.ended t)) : ∀ {N : Nat}, n ≤ N → runSteps p o N s = .next t := by
  generalize hy : Progress.ended t = y at h
  induction h with
  | last hq hb =>
    rintro (_ | N) hN
    · omega
    · exact runSteps_ended hq (hb.trans hy.symm)
  | more hq hb _ ih =>
    rintro (_ | N) hN
    · omega
    · exact (runSteps_moved hq hb).trans (ih hy (by omega))

/-- What a number of steps comes to: the operation's end, a wait, or the state the last of them moved it to. -/
theorem leads_of_runSteps {s t : State} {q : SeqPos} (N : Nat) (hq : s.seq = some q)
    (h : runSteps p o (N + 1) s = .next t) :
    ∃ n ≤ N + 1, Leads p o n s (.ended t) ∨ Leads p o n s (.waits t) ∨ (Leads p o n s (.moved t) ∧ n = N + 1) := by
  cases hb : blockStep p o q s with
  | moved u =>
    rw [runSteps_moved hq hb] at h
    cases N with
    | zero =>
      cases h
      exact ⟨1, le_rfl, .inr (.inr ⟨.last hq hb, rfl⟩)⟩
    | succ N =>
      have hf := blockStep_frame p o hq
      rw [hb] at hf
      obtain ⟨_, _, q', hq', _⟩ := hf
      obtain ⟨n, hn, hl⟩ := leads_of_runSteps N hq' h
      exact ⟨n + 1, by omega, hl.imp (.more hq hb) (.imp (.more hq hb) fun ⟨h, e⟩ => ⟨.more hq hb h, by omega⟩)⟩
  | waits u =>
    cases (runSteps_waits hq hb).symm.trans h
    exact ⟨1, by omega, .inr (.inl (.last hq hb))⟩
  | ended u =>
    cases (runSteps_ended hq hb).symm.trans h
    exact ⟨1, by omega, .inl (.last hq hb)⟩
  | refused r => cases (runSteps_refused hq hb).symm.trans h

/-- The sequencer stands at a line of the operation `i`. -/
def StandsIn (i : Instr) (s : State) : Prop := ∃ q, s.seq = some q ∧ q.op = i

/-- An operation that moves on or waits still runs; one that has ended does not. -/
theorem blockStep_standsIn {i : Instr} {q : SeqPos} (hs : StandsIn i s) (hq : s.seq = some q) :
    (blockStep p o q s).Holds (StandsIn i) (StandsIn i) (fun t => t.seq = none) := by
  obtain ⟨q', hq', hi⟩ := hs
  cases hq'.symm.trans hq
  rcases blockStep_cases p o q s with ⟨f, out, x, _, e⟩ | ⟨f, e⟩
  · rw [e]
    exact ⟨q, hq, hi⟩
  · rw [e]
    exact (seqStep_frame p o q (s.setFeed f) hq).mono (fun _ ⟨_, _, q', hq', h⟩ => ⟨q', hq', h.trans hi⟩)
      (fun _ ⟨_, _, h, _⟩ => ⟨q, h, hi⟩) (fun _ ⟨_, _, h⟩ => h)

end

/-- The run of an operation that begins, as far as `exec` follows it. -/
theorem leads_of_exec {i : Instr} {s t : State} (hs : s.seq = none) (h : exec i s = .next t) :
    ∃ n ≤ stepBound Config.params (operationOf i),
      let Run := Leads Config.params (operationOf i) n (beginOperation i (operationOf i) s)
      Run (.ended t) ∨ Run (.waits t) ∨ (Run (.moved t) ∧ n = stepBound Config.params (operationOf i)) := by
  rcases runOperation_cases ((exec_runs i s).symm.trans h) with ⟨_, _, hr⟩ | ⟨q, hq, _⟩ | ⟨r, _, hr⟩
  · have hpos := stepBound_pos Config.params (operationOf i)
    obtain ⟨N, hN⟩ := Nat.exists_eq_succ_of_ne_zero (n := stepBound Config.params (operationOf i)) (by omega)
    rw [hN] at hr ⊢
    exact leads_of_runSteps N (beginOperation_seq ..) hr
  · cases hs.symm.trans hq
  · cases hr

/-- An operation after which another one begins has ended. -/
theorem leads_end_of_exec_exec {i j : Instr} {s t u : State} (hij : i ≠ j) (hs : s.seq = none) (h : exec i s = .next t)
    (h' : exec j t = .next u) :
    t.seq = none ∧ ∃ n ≤ stepBound Config.params (operationOf i),
      Leads Config.params (operationOf i) n (beginOperation i (operationOf i) s) (.ended t) := by
  have hlast : ∀ {n x}, Leads Config.params (operationOf i) n (beginOperation i (operationOf i) s) x →
      x.Holds (StandsIn i) (StandsIn i) (fun t => t.seq = none) :=
    fun hl => hl.holds blockStep_standsIn ⟨_, beginOperation_seq .., rfl⟩
  have hidle : ¬ StandsIn i t := by
    rintro ⟨q, hq, hi⟩
    rcases runOperation_cases ((exec_runs j t).symm.trans h') with ⟨hn, _⟩ | ⟨q', hq', hj, _⟩ | ⟨r, _, hr⟩
    · cases hn.symm.trans hq
    · cases hq.symm.trans hq'
      exact hij (hi.symm.trans hj)
    · cases hr
  obtain ⟨n, hn, hl | hl | ⟨hl, _⟩⟩ := leads_of_exec hs h
  · exact ⟨hlast hl, n, hn, hl⟩
  · exact absurd (hlast hl) hidle
  · exact absurd (hlast hl) hidle

/-! ### How many steps `WRITE` and `STOP` take -/

/-- The accesses still to make in a `WRITE` or a `STOP`, the one of the line counted; 0 at the lines of the others. -/
def linesLeft (l : Line) : Nat :=
  match l with
  | .write _ .data => 2
  | .write _ .wait => 1
  | .stop .readCtrl => 2
  | .stop .writeCtrl => 1
  | _ => 0

/-- The completions that can follow one another with no access between them (40_bus_engine.md R136, R145). -/
def completionsLeft (e : Engine) : Nat :=
  match e.inflight with
  | .none => 0
  | .addrPh => 2
  | .txPh => 1
  | .rxPh => 1
  | .resetPh => 1

theorem completionsLeft_le (e : Engine) : completionsLeft e ≤ 2 := by
  unfold completionsLeft
  cases e.inflight <;> decide

theorem completionsLeft_of_complete {p : Params} {out : EnvOutcome} {e : Engine} {x : Reaction}
    (h : complete p out e = some x) : completionsLeft x.eng < completionsLeft e := by
  unfold completionsLeft
  rcases complete_leaves h with hx | ⟨he, _, _, hx⟩
  · have hi := complete_inflight h
    rw [hx]
    cases he : e.inflight with
    | none => exact absurd he hi
    | addrPh | txPh | rxPh | resetPh => decide
  · simp [he, hx]

/-- A line of a `WRITE` or a `STOP` goes on to one with fewer accesses to make, and makes none again but in the transmit
wait. -/
theorem runLine_linesLeft {p : Params} {l : Line} (hl : 0 < linesLeft l) (s : State) :
    (runLine p l s).Holds (fun l' _ => 0 < linesLeft l' ∧ linesLeft l' < linesLeft l) (fun _ => False) (fun _ => True)
      (fun _ _ _ => True) := by
  rcases l with l | ⟨a, d, l⟩ | ⟨b, l⟩ | ⟨again, l⟩ | l | _
  case init | start | read | convert => exact absurd hl (by simp [linesLeft])
  case write =>
    cases l <;> dsimp only [runLine, writeLine]
    case data => exact onWrite_holds fun _ _ => ⟨Nat.one_pos, Nat.one_lt_two⟩
    case wait =>
      refine onRead_holds fun _ _ _ => ?_
      split
      · trivial
      · split <;> trivial
  case stop =>
    cases l <;> dsimp only [runLine, stopLine]
    case readCtrl => exact onRead_holds fun _ _ _ => ⟨Nat.one_pos, Nat.one_lt_two⟩
    case writeCtrl => exact onWrite_holds fun _ _ => trivial

/-- The sequencer stands at a line of a `WRITE` or a `STOP`, the last item of its script, with at most `n` steps of the
block to go: before each access two completions can stand. -/
def StepsLeft (o : Operation) (n : Nat) (s : State) : Prop :=
  ∃ q, s.seq = some q ∧ o.script.length = q.item + 1 ∧ 0 < linesLeft q.line ∧
    3 * linesLeft q.line + completionsLeft s.eng ≤ n

theorem seqStep_stepsLeft {p : Params} {o : Operation} {q : SeqPos} {s t : State} (ho : o.script.length = q.item + 1)
    (hl : 0 < linesLeft q.line) (h : seqStep p o q s = .moved t) :
    ∃ q', t.seq = some q' ∧ o.script.length = q'.item + 1 ∧ 0 < linesLeft q'.line ∧
      linesLeft q'.line < linesLeft q.line := by
  have hr := runLine_linesLeft (p := p) hl s
  unfold seqStep at h
  cases hx : runLine p q.line s with
  | goto l u =>
    rw [hx] at h hr
    cases h
    exact ⟨_, moveTo_seq .., ho, hr⟩
  | again u =>
    rw [hx] at hr
    exact hr.elim
  | done st d u =>
    rw [hx] at h
    rcases itemEnded_cases q.op o q.item st d u with ⟨_, e⟩ | ⟨_, _, _, hlt, _⟩ | ⟨_, _, _, _, e⟩ | ⟨_, _, _, e⟩
    · cases e.symm.trans h
    · omega
    · cases e.symm.trans h
    · cases e.symm.trans h
  | spin u | refused r =>
    rw [hx] at h
    cases h

theorem blockStep_stepsLeft {p : Params} {o : Operation} {n : Nat} {q : SeqPos} {s t : State}
    (hs : StepsLeft o (n + 1) s) (hq : s.seq = some q) (h : blockStep p o q s = .moved t) : StepsLeft o n t := by
  obtain ⟨q', hq', ho, hl, hn⟩ := hs
  cases hq.symm.trans hq'
  rcases blockStep_cases p o q s with ⟨f, out, x, hc, e⟩ | ⟨f, e⟩
  · cases e.symm.trans h
    have := completionsLeft_of_complete hc
    exact ⟨q, hq, ho, hl, by simp; omega⟩
  · obtain ⟨q', hq', ho', hl', hlt⟩ := seqStep_stepsLeft ho hl (e.symm.trans h)
    have := completionsLeft_le t.eng
    exact ⟨q', hq', ho', hl', by omega⟩

/-- A run of a `WRITE` or a `STOP` is no longer than that. -/
theorem Leads.length_le {p : Params} {o : Operation} {n : Nat} {s : State} {x : Progress} (h : Leads p o n s x) :
    ∀ {m : Nat}, StepsLeft o m s → n ≤ m := by
  have hpos : ∀ {m s}, StepsLeft o m s → 1 ≤ m := fun ⟨_, _, _, hl, hn⟩ => by omega
  induction h with
  | last => exact hpos
  | more hq hb _ ih =>
    intro m hs
    obtain ⟨m, rfl⟩ := Nat.exists_eq_add_of_le' (hpos hs)
    exact Nat.succ_le_succ (ih (blockStep_stepsLeft hs hq hb))

theorem stepsLeft_write (b : Byte) (s : State) :
    StepsLeft (operationOf (.write b)) 8 (beginOperation (.write b) (operationOf (.write b)) s) :=
  ⟨_, beginOperation_seq .., rfl, Nat.zero_lt_two, Nat.add_le_add_left (completionsLeft_le _) 6⟩

theorem stepsLeft_stop (s : State) : StepsLeft (operationOf .stop) 8 (beginOperation .stop (operationOf .stop) s) :=
  ⟨_, beginOperation_seq .., rfl, Nat.zero_lt_two, Nat.add_le_add_left (completionsLeft_le _) 6⟩

/-! ### `STOP` ends OK -/

/-- The sequencer stands at a line of a `STOP` the host issued. -/
def AtStop (s : State) : Prop := ∃ l, s.seq = some { op := .stop, item := 0, line := .stop l }

theorem stopLine_ok {p : Params} (l : StopLine) (s : State) :
    (runLine p (.stop l) s).Holds (fun l' _ => ∃ l'', l' = .stop l'') (fun _ => False) (fun _ => False)
      (fun st _ _ => st = .ok) := by
  cases l <;> dsimp only [runLine, stopLine]
  case readCtrl => exact onRead_holds fun _ _ _ => ⟨_, rfl⟩
  case writeCtrl => exact onWrite_holds fun _ _ => rfl

theorem seqStep_stop (p : Params) (l : StopLine) (s : State) :
    (seqStep p (operationOf .stop) { op := .stop, item := 0, line := .stop l } s).Holds AtStop (fun _ => False)
      (fun t => t.res.status = 0x00#8) := by
  have hr := stopLine_ok (p := p) l s
  unfold seqStep
  generalize runLine p (.stop l) s = out at hr
  cases out with
  | goto l' u =>
    obtain ⟨l'', rfl⟩ := hr
    exact ⟨l'', moveTo_seq ..⟩
  | again u | spin u => exact hr.elim
  | done st d u =>
    obtain rfl := hr
    rfl
  | refused r => trivial

theorem blockStep_stop {p : Params} {q : SeqPos} {s : State} (hs : AtStop s) (hq : s.seq = some q) :
    (blockStep p (operationOf .stop) q s).Holds AtStop (fun _ => False) (fun t => t.res.status = 0x00#8) := by
  obtain ⟨l, hl⟩ := hs
  cases hl.symm.trans hq
  rcases blockStep_cases p (operationOf .stop) _ s with ⟨f, out, x, _, e⟩ | ⟨f, e⟩
  · rw [e]
    exact ⟨l, hq⟩
  · rw [e]
    exact seqStep_stop p l _

/-- `exec` follows a `STOP` to its end, and it ends OK (41_bus_primitives.md R188). -/
theorem leads_end_of_exec_stop {s t : State} (hs : s.seq = none) (h : exec .stop s = .next t) :
    t.res.status = 0x00#8 ∧ ∃ n ≤ 8, Leads Config.params (operationOf .stop) n
      (beginOperation .stop (operationOf .stop) s) (.ended t) := by
  have hlast : ∀ {n x}, Leads Config.params (operationOf .stop) n (beginOperation .stop (operationOf .stop) s) x →
      n ≤ 8 ∧ x.Holds AtStop (fun _ => False) (fun t => t.res.status = 0x00#8) :=
    fun hl => ⟨hl.length_le (stepsLeft_stop s), hl.holds blockStep_stop ⟨.readCtrl, beginOperation_seq ..⟩⟩
  obtain ⟨n, _, hl | hl | ⟨hl, hn⟩⟩ := leads_of_exec hs h
  · exact ⟨(hlast hl).2, n, (hlast hl).1, hl⟩
  · exact (hlast hl).2.elim
  · have := stepBound_pos Config.params (operationOf .stop)
    have := (hlast hl).1
    omega

/-! ### A primitive as an item of a script -/

/-- The place in the item `k` of `i` that is the place of `q` in the primitive the host issued. -/
def SeqPos.asItem (i : Instr) (k : Nat) (q : SeqPos) : SeqPos := { op := i, item := k, line := q.line }

/-- The state of a primitive the host issued, as one in which the primitive runs as the item `k` of `i`: the sequencer's
place is there, and the results are those from before the operation. -/
def State.asItem (i : Instr) (k : Nat) (r : Results) (s : State) : State :=
  ((s.setRes r).setSeq (s.seq.map (SeqPos.asItem i k))).setBusy true

/-- The outcome of a line with its state changed by `f`. -/
def LineOut.map (f : State → State) (out : LineOut) : LineOut :=
  match out with
  | .goto l s => .goto l (f s)
  | .again s => .again (f s)
  | .spin s => .spin (f s)
  | .done st d s => .done st d (f s)
  | .refused r => .refused r

/-- The engine's moment with its state changed by `f`. -/
def EngineMove.map (f : State → State) (m : EngineMove) : EngineMove :=
  match m with
  | .completed s => .completed (f s)
  | .holds s => .holds (f s)

theorem onRead_map {f : State → State} {a : Except Refusal (Word × State)} {c : Word → State → LineOut}
    (hc : ∀ v t, c v (f t) = (c v t).map f) : onRead (a.map (Prod.map id f)) c = (onRead a c).map f := by
  cases a with
  | error e => rfl
  | ok x => exact hc x.1 x.2

theorem onWrite_map {f : State → State} {a : Except Refusal State} {c : State → LineOut}
    (hc : ∀ t, c (f t) = (c t).map f) : onWrite (a.map f) c = (onWrite a c).map f := by
  cases a with
  | error e => rfl
  | ok t => exact hc t

section
variable {i : Instr} {k : Nat} {r : Results} {p : Params}

@[simp] theorem asItem_eng (s : State) : (s.asItem i k r).eng = s.eng := rfl
@[simp] theorem asItem_work (s : State) : (s.asItem i k r).work = s.work := rfl
@[simp] theorem asItem_feed (s : State) : (s.asItem i k r).feed = s.feed := rfl
@[simp] theorem asItem_setWork (s : State) (w : Work) : (s.asItem i k r).setWork w = (s.setWork w).asItem i k r := rfl

@[simp] theorem seqRead_asItem (g : Reg) (s : State) :
    seqRead g (s.asItem i k r) = (seqRead g s).map (Prod.map id (State.asItem i k r)) := by
  simp only [seqRead, asItem_eng]
  cases readReg g s.eng <;> rfl

@[simp] theorem seqWrite_asItem (g : Reg) (v : Word) (s : State) :
    seqWrite g v (s.asItem i k r) = (seqWrite g v s).map (State.asItem i k r) := by
  simp only [seqWrite, asItem_eng]
  cases writeReg g v s.eng <;> rfl

@[simp] theorem seqSet_asItem (g : Reg) (m : Word) (s : State) :
    seqSet g m (s.asItem i k r) = (seqSet g m s).map (State.asItem i k r) := by
  simp only [seqSet, asItem_eng]
  cases setBitsReg g m s.eng <;> rfl

theorem pollLine_asItem {m : Word} {s : State} {x : State → LineOut} {c : Word → State → LineOut}
    (hx : ∀ t, x (t.asItem i k r) = (x t).map (State.asItem i k r))
    (hc : ∀ v t, c v (t.asItem i k r) = (c v t).map (State.asItem i k r)) :
    pollLine p m (s.asItem i k r) x c = (pollLine p m s x c).map (State.asItem i k r) := by
  unfold pollLine
  rw [seqRead_asItem]
  refine onRead_map fun v t => ?_
  by_cases hm : v &&& m = 0#32
  · by_cases hb : t.work.pollcnt + 1 < p.pollBudget <;> simp [hm, hb, hx, LineOut.map]
  · simp [hm, hc]

/-- A line does not look at the results, the sequencer's place or the busy bit, and leaves them. -/
theorem runLine_asItem (l : Line) (s : State) :
    runLine p l (s.asItem i k r) = (runLine p l s).map (State.asItem i k r) := by
  rcases l with l | ⟨a, d, l⟩ | ⟨b, l⟩ | ⟨again, l⟩ | l | _
  · cases l <;> simp only [runLine, initLine, seqRead_asItem, seqWrite_asItem, seqSet_asItem]
    case clkEnable | clkSelect | pinSda | pinScl => rfl
    case swrst | master | baud | enable => exact onWrite_map fun _ => rfl
    case resetWait =>
      refine onRead_map fun _ _ => ?_
      split <;> rfl
  · cases l <;> simp only [runLine, startLine, seqRead_asItem, seqWrite_asItem, asItem_work]
    case flags | failRead => exact onRead_map fun _ _ => rfl
    case cleanup | address | failStop | failClear => exact onWrite_map fun _ => rfl
    case check | status =>
      refine onRead_map fun _ _ => ?_
      split <;> rfl
    case poll => exact pollLine_asItem (fun _ => rfl) fun _ _ => rfl
  · cases l <;> simp only [runLine, writeLine, seqRead_asItem, seqWrite_asItem]
    case data => exact onWrite_map fun _ => rfl
    case wait =>
      refine onRead_map fun _ _ => ?_
      split
      · rfl
      · split <;> rfl
  · cases l <;> simp only [runLine, readLine, seqRead_asItem, seqWrite_asItem, asItem_work]
    case poll =>
      refine pollLine_asItem (fun _ => rfl) fun _ _ => ?_
      split <;> rfl
    case readCtrl | data => exact onRead_map fun _ _ => rfl
    case writeCtrl => exact onWrite_map fun _ => rfl
  · cases l <;> simp only [runLine, stopLine, seqRead_asItem, seqWrite_asItem, asItem_work]
    case readCtrl => exact onRead_map fun _ _ => rfl
    case writeCtrl => exact onWrite_map fun _ => rfl
  · rfl

/-- Nor does the engine's moment. -/
theorem engineMove_asItem (s : State) :
    engineMove p (s.asItem i k r) = (engineMove p s).map (State.asItem i k r) := by
  by_cases hi : s.eng.inflight = .none
  · simp [hi, EngineMove.map]
  · have hi' : (s.asItem i k r).eng.inflight ≠ .none := hi
    unfold engineMove
    rw [if_neg hi, if_neg hi', asItem_feed, asItem_eng]
    obtain ⟨_ | out, f⟩ := nextTurn s.feed
    · rfl
    · dsimp only
      cases complete p out s.eng <;> rfl

theorem moveTo_asItem (j : Instr) (n : Nat) (l : Line) (s : State) :
    moveTo i k l (s.asItem i k r) = (moveTo j n l s).asItem i k r := by
  unfold moveTo
  split <;> rfl

end

section
variable {i j : Instr} {k n : Nat} {r : Results} {p : Params} {y : Prim} {o : Operation} {it : Item} {s t : State}

/-- What a step of a primitive the host issued is as a step of the script's item: it goes on alike; and where it ends
OK, the item does. -/
def StepsAsItem (i : Instr) (k : Nat) (r : Results) (o : Operation) (s : State) (x x' : Progress) : Prop :=
  x.Holds (fun t => x' = .moved (t.asItem i k r) ∧ t.res = s.res ∧ ∃ q, t.seq = some q ∧ q.item = 0) (fun _ => True)
    (fun t => t.res.status = 0x00#8 →
      ∃ d u, x' = itemEnded i o k .ok d (u.asItem i k r) ∧ u.res = s.res ∧ t = finish .ok .ok u)

/-- Where a primitive the host issued ends, and OK, so does the item. -/
theorem itemEnded_asItem (d : Byte) (h : t.res = s.res) :
    ∀ {st : Code}, StepsAsItem i k r o s (itemEnded j (hostPrimitive y .nothing) 0 st d t)
      (itemEnded i o k st d (t.asItem i k r)) := by
  intro st
  by_cases hst : st = .ok
  · subst hst
    exact fun _ => ⟨d, t, rfl, h, rfl⟩
  · have e : itemEnded j (hostPrimitive y .nothing) 0 st d t = .ended (finish st .ok t) := by
      rcases itemEnded_cases j (hostPrimitive y .nothing) 0 st d t with ⟨hn, _⟩ | ⟨_, _, h, _⟩ | ⟨_, _, h, _⟩ |
        ⟨it, hit, _, e⟩
      · cases hn
      · exact absurd h hst
      · exact absurd h hst
      · cases hit
        exact e
    rw [e]
    exact fun h0 => absurd h0 (codeByte_ne_zero hst)

theorem seqStep_asItem {q : SeqPos} (hq : s.seq = some q) (h0 : q.item = 0) :
    StepsAsItem i k r o s (seqStep p (hostPrimitive y .nothing) q s) (seqStep p o (q.asItem i k) (s.asItem i k r)) := by
  have hr := runLine_frame p q.line s
  unfold seqStep
  rw [show (q.asItem i k).line = q.line from rfl, runLine_asItem]
  cases hx : runLine p q.line s with
  | goto l t =>
    rw [hx] at hr
    obtain ⟨_, _, hres⟩ := hr
    exact ⟨congrArg Progress.moved (moveTo_asItem ..), (moveTo_res ..).trans hres, _, moveTo_seq .., h0⟩
  | again t =>
    rw [hx] at hr
    obtain ⟨_, _, hres, hseq⟩ := hr
    exact ⟨rfl, hres, q, hseq.trans hq, h0⟩
  | spin t | refused r => trivial
  | done st d t =>
    rw [hx] at hr
    obtain ⟨_, _, hres⟩ := hr
    dsimp only [LineOut.map, SeqPos.asItem]
    rw [h0]
    exact itemEnded_asItem d hres

theorem blockStep_asItem {q : SeqPos} (hq : s.seq = some q) (h0 : q.item = 0) :
    StepsAsItem i k r o s (blockStep p (hostPrimitive y .nothing) q s)
      (blockStep p o (q.asItem i k) (s.asItem i k r)) := by
  unfold blockStep
  rw [engineMove_asItem]
  rcases engineMove_cases p s with ⟨f, e⟩ | ⟨f, out, x, _, e⟩
  · rw [e]
    exact seqStep_asItem (s := s.setFeed f) hq h0
  · rw [e]
    exact ⟨rfl, rfl, q, hq, h0⟩

/-- A primitive that ends OK by itself takes as many steps as an item of a script, to where the script goes on. -/
theorem Leads.asItem {q : SeqPos} (h : Leads p (hostPrimitive y .nothing) n s (.ended t)) (hq : s.seq = some q)
    (h0 : q.item = 0) (hok : t.res.status = 0x00#8) :
    ∃ d u, Leads p o n (s.asItem i k r) (itemEnded i o k .ok d (u.asItem i k r)) ∧ u.res = s.res ∧
      t = finish .ok .ok u := by
  have place : ∀ {s : State} {q : SeqPos}, s.seq = some q → (s.asItem i k r).seq = some (q.asItem i k) := fun h =>
    congrArg (Option.map (SeqPos.asItem i k)) h
  generalize hx : Progress.ended t = x at h
  induction h generalizing q with
  | last hq' hb =>
    cases hq.symm.trans hq'
    have hs := blockStep_asItem (i := i) (k := k) (r := r) (p := p) (y := y) (o := o) hq h0
    rw [hb, ← hx] at hs
    obtain ⟨d, u, e, hu⟩ := hs hok
    exact ⟨d, u, .last (place hq) e, hu⟩
  | more hq' hb _ ih =>
    cases hq.symm.trans hq'
    have hs := blockStep_asItem (i := i) (k := k) (r := r) (p := p) (y := y) (o := o) hq h0
    rw [hb] at hs
    obtain ⟨e, hres, q', hq', h0'⟩ := hs
    obtain ⟨d, u, hl, hu, ht⟩ := ih hq' h0' hx
    exact ⟨d, u, .more (place hq) e hl, hu.trans hres, ht⟩

/-- The script's next item begins as the next primitive, issued by itself, does. -/
theorem moveTo_next_item (z : Prim) (u : State) :
    moveTo i (k + 1) (firstLine z) (u.asItem i k r) =
      (beginOperation j (hostPrimitive z .nothing) (finish .ok .ok u)).asItem i (k + 1) r := by
  show _ = (moveTo j 0 (firstLine z) _).asItem i (k + 1) r
  unfold moveTo
  split <;> rfl

/-- Where a primitive that begins ends OK by itself, the script goes on from it as the next primitive begins. -/
theorem Leads.next_item {z : Prim} {j' : Instr}
    (h : Leads p (hostPrimitive y .nothing) n (beginOperation j (hostPrimitive y .nothing) s) (.ended t))
    (hok : t.res.status = 0x00#8) (hit : o.script[k]? = some it) (hkeep : it.keep = .nothing)
    (hlen : k + 1 < o.script.length) (hz : itemLine o (k + 1) = firstLine z) :
    t.res = reported s.res 0x00#8 0x00#8 ∧
    Leads p o n ((beginOperation j (hostPrimitive y .nothing) s).asItem i k r)
      (.moved ((beginOperation j' (hostPrimitive z .nothing) t).asItem i (k + 1) r)) := by
  obtain ⟨d, u, hl, hu, rfl⟩ := h.asItem (i := i) (k := k) (r := r) (o := o) (beginOperation_seq ..) rfl hok
  have e : itemEnded i o k .ok d (u.asItem i k r) = .moved (moveTo i (k + 1) (firstLine z) (u.asItem i k r)) := by
    simp [itemEnded, hit, hkeep, hlen, hz, keepByte]
  rw [e, moveTo_next_item (j := j')] at hl
  exact ⟨by rw [finish_res, hu, beginOperation_res]; rfl, hl⟩

/-- Where a primitive that begins ends OK by itself, a script of which it is the last item, and which reports no result,
ends. -/
theorem Leads.last_item
    (h : Leads p (hostPrimitive y .nothing) n (beginOperation j (hostPrimitive y .nothing) s) (.ended t))
    (hok : t.res.status = 0x00#8) (hit : o.script[k]? = some it) (hkeep : it.keep = .nothing)
    (hlen : ¬ k + 1 < o.script.length) (hrep : o.report = reportNothing) :
    t.res = reported s.res 0x00#8 0x00#8 ∧
    Leads p o n ((beginOperation j (hostPrimitive y .nothing) s).asItem i k r)
      (.ended (finish .ok .ok (t.setRes r))) := by
  obtain ⟨d, u, hl, hu, rfl⟩ := h.asItem (i := i) (k := k) (r := r) (o := o) (beginOperation_seq ..) rfl hok
  have e : itemEnded i o k .ok d (u.asItem i k r) = .ended (finish .ok .ok (u.asItem i k r)) := by
    simp only [itemEnded, hit, hkeep, hlen, hrep, keepByte, reportNothing, if_false]
    rfl
  rw [e] at hl
  exact ⟨by rw [finish_res, hu, beginOperation_res]; rfl, hl⟩

end

/-! ### O34 -/

/-- `S_RESET` begins as the `START` of its first item does. -/
theorem beginOperation_sReset (s : State) :
    beginOperation .sReset sResetOperation s =
      (beginOperation (.start 0x40#7 .write) (startOperation 0x40#7 .write) s).asItem .sReset 0 s.res := rfl

/-- The steps of the three primitives are no more than `exec` gives `S_RESET`. -/
theorem stepBound_sReset (p : Params) :
    stepBound p (startOperation 0x40#7 .write) + 8 + 8 ≤ stepBound p sResetOperation := by
  show 3 * (1 + 1) * p.pollBudget + 27 * (1 + 1) + 8 + 8 ≤ 3 * (3 + 1) * p.pollBudget + 27 * (3 + 1)
  omega

/-- Settles O34: each primitive runs as its item of the script does, and the items' runs follow one another. -/
theorem sensorResetIsItsPrimitives : Obligations.SensorResetIsItsPrimitives := by
  intro s s1 s2 s3 hs _ h1 ok1 h2 _ ok2 h3
  obtain ⟨hs1, n1, hn1, l1⟩ := leads_end_of_exec_exec (by decide) hs h1 h2
  obtain ⟨hs2, n2, _, l2⟩ := leads_end_of_exec_exec (by decide) hs1 h2 h3
  obtain ⟨ok3, n3, hn3, l3⟩ := leads_end_of_exec_stop hs2 h3
  have hn2 : n2 ≤ 8 := l2.length_le (stepsLeft_write _ _)
  obtain ⟨r1, k1⟩ := Leads.next_item (i := .sReset) (k := 0) (r := s.res) (o := sResetOperation) (z := .write 0xFE#8)
    (j' := .write 0xFE#8) l1 ok1 rfl rfl (by decide) rfl
  obtain ⟨r2, k2⟩ := Leads.next_item (i := .sReset) (k := 1) (r := s.res) (o := sResetOperation) (z := .stop)
    (j' := .stop) l2 ok2 rfl rfl (by decide) rfl
  obtain ⟨r3, k3⟩ := Leads.last_item (i := .sReset) (k := 2) (r := s.res) (o := sResetOperation) l3 ok3 rfl rfl
    (by decide) rfl
  have hrun : exec .sReset s = .next (finish .ok .ok (s3.setRes s.res)) := by
    rw [exec_of_begin hs rfl]
    refine runSteps_of_leads (k1.trans (k2.trans k3)) ?_
    have := stepBound_sReset Config.params
    show n3 + n2 + n1 ≤ stepBound Config.params sResetOperation
    have : n1 ≤ stepBound Config.params (startOperation 0x40#7 .write) := hn1
    omega
  have hres : (finish .ok .ok (s3.setRes s.res)).res = s3.res := by
    rw [r3, r2, r1]
    rfl
  exact ⟨_, hrun, rfl, rfl, rfl, rfl, rfl, hres, rfl⟩

end Sys2Proof.Machine
end

section
/-! What each access makes of the engine, said once per register and command, and O38, O40, O42
(40_bus_engine.md R131 to R153). -/

namespace Sys2Proof.Machine

/-! ### Reads -/

/-- A read answers the register's value; `DATA` alone reacts. -/
theorem readReg_ok {r : Reg} {e : Engine} {v : Word} {x : Reaction} (h : readReg r e = .ok (v, x)) :
    v = regValue r e ∧ x = if r = .data then reactReadData e else { eng := e, wire := [] } := by
  unfold readReg at h
  split at h
  · cases h
  · cases h
    exact ⟨rfl, rfl⟩

/-- With no acknowledge pending a read of `DATA` has no effect. -/
theorem reactReadData_quiet {e : Engine} (h : e.ackPending = false) : reactReadData e = { eng := e, wire := [] } := by
  simp [reactReadData, h]

/-- With an acknowledge pending a read of `DATA` sends it, and on ACK asks for the next byte. -/
theorem reactReadData_pending {e : Engine} (h : e.ackPending = true) :
    reactReadData e =
      { eng := { e with
          ackPending := false, intflag := { e.intflag with sb := false }
          inflight := if e.ctrl.ackact then e.inflight else .rxPh }
        wire := [ackEvent e] } := by
  simp [reactReadData, h]

/-- Settles O40. -/
theorem onlyReadingDataHasAnEffect : Obligations.OnlyReadingDataHasAnEffect := by
  intro r e v x h
  obtain ⟨hv, hx⟩ := readReg_ok h
  refine ⟨hv, ?_, ?_, ?_⟩
  · rintro (hr | hp)
    · rw [hx, if_neg hr]
    · rw [hx, reactReadData_quiet hp, ite_self]
  · rintro rfl hp hk
    rw [hx, if_pos rfl, reactReadData_pending hp]
    simp [ackEvent, hk]
  · rintro rfl hp hk
    rw [hx, if_pos rfl, reactReadData_pending hp]
    simp [ackEvent, hk]

/-! ### Writes -/

/-- A write is answered outside a software reset only. -/
theorem writeReg_running {r : Reg} {v : Word} {e : Engine} {x : Reaction} (h : writeReg r v e = .ok x) :
    e.inflight ≠ .resetPh := by
  intro hi
  simp [writeReg, hi] at h

theorem writeReg_ctrl {v : Word} {e : Engine} (h : e.inflight ≠ .resetPh) :
    writeReg .ctrl v e = reactWriteCtrl v e := by
  simp [writeReg, h]

theorem writeReg_intflag {v : Word} {e : Engine} (h : e.inflight ≠ .resetPh) :
    writeReg .intflag v e = .ok { eng := { e with intflag := clearWritten e.intflag v }, wire := [] } := by
  simp [writeReg, h]

theorem writeReg_addr {v : Word} {e : Engine} (h : e.inflight ≠ .resetPh) :
    writeReg .addr v e = reactWriteAddr (v.setWidth 8) e := by
  simp [writeReg, h]

theorem writeReg_data {v : Word} {e : Engine} (h : e.inflight ≠ .resetPh) :
    writeReg .data v e = reactWriteData (v.setWidth 8) e := by
  simp [writeReg, h]

/-- The engine after a write of `CTRL` with no command and no software reset: its stored fields are the written ones. -/
def storeCtrl (v : Word) (e : Engine) : Engine := { e with ctrl := ctrlOfWord v }

/-- A write of `CTRL` starts a software reset, stores its fields and sends STOP, or stores its fields. -/
theorem reactWriteCtrl_ok {v : Word} {e : Engine} {x : Reaction} (h : reactWriteCtrl v e = .ok x) :
    (v.getLsbD 0 = true ∧ x = { eng := { e with inflight := .resetPh }, wire := [] }) ∨
    (v.getLsbD 0 = false ∧ (x = reactStop (storeCtrl v e) ∨ x = { eng := storeCtrl v e, wire := [] })) := by
  unfold reactWriteCtrl at h
  dsimp only at h
  split at h
  · cases h
    exact .inl ⟨by assumption, rfl⟩
  · rename_i h0
    refine .inr ⟨by simpa using h0, ?_⟩
    split at h
    · cases h
    · split at h
      · cases h
      · split at h
        · split at h <;> cases h
          exact .inl rfl
        · cases h
          exact .inr rfl

/-- A write of `ADDR` is answered with the engine active and nothing in flight. -/
theorem reactWriteAddr_ok {a8 : Byte} {e : Engine} {x : Reaction} (h : reactWriteAddr a8 e = .ok x) :
    active e = true ∧ e.inflight = .none ∧
      x = { eng := { e with
              ackPending := false, addr := a8, owned := true, dir := addrDir a8, intflag := clearMbSb e.intflag
              status := statusClear, inflight := .addrPh }
            wire := pendingAck e ++ [if e.owned then .sr else .s, .address a8] } := by
  unfold reactWriteAddr at h
  split at h
  · cases h
  · rename_i ha
    split at h
    · cases h
    · rename_i hi
      cases h
      exact ⟨by simpa using ha, by simpa using hi, rfl⟩

/-- A write of `DATA` is answered with the bus held to write and nothing in flight. -/
theorem reactWriteData_ok {b : Byte} {e : Engine} {x : Reaction} (h : reactWriteData b e = .ok x) :
    e.owned = true ∧ e.dir = .write ∧ e.inflight = .none ∧
      x = { eng := { e with data := b, intflag := { e.intflag with mb := false }, inflight := .txPh }, wire := [.tx b] } := by
  unfold reactWriteData at h
  split at h
  · cases h
  · split at h
    · cases h
    · rename_i hopen
      cases h
      have hd : e.dir = .write := by
        cases hdir : e.dir with
        | write => rfl
        | read => exact absurd (.inr (.inl hdir)) hopen
      simp only [Bool.not_eq_true', not_or, Bool.not_eq_false, ne_eq, not_not] at hopen
      obtain ⟨ho, _, hi⟩ := hopen
      exact ⟨ho, hd, hi, rfl⟩

/-! ### O38 and the first half of O39: what is read back -/

/-- One stored bit of a written word is the word masked to it. -/
theorem bitIf_getLsbD (v : Word) (k : Nat) {m : Word} (hm : m = BitVec.twoPow 32 k) :
    bitIf (v.getLsbD k) m = v &&& m := by
  rw [hm, BitVec.and_twoPow]
  cases v.getLsbD k <;> rfl

/-- The stored fields of a word are the word masked to them. -/
theorem ctrlBits_ctrlOfWord (v : Word) : ctrlBits (ctrlOfWord v) = v &&& 0x00040006#32 := by
  show bitIf (v.getLsbD 1) maskEnable ||| bitIf (v.getLsbD 2) maskMaster ||| bitIf (v.getLsbD 18) maskAckact =
    v &&& (maskEnable ||| maskMaster ||| maskAckact)
  rw [bitIf_getLsbD v 1 (m := maskEnable) rfl, bitIf_getLsbD v 2 (m := maskMaster) rfl,
    bitIf_getLsbD v 18 (m := maskAckact) rfl, BitVec.and_or_distrib_left, BitVec.and_or_distrib_left]

/-- The completion of a software reset does not look at the outcome, and leaves the reset values. -/
theorem complete_resetPh (p : Params) (o : EnvOutcome) {e : Engine} (h : e.inflight = .resetPh) :
    complete p o e = some { eng := engineReset, wire := [] } := by
  simp [complete, h]

/-- Settles O38. -/
theorem ctrlReadsBackItsFields : Obligations.CtrlReadsBackItsFields := by
  intro p e v x h
  have hrun := writeReg_running h
  rw [writeReg_ctrl hrun] at h
  refine ⟨fun h0 => ?_, fun h0 => ?_, regValue_engineReset .ctrl⟩
  · rcases reactWriteCtrl_ok h with ⟨h1, _⟩ | ⟨_, hx⟩
    · exact nomatch h0.symm.trans h1
    · have hctrl : x.eng.ctrl = ctrlOfWord v ∧ x.eng.inflight ≠ .resetPh := by
        rcases hx with rfl | rfl
        · exact ⟨rfl, nofun⟩
        · exact ⟨rfl, hrun⟩
      rw [regValue, ctrlValue_running hctrl.2, hctrl.1, ctrlBits_ctrlOfWord]
  · rcases reactWriteCtrl_ok h with ⟨_, rfl⟩ | ⟨h1, _⟩
    · exact ⟨rfl, rfl, rfl, fun o => complete_resetPh p o rfl⟩
    · exact nomatch h1.symm.trans h0

/-- A flag cleared by a bit of the word is the flag masked by the word's complement. -/
theorem bitIf_cleared (v : Word) (k : Nat) (b : Bool) {m : Word} (hm : m = BitVec.twoPow 32 k)
    (hk : (0x83#32 : Word).getLsbD k = true) : bitIf (b && !v.getLsbD k) m = bitIf b m &&& ~~~(v &&& 0x83#32) := by
  have hlt : k < 32 := BitVec.lt_of_getLsbD hk
  cases b with
  | false => exact BitVec.zero_and.symm
  | true =>
    rw [hm, bitIf, bitIf, if_pos rfl, BitVec.twoPow_and, BitVec.getLsbD_not, BitVec.getLsbD_and, hk]
    simp [hlt]

/-- Write-1-to-clear, on the register's value. -/
theorem intflagBits_clearWritten (f : Intflag) (v : Word) :
    intflagBits (clearWritten f v) = intflagBits f &&& ~~~(v &&& 0x83#32) := by
  simp only [intflagBits, clearWritten, BitVec.and_or_distrib_right]
  rw [bitIf_cleared v 0 f.mb (m := maskMb) rfl rfl, bitIf_cleared v 1 f.sb (m := maskSb) rfl rfl,
    bitIf_cleared v 7 f.error (m := maskError) rfl rfl]

/-! ### O42: the flags by the outcome -/

section
variable {p : Params} {e : Engine} {x : Reaction}

theorem complete_ack (h : complete p .ack e = some x) (hr : e.inflight ≠ .resetPh) :
    x.eng.intflag = { e.intflag with mb := true } ∧ x.eng.status = { e.status with rxnack := false } ∧
      x.eng.owned = e.owned ∧ x.wire = [.sack] := by
  cases hi : e.inflight with
  | addrPh | txPh =>
    simp only [complete, hi, Option.some.injEq] at h
    subst h
    exact ⟨rfl, rfl, rfl, rfl⟩
  | none | rxPh => simp [complete, hi] at h
  | resetPh => exact absurd hi hr

theorem complete_nack (h : complete p .nack e = some x) (hr : e.inflight ≠ .resetPh) :
    x.eng.intflag = { e.intflag with mb := true, error := e.intflag.error || p.errOnNack } ∧
      x.eng.status = { e.status with rxnack := true } ∧ x.eng.owned = e.owned ∧ x.wire = [.snack] := by
  cases hi : e.inflight with
  | addrPh | txPh =>
    simp only [complete, hi, Option.some.injEq] at h
    subst h
    exact ⟨rfl, rfl, rfl, rfl⟩
  | none | rxPh => simp [complete, hi] at h
  | resetPh => exact absurd hi hr

theorem complete_byte {v : Byte} (h : complete p (.byte v) e = some x) (hr : e.inflight ≠ .resetPh) :
    x.eng.intflag = { e.intflag with sb := true } ∧ x.eng.status = e.status ∧ x.eng.owned = e.owned ∧
      x.eng.data = v ∧ x.wire = [.rx v] := by
  cases hi : e.inflight with
  | rxPh =>
    simp only [complete, hi, Option.some.injEq] at h
    subst h
    exact ⟨rfl, rfl, rfl, rfl, rfl⟩
  | none | addrPh | txPh => simp [complete, hi] at h
  | resetPh => exact absurd hi hr

theorem complete_buserr (h : complete p .buserr e = some x) (hr : e.inflight ≠ .resetPh) :
    x = { eng := flagBusError e, wire := [] } := by
  cases hi : e.inflight with
  | addrPh | txPh | rxPh =>
    simp only [complete, hi, Option.some.injEq] at h
    exact h.symm
  | none => simp [complete, hi] at h
  | resetPh => exact absurd hi hr

theorem complete_arblost (h : complete p .arblost e = some x) (hr : e.inflight ≠ .resetPh) :
    x = { eng := flagArbLost e, wire := [] } := by
  cases hi : e.inflight with
  | addrPh | txPh =>
    simp only [complete, hi, Option.some.injEq] at h
    exact h.symm
  | none | rxPh => simp [complete, hi] at h
  | resetPh => exact absurd hi hr

/-- A completion that raises `ERROR` sets the bit of `STATUS` that says why. -/
theorem complete_raises_error {o : EnvOutcome} (h : complete p o e = some x) (hr : e.inflight ≠ .resetPh)
    (h0 : e.intflag.error = false) (h1 : x.eng.intflag.error = true) :
    x.eng.status.buserr = true ∨ x.eng.status.arblost = true ∨ (x.eng.status.rxnack = true ∧ p.errOnNack = true) := by
  cases o with
  | ack =>
    rw [(complete_ack h hr).1] at h1
    exact nomatch h0.symm.trans h1
  | nack =>
    obtain ⟨hf, ht, _⟩ := complete_nack h hr
    rw [hf] at h1
    exact .inr (.inr ⟨by rw [ht], by simpa [h0] using h1⟩)
  | byte v =>
    rw [(complete_byte h hr).1] at h1
    exact nomatch h0.symm.trans h1
  | buserr => exact .inl (by rw [complete_buserr h hr]; rfl)
  | arblost => exact .inr (.inl (by rw [complete_arblost h hr]; rfl))

end

/-- Settles O42: by the outcome. -/
theorem completionFlags : Obligations.CompletionFlags := by
  intro p o e x h hr
  refine ⟨?_, ?_, ?_, ?_, ?_, complete_raises_error h hr⟩
  · rintro rfl
    exact complete_ack h hr
  · rintro rfl
    exact complete_nack h hr
  · rintro v rfl
    exact complete_byte h hr
  · rintro rfl
    rw [complete_buserr h hr]
    exact ⟨rfl, rfl, rfl, rfl, rfl, rfl⟩
  · rintro rfl
    rw [complete_arblost h hr]
    exact ⟨rfl, rfl, rfl, rfl, rfl⟩

end Sys2Proof.Machine
end

section
/-! What a step of a running operation does to the engine and the traces, and O9, O39 (00_scope.md R13;
40_bus_engine.md R130, R150). -/

namespace Sys2Proof.Machine

/-! ### O9 -/

/-- With no operation running and nothing issued, a step is the engine's moment. -/
theorem step_idle {s t : State} (hq : s.seq = none) (hh : s.host = [])
    (h : engineMove Config.params s = .completed t ∨ engineMove Config.params s = .holds t) : step s = .next t := by
  rcases h with h | h <;> simp [step, hh, advance, hq, h]

/-- Settles O9: the engine completes what it has in flight or holds, and with nothing in flight no turn is taken. -/
theorem stepOfAnIdleBlockMovesOnlyTheEngine : Obligations.StepOfAnIdleBlockMovesOnlyTheEngine := by
  intro s hq hh
  by_cases hi : s.eng.inflight = .none
  · exact ⟨s, step_idle hq hh (.inr (engineMove_quiet hi)), rfl, fun _ => rfl⟩
  · rcases engineMove_cases Config.params s with ⟨f, e⟩ | ⟨f, o, x, _, e⟩
    · exact ⟨_, step_idle hq hh (.inr e), rfl, fun hn => absurd hn hi⟩
    · exact ⟨_, step_idle hq hh (.inl e), rfl, fun hn => absurd hn hi⟩

/-! ### O39: the one value written to `INTFLAG` -/

/-- From `s` to `t` accesses were recorded, and `INTFLAG` was written with no other value than `0x80`. -/
def ClearsErrorOnly (s t : State) : Prop :=
  ∃ new, t.trace = s.trace ++ new ∧ ∀ v, .wr .intflag v ∈ new → v = 0x80#32

theorem clearsErrorOnly_of_eq {s t : State} (h : t.trace = s.trace) : ClearsErrorOnly s t :=
  ⟨[], by simp [h], nofun⟩

theorem clearsErrorOnly_of_record {s t : State} {a : Access} (h : t.trace = s.trace ++ [a])
    (ha : ∀ v, a = .wr .intflag v → v = 0x80#32) : ClearsErrorOnly s t :=
  ⟨[a], h, fun v hv => ha v (List.mem_singleton.mp hv).symm⟩

theorem ClearsErrorOnly.trans {s u t : State} (h : ClearsErrorOnly s u) (h' : ClearsErrorOnly u t) :
    ClearsErrorOnly s t := by
  obtain ⟨new, hu, hnew⟩ := h
  obtain ⟨new', ht, hnew'⟩ := h'
  exact ⟨new ++ new', by rw [ht, hu, List.append_assoc],
    fun v hv => (List.mem_append.mp hv).elim (hnew v) (hnew' v)⟩

theorem seqRead_clearsErrorOnly {r : Reg} {v : Word} {s t : State} (h : seqRead r s = .ok (v, t)) :
    ClearsErrorOnly s t :=
  clearsErrorOnly_of_record (seqRead_trace h) nofun

theorem seqWrite_clearsErrorOnly {r : Reg} {v : Word} {s t : State} (h : seqWrite r v s = .ok t)
    (hv : r = .intflag → v = 0x80#32) : ClearsErrorOnly s t := by
  refine clearsErrorOnly_of_record (seqWrite_trace h) fun v' e => ?_
  cases e
  exact hv rfl

theorem seqSet_clearsErrorOnly {r : Reg} {m : Word} {s t : State} (h : seqSet r m s = .ok t) : ClearsErrorOnly s t :=
  clearsErrorOnly_of_record (seqSet_trace h) nofun

theorem seqExt_clearsErrorOnly (e : ExtEvent) (s : State) : ClearsErrorOnly s (seqExt e s) :=
  clearsErrorOnly_of_record rfl nofun

/-- `START`'s cleanup and the end of its failure path write `0x80`; no other line writes `INTFLAG`. -/
theorem runLine_clearsErrorOnly (p : Params) (l : Line) (s : State) :
    (runLine p l s).Holds (fun _ => ClearsErrorOnly s) (ClearsErrorOnly s) (ClearsErrorOnly s)
      (fun _ _ => ClearsErrorOnly s) := by
  rcases l with l | ⟨a, d, l⟩ | ⟨b, l⟩ | ⟨again, l⟩ | l | _
  · cases l <;> dsimp only [runLine, initLine]
    case clkEnable | clkSelect | pinSda | pinScl => exact seqExt_clearsErrorOnly _ s
    case swrst | master | baud => exact onWrite_holds fun _ h => seqWrite_clearsErrorOnly h nofun
    case enable => exact onWrite_holds fun _ h => seqSet_clearsErrorOnly h
    case resetWait =>
      refine onRead_holds fun _ _ h => ?_
      split <;> exact seqRead_clearsErrorOnly h
  · cases l <;> dsimp only [runLine, startLine]
    case check | status =>
      refine onRead_holds fun _ _ h => ?_
      split <;> exact (seqRead_clearsErrorOnly h :)
    case flags | failRead => exact onRead_holds fun _ _ h => seqRead_clearsErrorOnly h
    case cleanup | failClear => exact onWrite_holds fun _ h => (seqWrite_clearsErrorOnly h fun _ => rfl :)
    case address | failStop => exact onWrite_holds fun _ h => seqWrite_clearsErrorOnly h nofun
    case poll =>
      exact pollLine_holds (fun _ _ h _ => (seqRead_clearsErrorOnly h :)) (fun _ _ h _ _ => (seqRead_clearsErrorOnly h :))
        fun _ _ h _ _ => (seqRead_clearsErrorOnly h :)
  · cases l <;> dsimp only [runLine, writeLine]
    case data => exact onWrite_holds fun _ h => seqWrite_clearsErrorOnly h nofun
    case wait =>
      refine onRead_holds fun _ _ h => ?_
      split
      · exact seqRead_clearsErrorOnly h
      · split <;> exact (seqRead_clearsErrorOnly h :)
  · cases l <;> dsimp only [runLine, readLine]
    case poll =>
      refine pollLine_holds (fun _ _ h _ => ?_) (fun _ _ h _ _ => (seqRead_clearsErrorOnly h :))
        fun _ _ h _ _ => (seqRead_clearsErrorOnly h :)
      split <;> exact (seqRead_clearsErrorOnly h :)
    case readCtrl | data => exact onRead_holds fun _ _ h => seqRead_clearsErrorOnly h
    case writeCtrl => exact onWrite_holds fun _ h => seqWrite_clearsErrorOnly h nofun
  · cases l <;> dsimp only [runLine, stopLine]
    case readCtrl => exact onRead_holds fun _ _ h => seqRead_clearsErrorOnly h
    case writeCtrl => exact onWrite_holds fun _ h => (seqWrite_clearsErrorOnly h nofun :)
  · exact clearsErrorOnly_of_eq rfl

theorem blockStep_clearsErrorOnly (p : Params) (o : Operation) (q : SeqPos) (s : State) :
    (blockStep p o q s).Holds (ClearsErrorOnly s) (ClearsErrorOnly s) (ClearsErrorOnly s) := by
  rcases blockStep_cases p o q s with ⟨f, out, x, _, e⟩ | ⟨f, e⟩
  · rw [e]
    exact clearsErrorOnly_of_eq rfl
  · rw [e]
    refine seqStep_of_runLine (fun u t hb hu => hu.trans (clearsErrorOnly_of_eq hb.keeps.1)) ?_
    exact runLine_clearsErrorOnly p q.line (s.setFeed f)

theorem exec_clearsErrorOnly {i : Instr} {s t : State} (h : exec i s = .next t) : ClearsErrorOnly s t := by
  refine (exec_next_holds (Q := ClearsErrorOnly s) (R := ClearsErrorOnly s) ?_ ?_ ?_ h).elim id id
  · intro u q hu _ _
    exact (blockStep_clearsErrorOnly _ _ q u).mono (fun _ => hu.trans) (fun _ => hu.trans) (fun _ => hu.trans)
  · exact fun _ _ => clearsErrorOnly_of_eq (beginOperation_trace ..)
  · exact fun _ _ _ => clearsErrorOnly_of_eq rfl

/-- Settles O39. -/
theorem intflagWriteClearsWhatIsWritten : Obligations.IntflagWriteClearsWhatIsWritten := by
  refine ⟨fun e v x h => ?_, fun i s t h => exec_clearsErrorOnly h⟩
  rw [writeReg_intflag (writeReg_running h)] at h
  cases h
  exact ⟨intflagBits_clearWritten .., rfl, rfl⟩

end Sys2Proof.Machine
end

section
/-! The engine's own invariants under completions and accesses (40_bus_engine.md R155 a to d). -/

namespace Sys2Proof.Machine

/-- The engine's invariants: 40_bus_engine.md R155 (a) to (d), and `SB` set only with an acknowledge pending. -/
def EngineSound (e : Engine) : Prop := EngineInv e ∧ SbInv e

/-! ### What makes an engine sound, by what it has in flight -/

/-- With no acknowledge pending and `SB` clear there is left what the operation in flight asks for. -/
theorem engineSound_of_not_pending {e : Engine} (ha : e.ackPending = false) (hs : e.intflag.sb = false)
    (haddr : e.inflight = .addrPh → e.owned = true) (htx : e.inflight = .txPh → e.owned = true ∧ e.dir = .write)
    (hrx : e.inflight = .rxPh → e.owned = true ∧ e.dir = .read) : EngineSound e :=
  ⟨⟨haddr, htx, fun hi => ⟨(hrx hi).1, (hrx hi).2, ha⟩, fun h => nomatch ha.symm.trans h⟩, fun h => nomatch hs.symm.trans h⟩

/-- An engine with the same hidden state, and no `SB` raised, stays sound. -/
theorem EngineSound.of_same {e e' : Engine} (h : EngineSound e) (hi : e'.inflight = e.inflight)
    (ha : e'.ackPending = e.ackPending) (ho : e'.owned = e.owned) (hd : e'.dir = e.dir)
    (hs : e'.intflag.sb = true → e.intflag.sb = true) : EngineSound e' := by
  unfold EngineSound EngineInv SbInv at *
  rw [hi, ha, ho, hd]
  exact ⟨h.1, fun hsb => h.2 (hs hsb)⟩

theorem EngineSound.not_sb {e : Engine} (h : EngineSound e) (ha : e.ackPending = false) : e.intflag.sb = false :=
  Bool.eq_false_iff.mpr fun hs => nomatch ha.symm.trans (h.2 hs)

/-- Nothing in flight, nothing pending: what a completion that ends the transfer leaves, and a STOP. -/
theorem engineSound_of_calm {e : Engine} (hi : e.inflight = .none) (ha : e.ackPending = false)
    (hs : e.intflag.sb = false) : EngineSound e :=
  engineSound_of_not_pending ha hs (fun h => nomatch hi.symm.trans h) (fun h => nomatch hi.symm.trans h)
    fun h => nomatch hi.symm.trans h

/-! ### Completions and accesses -/

/-- Every completion keeps the engine sound. -/
theorem complete_sound {p : Params} {o : EnvOutcome} {e : Engine} {x : Reaction} (he : EngineSound e)
    (h : complete p o e = some x) : EngineSound x.eng := by
  have ha : e.ackPending = false := not_ackPending_of_inflight he.1 (complete_inflight h)
  have hs := he.not_sb ha
  obtain ⟨⟨haddr, _, hrx, _⟩, _⟩ := he
  unfold complete at h
  split at h <;> cases h
  case h_1 hi =>
    refine engineSound_of_not_pending ha hs (fun _ => haddr hi) (fun h => ?_) (fun h => ⟨haddr hi, ?_⟩)
    · dsimp only at h
      split at h <;> cases h
    · by_contra hd
      exact nomatch (if_neg hd).symm.trans h
  case h_9 v hi =>
    obtain ⟨ho, hd, _⟩ := hrx hi
    exact ⟨⟨nofun, nofun, nofun, fun _ => ⟨ho, hd, rfl⟩⟩, fun _ => rfl⟩
  case h_2 | h_4 | h_5 | h_6 | h_8 => exact engineSound_of_calm rfl ha hs
  case h_3 | h_7 | h_10 => exact engineSound_of_calm rfl rfl hs
  case h_11 => exact engineSound_of_calm rfl rfl rfl

theorem readReg_sound {r : Reg} {e : Engine} {v : Word} {x : Reaction} (he : EngineSound e)
    (h : readReg r e = .ok (v, x)) : EngineSound x.eng := by
  rw [(readReg_ok h).2]
  split
  · cases ha : e.ackPending with
    | false => simpa only [reactReadData_quiet ha] using he
    | true =>
      obtain ⟨ho, hd, hi⟩ := pending_of_ackPending he.1 ha
      rw [reactReadData_pending ha, hi]
      refine engineSound_of_not_pending rfl rfl (fun h => ?_) (fun h => ?_) fun _ => ⟨ho, hd⟩ <;>
      · dsimp only at h
        split at h <;> cases h
  · exact he

theorem reactStop_sound (e : Engine) : EngineSound (reactStop e).eng := engineSound_of_calm rfl rfl rfl

/-- A write keeps the engine sound, where a software reset drops no acknowledge due. -/
theorem writeReg_sound {r : Reg} {v : Word} {e : Engine} {x : Reaction} (he : EngineSound e)
    (hreset : r = .ctrl → v.getLsbD 0 = true → e.ackPending = false) (h : writeReg r v e = .ok x) :
    EngineSound x.eng := by
  have hi := writeReg_running h
  cases r with
  | ctrl =>
    rw [writeReg_ctrl hi] at h
    rcases reactWriteCtrl_ok h with ⟨h0, rfl⟩ | ⟨_, rfl | rfl⟩
    · exact engineSound_of_not_pending (hreset rfl h0) (he.not_sb (hreset rfl h0)) nofun nofun nofun
    · exact reactStop_sound _
    · exact he.of_same rfl rfl rfl rfl id
  | baud =>
    simp only [writeReg, hi, if_false, Except.ok.injEq] at h
    subst h
    exact he.of_same rfl rfl rfl rfl id
  | intflag =>
    rw [writeReg_intflag hi] at h
    cases h
    exact he.of_same rfl rfl rfl rfl fun hs => (Bool.and_eq_true_iff.mp hs).1
  | status => simp [writeReg, hi] at h
  | data =>
    rw [writeReg_data hi] at h
    obtain ⟨ho, hd, _, rfl⟩ := reactWriteData_ok h
    have ha := not_ackPending_of_write he.1 hd
    exact engineSound_of_not_pending ha (he.not_sb ha) nofun (fun _ => ⟨ho, hd⟩) nofun
  | addr =>
    rw [writeReg_addr hi] at h
    obtain ⟨_, _, rfl⟩ := reactWriteAddr_ok h
    exact engineSound_of_not_pending rfl rfl (fun _ => rfl) nofun nofun

/-- An access keeps the engine sound, where a software reset drops no acknowledge due. -/
theorem reactionOf_sound {a : Access} {e : Engine} {x : Reaction} (he : EngineSound e)
    (hreset : setsSwrst a = true → e.ackPending = false) (h : reactionOf a e = .ok x) : EngineSound x.eng := by
  cases a with
  | rd r v =>
    simp only [reactionOf] at h
    split at h
    · rename_i hread
      split at h <;> cases h
      exact readReg_sound he hread
    · cases h
  | wr r v => exact writeReg_sound he (by rintro rfl; exact hreset) h
  | set r m =>
    have hw : writeReg r (regValue r e ||| m) e = .ok x := h
    refine writeReg_sound he ?_ hw
    rintro rfl h0
    rw [regValue, ctrlValue_running (writeReg_running hw), BitVec.getLsbD_or, ctrlBits_bit0, Bool.false_or] at h0
    exact hreset h0
  | ext =>
    cases h
    exact he

/-! ### A step of the block moves the engine by a completion, or by the access of its line -/

/-- From `s` to `t` the engine completed what it had in flight, or reacted to the access of the line `l`, or stayed as it
was; the traces say which. -/
def EngineMoves (l : Line) (s t : State) : Prop :=
  (∃ o x, complete Config.params o s.eng = some x ∧ t.eng = x.eng ∧ t.wire = s.wire ++ x.wire ∧ t.trace = s.trace) ∨
  (∃ a x, lineAccess l s.eng = some a ∧ reactionOf a s.eng = .ok x ∧ t.eng = x.eng ∧ t.wire = s.wire ++ x.wire ∧
    t.trace = s.trace ++ [a]) ∨
  (t.eng = s.eng ∧ t.wire = s.wire ∧ t.trace = s.trace)

theorem Progress.holds_of_next {P : State → Prop} {x : Progress} (h : ∀ t, x.outcome = .next t → P t) :
    x.Holds P P P := by
  cases x with
  | moved t | waits t | ended t => exact h t rfl
  | refused r => trivial

theorem seqStep_engineMoves {q : SeqPos} {s : State} (hq : s.seq = some q) (hs : Standing q s) :
    (seqStep Config.params (operationOf q.op) q s).Holds (EngineMoves q.line s) (EngineMoves q.line s)
      (EngineMoves q.line s) := by
  refine Progress.holds_of_next fun t h => ?_
  by_cases hl : q.line = .convert
  · obtain ⟨htrace, heng, hwire, _⟩ := (seqStep_convert hl h).keeps
    exact .inr (.inr ⟨heng, hwire, htrace⟩)
  · obtain ⟨u, hu, hk⟩ := seqStep_accessed hl h
    obtain ⟨a, x, hx, htrace, heng, hwire⟩ := hu.record
    obtain ⟨ktrace, keng, kwire, _⟩ := hk.keeps
    have hr : Recorded q.line s t :=
      ((seqStep_keeps hq hs).mono (fun _ => And.left) (fun _ => id) fun _ => id).of_next h
    have ha : (lineAccess q.line s.eng).toList = [a] := by
      simpa [Recorded, ktrace, htrace] using hr.symm
    exact .inr (.inl ⟨a, x, Option.toList_eq_singleton_iff.mp ha, hx, keng.trans heng, kwire.trans hwire, ktrace.trans htrace⟩)

theorem blockStep_engineMoves {q : SeqPos} {s : State} (hq : s.seq = some q) (hs : Standing q s) :
    (blockStep Config.params (operationOf q.op) q s).Holds (EngineMoves q.line s) (EngineMoves q.line s)
      (EngineMoves q.line s) := by
  rcases blockStep_cases Config.params (operationOf q.op) q s with ⟨f, o, x, hc, e⟩ | ⟨f, e⟩
  · rw [e]
    exact .inl ⟨o, x, hc, rfl, rfl, rfl⟩
  · rw [e]
    exact seqStep_engineMoves (s := s.setFeed f) hq hs

/-- From a state of the invariant a step of the block keeps the engine sound: `INIT` resets it with no acknowledge
pending. -/
theorem EngineMoves.sound {q : SeqPos} {s t : State} (h : EngineMoves q.line s t) (hinv : Inv s)
    (hq : s.seq = some q) : EngineSound t.eng := by
  have he : EngineSound s.eng := ⟨hinv.1, hinv.2.1⟩
  rcases h with ⟨o, x, hc, heng, _⟩ | ⟨a, x, ha, hx, heng, _⟩ | ⟨heng, _⟩
  · rw [heng]
    exact complete_sound he hc
  · rw [heng]
    exact reactionOf_sound he (fun hset => not_ackPending_at_swrst hinv hq (line_of_setsSwrst ha hset)) hx
  · rw [heng]
    exact he

end Sys2Proof.Machine
end

section
/-! What holds at each line of a primitive, and that every line leaves what the next one needs (41_bus_primitives.md R170
to R188). -/

namespace Sys2Proof.Machine

/-! ### The invariant, read at the line the sequencer stands at -/

/-- After `INIT` the mode is set and `BAUD` holds `BAUD_DIV`. -/
def Configured (e : Engine) : Prop := ModeSet e ∧ e.baud = Config.baudDiv

/-- A byte can be written: the bus is held to write with nothing in flight (40_bus_engine.md R140). -/
def WriteReady (e : Engine) : Prop := e.owned = true ∧ e.dir = .write ∧ e.inflight = .none

/-- In UNINIT the engine is as after reset, in the other phases as `INIT` left its mode. -/
def ModeFits (s : State) : Prop :=
  (s.phase = .uninit → s.eng = engineReset) ∧ (s.phase ≠ .uninit → Configured s.eng)

/-- In DATA_W `ERROR` is set or a byte can be written. -/
def WriteFits (s : State) : Prop := s.phase = .dataW → s.eng.intflag.error = true ∨ WriteReady s.eng

/-- The engine at a line of `INIT` is what the lines before it have made it; at any other line the mode fits. -/
def LineMode (l : Line) (s : State) : Prop :=
  match l with
  | .init l => engineAt l s.eng = true
  | _ => ModeFits s

/-- What the invariant says of a state in which the sequencer stands at `q`, but for the script and the poll count. -/
structure At (q : SeqPos) (s : State) : Prop where
  phase : phaseAt q s.phase = true
  fits : engineFits q s = true
  mode : LineMode q.line s
  write : underWay (some q) = false → WriteFits s

/-- What it says of a state in which no operation runs. -/
structure Off (s : State) : Prop where
  mode : ModeFits s
  write : WriteFits s

/-- The polls left to a line: a bounded poll has at least one. -/
def PollsLeft (l : Line) (s : State) : Prop :=
  s.work.pollcnt ≤ Config.params.pollBudget ∧ (isPollLine l = true → s.work.pollcnt < Config.params.pollBudget)

theorem phase_of_init {q : SeqPos} {l : InitLine} {ph : Phase} (hl : q.line = .init l) (h : phaseAt q ph = true) :
    ph = .uninit := by
  simpa [phaseAt, hl] using h

theorem modeInv_iff_none {s : State} (hq : s.seq = none) : ModeInv s ↔ ModeFits s := by
  simp [ModeInv, ModeFits, hq, bootFits, Configured, ModeSet, and_assoc]

theorem modeInv_iff {q : SeqPos} {s : State} (hq : s.seq = some q) (hp : phaseAt q s.phase = true) :
    ModeInv s ↔ LineMode q.line s := by
  obtain ⟨op, k, l⟩ := q
  cases l with
  | init l => simp [ModeInv, hq, bootFits, LineMode, phase_of_init rfl hp]
  | start | write | read | stop | convert =>
    simp [ModeInv, LineMode, ModeFits, hq, bootFits, Configured, ModeSet, and_assoc]

theorem inv_iff_none {s : State} (hq : s.seq = none) :
    Inv s ↔ EngineSound s.eng ∧ s.busy = false ∧ Off s ∧ s.work.pollcnt ≤ Config.params.pollBudget := by
  constructor
  · rintro ⟨he, hsb, hm, ⟨hb, _, hp⟩, hw⟩
    exact ⟨⟨he, hsb⟩, by rw [hb, hq]; rfl, ⟨(modeInv_iff_none hq).mp hm, fun h => hw h (by rw [hq]; rfl)⟩, hp⟩
  · rintro ⟨⟨he, hsb⟩, hb, ⟨hm, hw⟩, hp⟩
    exact ⟨he, hsb, (modeInv_iff_none hq).mpr hm, ⟨by rw [hb, hq]; rfl, by rw [hq]; rfl, hp⟩, fun h _ => hw h⟩

theorem inv_iff {q : SeqPos} {s : State} (hq : s.seq = some q) :
    Inv s ↔ EngineSound s.eng ∧ s.busy = true ∧ inScript q = true ∧ At q s ∧ PollsLeft q.line s := by
  have hstands : (s.seq.all fun q => standsWell q s) = true ↔ inScript q = true ∧ phaseAt q s.phase = true ∧
      engineFits q s = true ∧ (isPollLine q.line = true → s.work.pollcnt < Config.params.pollBudget) := by
    simp only [hq, Option.all_some, standsWell, Bool.and_eq_true, Bool.or_eq_true, Bool.not_eq_true',
      decide_eq_true_eq, and_assoc]
    cases isPollLine q.line <;> simp
  constructor
  · rintro ⟨he, hsb, hm, ⟨hb, hs, hp⟩, hw⟩
    obtain ⟨hin, hph, hf, hpoll⟩ := hstands.mp hs
    exact ⟨⟨he, hsb⟩, by rw [hb, hq]; rfl, hin,
      ⟨hph, hf, (modeInv_iff hq hph).mp hm, fun hu h => hw h (by rwa [hq])⟩, hp, hpoll⟩
  · rintro ⟨⟨he, hsb⟩, hb, hin, ⟨hph, hf, hm, hw⟩, hp, hpoll⟩
    exact ⟨he, hsb, (modeInv_iff hq hph).mpr hm, ⟨by rw [hb, hq]; rfl, hstands.mpr ⟨hin, hph, hf, hpoll⟩, hp⟩,
      fun h hu => hw (by rwa [hq] at hu) h⟩

/-! ### A completion leaves the line what it rests on -/

theorem Configured.complete {o : EnvOutcome} {e : Engine} {x : Reaction} (h : Configured e)
    (hc : complete Config.params o e = some x) : Configured x.eng := by
  obtain ⟨⟨he, hm, hr⟩, hb⟩ := h
  obtain ⟨hctrl, hbaud, _, _, hr'⟩ := complete_keeps_mode hc hr
  exact ⟨⟨by rw [hctrl, he], by rw [hctrl, hm], hr'⟩, hbaud.trans hb⟩

/-- Only the reset wait of `INIT` has something in flight: the software reset. -/
theorem engineAt_inflight {l : InitLine} {e : Engine} (h : engineAt l e = true) (hi : e.inflight ≠ .none) :
    l = .resetWait ∧ e.inflight = .resetPh := by
  cases l with
  | resetWait =>
    simp only [engineAt, Bool.or_eq_true, beq_iff_eq] at h
    rcases h with rfl | rfl
    · exact absurd rfl hi
    · exact ⟨rfl, rfl⟩
  | clkEnable | clkSelect | swrst | master | baud | enable | pinSda | pinScl =>
    rw [eq_of_beq h] at hi
    exact absurd rfl hi

/-- A completion raises `ERROR`, or leaves the bus held as it was. -/
theorem complete_error_or_owned {p : Params} {o : EnvOutcome} {e : Engine} {x : Reaction}
    (h : complete p o e = some x) (hr : e.inflight ≠ .resetPh) : x.eng.intflag.error = true ∨ x.eng.owned = e.owned := by
  cases o with
  | ack => exact .inr (complete_ack h hr).2.2.1
  | nack => exact .inr (complete_nack h hr).2.2.1
  | byte v => exact .inr (complete_byte h hr).2.2.1
  | buserr => exact .inl (by rw [complete_buserr h hr]; rfl)
  | arblost => exact .inl (by rw [complete_arblost h hr]; rfl)

theorem addressed_iff {d : Dir} {e : Engine} : addressed d e = true ↔ e.owned = true ∧ e.dir = d ∧
    (e.inflight = .addrPh → e.intflag.mb = false) ∧ (e.inflight ≠ .addrPh → d = .read ∨ e.inflight = .none) := by
  by_cases hi : e.inflight = .addrPh <;> simp [addressed, hi, and_assoc]

/-- A completion on an open transaction raises `ERROR`, or the transaction stays open, its address phase over. -/
theorem complete_addressed {p : Params} {o : EnvOutcome} {e : Engine} {x : Reaction} {d : Dir}
    (h : complete p o e = some x) (hr : e.inflight ≠ .resetPh) (ha : addressed d e = true) :
    x.eng.intflag.error = true ∨ (addressed d x.eng = true ∧ x.eng.inflight ≠ .addrPh) := by
  obtain ⟨ho, hd, _, _⟩ := addressed_iff.mp ha
  obtain ⟨_, _, _, hdir, _⟩ := complete_keeps_mode h hr
  refine (complete_error_or_owned h hr).imp_right fun howned => ?_
  have hflight : x.eng.inflight ≠ .addrPh ∧ (d = .read ∨ x.eng.inflight = .none) := by
    rcases complete_leaves h with hx | ⟨_, _, hread, hx⟩
    · exact ⟨by simp [hx], .inr hx⟩
    · exact ⟨by simp [hx], .inl (hd.symm.trans hread)⟩
  exact ⟨addressed_iff.mpr ⟨howned.trans ho, hdir.trans hd, fun hi => absurd hi hflight.1, fun _ => hflight.2⟩,
    hflight.1⟩

/-- With `CTRL` and the latches as they were, the latch holds what it held. -/
theorem latchHolds_of_eq {s t : State} (hc : t.eng.ctrl = s.eng.ctrl) (hw : t.work = s.work) :
    latchHolds t = latchHolds s := by
  simp [latchHolds, hc, hw]

/-- A completion outside `INIT` leaves what the line rests on. -/
theorem engineFits_complete {q : SeqPos} {s t : State} {o : EnvOutcome} {x : Reaction} (hs : EngineSound s.eng)
    (hr : s.eng.inflight ≠ .resetPh) (hc : complete Config.params o s.eng = some x) (he : t.eng = x.eng)
    (hw : t.work = s.work) (h : engineFits q s = true) : engineFits q t = true := by
  have hi := complete_inflight hc
  have hnp : s.eng.ackPending = false := not_ackPending_of_inflight hs.1 hi
  have hlatch : latchHolds t = latchHolds s := latchHolds_of_eq (by rw [he, (complete_keeps_mode hc hr).1]) hw
  have herr : s.eng.intflag.error = true → x.eng.intflag.error = true := complete_keeps_error hc hr
  obtain ⟨op, k, l⟩ := q
  rcases l with l | ⟨a, d, l⟩ | ⟨b, l⟩ | ⟨g, l⟩ | l | _
  case init | convert => rfl
  case start =>
    cases l with
    | check | flags | cleanup | address | failRead => rfl
    | poll =>
      simp only [engineFits, he, Bool.or_eq_true] at h ⊢
      exact h.elim (fun h => .inl (herr h)) fun h => (complete_addressed hc hr h).imp_right And.left
    | status =>
      simp only [engineFits, he, Bool.or_eq_true, Bool.and_eq_true, bne_iff_ne] at h ⊢
      exact h.elim (fun h => .inl (herr h)) fun h => complete_addressed hc hr h.1
    | failStop e => exact hlatch.trans h
    | failClear e => simp [engineFits, hi] at h
  case write =>
    cases l with
    | data => rfl
    | wait =>
      simp only [engineFits, he, Bool.or_eq_true, Bool.and_eq_true, beq_iff_eq] at h ⊢
      refine h.elim (fun h => .inl (herr h)) fun ⟨⟨ho, hd⟩, _⟩ => ?_
      obtain ⟨_, _, _, hdir, _⟩ := complete_keeps_mode hc hr
      refine (complete_error_or_owned hc hr).imp_right fun howned => ⟨⟨howned.trans ho, hdir.trans hd⟩, .inl ?_⟩
      rcases complete_leaves hc with hx | ⟨_, _, hread, _⟩
      · exact hx
      · exact nomatch hd.symm.trans hread
  case read =>
    cases l with
    | poll => rfl
    | readCtrl | writeCtrl | data => simp [engineFits, hnp] at h
  case stop =>
    cases l with
    | readCtrl =>
      have hop : isSensor op = false := by simpa [engineFits, hi] using h
      simp [engineFits, hop]
    | writeCtrl =>
      have hop : isSensor op = false ∧ latchHolds s = true := by simpa [engineFits, hi] using h
      simp [engineFits, hop.1, hlatch, hop.2]

theorem writeFits_complete {s t : State} {o : EnvOutcome} {x : Reaction} (hr : s.eng.inflight ≠ .resetPh)
    (hc : complete Config.params o s.eng = some x) (he : t.eng = x.eng) (hp : t.phase = s.phase) (h : WriteFits s) :
    WriteFits t := by
  intro hw
  rcases h (hp ▸ hw) with herr | ⟨_, _, hi⟩
  · exact .inl (he ▸ complete_keeps_error hc hr herr)
  · exact absurd hi (complete_inflight hc)

theorem modeFits_complete {s t : State} {o : EnvOutcome} {x : Reaction} (hc : complete Config.params o s.eng = some x)
    (he : t.eng = x.eng) (hp : t.phase = s.phase) (h : ModeFits s) : s.eng.inflight ≠ .resetPh ∧ ModeFits t := by
  by_cases hu : s.phase = .uninit
  · refine absurd ?_ (complete_inflight hc)
    rw [h.1 hu]
    rfl
  · have hs := h.2 hu
    exact ⟨hs.1.2.2, fun hu' => absurd (hp ▸ hu') hu, fun _ => he ▸ hs.complete hc⟩

/-- A completion leaves the sequencer where it can stand. -/
theorem At.complete {q : SeqPos} {s t : State} {o : EnvOutcome} {x : Reaction} (h : At q s) (hs : EngineSound s.eng)
    (hc : Machine.complete Config.params o s.eng = some x) (he : t.eng = x.eng) (hp : t.phase = s.phase)
    (hw : t.work = s.work) : At q t := by
  obtain ⟨hphase, hfits, hmode, hwrite⟩ := h
  by_cases hinit : ∃ l, q.line = .init l
  · obtain ⟨l, hl⟩ := hinit
    have hu := phase_of_init hl hphase
    have hm : engineAt l s.eng = true := by simpa [LineMode, hl] using hmode
    obtain ⟨rfl, hi⟩ := engineAt_inflight hm (complete_inflight hc)
    have hx : t.eng = engineReset := by
      rw [complete_resetPh _ _ hi] at hc
      cases hc
      exact he
    exact ⟨hp ▸ hphase, by simp [engineFits, hl], by simp [LineMode, hl, engineAt, hx],
      fun _ hd => nomatch (hp.trans hu).symm.trans hd⟩
  · have hline : ∀ u, LineMode q.line u = ModeFits u := fun u => by
      unfold LineMode
      split
      · rename_i l hl
        exact absurd ⟨l, hl⟩ hinit
      · rfl
    rw [hline] at hmode
    obtain ⟨hr, hm⟩ := modeFits_complete hc he hp hmode
    exact ⟨hp ▸ hphase, engineFits_complete hs hr hc he hw hfits, by rwa [hline],
      fun hu => writeFits_complete hr hc he hp (hwrite hu)⟩

theorem Off.complete {s t : State} {o : EnvOutcome} {x : Reaction} (h : Off s)
    (hc : Machine.complete Config.params o s.eng = some x) (he : t.eng = x.eng) (hp : t.phase = s.phase) : Off t := by
  obtain ⟨hr, hm⟩ := modeFits_complete hc he hp h.mode
  exact ⟨hm, writeFits_complete hr hc he hp h.write⟩

/-! ### The writes of `CTRL` made from the latch -/

/-- The mode bits of a word that keeps `ENABLE` and `MASTER` set. -/
theorem active_storeCtrl {v : Word} {e : Engine} (hi : e.inflight ≠ .resetPh) (h1 : v.getLsbD 1 = true)
    (h2 : v.getLsbD 2 = true) : active (storeCtrl v e) = true := by
  simp only [active, storeCtrl, ctrlOfWord, h1, h2, Bool.and_self, Bool.true_and, bne_iff_ne]
  exact hi

/-- A write of `CTRL` that keeps `ENABLE` and `MASTER` set stores its fields, and with the STOP command stops. -/
theorem reactWriteCtrl_of_modeSet {v : Word} {e : Engine} (hm : ModeSet e) (h0 : v.getLsbD 0 = false)
    (h1 : v.getLsbD 1 = true) (h2 : v.getLsbD 2 = true) :
    (ctrlCmd v = 0b11#2 → reactWriteCtrl v e = .ok (reactStop (storeCtrl v e))) ∧
    (ctrlCmd v = 0b00#2 → reactWriteCtrl v e = .ok { eng := storeCtrl v e, wire := [] }) := by
  obtain ⟨he, hma, hi⟩ := hm
  have hmode : clearsMode v e = false := clearsMode_writeBack (fun _ => hma) (h1.trans he.symm) (h2.trans hma.symm)
  have ha : active e = true := by simp [active, he, hma, hi]
  have ha' : active { e with ctrl := ctrlOfWord v } = true := active_storeCtrl hi h1 h2
  constructor <;> intro hc <;> simp only [reactWriteCtrl, h0, hc, hmode, ha, ha'] <;> rfl

theorem ctrlOfWord_stopWord {c : Ctrl} (he : c.enable = true) (hm : c.master = true) :
    ctrlOfWord (stopWord (ctrlBits c)) = c := by
  rw [stopWord_ctrlBits he hm]
  rcases c with ⟨_ | _, _ | _, _ | _⟩ <;> simp at he hm <;> rfl

theorem ctrlOfWord_ackWord {c : Ctrl} (g : Bool) (he : c.enable = true) (hm : c.master = true) :
    ctrlOfWord (ackWord g (ctrlBits c)) = { c with ackact := !g } := by
  rw [ackWord_ctrlBits g he hm]
  obtain ⟨_ | _, _ | _, _⟩ := c <;> simp at he hm
  cases g <;> rfl

/-- The STOP command of a latched `CTRL` leaves the stored fields as they are. -/
theorem seqWrite_stop {s : State} (hm : ModeSet s.eng) (hl : s.work.ctrlLatch = ctrlBits s.eng.ctrl) :
    seqWrite .ctrl (stopWord s.work.ctrlLatch) s =
      .ok (afterAccess (.wr .ctrl (stopWord s.work.ctrlLatch)) (reactStop s.eng) s) := by
  have ⟨he, hma, hi⟩ := hm
  have hr : writeReg .ctrl (stopWord (ctrlBits s.eng.ctrl)) s.eng =
      .ok (reactStop (storeCtrl (stopWord (ctrlBits s.eng.ctrl)) s.eng)) := by
    rw [writeReg_ctrl hi, stopWord_ctrlBits he hma]
    split <;> exact (reactWriteCtrl_of_modeSet hm rfl rfl rfl).1 rfl
  rw [storeCtrl, ctrlOfWord_stopWord he hma] at hr
  rw [seqWrite, hl, hr]

/-- `READ`'s acknowledge update stores `ACKACT`, and nothing else. -/
theorem seqWrite_ack (g : Bool) {s : State} (hm : ModeSet s.eng) (hl : s.work.ctrlLatch = ctrlBits s.eng.ctrl) :
    seqWrite .ctrl (ackWord g s.work.ctrlLatch) s =
      .ok (afterAccess (.wr .ctrl (ackWord g s.work.ctrlLatch))
        { eng := { s.eng with ctrl := { s.eng.ctrl with ackact := !g } }, wire := [] } s) := by
  have ⟨he, hma, hi⟩ := hm
  have hr : writeReg .ctrl (ackWord g (ctrlBits s.eng.ctrl)) s.eng =
      .ok { eng := storeCtrl (ackWord g (ctrlBits s.eng.ctrl)) s.eng, wire := [] } := by
    rw [writeReg_ctrl hi, ackWord_ctrlBits g he hma]
    split <;> exact (reactWriteCtrl_of_modeSet hm rfl rfl rfl).2 rfl
  rw [storeCtrl, ctrlOfWord_ackWord g he hma] at hr
  rw [seqWrite, hl, hr]

/-! ### What the other accesses leave -/

/-- A read of a register but `DATA` leaves the engine, the phase and the poll count. -/
theorem seqRead_quiet {r : Reg} {v : Word} {s t : State} (h : seqRead r s = .ok (v, t)) (hr : r ≠ .data) :
    v = regValue r s.eng ∧ t.eng = s.eng ∧ t.phase = s.phase := by
  obtain ⟨rfl, _, rfl⟩ := seqRead_cases h
  exact ⟨rfl, by simp [hr], rfl⟩

theorem seqRead_pollcnt {r : Reg} {v : Word} {s t : State} (h : seqRead r s = .ok (v, t)) :
    t.work.pollcnt = s.work.pollcnt := by
  obtain ⟨_, _, rfl⟩ := seqRead_cases h
  cases r <;> rfl

/-- `BAUD` is changed by its own write only, `CTRL` by its own, the address and the direction by a write of `ADDR`. -/
theorem writeReg_frame {r : Reg} {v : Word} {e : Engine} {x : Reaction} (h : writeReg r v e = .ok x) :
    (r ≠ .baud → x.eng.baud = e.baud) ∧ (r ≠ .ctrl → x.eng.ctrl = e.ctrl) ∧
      (r ≠ .addr → x.eng.addr = e.addr ∧ x.eng.dir = e.dir) := by
  have hi := writeReg_running h
  cases r with
  | ctrl =>
    rw [writeReg_ctrl hi] at h
    rcases reactWriteCtrl_ok h with ⟨_, rfl⟩ | ⟨_, rfl | rfl⟩ <;>
      exact ⟨fun _ => rfl, fun hn => absurd rfl hn, fun _ => ⟨rfl, rfl⟩⟩
  | baud =>
    simp only [writeReg, hi, if_false, Except.ok.injEq] at h
    subst h
    exact ⟨fun hn => absurd rfl hn, fun _ => rfl, fun _ => ⟨rfl, rfl⟩⟩
  | intflag =>
    rw [writeReg_intflag hi] at h
    cases h
    exact ⟨fun _ => rfl, fun _ => rfl, fun _ => ⟨rfl, rfl⟩⟩
  | status => simp [writeReg, hi] at h
  | data =>
    rw [writeReg_data hi] at h
    obtain ⟨_, _, _, rfl⟩ := reactWriteData_ok h
    exact ⟨fun _ => rfl, fun _ => rfl, fun _ => ⟨rfl, rfl⟩⟩
  | addr =>
    rw [writeReg_addr hi] at h
    obtain ⟨_, _, rfl⟩ := reactWriteAddr_ok h
    exact ⟨fun _ => rfl, fun _ => rfl, fun hn => absurd rfl hn⟩

theorem seqWrite_configured {r : Reg} {v : Word} {s t : State} (h : seqWrite r v s = .ok t) (hr : r ≠ .ctrl)
    (hb : r ≠ .baud) (hc : Configured s.eng) : Configured t.eng ∧ t.phase = s.phase := by
  refine ⟨⟨seqWrite_modeSet h hr hc.1, ?_⟩, ?_⟩
  all_goals obtain ⟨x, hx, _, rfl⟩ := seqWrite_cases h
  · exact ((writeReg_frame hx).1 hb).trans hc.2
  · rfl

/-- After the write of an address byte the transaction is open, its address phase in flight. -/
theorem seqWrite_addr {a : BitVec 7} {d : Dir} {s t : State}
    (h : seqWrite .addr ((addrByte a d).setWidth 32) s = .ok t) : addressed d t.eng = true := by
  obtain ⟨x, hx, hi, rfl⟩ := seqWrite_cases h
  rw [writeReg_addr hi, setWidth_byte] at hx
  obtain ⟨_, _, rfl⟩ := reactWriteAddr_ok hx
  exact addressed_iff.mpr ⟨rfl, addrDir_addrByte a d, fun _ => rfl, fun hn => absurd rfl hn⟩

/-- After the write of a byte it is in flight on the bus held to write. -/
theorem seqWrite_data {v : Word} {s t : State} (h : seqWrite .data v s = .ok t) :
    t.eng.owned = true ∧ t.eng.dir = .write ∧ t.eng.inflight = .txPh ∧ t.eng.intflag.mb = false := by
  obtain ⟨x, hx, hi, rfl⟩ := seqWrite_cases h
  rw [writeReg_data hi] at hx
  obtain ⟨ho, hd, _, rfl⟩ := reactWriteData_ok hx
  exact ⟨ho, hd, rfl, rfl⟩

/-- The write of `0x80` to `INTFLAG` clears `ERROR` and nothing else. -/
theorem seqWrite_clearError {s t : State} (h : seqWrite .intflag maskError s = .ok t) :
    t.eng = { s.eng with intflag := { s.eng.intflag with error := false } } := by
  obtain ⟨x, hx, hi, rfl⟩ := seqWrite_cases h
  rw [writeReg_intflag hi, clearWritten_maskError] at hx
  cases hx
  rfl

/-! ### The lines of each primitive -/

/-- What a primitive that ended OK leaves for the script's next item. -/
def AfterOk (x : Prim) (t : State) : Prop :=
  match x with
  | .init => True
  | .start _ d => t.phase = dataPhase d
  | .write _ => t.phase = .dataW ∧ WriteReady t.eng
  | .read g => t.phase = .dataR ∧ (g = false → t.eng.owned = true ∧ t.eng.inflight = .none)
  | .stop => t.phase = .idle

/-- The line `l` ended its primitive with the status `st`: as with no operation running, and fit for the next item. -/
def Ends (l : Line) (st : Code) (t : State) : Prop := Off t ∧ (st = .ok → ∀ x, primOf l = some x → AfterOk x t)

/-- The outcome of the line at `q`: the sequencer can stand where it leads. -/
def LineStands (q : SeqPos) (out : LineOut) : Prop :=
  out.Holds (fun l t => At { q with line := l } t) (At q) (At q) (fun st _ => Ends q.line st)

theorem ends_of_fail {l : Line} {st : Code} {t : State} (h : Off t) (hst : st ≠ .ok) : Ends l st t :=
  ⟨h, fun e => absurd e hst⟩

theorem ends_of_ok {l : Line} {x : Prim} {t : State} (h : Off t) (hl : primOf l = some x) (hx : AfterOk x t) :
    Ends l .ok t :=
  ⟨h, fun _ y hy => by cases hl.symm.trans hy; exact hx⟩

theorem modeFits_of_configured {t : State} (hp : t.phase ≠ .uninit) (hc : Configured t.eng) : ModeFits t :=
  ⟨fun h => absurd h hp, fun _ => hc⟩

theorem off_of_configured {t : State} (hp : t.phase ≠ .uninit) (hc : Configured t.eng) (hw : WriteFits t) : Off t :=
  ⟨modeFits_of_configured hp hc, hw⟩

section
variable {op : Instr} {k : Nat} {s : State}

theorem at_init {l : InitLine} : At ⟨op, k, .init l⟩ s ↔ s.phase = .uninit ∧ engineAt l s.eng = true := by
  constructor
  · rintro ⟨hp, _, hm, _⟩
    exact ⟨phase_of_init rfl hp, hm⟩
  · rintro ⟨hp, hm⟩
    exact ⟨by simp [phaseAt, hp], rfl, hm, fun _ h => nomatch hp.symm.trans h⟩

theorem at_start {a : BitVec 7} {d : Dir} {l : StartLine} (hl : l ≠ .check) : At ⟨op, k, .start a d l⟩ s ↔
    s.phase ≠ .uninit ∧ Configured s.eng ∧ engineFits ⟨op, k, .start a d l⟩ s = true := by
  have hph : phaseAt ⟨op, k, .start a d l⟩ s.phase = true ↔ s.phase ≠ .uninit := by
    cases l <;> simp_all [phaseAt]
  constructor
  · rintro ⟨hp, hf, hm, _⟩
    exact ⟨hph.mp hp, hm.2 (hph.mp hp), hf⟩
  · rintro ⟨hp, hc, hf⟩
    exact ⟨hph.mpr hp, hf, modeFits_of_configured hp hc, nofun⟩

theorem at_write {b : Byte} {l : WriteLine} : At ⟨op, k, .write b l⟩ s ↔
    s.phase = .dataW ∧ Configured s.eng ∧ engineFits ⟨op, k, .write b l⟩ s = true ∧
      (l = .data → s.eng.intflag.error = true ∨ WriteReady s.eng) := by
  constructor
  · rintro ⟨hp, hf, hm, hw⟩
    have hd : s.phase = .dataW := eq_of_beq hp
    exact ⟨hd, hm.2 (by simp [hd]), hf, by rintro rfl; exact hw rfl hd⟩
  · rintro ⟨hd, hc, hf, hw⟩
    refine ⟨by simp [phaseAt, hd], hf, modeFits_of_configured (by simp [hd]) hc, fun hu _ => ?_⟩
    cases l with
    | data => exact hw rfl
    | wait => cases hu

theorem at_read {g : Bool} {l : ReadLine} : At ⟨op, k, .read g l⟩ s ↔
    s.phase = .dataR ∧ Configured s.eng ∧ engineFits ⟨op, k, .read g l⟩ s = true := by
  constructor
  · rintro ⟨hp, hf, hm, _⟩
    have hd : s.phase = .dataR := eq_of_beq hp
    exact ⟨hd, hm.2 (by simp [hd]), hf⟩
  · rintro ⟨hd, hc, hf⟩
    exact ⟨by simp [phaseAt, hd], hf, modeFits_of_configured (by simp [hd]) hc, fun _ h => nomatch hd.symm.trans h⟩

theorem at_stop {l : StopLine} : At ⟨op, k, .stop l⟩ s ↔
    s.phase ≠ .uninit ∧ Configured s.eng ∧ engineFits ⟨op, k, .stop l⟩ s = true ∧ WriteFits s := by
  constructor
  · rintro ⟨hp, hf, hm, hw⟩
    have hu : s.phase ≠ .uninit := by simpa [phaseAt] using hp
    exact ⟨hu, hm.2 hu, hf, hw rfl⟩
  · rintro ⟨hu, hc, hf, hw⟩
    exact ⟨by simp [phaseAt, hu], hf, modeFits_of_configured hu hc, fun _ => hw⟩

end
end Sys2Proof.Machine
end

section
/-! Every line of a primitive leads to where the sequencer can stand, line by line (41_bus_primitives.md R170 to R188). -/

namespace Sys2Proof.Machine

/-! ### The lines -/

section
variable {op : Instr} {k : Nat} {s : State}

/-- The engine `INIT` has made so far, its mode set at its end. -/
theorem configured_boot : Configured (bootEngine true true Config.baudDiv) := ⟨⟨rfl, rfl, nofun⟩, rfl⟩

theorem initLine_stands {l : InitLine} (h : At ⟨op, k, .init l⟩ s) :
    LineStands ⟨op, k, .init l⟩ (initLine Config.params l s) := by
  obtain ⟨hp, hm⟩ := at_init.mp h
  cases l <;> dsimp only [initLine]
  case clkEnable | clkSelect | pinSda => exact at_init.mpr ⟨hp, hm⟩
  case pinScl =>
    refine ends_of_ok (off_of_configured nofun ?_ nofun) rfl trivial
    show Configured s.eng
    rw [eq_of_beq hm]
    exact configured_boot
  case resetWait =>
    refine onRead_holds fun v t hr => ?_
    obtain ⟨rfl, he, htp⟩ := seqRead_quiet hr (by decide)
    simp only [engineAt, Bool.or_eq_true, beq_iff_eq] at hm
    split
    · exact at_init.mpr ⟨htp.trans hp, by simpa [engineAt, he] using hm⟩
    · rename_i h0
      rcases hm with hm | hm
      · exact at_init.mpr ⟨htp.trans hp, by simp [engineAt, he, hm]⟩
      · rw [hm] at h0
        exact absurd rfl h0
  all_goals
    have hm' := eq_of_beq hm
    refine onWrite_holds fun t hw => at_init.mpr ?_
  case swrst =>
    obtain ⟨x, hx, _, rfl⟩ := seqWrite_cases hw
    rw [hm'] at hx
    cases hx
    exact ⟨hp, rfl⟩
  case master | baud =>
    obtain ⟨x, hx, _, rfl⟩ := seqWrite_cases hw
    rw [hm'] at hx
    cases hx
    exact ⟨hp, beq_iff_eq.mpr rfl⟩
  case enable =>
    obtain ⟨x, hx, rfl⟩ := seqSet_cases hw
    rw [hm'] at hx
    cases hx
    exact ⟨hp, beq_iff_eq.mpr rfl⟩

/-- The enabled check passes exactly outside UNINIT (41_bus_primitives.md R174). -/
theorem ctrlValue_enable_iff (hm : ModeFits s) : (ctrlValue s.eng).getLsbD 1 = true ↔ s.phase ≠ .uninit := by
  constructor
  · intro hv hp
    rw [hm.1 hp] at hv
    cases hv
  · intro hp
    obtain ⟨⟨he, _, hr⟩, _⟩ := hm.2 hp
    rw [ctrlValue_running hr, ctrlBits_bit1, he]

/-- The end of an address poll that found a flag: `ERROR`, or `MB`, which is clear while the address phase is in
flight. -/
theorem engineFits_status {d : Dir} {e : Engine}
    (hfits : e.intflag.error = true ∨ addressed d e = true) (hflag : ¬(e.intflag.mb = false ∧ e.intflag.error = false)) :
    e.intflag.error = true ∨ addressed d e = true ∧ e.inflight ≠ .addrPh := by
  rcases hfits with he | ha
  · exact .inl he
  · cases herr : e.intflag.error with
    | true => exact .inl rfl
    | false =>
      obtain ⟨_, _, hmb, _⟩ := addressed_iff.mp ha
      exact .inr ⟨ha, fun hi => hflag ⟨hmb hi, herr⟩⟩

theorem startLine_stands {a : BitVec 7} {d : Dir} {l : StartLine} (h : At ⟨op, k, .start a d l⟩ s) :
    LineStands ⟨op, k, .start a d l⟩ (startLine Config.params a d l s) := by
  by_cases hl : l = .check
  · subst hl
    obtain ⟨hph, _, hm, _⟩ := h
    dsimp only [startLine]
    refine onRead_holds fun v t hr => ?_
    obtain ⟨rfl, he, htp⟩ := seqRead_quiet hr (by decide)
    have hiff : (regValue .ctrl s.eng).getLsbD 1 = true ↔ s.phase ≠ .uninit := ctrlValue_enable_iff hm
    split
    · rename_i hv
      exact (at_start (by nofun)).mpr ⟨htp ▸ hiff.mp hv, he ▸ hm.2 (hiff.mp hv), rfl⟩
    · rename_i hv
      have hp : t.phase = .uninit := htp.trans (by_contra fun hn => hv (hiff.mpr hn))
      exact ends_of_fail ⟨⟨fun _ => he.trans (hm.1 (htp ▸ hp)), fun hn => absurd hp hn⟩, fun hd => nomatch hp.symm.trans hd⟩
        nofun
  obtain ⟨hp, hc, hf⟩ := (at_start hl).mp h
  cases l <;> dsimp only [startLine]
  case check => exact absurd rfl hl
  case flags =>
    refine onRead_holds fun v t hr => ?_
    obtain ⟨rfl, he, htp⟩ := seqRead_quiet hr (by decide)
    split <;> exact (at_start (by nofun)).mpr ⟨htp ▸ hp, he ▸ hc, rfl⟩
  case cleanup =>
    refine onWrite_holds fun t hw => ?_
    obtain ⟨hc', htp⟩ := seqWrite_configured hw nofun nofun hc
    exact (at_start (by nofun)).mpr ⟨htp ▸ hp, hc', rfl⟩
  case address =>
    refine onWrite_holds fun t hw => ?_
    obtain ⟨hc', htp⟩ := seqWrite_configured hw nofun nofun hc
    exact (at_start (by nofun)).mpr ⟨htp ▸ hp, hc', by simp [engineFits, seqWrite_addr hw]⟩
  case poll =>
    have hfits : s.eng.intflag.error = true ∨ addressed d s.eng = true := by simpa [engineFits] using hf
    refine pollLine_holds (fun v t hr hv => ?_) (fun v t hr _ _ => ?_) fun v t hr _ _ => ?_
    all_goals obtain ⟨rfl, he, htp⟩ := seqRead_quiet hr (by decide)
    · refine (at_start (by nofun)).mpr ⟨htp ▸ hp, he ▸ hc, ?_⟩
      have := engineFits_status hfits (fun hn => hv ((intflagBits_mb_or_error _).mpr hn))
      simpa [engineFits, he] using this
    · exact (at_start (by nofun)).mpr ⟨htp ▸ hp, he ▸ hc, by simpa [engineFits, he] using hfits⟩
    · exact (at_start (by nofun)).mpr ⟨htp ▸ hp, he ▸ hc, rfl⟩
  case status =>
    refine onRead_holds fun v t hr => ?_
    obtain ⟨rfl, he, htp⟩ := seqRead_quiet hr (by decide)
    split
    · exact (at_start (by nofun)).mpr ⟨htp ▸ hp, he ▸ hc, rfl⟩
    · refine ends_of_ok (off_of_configured (by cases d <;> nofun) (he ▸ hc) fun hd => ?_) rfl rfl
      obtain rfl : d = .write := by
        cases d with
        | write => rfl
        | read => cases hd
      show t.eng.intflag.error = true ∨ WriteReady t.eng
      rw [he]
      simp only [engineFits, Bool.or_eq_true, Bool.and_eq_true, bne_iff_ne] at hf
      refine hf.imp_right fun ⟨ha, hi⟩ => ?_
      obtain ⟨ho, hdir, _, hn⟩ := addressed_iff.mp ha
      exact ⟨ho, hdir, (hn hi).resolve_left nofun⟩
  case failRead e =>
    refine onRead_holds fun v t hr => ?_
    obtain ⟨_, he, htp⟩ := seqRead_quiet hr (by decide)
    exact (at_start (by nofun)).mpr ⟨htp ▸ hp, he ▸ hc, by simp [engineFits, latchHolds, (seqRead_latches hr hc.1).2]⟩
  case failStop e =>
    have hl : s.work.ctrlLatch = ctrlBits s.eng.ctrl := eq_of_beq hf
    rw [seqWrite_stop hc.1 hl]
    obtain ⟨⟨hen, hma, _⟩, hb⟩ := hc
    exact (at_start (by nofun)).mpr ⟨hp, ⟨⟨hen, hma, nofun⟩, hb⟩, rfl⟩
  case failClear e =>
    refine onWrite_holds fun t hw => ?_
    obtain ⟨hc', _⟩ := seqWrite_configured hw nofun nofun hc
    exact ends_of_fail (off_of_configured nofun hc' nofun) (by cases e <;> nofun)

theorem writeLine_stands {b : Byte} {l : WriteLine} (h : At ⟨op, k, .write b l⟩ s) :
    LineStands ⟨op, k, .write b l⟩ (writeLine b l s) := by
  obtain ⟨hp, hc, hf, _⟩ := at_write.mp h
  cases l <;> dsimp only [writeLine]
  case data =>
    refine onWrite_holds fun t hw => ?_
    obtain ⟨hc', htp⟩ := seqWrite_configured hw nofun nofun hc
    obtain ⟨ho, hd, hi, hmb⟩ := seqWrite_data hw
    exact at_write.mpr ⟨htp.trans hp, hc', by simp [engineFits, ho, hd, hi, hmb], nofun⟩
  case wait =>
    refine onRead_holds fun v t hr => ?_
    obtain ⟨rfl, he, htp⟩ := seqRead_quiet hr (by decide)
    split
    · exact at_write.mpr ⟨htp.trans hp, he ▸ hc, by simpa [engineFits, he] using hf, nofun⟩
    · rename_i hflag
      split
      · exact ends_of_fail (off_of_configured nofun (he ▸ hc) nofun) nofun
      · rename_i herr
        have herr : s.eng.intflag.error = false := Bool.eq_false_iff.mpr fun h => herr ((intflagBits_bit7 _).trans h)
        have hmb : s.eng.intflag.mb = true := by
          by_contra hmb
          exact hflag ((intflagBits_mb_or_error _).mpr ⟨by simpa using hmb, herr⟩)
        have hready : WriteReady t.eng := by
          rw [he]
          simpa [engineFits, herr, hmb, and_assoc, WriteReady] using hf
        exact ends_of_ok (off_of_configured (by simp [htp, hp]) (he ▸ hc) fun _ => .inr hready) rfl
          ⟨htp.trans hp, hready⟩

theorem readLine_stands {g : Bool} {l : ReadLine} (hs : EngineSound s.eng) (h : At ⟨op, k, .read g l⟩ s) :
    LineStands ⟨op, k, .read g l⟩ (readLine Config.params g l s) := by
  obtain ⟨hp, hc, hf⟩ := at_read.mp h
  cases l <;> dsimp only [readLine]
  case poll =>
    refine pollLine_holds (fun v t hr hv => ?_) (fun v t hr _ _ => ?_) fun v t hr _ _ => ?_
    all_goals obtain ⟨rfl, he, htp⟩ := seqRead_quiet hr (by decide)
    · split
      · exact ends_of_fail (off_of_configured nofun (he ▸ hc) nofun) nofun
      · rename_i herr
        have herr : s.eng.intflag.error = false := Bool.eq_false_iff.mpr fun h => herr ((intflagBits_bit7 _).trans h)
        have hsb : s.eng.intflag.sb = true := by
          by_contra hsb
          exact hv ((intflagBits_sb_or_error _).mpr ⟨by simpa using hsb, herr⟩)
        exact at_read.mpr ⟨htp.trans hp, he ▸ hc, by simpa [engineFits, he] using hs.2 hsb⟩
    · exact at_read.mpr ⟨htp.trans hp, he ▸ hc, rfl⟩
    · exact ends_of_fail (off_of_configured nofun (he ▸ hc) nofun) nofun
  case readCtrl =>
    refine onRead_holds fun v t hr => ?_
    obtain ⟨_, he, htp⟩ := seqRead_quiet hr (by decide)
    have ha : s.eng.ackPending = true := hf
    exact at_read.mpr ⟨htp.trans hp, he ▸ hc, by
      simp [engineFits, latchHolds, (seqRead_latches hr hc.1).2, he, ha]⟩
  case writeCtrl =>
    obtain ⟨ha, hl⟩ : s.eng.ackPending = true ∧ s.work.ctrlLatch = ctrlBits s.eng.ctrl := by
      simpa [engineFits, latchHolds] using hf
    rw [seqWrite_ack g hc.1 hl]
    exact at_read.mpr ⟨hp, hc, by simp [engineFits, ha]⟩
  case data =>
    obtain ⟨ha, hk⟩ : s.eng.ackPending = true ∧ s.eng.ctrl.ackact = !g := by simpa [engineFits] using hf
    obtain ⟨ho, _, hi⟩ := pending_of_ackPending hs.1 ha
    refine onRead_holds fun v t hr => ?_
    obtain ⟨_, _, rfl⟩ := seqRead_cases hr
    have hc' : Configured (reactReadData s.eng).eng := ⟨reactReadData_modeSet hc.1, by
      rw [reactReadData_pending ha]
      exact hc.2⟩
    refine ends_of_ok (off_of_configured (by simp [hp]) hc' (by simp [WriteFits, hp])) rfl ⟨hp, ?_⟩
    rintro rfl
    simp [reactReadData_pending ha, hk, ho, hi]

theorem stopLine_stands {l : StopLine} (h : At ⟨op, k, .stop l⟩ s) :
    LineStands ⟨op, k, .stop l⟩ (stopLine l s) := by
  obtain ⟨hp, hc, hf, hw⟩ := at_stop.mp h
  cases l <;> dsimp only [stopLine]
  case readCtrl =>
    refine onRead_holds fun v t hr => ?_
    obtain ⟨_, he, htp⟩ := seqRead_quiet hr (by decide)
    refine at_stop.mpr ⟨htp ▸ hp, he ▸ hc, ?_, ?_⟩
    · simpa [engineFits, latchHolds, (seqRead_latches hr hc.1).2, he] using hf
    · simpa [WriteFits, he, htp] using hw
  case writeCtrl =>
    have hl : s.work.ctrlLatch = ctrlBits s.eng.ctrl := eq_of_beq (Bool.and_eq_true_iff.mp hf).2
    rw [seqWrite_stop hc.1 hl]
    obtain ⟨⟨hen, hma, _⟩, hb⟩ := hc
    exact ends_of_ok (off_of_configured nofun ⟨⟨hen, hma, nofun⟩, hb⟩ nofun) rfl rfl

end

/-- Every line leads to where the sequencer can stand. -/
theorem runLine_stands {q : SeqPos} {s : State} (hs : EngineSound s.eng) (h : At q s) :
    LineStands q (runLine Config.params q.line s) := by
  obtain ⟨op, k, l⟩ := q
  cases l with
  | init l => exact initLine_stands h
  | start a d l => exact startLine_stands h
  | write b l => exact writeLine_stands h
  | read g l => exact readLine_stands hs h
  | stop l => exact stopLine_stands h
  | convert =>
    obtain ⟨_, _, hm, hw⟩ := h
    exact ⟨⟨hm, hw rfl⟩, fun _ _ hx => nomatch hx⟩

end Sys2Proof.Machine
end

section
/-! Every step keeps the machine's invariant, and O44 (40_bus_engine.md R155; 10_state.md R21, R25; 41_bus_primitives.md
R170, R174, R190). -/

namespace Sys2Proof.Machine

/-! ### The poll count -/

section
variable {s : State}

theorem seqWrite_pollcnt {r : Reg} {v : Word} {t : State} (h : seqWrite r v s = .ok t) :
    t.work.pollcnt = s.work.pollcnt := by
  obtain ⟨_, _, _, rfl⟩ := seqWrite_cases h
  rfl

theorem seqSet_pollcnt {r : Reg} {m : Word} {t : State} (h : seqSet r m s = .ok t) :
    t.work.pollcnt = s.work.pollcnt := by
  obtain ⟨_, _, rfl⟩ := seqSet_cases h
  rfl

/-- Only a bounded poll counts. -/
theorem runLine_pollcnt {l : Line} (hl : isPollLine l = false) :
    (runLine Config.params l s).Holds (fun _ t => t.work.pollcnt = s.work.pollcnt)
      (fun t => t.work.pollcnt = s.work.pollcnt) (fun t => t.work.pollcnt = s.work.pollcnt)
      (fun _ _ t => t.work.pollcnt = s.work.pollcnt) := by
  rcases l with l | ⟨a, d, l⟩ | ⟨b, l⟩ | ⟨again, l⟩ | l | _
  · cases l <;> dsimp only [runLine, initLine]
    case clkEnable | clkSelect | pinSda | pinScl => rfl
    case swrst | master | baud => exact onWrite_holds fun _ h => seqWrite_pollcnt h
    case enable => exact onWrite_holds fun _ h => seqSet_pollcnt h
    case resetWait =>
      refine onRead_holds fun _ _ h => ?_
      split <;> exact seqRead_pollcnt h
  · cases l <;> dsimp only [runLine, startLine]
    case check | status =>
      refine onRead_holds fun _ _ h => ?_
      split <;> exact (seqRead_pollcnt h :)
    case flags | failRead => exact onRead_holds fun _ _ h => seqRead_pollcnt h
    case cleanup | address | failStop | failClear => exact onWrite_holds fun _ h => (seqWrite_pollcnt h :)
    case poll => cases hl
  · cases l <;> dsimp only [runLine, writeLine]
    case data => exact onWrite_holds fun _ h => seqWrite_pollcnt h
    case wait =>
      refine onRead_holds fun _ _ h => ?_
      split
      · exact seqRead_pollcnt h
      · split <;> exact (seqRead_pollcnt h :)
  · cases l <;> dsimp only [runLine, readLine]
    case poll => cases hl
    case readCtrl | data => exact onRead_holds fun _ _ h => seqRead_pollcnt h
    case writeCtrl => exact onWrite_holds fun _ h => seqWrite_pollcnt h
  · cases l <;> dsimp only [runLine, stopLine]
    case readCtrl => exact onRead_holds fun _ _ h => seqRead_pollcnt h
    case writeCtrl => exact onWrite_holds fun _ h => (seqWrite_pollcnt h :)
  · rfl

/-- The poll count stays within the budget, and a bounded poll made again has polls left (41_bus_primitives.md R190). -/
theorem runLine_pollsLeft {l : Line} (h : PollsLeft l s) :
    (runLine Config.params l s).Holds (fun _ t => t.work.pollcnt ≤ Config.params.pollBudget) (PollsLeft l) (PollsLeft l)
      (fun _ _ t => t.work.pollcnt ≤ Config.params.pollBudget) := by
  obtain ⟨hle, hlt⟩ := h
  cases hl : isPollLine l with
  | false =>
    have hr := runLine_pollcnt (s := s) hl
    generalize runLine Config.params l s = out at hr
    cases out with
    | goto l' t | done st d t => exact hr.trans_le hle
    | again t | spin t => exact ⟨hr.trans_le hle, fun hp => nomatch hl.symm.trans hp⟩
    | refused r => trivial
  | true =>
    have hb := hlt hl
    rcases l with l | ⟨a, d, l⟩ | ⟨b, l⟩ | ⟨again, l⟩ | l | _
    case init | write | stop | convert => cases hl
    case start =>
      cases l with
      | poll =>
        dsimp only [runLine, startLine]
        refine pollLine_holds (fun f t hr _ => ?_) (fun f t hr _ hc => ⟨hc.le, fun _ => hc⟩) fun f t hr _ _ => ?_
        all_goals exact Nat.succ_le_of_lt ((seqRead_pollcnt hr).trans_lt hb)
      | check | flags | cleanup | address | status | failRead | failStop | failClear => cases hl
    case read =>
      cases l with
      | poll =>
        dsimp only [runLine, readLine]
        refine pollLine_holds (fun f t hr _ => ?_) (fun f t hr _ hc => ⟨hc.le, fun _ => hc⟩) fun f t hr _ _ => ?_
        · split <;> exact Nat.succ_le_of_lt ((seqRead_pollcnt hr).trans_lt hb)
        · exact Nat.succ_le_of_lt ((seqRead_pollcnt hr).trans_lt hb)
      | readCtrl | writeCtrl | data => cases hl

end

/-! ### From one item of a script to the next -/

/-- What may follow what in a script: `START`, the bytes written or read, `STOP` (42_sensor_ops.md R201). -/
def follows (x y : Prim) : Bool :=
  match y, x with
  | .start _ d, .write _ => d == .read
  | .start _ _, .stop => true
  | .write _, .start _ d => d == .write
  | .write _, .write _ => true
  | .read _, .start _ d => d == .read
  | .read _, .read g => g
  | .stop, .write _ => true
  | .stop, .read g => !g
  | _, _ => false

theorem script_follows {i : Instr} {k : Nat} {it it' : Item} (h : (operationOf i).script[k]? = some it)
    (h' : (operationOf i).script[k + 1]? = some it') : follows it.prim it'.prim = true := by
  have hs : isSensor i = true := isSensor_of_more (List.getElem?_eq_some_iff.mp h').1
  have hchain : (operationOf i).script.IsChain fun a b => follows a.prim b.prim = true := by
    cases i with
    | sReset | sReadSn | sReadRh | sReadT | sReadTl => decide
    | init | start | write | read | stop | convRh | convT => cases hs
  obtain ⟨hlt, rfl⟩ := List.getElem?_eq_some_iff.mp h'
  obtain ⟨_, rfl⟩ := List.getElem?_eq_some_iff.mp h
  exact List.isChain_iff_getElem.mp hchain k hlt

/-- After an item that ended OK the next one's first line can be stood at. -/
theorem at_firstLine_of_follows {op : Instr} {k : Nat} {x y : Prim} {t : State} (hf : follows x y = true)
    (hx : AfterOk x t) (ho : Off t) : At ⟨op, k, firstLine y⟩ t := by
  obtain ⟨hm, hw⟩ := ho
  cases y with
  | init => cases x <;> cases hf
  | start a d =>
    have hp : t.phase ≠ .uninit := by
      cases x with
      | write b => simp [hx.1]
      | stop => simp [show t.phase = .idle from hx]
      | init | start | read => cases hf
    exact ⟨by simp [firstLine, phaseAt, hp], rfl, hm, nofun⟩
  | write b =>
    have hp : t.phase = .dataW := by
      cases x with
      | start a d =>
        obtain rfl : d = .write := eq_of_beq hf
        exact hx
      | write b' => exact hx.1
      | init | read | stop => cases hf
    exact at_write.mpr ⟨hp, hm.2 (by simp [hp]), rfl, fun _ => hw hp⟩
  | read g =>
    have hp : t.phase = .dataR := by
      cases x with
      | start a d =>
        obtain rfl : d = .read := eq_of_beq hf
        exact hx
      | read g' => exact hx.1
      | init | write | stop => cases hf
    exact at_read.mpr ⟨hp, hm.2 (by simp [hp]), rfl⟩
  | stop =>
    have hbus : t.phase ≠ .uninit ∧ t.eng.owned = true ∧ t.eng.inflight = .none := by
      cases x with
      | write b =>
        obtain ⟨hp, ho, _, hi⟩ := hx
        exact ⟨by simp [hp], ho, hi⟩
      | read g =>
        obtain ⟨hp, hbus⟩ := hx
        exact ⟨by simp [hp], hbus (by simpa [follows] using hf)⟩
      | init | start | stop => cases hf
    obtain ⟨hp, ho, hi⟩ := hbus
    exact at_stop.mpr ⟨hp, hm.2 hp, by simp [engineFits, ho, hi], hw⟩

/-! ### The sequencer's position in the script -/

theorem lineOf_iff {x : Prim} {l : Line} : lineOf x l = true ↔ primOf l = some x := by
  refine ⟨primOf_of_lineOf, fun h => ?_⟩
  cases l <;> cases h <;> simp [lineOf]

theorem inScript_of_item {q : SeqPos} {it : Item} (h : (operationOf q.op).script[q.item]? = some it)
    (hl : primOf q.line = some it.prim) : inScript q = true := by
  unfold inScript
  split
  · rename_i hs
    simp [hs] at h
  · rename_i hs
    rw [hs] at h
    simp only [h]
    exact lineOf_iff.mpr hl

theorem convert_of_primOf {l : Line} (h : primOf l = none) : l = .convert := by
  cases l with
  | convert => rfl
  | init | start | write | read | stop => cases h

/-- An operation begins at a line of its script. -/
theorem inScript_begin (i : Instr) : inScript ⟨i, 0, itemLine (operationOf i) 0⟩ = true := by
  cases hs : (operationOf i).script with
  | nil => simp [inScript, hs, itemLine]
  | cons it rest =>
    have hit : (operationOf i).script[0]? = some it := by rw [hs]; rfl
    exact inScript_of_item hit (by rw [itemLine_of_get hit, primOf_firstLine])

/-- A line of the same primitive is a line of the same item. -/
theorem inScript_goto {q : SeqPos} {l : Line} (h : inScript q = true) (hl : primOf l = primOf q.line) :
    inScript { q with line := l } = true := by
  have hitem := primOf_of_inScript h
  cases hit : (operationOf q.op).script[q.item]? with
  | some it =>
    rw [hit] at hitem
    exact inScript_of_item hit (hl.trans hitem.symm)
  | none =>
    rw [hit] at hitem
    rw [convert_of_primOf (hl.trans hitem.symm), ← convert_of_primOf hitem.symm]
    exact h

/-! ### A sequencer step -/

/-- The sequencer stands at `q`, in its script, where it can, with its polls left. -/
def Runs (q : SeqPos) (s : State) : Prop := inScript q = true ∧ At q s ∧ PollsLeft q.line s

/-- No operation runs: the mode fits, and so does the poll count. -/
def Rests (s : State) : Prop := Off s ∧ s.work.pollcnt ≤ Config.params.pollBudget

/-- The position is good as long as the phase, the engine and the latch of `CTRL` are as they were. -/
theorem At.of_eq {q : SeqPos} {s t : State} (h : At q s) (hp : t.phase = s.phase) (he : t.eng = s.eng)
    (hl : t.work.ctrlLatch = s.work.ctrlLatch) : At q t := by
  obtain ⟨hph, hf, hm, hw⟩ := h
  have hlatch : latchHolds t = latchHolds s := by simp [latchHolds, he, hl]
  refine ⟨hp ▸ hph, ?_, ?_, ?_⟩
  · unfold engineFits at *
    simpa only [he, hlatch] using hf
  · unfold LineMode ModeFits at *
    simpa only [he, hp] using hm
  · unfold WriteFits at *
    simpa only [he, hp] using hw

theorem Off.of_eq {s t : State} (h : Off s) (hp : t.phase = s.phase) (he : t.eng = s.eng) : Off t := by
  obtain ⟨hm, hw⟩ := h
  constructor
  · unfold ModeFits at *
    rwa [hp, he]
  · unfold WriteFits at *
    rwa [hp, he]

/-- Where the sequencer moves to, a bounded poll begins with its polls left. -/
theorem runs_moveTo {i : Instr} {k : Nat} {l : Line} {s : State} (hin : inScript ⟨i, k, l⟩ = true)
    (hat : At ⟨i, k, l⟩ s) (hp : s.work.pollcnt ≤ Config.params.pollBudget) :
    Runs ⟨i, k, l⟩ (moveTo i k l s) := by
  refine ⟨hin, hat.of_eq (moveTo_phase ..) (moveTo_eng ..) (moveTo_latches ..).2.2, ?_⟩
  have hpos : 0 < Config.params.pollBudget := Nat.succ_pos _
  rw [PollsLeft, moveTo_work]
  split
  · exact ⟨Nat.zero_le _, fun _ => hpos⟩
  · exact ⟨hp, fun h => absurd h (by assumption)⟩

/-- Where an item ends the script goes on to where the sequencer can stand, or no operation runs any more. -/
theorem itemEnded_runs {q : SeqPos} {st : Code} {s : State} (d : Byte) (hin : inScript q = true)
    (h : Ends q.line st s) (hp : s.work.pollcnt ≤ Config.params.pollBudget) :
    (itemEnded q.op (operationOf q.op) q.item st d s).Holds (fun t => ∃ q', t.seq = some q' ∧ Runs q' t)
      (fun _ => False) Rests := by
  obtain ⟨hoff, hok⟩ := h
  rcases itemEnded_cases q.op (operationOf q.op) q.item st d s with
    ⟨_, e⟩ | ⟨it, hit, hst, hmore, e⟩ | ⟨it, _, _, _, e⟩ | ⟨it, _, _, e⟩
  · rw [e]
    exact ⟨hoff.of_eq rfl rfl, hp⟩
  · rw [e]
    have hnext := List.getElem?_eq_getElem hmore
    have hprim : primOf q.line = some it.prim := by rw [← primOf_of_inScript hin, hit]; rfl
    refine ⟨_, moveTo_seq .., ?_⟩
    rw [itemLine_of_get hnext]
    refine runs_moveTo (inScript_of_item hnext (primOf_firstLine _)) ?_ (by simpa using hp)
    refine (at_firstLine_of_follows (script_follows hit hnext) (hok hst _ hprim) hoff).of_eq (keepByte_phase ..)
      (keepByte_eng ..) ?_
    cases it.keep <;> rfl
  · rw [e]
    exact ⟨hoff.of_eq (keepByte_phase ..) (keepByte_eng ..), (keepByte_pollcnt ..).trans_le hp⟩
  · obtain ⟨c, c', e'⟩ := finishFailed_cases it.onFail st s
    rw [e, e']
    exact ⟨hoff.of_eq rfl rfl, hp⟩

theorem seqStep_runs {q : SeqPos} {s : State} (hq : s.seq = some q) (hs : EngineSound s.eng) (hstand : Standing q s)
    (h : Runs q s) : (seqStep Config.params (operationOf q.op) q s).Holds (fun t => ∃ q', t.seq = some q' ∧ Runs q' t)
      (fun t => ∃ q', t.seq = some q' ∧ Runs q' t) Rests := by
  obtain ⟨hin, hat, hpoll⟩ := h
  have hl := runLine_stands hs hat
  have hp := runLine_pollsLeft hpoll
  have hk := runLine_keeps hstand.2
  have hf := runLine_frame Config.params q.line s
  unfold seqStep
  generalize runLine Config.params q.line s = out at hl hp hk hf
  cases out with
  | goto l t => exact ⟨_, moveTo_seq .., runs_moveTo (inScript_goto hin hk.2.1) hl hp⟩
  | again t | spin t =>
    obtain ⟨_, _, _, hseq⟩ := hf
    exact ⟨q, hseq.trans hq, hin, hl, hp⟩
  | done st d t => exact (itemEnded_runs d hin hl hp).mono (fun _ => id) (fun _ => False.elim) fun _ => id
  | refused r => trivial

/-! ### The invariant under the block's steps -/

theorem inv_of_runs {q : SeqPos} {s : State} (hq : s.seq = some q) (hs : EngineSound s.eng) (hb : s.busy = true)
    (h : Runs q s) : Inv s := (inv_iff hq).mpr ⟨hs, hb, h⟩

theorem inv_of_rests {s : State} (hq : s.seq = none) (hs : EngineSound s.eng) (hb : s.busy = false) (h : Rests s) :
    Inv s := (inv_iff_none hq).mpr ⟨hs, hb, h⟩

theorem Progress.Holds.and {M W E M' W' E' : State → Prop} {x : Progress} (h : x.Holds M W E) (h' : x.Holds M' W' E') :
    x.Holds (fun t => M t ∧ M' t) (fun t => W t ∧ W' t) (fun t => E t ∧ E' t) := by
  cases x with
  | moved t | waits t | ended t => exact ⟨h, h'⟩
  | refused r => trivial

theorem seqStep_keeps_inv {q : SeqPos} {s : State} (hinv : Inv s) (hq : s.seq = some q) :
    (seqStep Config.params (operationOf q.op) q s).Holds Inv Inv Inv := by
  have ⟨hs, hb, hruns⟩ := (inv_iff hq).mp hinv
  have hstand := (standing_of_inv hinv hq).2
  refine ((seqStep_runs hq hs hstand hruns).and
    ((seqStep_engineMoves hq hstand).and (seqStep_frame Config.params (operationOf q.op) q s hq))).mono ?_ ?_ ?_
  · rintro t ⟨⟨q', hq', hr⟩, hmoves, _, hbusy, _⟩
    exact inv_of_runs hq' (hmoves.sound hinv hq) (hbusy.trans hb) hr
  · rintro t ⟨⟨q', hq', hr⟩, hmoves, _, hbusy, _⟩
    exact inv_of_runs hq' (hmoves.sound hinv hq) (hbusy.trans hb) hr
  · rintro t ⟨hr, hmoves, _, hbusy, hseq⟩
    exact inv_of_rests hseq (hmoves.sound hinv hq) hbusy hr

/-- A completion keeps the invariant, whether an operation runs or not. -/
theorem inv_complete {s t : State} {o : EnvOutcome} {x : Reaction} (hinv : Inv s)
    (hc : complete Config.params o s.eng = some x) (he : t.eng = x.eng) (hp : t.phase = s.phase) (hw : t.work = s.work)
    (hq : t.seq = s.seq) (hb : t.busy = s.busy) : Inv t := by
  cases hs : s.seq with
  | none =>
    obtain ⟨hsound, hbusy, hoff, hpoll⟩ := (inv_iff_none hs).mp hinv
    exact (inv_iff_none (hq.trans hs)).mpr
      ⟨he ▸ complete_sound hsound hc, hb.trans hbusy, hoff.complete hc he hp, by rwa [hw]⟩
  | some q =>
    obtain ⟨hsound, hbusy, hin, hat, hpoll⟩ := (inv_iff hs).mp hinv
    exact (inv_iff (hq.trans hs)).mpr
      ⟨he ▸ complete_sound hsound hc, hb.trans hbusy, hin, hat.complete hsound hc he hp hw, by rwa [PollsLeft, hw]⟩

/-- Every step of the block keeps the invariant. -/
theorem blockStep_keeps_inv {q : SeqPos} {s : State} (hinv : Inv s) (hq : s.seq = some q) :
    (blockStep Config.params (operationOf q.op) q s).Holds Inv Inv Inv := by
  rcases blockStep_cases Config.params (operationOf q.op) q s with ⟨f, o, x, hc, e⟩ | ⟨f, e⟩
  · rw [e]
    exact inv_complete hinv hc rfl rfl rfl rfl rfl
  · rw [e]
    exact seqStep_keeps_inv (s := s.setFeed f) hinv hq

/-- Where an operation begins the invariant holds. -/
theorem inv_beginOperation {i : Instr} {s : State} (hinv : Inv s) (hq : s.seq = none) (hl : legalIn i s.phase = true) :
    Inv (beginOperation i (operationOf i) s) := by
  obtain ⟨hs, _, ⟨hm, hw⟩, hp⟩ := (inv_iff_none hq).mp hinv
  refine inv_of_runs (beginOperation_seq ..) (by simpa using hs) (beginOperation_busy ..) ?_
  refine runs_moveTo (s := s.setBusy true) (inScript_begin i) ?_ hp
  cases i with
  | init =>
    have hu : s.phase = .uninit := eq_of_beq hl
    exact at_init.mpr ⟨hu, beq_iff_eq.mpr (hm.1 hu)⟩
  | write b =>
    have hd : s.phase = .dataW := eq_of_beq hl
    exact at_write.mpr ⟨hd, hm.2 (by simp [hd]), rfl, fun _ => hw hd⟩
  | read g =>
    have hd : s.phase = .dataR := eq_of_beq hl
    exact at_read.mpr ⟨hd, hm.2 (by simp [hd]), rfl⟩
  | stop =>
    have hu : s.phase ≠ .uninit := by simpa [legalIn] using hl
    exact at_stop.mpr ⟨hu, hm.2 hu, rfl, hw⟩
  | start | sReset | sReadSn | sReadRh | sReadT | sReadTl => exact ⟨rfl, rfl, hm, nofun⟩
  | convRh | convT => exact ⟨rfl, rfl, hm, fun _ => hw⟩

/-- Every state `exec` comes to meets the invariant. -/
theorem exec_keeps_inv {i : Instr} {s t : State} (hinv : Inv s) (h : exec i s = .next t) : Inv t := by
  refine (exec_next_holds (Q := Inv) (R := Inv) ?_ ?_ ?_ h).elim id id
  · rintro u q hu hq rfl
    exact blockStep_keeps_inv hu hq
  · exact inv_beginOperation hinv
  · exact fun _ _ _ => hinv

/-- The block's own step keeps the invariant. -/
theorem advance_keeps_inv {s t : State} (hinv : Inv s) (h : advance s = .next t) : Inv t := by
  rcases advance_cases h with ⟨q, hq, hb⟩ | ⟨_, hm⟩
  · exact (blockStep_keeps_inv hinv hq).of_next hb
  · rcases engineMove_cases Config.params s with ⟨f, e⟩ | ⟨f, o, x, hc, e⟩
    all_goals
      rw [e] at hm
      rcases hm with hm | hm <;> cases hm
    · exact hinv
    · exact inv_complete hinv hc rfl rfl rfl rfl rfl

/-- Settles O44: a hardware reset, the issue of an operation and the block's own step keep the invariant. -/
theorem stepKeepsTheInvariant : Obligations.StepKeepsTheInvariant := by
  intro s t hinv h
  rcases step_cases h with ⟨rest, _, rfl⟩ | ⟨w, rest, i, b, _, hb, _, he, rfl⟩ | ⟨hs, _, ha⟩
  · exact (resetMeetsTheInvariants _ _).1
  · have hq : s.seq = none := by
      obtain ⟨_, _, _, ⟨hbusy, _, _⟩, _⟩ := hinv
      simpa [hb] using hbusy.symm
    cases b with
    | true => exact inv_beginOperation (s := (s.setHost rest).setCmdWord w) hinv hq (enter_begin he).2
    | false =>
      obtain ⟨q, hq', _⟩ := enter_resume he
      exact nomatch hq.symm.trans hq'
  · exact advance_keeps_inv (s := s.setHost hs) hinv ha

end Sys2Proof.Machine
end

section
/-! Which flags fall, and O46 (40_bus_engine.md R155). -/

namespace Sys2Proof.Machine

/-! ### (f) and (g) of a completion and of an access -/

/-- None of `ERROR`, `BUSERR` and `ARBLOST` falls from the engine `e` to the engine `e'`. -/
def FlagsKept (e e' : Engine) : Prop :=
  (e.intflag.error = true → e'.intflag.error = true) ∧ (e.status.buserr = true → e'.status.buserr = true) ∧
    (e.status.arblost = true → e'.status.arblost = true)

theorem FlagsKept.flagsStand {e e' : Engine} (h : FlagsKept e e') (w : Option (Reg × Word)) : flagsStand e e' w :=
  ⟨fun he => .inl (h.1 he), fun hb => .inl (h.2.1 hb), fun ha => .inl (h.2.2 ha)⟩

theorem FlagsKept.of_eq {e e' : Engine} (hf : e'.intflag.error = e.intflag.error) (ht : e'.status = e.status) :
    FlagsKept e e' := by
  rw [FlagsKept, hf, ht]
  exact ⟨id, id, id⟩

/-- A write of a register that clears no flag lets none fall. -/
theorem flagsKept_of_stand {e e' : Engine} {w : Option (Reg × Word)} (h : flagsStand e e' w)
    (hi : ∀ v, w ≠ some (.intflag, v)) (ha : ∀ v, w ≠ some (.addr, v)) : FlagsKept e e' :=
  ⟨fun he => (h.1 he).resolve_right fun ⟨v, hv, _⟩ => hi v hv, fun hb => (h.2.1 hb).resolve_right fun ⟨v, hv⟩ => ha v hv,
    fun hb => (h.2.2 hb).resolve_right fun ⟨v, hv⟩ => ha v hv⟩

/-- A completion lets none of the flags fall, but a software reset's. -/
theorem complete_flagsKept {p : Params} {o : EnvOutcome} {e : Engine} {x : Reaction} (h : complete p o e = some x)
    (hr : e.inflight ≠ .resetPh) : FlagsKept e x.eng := by
  refine ⟨complete_keeps_error h hr, ?_⟩
  cases o with
  | ack =>
    rw [(complete_ack h hr).2.1]
    exact ⟨id, id⟩
  | nack =>
    rw [(complete_nack h hr).2.1]
    exact ⟨id, id⟩
  | byte v =>
    rw [(complete_byte h hr).2.1]
    exact ⟨id, id⟩
  | buserr =>
    rw [complete_buserr h hr]
    exact ⟨fun _ => rfl, id⟩
  | arblost =>
    rw [complete_arblost h hr]
    exact ⟨id, fun _ => rfl⟩

/-- A read changes, of the registers, `SB` only. -/
theorem readReg_frame {r : Reg} {e : Engine} {v : Word} {x : Reaction} (h : readReg r e = .ok (v, x)) :
    FlagsKept e x.eng ∧ x.eng.ctrl = e.ctrl ∧ x.eng.baud = e.baud ∧ x.eng.addr = e.addr ∧ x.eng.dir = e.dir := by
  rw [(readReg_ok h).2]
  split
  · unfold reactReadData
    split <;> exact ⟨.of_eq rfl rfl, rfl, rfl, rfl, rfl⟩
  · exact ⟨.of_eq rfl rfl, rfl, rfl, rfl, rfl⟩

/-- A write lets `ERROR` fall only by clearing it, the two bits of `STATUS` only by a new address. -/
theorem writeReg_flagsStand {r : Reg} {v : Word} {e : Engine} {x : Reaction} (h : writeReg r v e = .ok x) :
    flagsStand e x.eng (some (r, v)) := by
  have hi := writeReg_running h
  cases r with
  | ctrl =>
    rw [writeReg_ctrl hi] at h
    rcases reactWriteCtrl_ok h with ⟨_, rfl⟩ | ⟨_, rfl | rfl⟩ <;> exact FlagsKept.flagsStand (.of_eq rfl rfl) _
  | baud =>
    simp only [writeReg, hi, if_false, Except.ok.injEq] at h
    subst h
    exact FlagsKept.flagsStand (.of_eq rfl rfl) _
  | intflag =>
    rw [writeReg_intflag hi] at h
    cases h
    refine ⟨fun he => ?_, fun hb => .inl hb, fun ha => .inl ha⟩
    cases hv : v.getLsbD 7 with
    | true => exact .inr ⟨v, rfl, hv⟩
    | false => exact .inl (by simp only [clearWritten, he, hv]; rfl)
  | status => simp [writeReg, hi] at h
  | data =>
    rw [writeReg_data hi] at h
    obtain ⟨_, _, _, rfl⟩ := reactWriteData_ok h
    exact FlagsKept.flagsStand (.of_eq rfl rfl) _
  | addr =>
    rw [writeReg_addr hi] at h
    obtain ⟨_, _, rfl⟩ := reactWriteAddr_ok h
    exact ⟨fun he => .inl he, fun _ => .inr ⟨v, rfl⟩, fun _ => .inr ⟨v, rfl⟩⟩

/-! ### (f) and (g) of a step -/

/-- What an access writes, and where. -/
def writtenBy (a : Access) : Option (Reg × Word) :=
  match a with
  | .wr r v => some (r, v)
  | _ => none

/-- Of the listed accesses only `CTRL` is set bits in. -/
theorem reg_of_lineAccess_set {l : Line} {e : Engine} {r : Reg} {m : Word} (h : lineAccess l e = some (.set r m)) :
    r = .ctrl := by
  unfold lineAccess at h
  split at h <;> cases h
  rfl

theorem reactionOf_flagsStand {l : Line} {a : Access} {e : Engine} {x : Reaction} (ha : lineAccess l e = some a)
    (h : reactionOf a e = .ok x) : flagsStand e x.eng (writtenBy a) := by
  cases a with
  | rd r v =>
    simp only [reactionOf] at h
    split at h
    · rename_i hread
      split at h <;> cases h
      exact (readReg_frame hread).1.flagsStand _
    · cases h
  | wr r v => exact writeReg_flagsStand h
  | set r m =>
    obtain rfl := reg_of_lineAccess_set ha
    exact (flagsKept_of_stand (writeReg_flagsStand (r := .ctrl) h) nofun nofun).flagsStand _
  | ext =>
    cases h
    exact FlagsKept.flagsStand (.of_eq rfl rfl) _

/-- A step of the block moves the engine by a completion or by the access of a line. -/
theorem advance_engineMoves {s t : State} (hinv : Inv s) (h : advance s = .next t) : ∃ l, EngineMoves l s t := by
  rcases advance_cases h with ⟨q, hq, hb⟩ | ⟨_, hm⟩
  · exact ⟨q.line, (blockStep_engineMoves hq (standing_of_inv hinv hq).2).of_next hb⟩
  · refine ⟨.convert, ?_⟩
    rcases engineMove_cases Config.params s with ⟨f, e⟩ | ⟨f, o, x, hc, e⟩
    all_goals
      rw [e] at hm
      rcases hm with hm | hm <;> cases hm
    · exact .inr (.inr ⟨rfl, rfl, rfl⟩)
    · exact .inl ⟨o, x, hc, rfl, rfl, rfl⟩

/-- A step records what lets a flag fall, unless it completes a software reset. -/
theorem EngineMoves.flags {l : Line} {s t : State} (h : EngineMoves l s t) :
    ∃ new, t.trace = s.trace ++ new ∧ (s.eng.inflight = .resetPh ∨ ∃ w, flagsStand s.eng t.eng w ∧
      ∀ r v, w = some (r, v) → .wr r v ∈ new) := by
  rcases h with ⟨o, x, hc, heng, _, htrace⟩ | ⟨a, x, ha, hx, heng, _, htrace⟩ | ⟨heng, _, htrace⟩
  · refine ⟨[], by simp [htrace], or_iff_not_imp_left.mpr fun hr => ⟨none, ?_, nofun⟩⟩
    rw [heng]
    exact (complete_flagsKept hc hr).flagsStand none
  · refine ⟨[a], htrace, .inr ⟨writtenBy a, heng ▸ reactionOf_flagsStand ha hx, fun r v hw => ?_⟩⟩
    cases a <;> cases hw
    exact List.mem_singleton_self _
  · exact ⟨[], by simp [htrace], .inr ⟨none, (FlagsKept.of_eq (by rw [heng]) (by rw [heng])).flagsStand none, nofun⟩⟩

/-! ### (e), and O46 -/

/-- `CMD` reads zero, and `SWRST` reads 1 exactly while a software reset runs. -/
theorem ctrlValue_bits (e : Engine) :
    ctrlValue e &&& 0x00030000#32 = 0#32 ∧ ((ctrlValue e).getLsbD 0 = true ↔ e.inflight = .resetPh) := by
  by_cases hi : e.inflight = .resetPh
  · rw [ctrlValue, if_pos hi]
    exact ⟨rfl, iff_of_true rfl hi⟩
  · rw [ctrlValue_running hi, ctrlBits_bit0]
    refine ⟨?_, iff_of_false nofun hi⟩
    rcases e.ctrl with ⟨_ | _, _ | _, _ | _⟩ <;> rfl

/-- The invariant holds in every state a run reaches. -/
theorem inv_of_reachable {s : State} (h : Reachable s) : Inv s := by
  induction h with
  | reset h f => exact (resetMeetsTheInvariants h f).1
  | step _ hs ih => exact stepKeepsTheInvariant _ _ ih hs

/-- A step that is no hardware reset records what lets a flag fall, unless a software reset runs. -/
theorem step_flags {s t : State} (hinv : Inv s) (hr : s.host.head? ≠ some .hwReset) (h : step s = .next t) :
    ∃ new, t.trace = s.trace ++ new ∧ (s.eng.inflight = .resetPh ∨ ∃ w, flagsStand s.eng t.eng w ∧
      ∀ r v, w = some (r, v) → .wr r v ∈ new) := by
  rcases step_cases h with ⟨rest, hh, _⟩ | ⟨w, rest, i, b, _, _, _, _, rfl⟩ | ⟨hs, _, ha⟩
  · exact absurd (by rw [hh]; rfl) hr
  · exact ⟨[], by simp, .inr ⟨none, (FlagsKept.of_eq (by simp) (by simp)).flagsStand none, nofun⟩⟩
  · obtain ⟨l, hl⟩ := advance_engineMoves (s := s.setHost hs) hinv ha
    exact hl.flags

/-- Settles O46: (a) to (d) are part of the invariant, which every step keeps; (f) and (g) by the reaction or completion
that a step is. -/
theorem engineInvariantsHoldInEveryRun : Obligations.EngineInvariantsHoldInEveryRun := by
  refine ⟨fun p o e x h hr => (complete_flagsKept h hr).flagsStand none,
    fun r e v x h => (readReg_frame h).1.flagsStand none, fun r e v x => writeReg_flagsStand, fun s hs => ?_⟩
  have hinv := inv_of_reachable hs
  refine ⟨hinv.1, ctrlValue_bits s.eng, fun t hr h => ?_⟩
  obtain ⟨new, hnew, hreset | ⟨w, ⟨herr, hbus, harb⟩, hw⟩⟩ := step_flags hinv hr h
  · exact ⟨new, hnew, fun _ => .inr (.inl hreset), fun _ => .inr (.inl hreset)⟩
  · refine ⟨new, hnew, fun ⟨h1, h0⟩ => ?_, ?_⟩
    · obtain ⟨v, hv, h7⟩ := (herr h1).resolve_left (by simp [h0])
      exact .inr (.inr ⟨v, h7, hw _ _ hv⟩)
    · rintro (⟨h1, h0⟩ | ⟨h1, h0⟩)
      · obtain ⟨v, hv⟩ := (hbus h1).resolve_left (by simp [h0])
        exact .inr (.inr ⟨v, hw _ _ hv⟩)
      · obtain ⟨v, hv⟩ := (harb h1).resolve_left (by simp [h0])
        exact .inr (.inr ⟨v, hw _ _ hv⟩)

end Sys2Proof.Machine
end

section
/-! What can be refused in a state of the invariant, and O47 (40_bus_engine.md R131, R134, R140, R151, R153). -/

namespace Sys2Proof.Machine

/-! ### The refusals of a line -/

/-- If the access was refused, `P` holds of the reason. -/
def LineOut.Refuses (P : Refusal → Prop) : LineOut → Prop
  | .refused r => P r
  | _ => True

section
variable {P : Refusal → Prop}

theorem onRead_refuses {a : Except Refusal (Word × State)} {k : Word → State → LineOut} (ha : ∀ r, a = .error r → P r)
    (hk : ∀ v t, (k v t).Refuses P) : (onRead a k).Refuses P := by
  unfold onRead
  split
  · exact hk _ _
  · exact ha _ rfl

theorem onWrite_refuses {a : Except Refusal State} {k : State → LineOut} (ha : ∀ r, a = .error r → P r)
    (hk : ∀ t, (k t).Refuses P) : (onWrite a k).Refuses P := by
  unfold onWrite
  split
  · exact hk _
  · exact ha _ rfl

theorem pollLine_refuses {p : Params} {m : Word} {s : State} {x : State → LineOut} {k : Word → State → LineOut}
    (ha : ∀ r, seqRead .intflag s = .error r → P r) (hk : ∀ v t, (k v t).Refuses P) (hx : ∀ t, (x t).Refuses P) :
    (pollLine p m s x k).Refuses P := by
  refine onRead_refuses ha fun v t => ?_
  by_cases hm : v &&& m = 0#32
  · by_cases hb : t.work.pollcnt + 1 < p.pollBudget
    · simp [hm, hb, LineOut.Refuses]
    · simpa [hm, hb] using hx _
  · simpa [hm] using hk v _

end

/-- `WRITE`'s and `START`'s own refusals: `ADDR` written with an operation in flight (U9), `DATA` written outside a Write
transaction, `ERROR` standing (U10). -/
def LineRefusal (s : State) (r : Refusal) : Prop :=
  (r = .addrWhileInFlight ∧ s.eng.inflight ≠ .none) ∨ (r = .dataOutsideWrite ∧ s.eng.intflag.error = true)

section
variable {s : State} {r : Refusal}

/-- Outside a software reset, and of `CTRL` always, no read is refused. -/
theorem seqRead_not_refused {g : Reg} (h : g = .ctrl ∨ s.eng.inflight ≠ .resetPh) : seqRead g s ≠ .error r := by
  rw [seqRead_ok h]
  nofun

theorem seqWrite_refused {g : Reg} {v : Word} (h : seqWrite g v s = .error r) : writeReg g v s.eng = .error r := by
  unfold seqWrite at h
  split at h <;> cases h
  assumption

theorem seqSet_refused {g : Reg} {m : Word} (h : seqSet g m s = .error r) :
    writeReg g (regValue g s.eng ||| m) s.eng = .error r := by
  unfold seqSet at h
  split at h <;> cases h
  assumption

theorem seqWrite_intflag_not_refused {v : Word} (hr : s.eng.inflight ≠ .resetPh) : seqWrite .intflag v s ≠ .error r := by
  intro h
  have h := seqWrite_refused h
  rw [writeReg_intflag hr] at h
  cases h

theorem active_of_modeSet {e : Engine} (h : ModeSet e) : active e = true := by
  obtain ⟨he, hm, hi⟩ := h
  simp [active, he, hm, hi]

theorem seqWrite_addr_refused {v : Word} (hm : ModeSet s.eng) (h : seqWrite .addr v s = .error r) : LineRefusal s r := by
  have h := seqWrite_refused h
  rw [writeReg_addr hm.2.2] at h
  simp only [reactWriteAddr, active_of_modeSet hm, Bool.not_true, Bool.false_eq_true, if_false] at h
  split at h <;> cases h
  exact .inl ⟨rfl, by assumption⟩

theorem seqWrite_data_refused {v : Word} (hm : ModeSet s.eng) (hw : s.eng.intflag.error = true ∨ WriteReady s.eng)
    (h : seqWrite .data v s = .error r) : LineRefusal s r := by
  have h := seqWrite_refused h
  rw [writeReg_data hm.2.2] at h
  simp only [reactWriteData, active_of_modeSet hm, Bool.not_true, Bool.false_eq_true, if_false] at h
  split at h <;> cases h
  rename_i hclosed
  refine .inr ⟨rfl, hw.resolve_right fun ⟨ho, hd, hi⟩ => ?_⟩
  simp [ho, hd, hi] at hclosed

end

/-- Where the sequencer can stand, no other access is refused. -/
theorem runLine_refuses {q : SeqPos} {s : State} (h : At q s) :
    (runLine Config.params q.line s).Refuses (LineRefusal s) := by
  obtain ⟨op, k, l⟩ := q
  rcases l with l | ⟨a, d, l⟩ | ⟨b, l⟩ | ⟨g, l⟩ | l | _
  · obtain ⟨_, hm⟩ := at_init.mp h
    cases l <;> dsimp only [runLine, initLine]
    case clkEnable | clkSelect | pinSda | pinScl => trivial
    case resetWait =>
      refine onRead_refuses (fun r hr => absurd hr (seqRead_not_refused (.inl rfl))) fun v t => ?_
      split <;> trivial
    case swrst | master | baud =>
      refine onWrite_refuses (fun r hr => ?_) fun _ => trivial
      have hw := seqWrite_refused hr
      rw [eq_of_beq hm] at hw
      cases hw
    case enable =>
      refine onWrite_refuses (fun r hr => ?_) fun _ => trivial
      have hw := seqSet_refused hr
      rw [eq_of_beq hm] at hw
      cases hw
  · by_cases hl : l = .check
    · subst hl
      dsimp only [runLine, startLine]
      refine onRead_refuses (fun r hr => absurd hr (seqRead_not_refused (.inl rfl))) fun v t => ?_
      split <;> trivial
    obtain ⟨_, ⟨hm, _⟩, hf⟩ := (at_start hl).mp h
    have hr := hm.2.2
    cases l <;> dsimp only [runLine, startLine]
    case check => exact absurd rfl hl
    case flags | failRead => exact onRead_refuses (fun r h => absurd h (seqRead_not_refused (.inr hr))) fun _ _ => trivial
    case status =>
      refine onRead_refuses (fun r h => absurd h (seqRead_not_refused (.inr hr))) fun v t => ?_
      split <;> trivial
    case cleanup | failClear =>
      exact onWrite_refuses (fun r h => absurd h (seqWrite_intflag_not_refused hr)) fun _ => trivial
    case address => exact onWrite_refuses (fun r => seqWrite_addr_refused hm) fun _ => trivial
    case poll =>
      exact pollLine_refuses (fun r h => absurd h (seqRead_not_refused (.inr hr))) (fun _ _ => trivial) fun _ => trivial
    case failStop =>
      rw [seqWrite_stop hm (eq_of_beq hf)]
      trivial
  · obtain ⟨_, ⟨hm, _⟩, _, hw⟩ := at_write.mp h
    cases l <;> dsimp only [runLine, writeLine]
    case data => exact onWrite_refuses (fun r => seqWrite_data_refused hm (hw rfl)) fun _ => trivial
    case wait =>
      refine onRead_refuses (fun r h => absurd h (seqRead_not_refused (.inr hm.2.2))) fun v t => ?_
      split
      · trivial
      · split <;> trivial
  · obtain ⟨_, ⟨hm, _⟩, hf⟩ := at_read.mp h
    cases l <;> dsimp only [runLine, readLine]
    case poll =>
      refine pollLine_refuses (fun r h => absurd h (seqRead_not_refused (.inr hm.2.2))) (fun v t => ?_) fun _ => trivial
      split <;> trivial
    case readCtrl | data =>
      exact onRead_refuses (fun r h => absurd h (seqRead_not_refused (.inr hm.2.2))) fun _ _ => trivial
    case writeCtrl =>
      rw [seqWrite_ack g hm (eq_of_beq (Bool.and_eq_true_iff.mp hf).2)]
      trivial
  · obtain ⟨_, ⟨hm, _⟩, hf, _⟩ := at_stop.mp h
    cases l <;> dsimp only [runLine, stopLine]
    case readCtrl => exact onRead_refuses (fun r h => absurd h (seqRead_not_refused (.inl rfl))) fun _ _ => trivial
    case writeCtrl =>
      rw [seqWrite_stop hm (eq_of_beq (Bool.and_eq_true_iff.mp hf).2)]
      trivial
  · trivial

/-! ### The refusals of a step -/

/-- A sequencer step is refused where its line's access is. -/
theorem seqStep_refused {p : Params} {o : Operation} {q : SeqPos} {s : State} {r : Refusal}
    (h : seqStep p o q s = .refused r) : runLine p q.line s = .refused r := by
  unfold seqStep at h
  split at h
  case h_4 st d t _ =>
    rcases itemEnded_cases q.op o q.item st d t with ⟨_, e⟩ | ⟨_, _, _, _, e⟩ | ⟨_, _, _, _, e⟩ | ⟨_, _, _, e⟩ <;>
      cases e.symm.trans h
  all_goals cases h
  assumption

/-- The block's own step is refused where the line's access is, the engine holding. -/
theorem advance_refused {s : State} {r : Refusal} (h : advance s = .refused r) :
    ∃ q f, s.seq = some q ∧ runLine Config.params q.line (s.setFeed f) = .refused r := by
  unfold advance at h
  split at h
  · rename_i q hq
    rcases blockStep_cases Config.params (operationOf q.op) q s with ⟨f, o, x, _, e⟩ | ⟨f, e⟩
    · rw [e] at h
      cases h
    · rw [e] at h
      cases hx : seqStep Config.params (operationOf q.op) q (s.setFeed f) with
      | refused r' =>
        rw [hx] at h
        cases h
        exact ⟨q, f, hq, seqStep_refused hx⟩
      | moved t | waits t | ended t =>
        rw [hx] at h
        cases h
  · split at h <;> cases h

/-- A step is refused at the issue of a word, which is reserved or whose operation may not begin, or it is the block's
own that is refused. -/
theorem step_refused {s : State} {r : Refusal} (h : step s = .refused r) :
    (∃ w rest, s.busy = false ∧ s.host = .issue w :: rest ∧ issue w (s.setHost rest) = .refused r) ∨
    ∃ hs, advance (s.setHost hs) = .refused r := by
  unfold step at h
  split at h
  · exact .inr ⟨s.host, h⟩
  · exact .inr ⟨_, h⟩
  · cases h
  · rename_i w rest hh
    split at h
    · exact .inr ⟨s.host, h⟩
    · rename_i hb
      exact .inl ⟨w, rest, by simpa using hb, hh, h⟩

/-- An issue with no operation running is refused for a reserved word, or for the phase (U1 to U5). -/
theorem issue_refused {w : Word} {s : State} {r : Refusal} (hq : s.seq = none) (h : issue w s = .refused r) :
    (∃ e, r = .reservedWord e) ∨ r = .illegalInPhase := by
  unfold issue at h
  split at h
  · cases h
    exact .inl ⟨_, rfl⟩
  · rename_i i _
    cases hl : legalIn i s.phase with
    | false =>
      rw [enter_illegal hq hl] at h
      cases h
      exact .inr rfl
    | true =>
      rw [enter_of_begin hq hl] at h
      cases h

/-- Settles O47. -/
theorem onlyForeseenRefusals : Obligations.OnlyForeseenRefusals := by
  intro s r hinv h
  rcases step_refused h with ⟨w, rest, hb, _, hi⟩ | ⟨hs, ha⟩
  · have hq : s.seq = none := by
      obtain ⟨_, _, _, ⟨hbusy, _, _⟩, _⟩ := hinv
      simpa [hb] using hbusy.symm
    rcases issue_refused (s := s.setHost rest) hq hi with ⟨e, rfl⟩ | rfl <;> exact ⟨rfl, nofun, nofun⟩
  · obtain ⟨q, f, hq, hr⟩ := advance_refused ha
    have hinv' : Inv ((s.setHost hs).setFeed f) := hinv
    obtain ⟨_, _, _, hat, _⟩ := (inv_iff (s := (s.setHost hs).setFeed f) hq).mp hinv'
    have href := runLine_refuses hat
    rw [hr] at href
    rcases href with ⟨rfl, hi⟩ | ⟨rfl, he⟩
    · exact ⟨rfl, fun _ => hi, nofun⟩
    · exact ⟨rfl, nofun, fun _ => he⟩

end Sys2Proof.Machine
end

section
/-! What an operation leaves unchanged in the engine, and O54, O55 (40_bus_engine.md R131, R133, R150, R153; 10_state.md
R41). -/

namespace Sys2Proof.Machine

/-! ### The writes of the listed accesses -/

/-- Outside `INIT` no line writes `BAUD` or sets bits. -/
theorem init_of_lineAccess_baud {l : Line} {e : Engine} {v : Word} (h : lineAccess l e = some (.wr .baud v)) :
    ∃ l', l = .init l' := by
  unfold lineAccess at h
  split at h <;> cases h
  exact ⟨_, rfl⟩

theorem init_of_lineAccess_set {l : Line} {e : Engine} {r : Reg} {m : Word} (h : lineAccess l e = some (.set r m)) :
    ∃ l', l = .init l' := by
  unfold lineAccess at h
  split at h <;> cases h
  exact ⟨_, rfl⟩

/-- Outside `INIT` a line writes `CTRL` with the mode set, no software reset, and the stored fields as they are, but for
`READ`'s `ACKACT`. -/
theorem ctrl_of_lineAccess {l : Line} {s : State} {v : Word} (hl : ∀ l', l ≠ .init l') (hr : LineRests l s)
    (h : lineAccess l s.eng = some (.wr .ctrl v)) :
    ModeSet s.eng ∧ v.getLsbD 0 = false ∧ (ctrlOfWord v).enable = true ∧ (ctrlOfWord v).master = true ∧
      ((∀ g l', l ≠ .read g l') → ctrlOfWord v = s.eng.ctrl) := by
  have stop : ModeSet s.eng → some (Access.wr .ctrl (if s.eng.ctrl.ackact then 0x00070006#32 else 0x00030006#32)) =
      some (.wr .ctrl v) → v.getLsbD 0 = false ∧ ctrlOfWord v = s.eng.ctrl := by
    rintro ⟨he, hm, _⟩ hv
    rw [← stopWord_ctrlBits he hm] at hv
    cases hv
    refine ⟨?_, ctrlOfWord_stopWord he hm⟩
    rw [stopWord_ctrlBits he hm]
    split <;> rfl
  rcases l with l | ⟨a, d, l⟩ | ⟨b, l⟩ | ⟨g, l⟩ | l | _
  case init => exact absurd rfl (hl l)
  case start =>
    cases l with
    | failStop e =>
      obtain ⟨hm, _⟩ := hr
      obtain ⟨h0, hc⟩ := stop hm h
      rw [hc]
      exact ⟨hm, h0, hm.1, hm.2.1, fun _ => rfl⟩
    | check | flags | cleanup | address | poll | status | failRead | failClear => cases h
  case write => cases l <;> cases h
  case read =>
    cases l with
    | writeCtrl =>
      cases h
      exact ⟨hr.1, by split <;> rfl, by split <;> rfl, by split <;> rfl, fun hn => absurd rfl (hn g .writeCtrl)⟩
    | poll | readCtrl | data => cases h
  case stop =>
    cases l with
    | writeCtrl =>
      obtain ⟨hm, _⟩ := hr
      obtain ⟨h0, hc⟩ := stop hm h
      rw [hc]
      exact ⟨hm, h0, hm.1, hm.2.1, fun _ => rfl⟩
    | readCtrl => cases h
  case convert => cases h

/-- A write of `CTRL` with no software reset stores its fields, whatever the command. -/
theorem writeReg_ctrl_stores {v : Word} {e : Engine} {x : Reaction} (h : writeReg .ctrl v e = .ok x)
    (h0 : v.getLsbD 0 = false) : x.eng.ctrl = ctrlOfWord v := by
  rw [writeReg_ctrl (writeReg_running h)] at h
  rcases reactWriteCtrl_ok h with ⟨h1, _⟩ | ⟨_, rfl | rfl⟩
  · exact nomatch h0.symm.trans h1
  · rfl
  · rfl

/-! ### The mode under a line that is not `INIT`'s -/

/-- `BAUD`, `ENABLE` and `MASTER` are as before. -/
def ModeKept (e e' : Engine) : Prop :=
  e'.baud = e.baud ∧ e'.ctrl.enable = e.ctrl.enable ∧ e'.ctrl.master = e.ctrl.master

theorem modeKept_of_eq {e e' : Engine} (hb : e'.baud = e.baud) (hc : e'.ctrl = e.ctrl) : ModeKept e e' := by
  rw [ModeKept, hb, hc]
  exact ⟨rfl, rfl, rfl⟩

theorem ModeKept.trans {e e' e'' : Engine} (h : ModeKept e e') (h' : ModeKept e' e'') : ModeKept e e'' :=
  ⟨h'.1.trans h.1, h'.2.1.trans h.2.1, h'.2.2.trans h.2.2⟩

theorem reactionOf_modeKept {l : Line} {s : State} {a : Access} {x : Reaction} (hl : ∀ l', l ≠ .init l')
    (hr : LineRests l s) (ha : lineAccess l s.eng = some a) (hx : reactionOf a s.eng = .ok x) :
    ModeKept s.eng x.eng := by
  cases a with
  | rd r v =>
    simp only [reactionOf] at hx
    split at hx
    · rename_i hread
      split at hx <;> cases hx
      obtain ⟨_, hc, hb, _⟩ := readReg_frame hread
      exact modeKept_of_eq hb hc
    · cases hx
  | wr r v =>
    have hw : writeReg r v s.eng = .ok x := hx
    obtain ⟨hbaud, hctrl, _⟩ := writeReg_frame hw
    by_cases hrb : r = .baud
    · subst hrb
      obtain ⟨l', hl'⟩ := init_of_lineAccess_baud ha
      exact absurd hl' (hl l')
    · by_cases hrc : r = .ctrl
      · subst hrc
        obtain ⟨⟨he, hm, _⟩, h0, he', hm', _⟩ := ctrl_of_lineAccess hl hr ha
        rw [ModeKept, writeReg_ctrl_stores hw h0]
        exact ⟨hbaud hrb, he'.trans he.symm, hm'.trans hm.symm⟩
      · exact modeKept_of_eq (hbaud hrb) (hctrl hrc)
  | set r m =>
    obtain ⟨l', hl'⟩ := init_of_lineAccess_set ha
    exact absurd hl' (hl l')
  | ext =>
    cases hx
    exact modeKept_of_eq rfl rfl

/-- The scripts of the operations but `INIT` do not call it. -/
theorem not_init_line {q : SeqPos} (hin : inScript q = true) (hop : q.op ≠ .init) (l : InitLine) : q.line ≠ .init l := by
  intro hl
  have hitem := primOf_of_inScript hin
  rw [hl] at hitem
  obtain ⟨it, hit, hprim⟩ := Option.map_eq_some_iff.mp hitem
  have hmem := List.mem_of_getElem? hit
  cases hs : isSensor q.op with
  | true => exact (sensor_script hs it hmem).1 hprim
  | false =>
    obtain ⟨op, k, l'⟩ := q
    cases op with
    | init => exact hop rfl
    | start | write | read | stop =>
      obtain rfl := List.mem_singleton.mp hmem
      cases hprim
    | convRh | convT => cases hmem
    | sReset | sReadSn | sReadRh | sReadT | sReadTl => cases hs

/-- In a state of the invariant a software reset runs only at the reset wait of `INIT`. -/
theorem not_resetting {q : SeqPos} {s : State} (hinv : Inv s) (hq : s.seq = some q) (hl : ∀ l, q.line ≠ .init l) :
    s.eng.inflight ≠ .resetPh := by
  obtain ⟨_, _, _, ⟨_, _, hmode, _⟩, _⟩ := (inv_iff hq).mp hinv
  have hm : ModeFits s := by
    unfold LineMode at hmode
    split at hmode
    · rename_i l hl'
      exact absurd hl' (hl l)
    · exact hmode
  by_cases hp : s.phase = .uninit
  · rw [hm.1 hp]
    nofun
  · exact (hm.2 hp).1.2.2

/-- A step of the block outside `INIT` leaves the mode. -/
theorem EngineMoves.modeKept {q : SeqPos} {s t : State} (h : EngineMoves q.line s t) (hinv : Inv s)
    (hq : s.seq = some q) (hop : q.op ≠ .init) : ModeKept s.eng t.eng := by
  obtain ⟨hin, _, hrests⟩ := standing_of_inv hinv hq
  have hl := not_init_line hin hop
  rcases h with ⟨o, x, hc, heng, _⟩ | ⟨a, x, ha, hx, heng, _⟩ | ⟨heng, _⟩
  · obtain ⟨hctrl, hbaud, _⟩ := complete_keeps_mode hc (not_resetting hinv hq hl)
    rw [heng]
    exact modeKept_of_eq hbaud hctrl
  · rw [heng]
    exact reactionOf_modeKept hl hrests ha hx
  · exact modeKept_of_eq (by rw [heng]) (by rw [heng])

theorem EngineMoves.wire_grows {l : Line} {s t : State} (h : EngineMoves l s t) : ∃ new, t.wire = s.wire ++ new := by
  rcases h with ⟨_, x, _, _, hw, _⟩ | ⟨_, x, _, _, _, hw, _⟩ | ⟨_, hw, _⟩
  · exact ⟨x.wire, hw⟩
  · exact ⟨x.wire, hw⟩
  · exact ⟨[], by simp [hw]⟩

/-! ### What holds along an operation -/

/-- What holds of every state with the engine, the wire and the host's side as they were where the operation is taken up,
and is kept by the engine's moves in it, holds where `exec` stops. -/
theorem exec_moves_hold {i : Instr} {P : State → Prop} {s t : State} (hinv : Inv s) (h : exec i s = .next t)
    (hP : ∀ u, SameHostSide s u → u.eng = s.eng → u.wire = s.wire → P u)
    (hstep : ∀ {u v q}, Inv u → u.seq = some q → q.op = i → EngineMoves q.line u v → SameHostSide u v → P u → P v) :
    P t := by
  refine ((exec_next_holds (Q := fun u => Inv u ∧ P u) (R := fun u => Inv u ∧ P u) ?_ ?_ ?_ h).elim id id).2
  · rintro u q ⟨hu, hPu⟩ hq rfl
    have step : ∀ v, EngineMoves q.line u v → SameHostSide u v → P v := fun v hm hh => hstep hu hq rfl hm hh hPu
    refine ((blockStep_keeps_inv hu hq).and ((blockStep_engineMoves hq (standing_of_inv hu hq).2).and
      (blockStep_frame Config.params (operationOf q.op) hq))).mono ?_ ?_ ?_
    · exact fun v ⟨hv, hm, hh, _⟩ => ⟨hv, step v hm hh⟩
    · exact fun v ⟨hv, hm, hh, _⟩ => ⟨hv, step v hm hh⟩
    · exact fun v ⟨hv, hm, hh, _⟩ => ⟨hv, step v hm hh⟩
  · intro hq hl
    exact ⟨inv_beginOperation hinv hq hl,
      hP _ ⟨beginOperation_host .., beginOperation_cmdWord ..⟩ (beginOperation_eng ..) (beginOperation_wire ..)⟩
  · exact fun _ _ _ => ⟨hinv, hP s ⟨rfl, rfl⟩ rfl rfl⟩

/-- Settles O54. -/
theorem frameOfEveryOperation : Obligations.FrameOfEveryOperation := by
  intro i s t hinv h
  have hframe := exec_moves_hold (P := fun u => SameHostSide s u ∧ (∃ new, u.wire = s.wire ++ new) ∧
    (i ≠ .init → ModeKept s.eng u.eng)) hinv h ?_ ?_
  · obtain ⟨⟨hhost, hcmd⟩, hwire, hmode⟩ := hframe
    exact ⟨hcmd, hhost, hwire, hmode⟩
  · exact fun u hh he hw => ⟨hh, ⟨[], by simp [hw]⟩, fun _ => modeKept_of_eq (by rw [he]) (by rw [he])⟩
  · rintro u v q hu hq rfl hm ⟨hhost, hcmd⟩ ⟨⟨hhost', hcmd'⟩, ⟨new, hw⟩, hmode⟩
    obtain ⟨new', hw'⟩ := hm.wire_grows
    exact ⟨⟨hhost.trans hhost', hcmd.trans hcmd'⟩, ⟨new ++ new', by rw [hw', hw, List.append_assoc]⟩,
      fun hop => (hmode hop).trans (hm.modeKept hu hq hop)⟩

/-! ### `WRITE`, `READ` and `STOP` -/

/-- The address and the direction are as before, none of the error flags has fallen, and `CTRL` is as before, but in a
`READ`. -/
structure Kept (i : Instr) (e e' : Engine) : Prop where
  address : e'.addr = e.addr ∧ e'.dir = e.dir
  flags : FlagsKept e e'
  ctrl : (∀ g, i ≠ .read g) → e'.ctrl = e.ctrl

theorem kept_of_eq {i : Instr} {e e' : Engine} (h : e' = e) : Kept i e e' := by
  subst h
  exact ⟨⟨rfl, rfl⟩, .of_eq rfl rfl, fun _ => rfl⟩

theorem FlagsKept.trans {e e' e'' : Engine} (h : FlagsKept e e') (h' : FlagsKept e' e'') : FlagsKept e e'' :=
  ⟨h'.1 ∘ h.1, h'.2.1 ∘ h.2.1, h'.2.2 ∘ h.2.2⟩

theorem Kept.trans {i : Instr} {e e' e'' : Engine} (h : Kept i e e') (h' : Kept i e' e'') : Kept i e e'' :=
  ⟨⟨h'.address.1.trans h.address.1, h'.address.2.trans h.address.2⟩, h.flags.trans h'.flags,
    fun hi => (h'.ctrl hi).trans (h.ctrl hi)⟩

/-- The three primitives that begin no transaction. -/
def WithinTransaction (i : Instr) : Prop := i = .stop ∨ (∃ b, i = .write b) ∨ ∃ g, i = .read g

/-- A primitive the host issued stands at its own lines. -/
theorem primOf_of_hostPrimitive {q : SeqPos} {x : Prim} {k : Keep} (hin : inScript q = true)
    (h : operationOf q.op = hostPrimitive x k) : primOf q.line = some x := by
  simp only [inScript, h, hostPrimitive] at hin
  split at hin
  · rename_i y hy
    obtain rfl := List.mem_singleton.mp (List.mem_of_getElem? hy)
    exact primOf_of_lineOf hin
  · cases hin

theorem primOf_within {q : SeqPos} (hin : inScript q = true) (h : WithinTransaction q.op) :
    (q.op = .stop ∧ primOf q.line = some .stop) ∨ (∃ b, q.op = .write b ∧ primOf q.line = some (.write b)) ∨
      ∃ g, q.op = .read g ∧ primOf q.line = some (.read g) := by
  rcases h with h | ⟨b, h⟩ | ⟨g, h⟩
  · exact .inl ⟨h, primOf_of_hostPrimitive hin (by rw [h]; rfl)⟩
  · exact .inr (.inl ⟨b, h, primOf_of_hostPrimitive hin (by rw [h]; rfl)⟩)
  · exact .inr (.inr ⟨g, h, primOf_of_hostPrimitive hin (by rw [h]; rfl)⟩)

/-- Such a primitive writes `DATA` and `CTRL` only, by the table of its accesses. -/
theorem reg_within {q : SeqPos} {e : Engine} {r : Reg} {v : Word} (hin : inScript q = true)
    (h : WithinTransaction q.op) (ha : lineAccess q.line e = some (.wr r v)) : r = .data ∨ r = .ctrl := by
  rcases primOf_within hin h with ⟨_, hp⟩ | ⟨b, _, hp⟩ | ⟨g, _, hp⟩ <;>
  · have hmay := primMay_lineAccess hp ha
    cases r with
    | data => exact .inl rfl
    | ctrl => exact .inr rfl
    | baud | intflag | status | addr => cases hmay

theorem reactionOf_kept {q : SeqPos} {s : State} {a : Access} {x : Reaction} (hin : inScript q = true)
    (hop : WithinTransaction q.op) (hl : ∀ l, q.line ≠ .init l) (hr : LineRests q.line s)
    (ha : lineAccess q.line s.eng = some a) (hx : reactionOf a s.eng = .ok x) : Kept q.op s.eng x.eng := by
  cases a with
  | rd r v =>
    simp only [reactionOf] at hx
    split at hx
    · rename_i hread
      split at hx <;> cases hx
      obtain ⟨hf, hc, _, haddr, hdir⟩ := readReg_frame hread
      exact ⟨⟨haddr, hdir⟩, hf, fun _ => hc⟩
    · cases hx
  | wr r v =>
    have hw : writeReg r v s.eng = .ok x := hx
    obtain ⟨_, hctrl, haddress⟩ := writeReg_frame hw
    have hflags := writeReg_flagsStand hw
    rcases reg_within hin hop ha with rfl | rfl
    · exact ⟨haddress nofun, flagsKept_of_stand hflags nofun nofun, fun _ => hctrl nofun⟩
    · obtain ⟨_, h0, _, _, hc⟩ := ctrl_of_lineAccess hl hr ha
      refine ⟨haddress nofun, flagsKept_of_stand hflags nofun nofun, fun hread => ?_⟩
      rw [writeReg_ctrl_stores hw h0]
      refine hc fun g l' hline => ?_
      rcases primOf_within hin hop with ⟨_, hp⟩ | ⟨b, _, hp⟩ | ⟨g, hg, _⟩
      · rw [hline] at hp
        cases hp
      · rw [hline] at hp
        cases hp
      · exact hread g hg
  | set r m =>
    obtain ⟨l', hl'⟩ := init_of_lineAccess_set ha
    exact absurd hl' (hl l')
  | ext =>
    cases hx
    exact kept_of_eq rfl

theorem EngineMoves.kept {q : SeqPos} {s t : State} (h : EngineMoves q.line s t) (hinv : Inv s)
    (hq : s.seq = some q) (hop : WithinTransaction q.op) : Kept q.op s.eng t.eng := by
  obtain ⟨hin, _, hrests⟩ := standing_of_inv hinv hq
  have hl := not_init_line hin (by rcases hop with h | ⟨b, h⟩ | ⟨g, h⟩ <;> rw [h] <;> nofun)
  rcases h with ⟨o, x, hc, heng, _⟩ | ⟨a, x, ha, hx, heng, _⟩ | ⟨heng, _⟩
  · have hr := not_resetting hinv hq hl
    obtain ⟨hctrl, _, haddr, hdir, _⟩ := complete_keeps_mode hc hr
    rw [heng]
    exact ⟨⟨haddr, hdir⟩, complete_flagsKept hc hr, fun _ => hctrl⟩
  · rw [heng]
    exact reactionOf_kept hin hop hl hrests ha hx
  · exact kept_of_eq heng

/-- Settles O55. -/
theorem frameOfWriteReadAndStop : Obligations.FrameOfWriteReadAndStop := by
  intro i s t hi hinv h
  have hkept := exec_moves_hold (P := fun u => Kept i s.eng u.eng) hinv h (fun u _ he _ => kept_of_eq he) ?_
  · obtain ⟨⟨haddr, hdir⟩, ⟨herr, hbus, harb⟩, hctrl⟩ := hkept
    exact ⟨haddr, hdir, hbus, harb, herr, hctrl⟩
  · rintro u v q hu hq rfl hm _ hk
    exact hk.trans (hm.kept hu hq hi)

end Sys2Proof.Machine
end

section
/-! The model's finding, run from the hardware reset, and O49 (41_bus_primitives.md R178; 40_bus_engine.md R140; log entry
15). -/

namespace Sys2Proof.Machine

/-! ### The lines of `START` where each goes on -/

/-- The state after a read of a register but `DATA`. -/
def afterRead (r : Reg) (s : State) : State :=
  (afterAccess (.rd r (regValue r s.eng)) { eng := s.eng, wire := [] } s).setWork (latch r (regValue r s.eng) s.work)

@[simp] theorem afterRead_eng (r : Reg) (s : State) : (afterRead r s).eng = s.eng := rfl

@[simp] theorem afterRead_feed (r : Reg) (s : State) : (afterRead r s).feed = s.feed := rfl

@[simp] theorem afterRead_wire (r : Reg) (s : State) : (afterRead r s).wire = s.wire := List.append_nil _

@[simp] theorem afterRead_trace (r : Reg) (s : State) :
    (afterRead r s).trace = s.trace ++ [.rd r (regValue r s.eng)] := rfl

theorem seqRead_eq_afterRead {r : Reg} {s : State} (hr : r ≠ .data) (h : r = .ctrl ∨ s.eng.inflight ≠ .resetPh) :
    seqRead r s = .ok (regValue r s.eng, afterRead r s) := by
  rw [seqRead_ok h, if_neg hr]
  rfl

section
variable {p : Params} {a : BitVec 7} {d : Dir} {s : State}

theorem startLine_check (h : (regValue .ctrl s.eng).getLsbD 1 = true) :
    runLine p (.start a d .check) s = .goto (.start a d .flags) (afterRead .ctrl s) := by
  simp only [runLine, startLine, seqRead_eq_afterRead (r := .ctrl) nofun (.inl rfl), onRead, h, if_true]

theorem startLine_flags (hr : s.eng.inflight ≠ .resetPh) (h : s.eng.intflag.error = false) :
    runLine p (.start a d .flags) s = .goto (.start a d .address) (afterRead .intflag s) := by
  have h7 : (regValue .intflag s.eng).getLsbD 7 = false := (intflagBits_bit7 _).trans h
  simp only [runLine, startLine, seqRead_eq_afterRead (r := .intflag) nofun (.inr hr), onRead, h7]
  rfl

/-- The engine after the write of the address byte on a bus it does not own. -/
def startedOn (a : BitVec 7) (d : Dir) (e : Engine) : Engine :=
  { e with
    ackPending := false, addr := addrByte a d, owned := true, dir := d
    intflag := clearMbSb e.intflag, status := statusClear, inflight := .addrPh }

/-- The reaction to that write. -/
def startReaction (a : BitVec 7) (d : Dir) (e : Engine) : Reaction :=
  { eng := startedOn a d e, wire := [.s, .address (addrByte a d)] }

theorem startLine_address (hm : ModeSet s.eng) (hi : s.eng.inflight = .none) (ho : s.eng.owned = false)
    (hp : s.eng.ackPending = false) :
    runLine p (.start a d .address) s = .goto (.start a d .poll)
      (afterAccess (.wr .addr ((addrByte a d).setWidth 32)) (startReaction a d s.eng) s) := by
  have hw : writeReg .addr ((addrByte a d).setWidth 32) s.eng = .ok (startReaction a d s.eng) := by
    rw [writeReg_addr hm.2.2, setWidth_byte]
    simp [reactWriteAddr, active_of_modeSet hm, hi, ho, hp, pendingAck, startReaction, startedOn]
  simp only [runLine, startLine, seqWrite, hw, onWrite]

theorem startLine_poll_error (hr : s.eng.inflight ≠ .resetPh) (h : s.eng.intflag.error = true) :
    runLine p (.start a d .poll) s = .goto (.start a d .status)
      ((afterRead .intflag s).setWork { (afterRead .intflag s).work with
        pollcnt := (afterRead .intflag s).work.pollcnt + 1 }) := by
  have hf : ¬(regValue .intflag s.eng &&& (maskMb ||| maskError) = 0#32) := fun h0 =>
    nomatch h.symm.trans ((intflagBits_mb_or_error _).mp h0).2
  simp only [runLine, startLine, pollLine, seqRead_eq_afterRead (r := .intflag) nofun (.inr hr), onRead, ne_eq, hf,
    not_false_eq_true, if_true]

theorem startLine_status (hr : s.eng.inflight ≠ .resetPh) (h : s.eng.status = statusClear) :
    runLine p (.start a d .status) s = .done .ok 0#8 ((afterRead .status s).setPhase (dataPhase d)) := by
  have ht : regValue .status s.eng &&& maskStatusErr = 0#32 := by
    rw [regValue, h]
    rfl
  simp only [runLine, startLine, seqRead_eq_afterRead (r := .status) nofun (.inr hr), onRead, ne_eq, ht, not_true_eq_false,
    if_false]

end

/-! ### The run of `START` over the race -/

/-- A line that goes on, taken where the engine holds or has nothing in flight. -/
theorem blockStep_goto {p : Params} {o : Operation} {q : SeqPos} {l : Line} {s u t : State}
    (hm : engineMove p s = .holds u) (hl : runLine p q.line u = .goto l t) :
    blockStep p o q s = .moved (moveTo q.op q.item l t) := by
  simp only [blockStep, hm, seqStep, hl]

/-- The engine's own moment. -/
theorem blockStep_completed {p : Params} {o : Operation} {q : SeqPos} {s u : State}
    (hm : engineMove p s = .completed u) : blockStep p o q s = .moved u := by
  simp only [blockStep, hm]

/-- A line that ends its item, taken where the engine holds or has nothing in flight. -/
theorem blockStep_done {p : Params} {o : Operation} {q : SeqPos} {st : Code} {b : Byte} {s u t : State}
    (hm : engineMove p s = .holds u) (hl : runLine p q.line u = .done st b t) :
    blockStep p o q s = itemEnded q.op o q.item st b t := by
  simp only [blockStep, hm, seqStep, hl]

theorem itemEnded_start (a : BitVec 7) (d : Dir) (b : Byte) (s : State) :
    itemEnded (.start a d) (startOperation a d) 0 .ok b s = .ended (finish .ok .ok s) := rfl

/-- `START` stands at the line `l`, with the engine `e` and the turns `ts` still to come. -/
structure StartAt (a : BitVec 7) (d : Dir) (l : StartLine) (e : Engine) (ts : List Turn) (trace : List Access)
    (wire : List Wire) (s : State) : Prop where
  seq : s.seq = some { op := .start a d, item := 0, line := .start a d l }
  eng : s.eng = e
  turns : s.feed.turns = ts
  trace : s.trace = trace
  wire : s.wire = wire

namespace StartAt
section
variable {p : Params} {a : BitVec 7} {d : Dir} {e : Engine} {ts : List Turn} {trace : List Access} {wire : List Wire}
  {s : State} {n : Nat} {x : Progress}

theorem begin (a : BitVec 7) (d : Dir) (s : State) :
    StartAt a d .check s.eng s.feed.turns s.trace s.wire (beginOperation (.start a d) (startOperation a d) s) :=
  ⟨rfl, rfl, rfl, rfl, rfl⟩

theorem check (h : StartAt a d .check e (.hold :: ts) trace wire s) (hi : e.inflight ≠ .none)
    (he : (regValue .ctrl e).getLsbD 1 = true) :
    ∃ t, blockStep p (startOperation a d) { op := .start a d, item := 0, line := .start a d .check } s = .moved t ∧
      StartAt a d .flags e ts (trace ++ [.rd .ctrl (regValue .ctrl e)]) wire t := by
  obtain ⟨hq, rfl, ht, rfl, rfl⟩ := h
  exact ⟨_, blockStep_goto (engineMove_hold hi ht) (startLine_check he), by constructor <;> simp⟩

theorem flags (h : StartAt a d .flags e (.hold :: ts) trace wire s) (hi : e.inflight ≠ .none)
    (hr : e.inflight ≠ .resetPh) (he : e.intflag.error = false) :
    ∃ t, blockStep p (startOperation a d) { op := .start a d, item := 0, line := .start a d .flags } s = .moved t ∧
      StartAt a d .address e ts (trace ++ [.rd .intflag (regValue .intflag e)]) wire t := by
  obtain ⟨hq, rfl, ht, rfl, rfl⟩ := h
  exact ⟨_, blockStep_goto (engineMove_hold hi ht) (startLine_flags hr he), by constructor <;> simp⟩

theorem complete {l : StartLine} {o : EnvOutcome} {y : Reaction} (h : StartAt a d l e (.go o :: ts) trace wire s)
    (hc : Machine.complete p o e = some y) :
    ∃ t, blockStep p (startOperation a d) { op := .start a d, item := 0, line := .start a d l } s = .moved t ∧
      StartAt a d l y.eng ts trace (wire ++ y.wire) t := by
  obtain ⟨hq, rfl, ht, rfl, rfl⟩ := h
  exact ⟨_, blockStep_completed (engineMove_complete hc ht), hq, rfl, rfl, rfl, rfl⟩

theorem address (h : StartAt a d .address e ts trace wire s) (hm : ModeSet e) (hi : e.inflight = .none)
    (ho : e.owned = false) (hp : e.ackPending = false) :
    ∃ t, blockStep p (startOperation a d) { op := .start a d, item := 0, line := .start a d .address } s = .moved t ∧
      StartAt a d .poll (startedOn a d e) ts (trace ++ [.wr .addr ((addrByte a d).setWidth 32)])
        (wire ++ [.s, .address (addrByte a d)]) t := by
  obtain ⟨hq, rfl, ht, rfl, rfl⟩ := h
  exact ⟨_, blockStep_goto (engineMove_quiet hi) (startLine_address hm hi ho hp), rfl, rfl, ht, rfl, rfl⟩

theorem poll (h : StartAt a d .poll e (.hold :: ts) trace wire s) (hi : e.inflight ≠ .none)
    (hr : e.inflight ≠ .resetPh) (he : e.intflag.error = true) :
    ∃ t, blockStep p (startOperation a d) { op := .start a d, item := 0, line := .start a d .poll } s = .moved t ∧
      StartAt a d .status e ts (trace ++ [.rd .intflag (regValue .intflag e)]) wire t := by
  obtain ⟨hq, rfl, ht, rfl, rfl⟩ := h
  exact ⟨_, blockStep_goto (engineMove_hold hi ht) (startLine_poll_error hr he), by constructor <;> simp⟩

/-- `START` reads no failure in `STATUS` and ends OK in the data phase. -/
theorem status (h : StartAt a d .status e (.hold :: ts) trace wire s) (hi : e.inflight ≠ .none)
    (hr : e.inflight ≠ .resetPh) (he : e.status = statusClear) :
    ∃ t, blockStep p (startOperation a d) { op := .start a d, item := 0, line := .start a d .status } s = .ended t ∧
      t.seq = none ∧ t.res.status = 0x00#8 ∧ t.phase = dataPhase d ∧ t.eng = e ∧ t.feed.turns = ts ∧
      t.trace = trace ++ [.rd .status (regValue .status e)] ∧ t.wire = wire := by
  obtain ⟨hq, rfl, ht, rfl, rfl⟩ := h
  have hl := startLine_status (p := p) (a := a) (d := d) (s := s.setFeed { s.feed with turns := ts }) hr he
  refine ⟨_, (blockStep_done (engineMove_hold hi ht) hl).trans (itemEnded_start ..), ?_⟩
  simp [finish, codeByte]

end
end StartAt

/-! ### The finding -/

/-- The engine with a reception in flight, after an acknowledged address byte `0x81`. -/
def withheld : Engine :=
  { bootEngine true true Config.baudDiv with
    intflag := { mb := true, sb := false, error := false }, addr := 0x81#8, owned := true, dir := .read, inflight := .rxPh }

/-- The turns of the race: `START`'s two reads, the bus error before its write of `ADDR`, two reads more; and the
moment of the `WRITE` after it. -/
def raceTurns : List Turn := [.hold, .hold, .go .buserr, .hold, .hold, .hold]

/-- `START` reads `INTFLAG` before the bus error and writes `ADDR` after it, so its poll finds the stale `ERROR`. -/
theorem exec_start_race {s : State} (hq : s.seq = none) (he : s.eng = withheld) (ht : s.feed.turns = raceTurns) :
    ∃ t, exec (.start 0x40#7 .write) s = .next t ∧ t.seq = none ∧ t.res.status = 0x00#8 ∧ t.phase = .dataW ∧
      t.eng = startedOn 0x40#7 .write (flagBusError withheld) ∧ t.feed.turns = [.hold] ∧
      t.trace = s.trace ++
        [.rd .ctrl 0x6#32, .rd .intflag 0x01#32, .wr .addr 0x80#32, .rd .intflag 0x80#32, .rd .status 0x0#32] ∧
      t.wire = s.wire ++ [.s, .address 0x80#8] := by
  have h0 := StartAt.begin 0x40#7 .write s
  rw [he, ht, raceTurns] at h0
  obtain ⟨s1, b0, h1⟩ := h0.check (p := Config.params) (by decide) (by decide)
  obtain ⟨s2, b1, h2⟩ := h1.flags (p := Config.params) (by decide) (by decide) (by decide)
  obtain ⟨s3, b2, h3⟩ := h2.complete (p := Config.params) (o := .buserr) rfl
  obtain ⟨s4, b3, h4⟩ := h3.address (p := Config.params) ⟨by decide, by decide, by decide⟩ (by decide) (by decide) (by decide)
  obtain ⟨s5, b4, h5⟩ := h4.poll (p := Config.params) (by decide) (by decide) (by decide)
  obtain ⟨t, b5, hs, hr, hp, heng, hturns, htrace, hwire⟩ :=
    h5.status (p := Config.params) (by decide) (by decide) (by decide)
  have hrun : Leads Config.params (startOperation 0x40#7 .write) 6 _ (.ended t) :=
    .more h0.seq b0 (.more h1.seq b1 (.more h2.seq b2 (.more h3.seq b3 (.more h4.seq b4 (.last h5.seq b5)))))
  refine ⟨t, ?_, hs, hr, hp, heng, hturns, ?_, ?_⟩
  · rw [exec_of_begin hq rfl]
    exact runSteps_of_leads hrun ((by decide : 6 ≤ 27).trans (stepBound_pos ..))
  · rw [htrace]
    simp only [List.append_assoc]
    rfl
  · rw [hwire]
    simp only [List.append_nil]
    rfl

/-- A `WRITE` of `DATA` with an address phase in flight is refused. -/
theorem exec_write_refused {b : Byte} {s : State} {rest : List Turn} (hq : s.seq = none) (hp : s.phase = .dataW)
    (hm : ModeSet s.eng) (hi : s.eng.inflight = .addrPh) (ht : s.feed.turns = .hold :: rest) :
    exec (.write b) s = .refused .dataOutsideWrite := by
  have hw : writeReg .data (b.setWidth 32) s.eng = .error .dataOutsideWrite := by
    rw [writeReg_data hm.2.2]
    simp [reactWriteData, active_of_modeSet hm, hi]
  have hb : blockStep Config.params (writeOperation b) { op := .write b, item := 0, line := .write b .data }
      (beginOperation (.write b) (writeOperation b) s) = .refused .dataOutsideWrite := by
    have hmove : engineMove Config.params (beginOperation (.write b) (writeOperation b) s) = .holds _ :=
      engineMove_hold (by simp [hi]) (by simpa using ht)
    simp only [blockStep, hmove, seqStep, runLine, writeLine, seqWrite, beginOperation_eng, State.setFeed_eng, hw, onWrite]
  rw [exec_of_begin hq (by rw [hp]; rfl)]
  obtain ⟨n, hn⟩ := Nat.exists_eq_add_of_le' (stepBound_pos Config.params (writeOperation b))
  exact (congrArg (runSteps _ _ · _) hn).trans (runSteps_refused rfl hb)

/-- `POLL_BUDGET` moments without a byte, then the race. -/
def raceTail : List Turn := List.replicate Config.params.pollBudget .hold ++ raceTurns

/-- `INIT`, `START 0x40,R` and `READ` from reset: the bytes of both address phases are acknowledged at once, and no byte
follows. -/
def raceStart : State :=
  (State.reset.setHost [.issue 0x00000000#32, .issue 0x01000081#32, .issue 0x03000001#32]).setFeed
    { turns := [.go .ack, .go .ack, .hold, .hold] ++ raceTail, draws := 0 }

/-- The state the steps from reset to the `READ`'s first poll lead to. -/
def racePoll : State :=
  match Host.Core.run core 19 raceStart with
  | .next t => t
  | _ => State.reset

section
set_option maxRecDepth 100000

theorem run_raceStart : Host.Core.run core 19 raceStart = .next racePoll := by rfl

theorem racePoll_seq : racePoll.seq = some { op := .read true, item := 0, line := .read true .poll } := by rfl

theorem racePoll_host : racePoll.host = [] := by rfl

theorem racePoll_eng : racePoll.eng = withheld := by rfl

theorem racePoll_pollcnt : racePoll.work.pollcnt = 0 := by rfl

theorem racePoll_turns : racePoll.feed.turns = raceTail := by rfl

end

/-- A run from reset leads to `IDLE` with the reception in flight: the `READ` times out. -/
theorem reachable_race : ∃ s, Reachable s ∧ s.phase = .idle ∧ s.seq = none ∧ s.eng = withheld ∧
    s.feed.turns = raceTurns := by
  have hpoll : Reachable racePoll := (Reachable.reset _ _).run run_raceStart
  obtain ⟨s, hs, he, _, _, hq, _, hp, hf⟩ := run_read_timeout (g := true) (n := Config.pollExtra) (rest := raceTurns)
    racePoll_seq racePoll_host (racePoll_eng ▸ rfl) (racePoll_eng ▸ rfl) (racePoll_eng ▸ rfl)
    (by rw [racePoll_pollcnt, Nat.zero_add]; rfl) racePoll_turns
  exact ⟨s, hpoll.run hs, hp, hq, he.trans racePoll_eng, hf ▸ rfl⟩

theorem wireInv_of_reachable {s : State} (h : Reachable s) : WireInv s = true := by
  induction h with
  | reset h f => exact (resetMeetsTheInvariants h f).2
  | step hr hs ih => exact stepKeepsTheWireShape _ _ (inv_of_reachable hr) ih hs

/-- Settles O49: the bus error falls between `START`'s read of `INTFLAG` and its write of `ADDR`. -/
theorem staleErrorCanEndTheAddressPoll : Obligations.StaleErrorCanEndTheAddressPoll := by
  obtain ⟨s, hreach, hp, hq, he, ht⟩ := reachable_race
  obtain ⟨t, hx, hq', hok, hp', he', ht', htrace, hwire⟩ := exec_start_race hq he ht
  have hflight : t.eng.inflight = .addrPh := by rw [he']; rfl
  have hmode : ModeSet t.eng := by
    rw [he']
    exact ⟨rfl, rfl, nofun⟩
  exact ⟨s, t, hreach, inv_of_reachable hreach, wireInv_of_reachable hreach, hp, hq, he ▸ rfl, hx, hok, hp', hflight,
    htrace, he ▸ rfl, hwire, exec_write_refused hq' hp' hmode hflight ht'⟩

end Sys2Proof.Machine
end

section
/-! A primitive the host issued, followed line by line: where it stands, and how the lines and the engine move it on
(41_bus_primitives.md R170 to R190). -/

namespace Sys2Proof.Machine

/-! ### How far a primitive has come -/

/-- How far a primitive the host issued has come: the engine and the working registers, the accesses and the wire events
since it began, and the turns left. -/
structure Spot where
  eng : Engine
  work : Work
  acc : List Access
  wire : List Wire
  turns : List Turn

namespace Spot

/-- Where a primitive taken up in the state `s` has come so far. -/
def of (s : State) : Spot := { eng := s.eng, work := s.work, acc := [], wire := [], turns := s.feed.turns }

/-- The state of the primitive `i` at the line `l`, taken up in the state `s`. -/
def on (c : Spot) (i : Instr) (l : Line) (s : State) : State :=
  { s with
    busy := true, seq := some { op := i, item := 0, line := l }, work := c.work, eng := c.eng
    trace := s.trace ++ c.acc, wire := s.wire ++ c.wire, feed := { s.feed with turns := c.turns } }

/-- The state in which a primitive taken up in `s` has ended with the results `r`, in the phase `ph`. -/
def off (c : Spot) (r : Results) (ph : Phase) (s : State) : State :=
  { s with
    busy := false, seq := none, res := r, work := c.work, phase := ph, eng := c.eng
    trace := s.trace ++ c.acc, wire := s.wire ++ c.wire, feed := { s.feed with turns := c.turns } }

/-- A register but `DATA` is read. -/
def read (c : Spot) (r : Reg) : Spot :=
  { c with work := latch r (regValue r c.eng) c.work, acc := c.acc ++ [.rd r (regValue r c.eng)] }

/-- An access with a reaction is made. -/
def react (c : Spot) (a : Access) (x : Reaction) : Spot :=
  { c with eng := x.eng, acc := c.acc ++ [a], wire := c.wire ++ x.wire }

/-- The count of the bounded poll is `n`. -/
def counting (c : Spot) (n : Nat) : Spot := { c with work := { c.work with pollcnt := n } }

/-- A bounded poll reads `INTFLAG` and counts the read. -/
def poll (c : Spot) : Spot := (c.read .intflag).counting (c.work.pollcnt + 1)

/-- The engine completes what it has in flight. -/
def completed (c : Spot) (x : Reaction) (ts : List Turn) : Spot :=
  { c with eng := x.eng, wire := c.wire ++ x.wire, turns := ts }

/-- The turns left are `ts`. -/
def due (c : Spot) (ts : List Turn) : Spot := { c with turns := ts }

/-- From `c` a moment leads to `u` in which the engine takes no step. -/
def Idles (c u : Spot) : Prop :=
  c.eng.inflight = .none ∧ u = c ∨ c.eng.inflight ≠ .none ∧ ∃ ts, c.turns = .hold :: ts ∧ u = c.due ts

end Spot

section
variable (c : Spot) (r : Reg) (a : Access) (x : Reaction) (ts : List Turn)

@[simp] theorem Spot.of_eng (s : State) : (Spot.of s).eng = s.eng := rfl
@[simp] theorem Spot.of_acc (s : State) : (Spot.of s).acc = [] := rfl
@[simp] theorem Spot.of_wire (s : State) : (Spot.of s).wire = [] := rfl
@[simp] theorem Spot.read_eng : (c.read r).eng = c.eng := rfl
@[simp] theorem Spot.read_acc : (c.read r).acc = c.acc ++ [.rd r (regValue r c.eng)] := rfl
@[simp] theorem Spot.read_wire : (c.read r).wire = c.wire := rfl
@[simp] theorem Spot.read_turns : (c.read r).turns = c.turns := rfl
@[simp] theorem Spot.poll_eng : c.poll.eng = c.eng := rfl
@[simp] theorem Spot.poll_acc : c.poll.acc = c.acc ++ [.rd .intflag (regValue .intflag c.eng)] := rfl
@[simp] theorem Spot.poll_wire : c.poll.wire = c.wire := rfl
@[simp] theorem Spot.poll_turns : c.poll.turns = c.turns := rfl
@[simp] theorem Spot.react_eng : (c.react a x).eng = x.eng := rfl
@[simp] theorem Spot.react_acc : (c.react a x).acc = c.acc ++ [a] := rfl
@[simp] theorem Spot.react_wire : (c.react a x).wire = c.wire ++ x.wire := rfl
@[simp] theorem Spot.react_turns : (c.react a x).turns = c.turns := rfl
@[simp] theorem Spot.completed_eng : (c.completed x ts).eng = x.eng := rfl
@[simp] theorem Spot.completed_acc : (c.completed x ts).acc = c.acc := rfl
@[simp] theorem Spot.completed_wire : (c.completed x ts).wire = c.wire ++ x.wire := rfl
@[simp] theorem Spot.due_eng : (c.due ts).eng = c.eng := rfl
@[simp] theorem Spot.due_acc : (c.due ts).acc = c.acc := rfl
@[simp] theorem Spot.due_wire : (c.due ts).wire = c.wire := rfl
@[simp] theorem Spot.due_turns : (c.due ts).turns = ts := rfl
@[simp] theorem Spot.completed_turns : (c.completed x ts).turns = ts := rfl

@[simp] theorem Spot.off_wire (ph : Phase) (q : Results) (s : State) : (c.off q ph s).wire = s.wire ++ c.wire := rfl
@[simp] theorem Spot.off_trace (ph : Phase) (q : Results) (s : State) : (c.off q ph s).trace = s.trace ++ c.acc := rfl

end

theorem idles_quiet {c : Spot} (h : c.eng.inflight = .none) : c.Idles c := .inl ⟨h, rfl⟩

theorem idles_hold {c : Spot} {ts : List Turn} (h : c.eng.inflight ≠ .none) (ht : c.turns = .hold :: ts) :
    c.Idles (c.due ts) := .inr ⟨h, ts, ht, rfl⟩

/-- From the line `l` one step of the block leads the primitive `i` to the line `l'`. -/
def Moves (i : Instr) (l : Line) (c : Spot) (l' : Line) (c' : Spot) : Prop :=
  ∀ s, blockStep Config.params (operationOf i) { op := i, item := 0, line := l } (c.on i l s) = .moved (c'.on i l' s)

/-- From the line `l` a number of steps of the block lead the primitive `i` to the line `l'`. -/
inductive Path (i : Instr) : Nat → Line → Spot → Line → Spot → Prop
  | refl (l : Line) (c : Spot) : Path i 0 l c l c
  | head {n : Nat} {l l' l'' : Line} {c c' c'' : Spot} :
    Moves i l c l' c' → Path i n l' c' l'' c'' → Path i (n + 1) l c l'' c''

section
variable {i : Instr} {l l' l'' : Line} {c c' c'' u : Spot} {s t : State} {r : Reg} {m n : Nat}

/-! ### The shared operations on such a state -/

theorem seqRead_on (hr : r ≠ .data) (h : r = .ctrl ∨ c.eng.inflight ≠ .resetPh) :
    seqRead r (c.on i l s) = .ok (regValue r c.eng, (c.read r).on i l s) := by
  rw [seqRead_eq_afterRead hr h]
  simp [afterRead, afterAccess, Spot.on, Spot.read, State.setEng, State.pushTrace, State.setWork]

theorem afterAccess_on (a : Access) (x : Reaction) : afterAccess a x (c.on i l s) = (c.react a x).on i l s := by
  simp [afterAccess, Spot.on, Spot.react, State.setEng, State.pushWire, State.pushTrace]

theorem seqWrite_on {v : Word} {x : Reaction} (h : writeReg r v c.eng = .ok x) :
    seqWrite r v (c.on i l s) = .ok ((c.react (.wr r v) x).on i l s) := by
  rw [← afterAccess_on]
  simp only [seqWrite, show (c.on i l s).eng = c.eng from rfl, h]

theorem seqSet_on {v : Word} {x : Reaction} (h : setBitsReg r v c.eng = .ok x) :
    seqSet r v (c.on i l s) = .ok ((c.react (.set r v) x).on i l s) := by
  rw [← afterAccess_on]
  simp only [seqSet, show (c.on i l s).eng = c.eng from rfl, h]

theorem moveTo_on (h : isPollLine l' = false) : moveTo i 0 l' (c.on i l s) = c.on i l' s := by
  rw [moveTo, h]
  rfl

theorem moveTo_on_poll (h : isPollLine l' = true) : moveTo i 0 l' (c.on i l s) = (c.counting 0).on i l' s := by
  rw [moveTo, h]
  rfl

theorem beginOperation_of (h : isPollLine (itemLine (operationOf i) 0) = false) :
    beginOperation i (operationOf i) s = (Spot.of s).on i (itemLine (operationOf i) 0) s := by
  rw [beginOperation, moveTo, h]
  simp [Spot.on, Spot.of, State.setBusy, State.setSeq]

theorem beginOperation_of_poll (h : isPollLine (itemLine (operationOf i) 0) = true) :
    beginOperation i (operationOf i) s = ((Spot.of s).counting 0).on i (itemLine (operationOf i) 0) s := by
  rw [beginOperation, moveTo, h]
  simp [Spot.on, Spot.of, Spot.counting, State.setBusy, State.setSeq, State.setWork]

/-- A busy state at a line of `i` is where the primitive taken up in it has come to. -/
theorem on_of (hb : s.busy = true) (hq : s.seq = some { op := i, item := 0, line := l }) :
    (Spot.of s).on i l s = s := by
  simp [Spot.on, Spot.of, ← hb, ← hq]

/-! ### Steps -/

theorem engineMove_on (h : c.Idles u) : engineMove Config.params (c.on i l s) = .holds (u.on i l s) := by
  rcases h with ⟨hi, rfl⟩ | ⟨hi, ts, ht, rfl⟩
  · exact engineMove_quiet hi
  · exact engineMove_hold hi ht

/-- The sequencer's step, where the engine takes none. -/
theorem blockStep_on (h : c.Idles u) :
    blockStep Config.params (operationOf i) { op := i, item := 0, line := l } (c.on i l s) =
      seqStep Config.params (operationOf i) { op := i, item := 0, line := l } (u.on i l s) := by
  rw [blockStep, engineMove_on h]

theorem moves_of_goto (h : c.Idles u) (hp : isPollLine l' = false)
    (hl : ∀ s, runLine Config.params l (u.on i l s) = .goto l' (c'.on i l s)) : Moves i l c l' c' := fun s => by
  simp only [blockStep_on h, seqStep, hl, moveTo_on hp]

theorem moves_of_goto_poll (h : c.Idles u) (hp : isPollLine l' = true)
    (hl : ∀ s, runLine Config.params l (u.on i l s) = .goto l' (c'.on i l s)) :
    Moves i l c l' (c'.counting 0) := fun s => by
  simp only [blockStep_on h, seqStep, hl, moveTo_on_poll hp]

theorem moves_of_again (h : c.Idles u) (hl : ∀ s, runLine Config.params l (u.on i l s) = .again (c'.on i l s)) :
    Moves i l c l c' := fun s => by
  simp only [blockStep_on h, seqStep, hl]

/-- The engine's own step. -/
theorem moves_of_complete {o : EnvOutcome} {x : Reaction} {ts : List Turn}
    (hc : complete Config.params o c.eng = some x) (ht : c.turns = .go o :: ts) :
    Moves i l c l (c.completed x ts) := fun s => by
  rw [blockStep, engineMove_complete (s := c.on i l s) hc ht]
  simp [Spot.completed, Spot.on, State.setFeed, State.setEng, State.pushWire]

/-! ### Paths -/

theorem Moves.path (h : Moves i l c l' c') : Path i 1 l c l' c' := .head h (.refl ..)

theorem Path.trans (h : Path i m l c l' c') (h' : Path i n l' c' l'' c'') : Path i (m + n) l c l'' c'' := by
  induction h with
  | refl => rwa [Nat.zero_add]
  | head hm _ ih =>
    rw [Nat.add_right_comm]
    exact .head hm (ih h')

/-- What the step after a path ends the primitive with is what the steps from the path's start lead to. -/
theorem Path.leads (h : Path i n l c l' c')
    (he : blockStep Config.params (operationOf i) { op := i, item := 0, line := l' } (c'.on i l' s) = .ended t) :
    Leads Config.params (operationOf i) (n + 1) (c.on i l s) (.ended t) := by
  induction h with
  | refl => exact .last rfl he
  | head hm _ ih => exact .more rfl (hm s) (ih he)

/-- `exec` follows a path and ends with it. -/
theorem exec_of_path (hq : s.seq = none) (hl : legalIn i s.phase = true)
    (hb : beginOperation i (operationOf i) s = c.on i l s) (hp : Path i n l c l' c')
    (he : blockStep Config.params (operationOf i) { op := i, item := 0, line := l' } (c'.on i l' s) = .ended t)
    (hn : n < stepBound Config.params (operationOf i)) : exec i s = .next t := by
  rw [exec_of_begin hq hl, runFrom, hb]
  exact runSteps_of_leads (hp.leads he) hn

/-- While the host has nothing to do the machine's next step is the block's. -/
theorem step_on (hh : s.host = []) :
    step (c.on i l s) =
      (blockStep Config.params (operationOf i) { op := i, item := 0, line := l } (c.on i l s)).outcome :=
  step_running rfl rfl (.inl hh)

/-- The machine follows a path while the host has nothing to do. -/
theorem run_of_path (hh : s.host = []) (h : Path i n l c l' c') :
    Host.Core.run core n (c.on i l s) = .next (c'.on i l' s) := by
  induction h with
  | refl => rfl
  | head hm _ ih => exact (run_cons ((step_on hh).trans (by rw [hm s]; rfl))).trans ih

/-- It follows a path and the step after it that ends the primitive. -/
theorem run_of_path_ended (hh : s.host = []) (h : Path i n l c l' c')
    (he : blockStep Config.params (operationOf i) { op := i, item := 0, line := l' } (c'.on i l' s) = .ended t) :
    Host.Core.run core (n + 1) (c.on i l s) = .next t := by
  rw [run_add (run_of_path hh h), run_one, step_on hh, he]
  rfl

end

/-! ### The end of a primitive -/

/-- A primitive the host issued reports its own status; a byte is kept on OK only (41_bus_primitives.md R189). -/
theorem itemEnded_hostPrimitive (i : Instr) (x : Prim) (k : Keep) (st : Code) (d : Byte) (t : State) :
    itemEnded i (hostPrimitive x k) 0 st d t =
      .ended (finish st .ok (if st = .ok then keepByte k d t else t)) := by
  cases st <;> rfl

/-- There is room for the accesses of a primitive with one bounded poll, and for more. -/
theorem stepBound_hostPrimitive (p : Params) (x : Prim) (k : Keep) :
    stepBound p (hostPrimitive x k) = 6 * p.pollBudget + 54 := by
  simp [stepBound, hostPrimitive]

/-- What an ended primitive leaves. -/
theorem endsWith_off {s : State} {c : Spot} {r : Results} {ph : Phase} {e : Engine} {acc : List Access}
    {ws : List Wire} {ts : List Turn} (he : c.eng = e) (hacc : c.acc = acc) (hw : c.wire = ws) (ht : c.turns = ts) :
    EndsWith s (c.off r ph s) r ph e acc ws ts := by
  subst he hacc hw ht
  exact ⟨rfl, rfl, rfl, rfl, rfl, rfl, rfl, rfl, rfl, rfl⟩

end Sys2Proof.Machine
end

section
/-! The lines of the primitives, each with what it needs to go on, to read again or to end (41_bus_primitives.md R170 to
R187). -/

namespace Sys2Proof.Machine

/-! ### Moments without a step of the engine -/

/-- In the next `n` moments the engine takes no step, the turns `ts` left after them. -/
def Spot.HoldsFor (n : Nat) (ts : List Turn) (c : Spot) : Prop :=
  c.eng.inflight = .none ∧ c.turns = ts ∨ c.eng.inflight ≠ .none ∧ c.turns = List.replicate n .hold ++ ts

/-- The first `m` of the moments leave the other `n`. -/
theorem Spot.HoldsFor.split {ts : List Turn} {c : Spot} (m n : Nat) (h : c.HoldsFor (m + n) ts) :
    ∃ ts', c.HoldsFor m ts' ∧ ∀ u : Spot, u.eng.inflight = c.eng.inflight → u.turns = ts' → u.HoldsFor n ts := by
  rcases h with ⟨hi, ht⟩ | ⟨hi, ht⟩
  · exact ⟨ts, .inl ⟨hi, ht⟩, fun u hu hut => .inl ⟨hu.trans hi, hut⟩⟩
  · refine ⟨List.replicate n .hold ++ ts, .inr ⟨hi, ?_⟩, fun u hu hut => .inr ⟨hu ▸ hi, hut⟩⟩
    rw [ht, List.replicate_add, List.append_assoc]

/-- A single moment leaves the turns after it. -/
theorem Spot.HoldsFor.idles {ts : List Turn} {c : Spot} (h : c.HoldsFor 1 ts) : c.Idles (c.due ts) := by
  rcases h with ⟨hi, ht⟩ | ⟨hi, ht⟩
  · exact .inl ⟨hi, by rw [Spot.due, ← ht]⟩
  · exact .inr ⟨hi, _, ht, rfl⟩

section
variable {i : Instr} {l l' : Line} {c u : Spot} {s : State}

/-! ### The end of a primitive -/

/-- A primitive without a byte to keep, or one that fails, reports its status and no more. -/
theorem blockStep_ends {x : Prim} {k : Keep} {st : Code} {d : Byte} {ph : Phase} {c' : Spot} (h : c.Idles u)
    (hop : operationOf i = hostPrimitive x k) (hk : st ≠ .ok ∨ k = .nothing)
    (hl : runLine Config.params l (u.on i l s) = .done st d ((c'.on i l s).setPhase ph)) :
    blockStep Config.params (operationOf i) { op := i, item := 0, line := l } (c.on i l s) =
      .ended (c'.off (reported s.res (codeByte st) 0x00#8) ph s) := by
  have hkeep : (if st = .ok then keepByte k d ((c'.on i l s).setPhase ph) else (c'.on i l s).setPhase ph) =
      (c'.on i l s).setPhase ph := by
    split
    · rename_i hst
      rw [hk.resolve_left (· hst)]
      rfl
    · rfl
  rw [blockStep_on h]
  simp only [seqStep, hl, hop, itemEnded_hostPrimitive, hkeep]
  rfl

/-- A `READ` that ends OK keeps its byte. -/
theorem blockStep_ends_byte {x : Prim} {d : Byte} {c' : Spot} (h : c.Idles u)
    (hop : operationOf i = hostPrimitive x .result)
    (hl : runLine Config.params l (u.on i l s) = .done .ok d (c'.on i l s)) :
    blockStep Config.params (operationOf i) { op := i, item := 0, line := l } (c.on i l s) =
      .ended (c'.off { reported s.res 0x00#8 0x00#8 with byte := d } s.phase s) := by
  rw [blockStep_on h]
  simp only [seqStep, hl, hop, itemEnded_hostPrimitive]
  rfl

/-! ### Bounded polls and waits -/

/-- A read of `INTFLAG` shows a flag of the address and transmit polls. -/
theorem intflag_shows_mb_or_error {e : Engine} (hf : e.intflag.mb = true ∨ e.intflag.error = true) :
    ¬(regValue .intflag e &&& (maskMb ||| maskError) = 0#32) := fun h0 => by
  obtain ⟨hmb, he⟩ := (intflagBits_mb_or_error _).mp h0
  simp [hmb, he] at hf

/-- While the engine holds, a bounded poll whose flag is not shown reads and counts, up to the last read of its budget
(41_bus_primitives.md R190). -/
theorem path_polls {n : Nat} {ts : List Turn} (e : Engine)
    (hagain : ∀ u : Spot, u.eng = e → u.work.pollcnt + 1 < Config.params.pollBudget →
      ∀ s, runLine Config.params l (u.on i l s) = .again (u.poll.on i l s)) :
    ∀ {c : Spot}, c.eng = e → c.HoldsFor n ts → c.work.pollcnt + n < Config.params.pollBudget →
      ∃ w, w.pollcnt = c.work.pollcnt + n ∧
        Path i n l c l { c with
          work := w, acc := c.acc ++ List.replicate n (.rd .intflag (regValue .intflag e)), turns := ts } := by
  induction n with
  | zero =>
    intro c he hh hn
    have ht : c.turns = ts := by rcases hh with ⟨_, ht⟩ | ⟨_, ht⟩ <;> exact ht
    refine ⟨c.work, rfl, ?_⟩
    rw [List.replicate_zero, List.append_nil, ← ht]
    exact .refl ..
  | succ n ih =>
    intro c he hh hn
    obtain ⟨ts', hone, hrest⟩ := (Nat.add_comm n 1 ▸ hh : c.HoldsFor (1 + n) ts).split
    have hidle := hone.idles
    have hm : Moves i l c l (c.due ts').poll := moves_of_again hidle (hagain _ he (by simp only [Spot.due]; omega))
    have hcount : (c.due ts').poll.work.pollcnt = c.work.pollcnt + 1 := rfl
    obtain ⟨w, hw, hp⟩ := ih (c := (c.due ts').poll) he (hrest _ rfl rfl) (by omega)
    refine ⟨w, by omega, .head hm ?_⟩
    rw [List.replicate_succ, ← he]
    simpa [Spot.poll, Spot.counting, Spot.read, Spot.due, he] using hp

/-- While the engine holds, the machine reads again and again in a wait without bound (70_reset_and_hazards.md R300). -/
theorem run_waits {n : Nat} {ts : List Turn} (r : Reg) (e : Engine) (hi : e.inflight ≠ .none) (hh : s.host = [])
    (hspin : ∀ u : Spot, u.eng = e → runLine Config.params l (u.on i l s) = .spin ((u.read r).on i l s)) :
    ∀ {c : Spot}, c.eng = e → c.turns = List.replicate n .hold ++ ts →
      ∃ c' : Spot, Host.Core.run core n (c.on i l s) = .next (c'.on i l s) ∧ c'.eng = e ∧
        c'.acc = c.acc ++ List.replicate n (.rd r (regValue r e)) ∧ c'.wire = c.wire ∧ c'.turns = ts := by
  induction n with
  | zero => exact fun {c} he ht => ⟨c, rfl, he, (List.append_nil _).symm, rfl, ht⟩
  | succ n ih =>
    intro c he ht
    have hidle : c.Idles (c.due (List.replicate n .hold ++ ts)) := idles_hold (he ▸ hi) ht
    have hstep : step (c.on i l s) = .next (((c.due (List.replicate n .hold ++ ts)).read r).on i l s) := by
      rw [step_on hh, blockStep_on hidle]
      have hread := hspin (c.due (List.replicate n .hold ++ ts)) he
      simp only [seqStep, hread]
      rfl
    obtain ⟨c', hrun, heng, hacc, hwire, hturns⟩ := ih (c := (c.due (List.replicate n .hold ++ ts)).read r) he rfl
    refine ⟨c', (run_cons hstep).trans hrun, heng, ?_, hwire, hturns⟩
    rw [hacc, List.replicate_succ]
    simp [he]

end
end Sys2Proof.Machine
end

section
/-! The lines of `START` and of its failure path, from the enabled check on (41_bus_primitives.md R173 to R178). -/

namespace Sys2Proof.Machine

/-- The engine with `ERROR` cleared (40_bus_engine.md R150). -/
def errorCleared (e : Engine) : Engine := { e with intflag := { e.intflag with error := false } }

/-- The engine after the write of an address byte, `ERROR` clear (40_bus_engine.md R133). -/
def opened (a : BitVec 7) (d : Dir) (e : Engine) : Engine :=
  { e with
    ackPending := false, addr := addrByte a d, owned := true, dir := d
    intflag := { mb := false, sb := false, error := false }, status := statusClear, inflight := .addrPh }

theorem writeReg_clearError {e : Engine} (hr : e.inflight ≠ .resetPh) :
    writeReg .intflag maskError e = .ok { eng := errorCleared e, wire := [] } := by
  rw [writeReg_intflag hr, clearWritten_maskError]
  rfl

theorem writeReg_address {a : BitVec 7} {d : Dir} {e : Engine} (hm : ModeSet e) (hi : e.inflight = .none)
    (he : e.intflag.error = false) :
    writeReg .addr ((addrByte a d).setWidth 32) e =
      .ok { eng := opened a d e, wire := startWire (addrByte a d) e } := by
  rw [writeReg_addr hm.2.2, setWidth_byte]
  simp [reactWriteAddr, active_of_modeSet hm, hi, opened, startWire, clearMbSb, he]

section
variable {a : BitVec 7} {d : Dir} {x : StartError} {c u : Spot} {s : State}

/-! ### Up to the write of the address byte -/

theorem moves_start_check (h : c.Idles u) (hm : ModeSet u.eng) :
    Moves (.start a d) (.start a d .check) c (.start a d .flags) (u.read .ctrl) := by
  have hbit : (regValue .ctrl u.eng).getLsbD 1 = true := by
    rw [regValue, ctrlValue_running hm.2.2, ctrlBits_bit1]
    exact hm.1
  refine moves_of_goto h rfl fun s => ?_
  simp only [runLine, startLine, seqRead_on (r := .ctrl) nofun (.inl rfl), onRead, hbit, if_true]

theorem moves_start_flags (h : c.Idles u) (hr : u.eng.inflight ≠ .resetPh) :
    Moves (.start a d) (.start a d .flags) c (.start a d (if u.eng.intflag.error then .cleanup else .address))
      (u.read .intflag) := by
  have hbit : (regValue .intflag u.eng).getLsbD 7 = u.eng.intflag.error := intflagBits_bit7 _
  refine moves_of_goto h (by split <;> rfl) fun s => ?_
  simp only [runLine, startLine, seqRead_on (r := .intflag) nofun (.inr hr), onRead, hbit]

theorem moves_start_cleanup (h : c.Idles u) (hr : u.eng.inflight ≠ .resetPh) :
    Moves (.start a d) (.start a d .cleanup) c (.start a d .address)
      (u.react (.wr .intflag maskError) { eng := errorCleared u.eng, wire := [] }) := by
  refine moves_of_goto h rfl fun s => ?_
  simp only [runLine, startLine, seqWrite_on (writeReg_clearError hr), onWrite]

theorem moves_start_address (h : c.Idles u) (hm : ModeSet u.eng) (hi : u.eng.inflight = .none)
    (he : u.eng.intflag.error = false) :
    Moves (.start a d) (.start a d .address) c (.start a d .poll)
      ((u.react (.wr .addr ((addrByte a d).setWidth 32))
        { eng := opened a d u.eng, wire := startWire (addrByte a d) u.eng }).counting 0) := by
  refine moves_of_goto_poll h rfl fun s => ?_
  simp only [runLine, startLine, seqWrite_on (writeReg_address hm hi he), onWrite]

/-- `START` opens the transaction, a stale error cleared first (41_bus_primitives.md R173 steps 1 to 3, R175). -/
theorem path_start_opens (a : BitVec 7) (d : Dir) (hm : ModeSet c.eng) (hi : c.eng.inflight = .none) :
    ∃ k ≤ 4, ∃ w, w.pollcnt = 0 ∧ Path (.start a d) k (.start a d .check) c (.start a d .poll)
      { eng := opened a d c.eng, work := w, acc := c.acc ++ startAccesses (addrByte a d) c.eng
        wire := c.wire ++ startWire (addrByte a d) c.eng, turns := c.turns } := by
  have hreads : Path (.start a d) 2 (.start a d .check) c
      (.start a d (if c.eng.intflag.error then .cleanup else .address)) ((c.read .ctrl).read .intflag) :=
    .head (moves_start_check (idles_quiet hi) hm) (moves_start_flags (u := c.read .ctrl) (idles_quiet hi) hm.2.2).path
  have hctrl : ctrlValue c.eng = ctrlBits c.eng.ctrl := ctrlValue_running hm.2.2
  cases he : c.eng.intflag.error with
  | false =>
    rw [he] at hreads
    have hw := moves_start_address (a := a) (d := d) (u := (c.read .ctrl).read .intflag) (idles_quiet hi) hm hi he
    refine ⟨3, by decide, (((c.read .ctrl).read .intflag).counting 0).work, rfl, ?_⟩
    convert hreads.trans hw.path using 1
    simp [Spot.counting, Spot.react, Spot.read, startAccesses, he, hctrl, regValue]
  | true =>
    rw [he] at hreads
    have hclear := moves_start_cleanup (a := a) (d := d) (u := (c.read .ctrl).read .intflag) (idles_quiet hi) hm.2.2
    have hw := moves_start_address (a := a) (d := d)
      (u := ((c.read .ctrl).read .intflag).react (.wr .intflag maskError) { eng := errorCleared c.eng, wire := [] })
      (idles_quiet hi) hm hi rfl
    refine ⟨4, le_rfl, (((c.read .ctrl).read .intflag).counting 0).work, rfl, ?_⟩
    convert hreads.trans (.head hclear hw.path) using 1
    simp [Spot.counting, Spot.react, Spot.read, startAccesses, he, hctrl, regValue, opened, errorCleared, startWire,
      pendingAck, ackEvent, maskError]

/-! ### The address poll and the status -/

theorem startLine_poll_again (hr : u.eng.inflight ≠ .resetPh)
    (hf : u.eng.intflag.mb = false ∧ u.eng.intflag.error = false)
    (hb : u.work.pollcnt + 1 < Config.params.pollBudget) (s : State) :
    runLine Config.params (.start a d .poll) (u.on (.start a d) (.start a d .poll) s) =
      .again (u.poll.on (.start a d) (.start a d .poll) s) := by
  have hmask : regValue .intflag u.eng &&& (maskMb ||| maskError) = 0#32 := (intflagBits_mb_or_error _).mpr hf
  have hcount : ((u.read .intflag).on (.start a d) (.start a d .poll) s).work.pollcnt = u.work.pollcnt := rfl
  simp only [runLine, startLine, pollLine, seqRead_on (r := .intflag) nofun (.inr hr), onRead, hmask, hcount, hb, ne_eq,
    not_true_eq_false, if_false, if_true]
  rfl

theorem moves_start_poll_found (h : c.Idles u) (hr : u.eng.inflight ≠ .resetPh)
    (hf : u.eng.intflag.mb = true ∨ u.eng.intflag.error = true) :
    Moves (.start a d) (.start a d .poll) c (.start a d .status) u.poll := by
  have hmask := intflag_shows_mb_or_error hf
  refine moves_of_goto h rfl fun s => ?_
  simp only [runLine, startLine, pollLine, seqRead_on (r := .intflag) nofun (.inr hr), onRead, hmask, ne_eq,
    not_false_eq_true, if_true]
  rfl

theorem moves_start_poll_spent (h : c.Idles u) (hr : u.eng.inflight ≠ .resetPh)
    (hf : u.eng.intflag.mb = false ∧ u.eng.intflag.error = false)
    (hb : ¬ u.work.pollcnt + 1 < Config.params.pollBudget) :
    Moves (.start a d) (.start a d .poll) c (.start a d (.failRead .timeout)) u.poll := by
  have hmask : regValue .intflag u.eng &&& (maskMb ||| maskError) = 0#32 := (intflagBits_mb_or_error _).mpr hf
  refine moves_of_goto h rfl fun s => ?_
  have hcount : ((u.read .intflag).on (.start a d) (.start a d .poll) s).work.pollcnt = u.work.pollcnt := rfl
  simp only [runLine, startLine, pollLine, seqRead_on (r := .intflag) nofun (.inr hr), onRead, hmask, hcount, hb, ne_eq,
    not_true_eq_false, if_false]
  rfl

/-- `STATUS` shows no failure, and `START` ends OK. -/
theorem start_status_ok (h : c.Idles u) (hr : u.eng.inflight ≠ .resetPh) (ht : u.eng.status = statusClear) :
    blockStep Config.params (operationOf (.start a d)) { op := .start a d, item := 0, line := .start a d .status }
        (c.on (.start a d) (.start a d .status) s) =
      .ended ((u.read .status).off (reported s.res 0x00#8 0x00#8) (dataPhase d) s) := by
  have hmask : regValue .status u.eng &&& maskStatusErr = 0#32 := by
    rw [regValue, ht]
    rfl
  refine blockStep_ends (i := .start a d) (x := .start a d) (k := .nothing) (st := .ok) (d := 0#8) h rfl (.inr rfl) ?_
  simp only [runLine, startLine, seqRead_on (r := .status) nofun (.inr hr), onRead, hmask, ne_eq, not_true_eq_false,
    if_false]

/-- `STATUS` shows a failure. -/
theorem moves_start_status_failed (h : c.Idles u) (hr : u.eng.inflight ≠ .resetPh)
    (ht : ¬(u.eng.status.buserr = false ∧ u.eng.status.arblost = false ∧ u.eng.status.rxnack = false)) :
    Moves (.start a d) (.start a d .status) c (.start a d (.failRead .nackOrArbitrationLost)) (u.read .status) := by
  have hmask : ¬(regValue .status u.eng &&& maskStatusErr = 0#32) := fun h0 => ht ((statusBits_error _).mp h0)
  refine moves_of_goto h rfl fun s => ?_
  simp only [runLine, startLine, seqRead_on (r := .status) nofun (.inr hr), onRead, hmask, ne_eq, not_false_eq_true,
    if_true]

/-! ### The failure path -/

theorem moves_start_failRead (h : c.Idles u) :
    Moves (.start a d) (.start a d (.failRead x)) c (.start a d (.failStop x)) (u.read .ctrl) := by
  refine moves_of_goto h rfl fun s => ?_
  simp only [runLine, startLine, seqRead_on (r := .ctrl) nofun (.inl rfl), onRead]

theorem moves_start_failStop (h : c.Idles u) (hm : ModeSet u.eng) (hl : u.work.ctrlLatch = ctrlBits u.eng.ctrl) :
    Moves (.start a d) (.start a d (.failStop x)) c (.start a d (.failClear x))
      (u.react (.wr .ctrl (stopWord u.work.ctrlLatch)) (reactStop u.eng)) := by
  refine moves_of_goto h rfl fun s => ?_
  have hw := seqWrite_stop (s := u.on (.start a d) (.start a d (.failStop x)) s) hm hl
  rw [afterAccess_on] at hw
  simp only [runLine, startLine, hw, onWrite]
  rfl

theorem start_failClear (h : c.Idles u) (hr : u.eng.inflight ≠ .resetPh) :
    blockStep Config.params (operationOf (.start a d)) ⟨.start a d, 0, .start a d (.failClear x)⟩
        (c.on (.start a d) (.start a d (.failClear x)) s) =
      .ended ((u.react (.wr .intflag maskError) { eng := errorCleared u.eng, wire := [] }).off
        (reported s.res (codeByte (startErrorCode x)) 0x00#8) .idle s) := by
  refine blockStep_ends (i := .start a d) (x := .start a d) (k := .nothing) (d := 0#8) h rfl (.inr rfl) ?_
  simp only [runLine, startLine, seqWrite_on (writeReg_clearError hr), onWrite]

/-- The failure path up to its last access: STOP is sent, an operation in flight is cancelled (41_bus_primitives.md
R177). -/
theorem path_start_fails {ts : List Turn} (hm : ModeSet c.eng) (hh : c.HoldsFor 2 ts) :
    ∃ w, w.pollcnt = c.work.pollcnt ∧ Path (.start a d) 2 (.start a d (.failRead x)) c (.start a d (.failClear x))
      { eng := (reactStop c.eng).eng, work := w
        acc := c.acc ++ [.rd .ctrl (ctrlBits c.eng.ctrl), .wr .ctrl (stopWord (ctrlBits c.eng.ctrl))]
        wire := c.wire ++ (reactStop c.eng).wire, turns := ts } := by
  obtain ⟨ts', hone, hrest⟩ := hh.split 1 1
  have hctrl : regValue .ctrl c.eng = ctrlBits c.eng.ctrl := ctrlValue_running hm.2.2
  have hread := moves_start_failRead (a := a) (d := d) (x := x) hone.idles
  have hstop := moves_start_failStop (a := a) (d := d) (x := x) (hrest ((c.due ts').read .ctrl) rfl rfl).idles hm hctrl
  refine ⟨(c.read .ctrl).work, rfl, ?_⟩
  convert Path.head hread hstop.path using 1
  simp [Spot.react, Spot.read, Spot.due, hctrl, latch]

end
end Sys2Proof.Machine
end

section
/-! `START` under a schedule of the environment: O15, O16, O18, O19 and the first half of O57 (41_bus_primitives.md
R173 to R178). -/

namespace Sys2Proof.Machine

theorem modeSet_of_ready {s : State} (h : Ready s) : ModeSet s.eng := by
  obtain ⟨_, he, hm, hi⟩ := h
  exact ⟨he, hm, by simp [hi]⟩

@[simp] theorem opened_ctrl (a : BitVec 7) (d : Dir) (e : Engine) : (opened a d e).ctrl = e.ctrl := rfl

theorem intflag_opened (a : BitVec 7) (d : Dir) (e : Engine) : regValue .intflag (opened a d e) = 0x00#32 := by
  simp [opened, regValue, intflagBits, bitIf]

/-- The engine whose address byte was acknowledged. -/
def acked (a : BitVec 7) (d : Dir) (e : Engine) : Engine :=
  { opened a d e with
    intflag := { mb := true, sb := false, error := false }
    inflight := if d = .read then .rxPh else .none }

theorem complete_opened_ack (a : BitVec 7) (d : Dir) (e : Engine) :
    complete Config.params .ack (opened a d e) = some { eng := acked a d e, wire := [.sack] } := rfl

theorem intflag_acked (a : BitVec 7) (d : Dir) (e : Engine) : regValue .intflag (acked a d e) = 0x01#32 := by
  simp [acked, regValue, intflagBits, bitIf, maskMb]

theorem status_acked (a : BitVec 7) (d : Dir) (e : Engine) : regValue .status (acked a d e) = 0x0#32 := by
  simp [acked, opened, statusClear, regValue, statusBits, bitIf]

/-- A `START` taken up in `s` has made `n` empty polls of its address phase (41_bus_primitives.md R173, R176). -/
def polled (a : BitVec 7) (d : Dir) (s : State) (n : Nat) (w : Work) (ts : List Turn) : Spot :=
  { eng := opened a d s.eng, work := w
    acc := startAccesses (addrByte a d) s.eng ++ List.replicate n (.rd .intflag 0x00#32)
    wire := startWire (addrByte a d) s.eng, turns := ts }

section
variable {a : BitVec 7} {d : Dir} {s : State} {n : Nat} {rest : List Turn}

/-- What `START` comes to from its address phase on, the first `n` polls empty, `exec` comes to. -/
theorem exec_start (a : BitVec 7) (d : Dir) (hs : Ready s) (hn : n < Config.params.pollBudget)
    (ht : s.feed.turns = List.replicate n .hold ++ rest) :
    ∃ w, w.pollcnt = n ∧ ∀ {m : Nat} {l : Line} {c : Spot} {t : State},
      Path (.start a d) m (.start a d .poll) (polled a d s n w rest) l c →
      blockStep Config.params (operationOf (.start a d)) ⟨.start a d, 0, l⟩ (c.on (.start a d) l s) = .ended t →
      m ≤ 8 → exec (.start a d) s = .next t := by
  obtain ⟨k, hk, w, hw, hopen⟩ := path_start_opens (c := Spot.of s) a d (modeSet_of_ready hs) hs.2.2.2
  obtain ⟨w', hw', hpolls⟩ := path_polls (i := .start a d) (n := n) (ts := rest) (opened a d s.eng)
    (fun u hu hb s => startLine_poll_again (by rw [hu]; nofun) (by rw [hu]; exact ⟨rfl, rfl⟩) hb s)
    (c := polled a d s 0 w s.feed.turns) rfl (.inr ⟨nofun, ht⟩) (by simp only [polled, hw]; omega)
  have hpolls' : Path (.start a d) n (.start a d .poll)
      (Spot.mk (opened a d s.eng) w (startAccesses (addrByte a d) s.eng) (startWire (addrByte a d) s.eng) s.feed.turns)
      (.start a d .poll) (polled a d s n w' rest) := by
    simpa [polled, intflag_opened] using hpolls
  refine ⟨w', by simpa only [polled, hw, Nat.zero_add] using hw', fun hpath hend hm => ?_⟩
  refine exec_of_path (i := .start a d) hs.1 rfl (beginOperation_of rfl) ((hopen.trans hpolls').trans hpath) hend ?_
  have hbound := stepBound_hostPrimitive Config.params (.start a d) .nothing
  exact lt_of_lt_of_eq (by omega) hbound.symm

/-- The engine answers the address, and the next poll finds the flag. -/
theorem path_start_answered {o : EnvOutcome} {x : Reaction} {c : Spot} (hc : complete Config.params o c.eng = some x)
    (ht : c.turns = .go o :: rest) (hi : x.eng.inflight = .none) (hf : x.eng.intflag.mb = true) :
    Path (.start a d) 2 (.start a d .poll) c (.start a d .status) (c.completed x rest).poll :=
  .head (moves_of_complete hc ht)
    (moves_start_poll_found (u := c.completed x rest) (idles_quiet hi) (by simp [Spot.completed, hi]) (.inl hf)).path

/-- The address of a `START` taken up in `s` was acknowledged after `n` empty polls. -/
def granted (a : BitVec 7) (d : Dir) (s : State) (n : Nat) (w : Work) (ts : List Turn) : Spot :=
  (polled a d s n w ts).completed { eng := acked a d s.eng, wire := [.sack] } ts

theorem moves_granted {w : Work} {ts : List Turn} :
    Moves (.start a d) (.start a d .poll) (polled a d s n w (.go .ack :: ts)) (.start a d .poll)
      (granted a d s n w ts) :=
  moves_of_complete (c := polled a d s n w (.go .ack :: ts)) (complete_opened_ack a d s.eng) rfl

/-- `START` to write whose address is acknowledged after `n` empty polls (41_bus_primitives.md R176, R178). -/
theorem exec_start_write (hs : Ready s) (hn : n < Config.params.pollBudget)
    (ht : s.feed.turns = List.replicate n .hold ++ .go .ack :: rest) :
    ∃ t, exec (.start a .write) s = .next t ∧ t.work.pollcnt = n + 1 ∧
      EndsWith s t (reported s.res 0x00#8 0x00#8) .dataW
        { s.eng with
          intflag := { mb := true, sb := false, error := false }
          status := statusClear
          addr := a ++ 0#1, owned := true, dir := .write, ackPending := false }
        (startAccesses (a ++ 0#1) s.eng ++ List.replicate n (.rd .intflag 0x00#32) ++
          [.rd .intflag 0x01#32, .rd .status 0x0#32])
        (startWire (a ++ 0#1) s.eng ++ [.sack]) rest := by
  obtain ⟨w, hw, hexec⟩ := exec_start a .write hs hn ht
  have hack := path_start_answered (a := a) (d := .write) (c := polled a .write s n w (.go .ack :: rest))
    (complete_opened_ack a .write s.eng) rfl rfl rfl
  refine ⟨_, hexec hack (start_status_ok (idles_quiet rfl) nofun rfl) (by decide), congrArg (· + 1) hw, ?_⟩
  obtain ⟨_, _, _, hi⟩ := hs
  exact endsWith_off (by simp [acked, opened, addrByte, dirBit, hi])
    (by simp [polled, addrByte, dirBit, intflag_acked, status_acked]) rfl rfl

/-- Settles O15: no poll is empty. -/
theorem startToWriteCompletes : Obligations.StartToWriteCompletes := by
  intro s a rest hs ht
  obtain ⟨t, hx, _, hend⟩ := exec_start_write (n := 0) (a := a) hs (Nat.succ_pos _) ht
  exact ⟨t, hx, by simpa only [List.replicate_zero, List.append_nil] using hend⟩

/-- The engine that has received the byte `v`, not acknowledged yet (40_bus_engine.md R145). -/
def received (v : Byte) (e : Engine) : Engine :=
  { e with data := v, intflag := { e.intflag with sb := true }, ackPending := true, inflight := .none }

theorem complete_byte_rxPh {p : Params} {e : Engine} (v : Byte) (hi : e.inflight = .rxPh) :
    complete p (.byte v) e = some { eng := received v e, wire := [.rx v] } := by
  simp [complete, hi, received]

theorem intflag_received_acked (v : Byte) (a : BitVec 7) (d : Dir) (e : Engine) :
    regValue .intflag (received v (acked a d e)) = 0x03#32 := by
  simp [received, acked, regValue, intflagBits, bitIf, maskMb, maskSb]

theorem status_received (v : Byte) (e : Engine) : regValue .status (received v e) = regValue .status e := rfl

/-- Settles O16. -/
theorem startToReadCompletes : Obligations.StartToReadCompletes := by
  intro s a v rest hs
  have hi := hs.2.2.2
  have hpos : 0 < Config.params.pollBudget := Nat.succ_pos _
  constructor
  · intro ht
    obtain ⟨w, hw, hexec⟩ := exec_start a .read hs hpos ht
    have hbyte := moves_of_complete (i := .start a .read) (l := .start a .read .poll)
      (c := granted a .read s 0 w (.go (.byte v) :: rest)) (complete_byte_rxPh v rfl) rfl
    have hfound := moves_start_poll_found (a := a) (d := .read)
      (idles_quiet (c := (granted a .read s 0 w (.go (.byte v) :: rest)).completed
        { eng := received v (acked a .read s.eng), wire := [.rx v] } rest) rfl) nofun (.inl rfl)
    refine ⟨_, hexec (.head moves_granted (.head hbyte hfound.path)) (start_status_ok (idles_quiet rfl) nofun rfl)
      (by decide), ?_⟩
    exact endsWith_off (by simp [received, acked, opened, addrByte, dirBit, hi])
      (by simp [granted, polled, addrByte, dirBit, intflag_received_acked, status_acked, status_received])
      (by simp [granted, polled, addrByte, dirBit]) rfl
  · intro ht
    obtain ⟨w, hw, hexec⟩ := exec_start a .read hs hpos ht
    have hfound := moves_start_poll_found (a := a) (d := .read)
      (idles_hold (c := granted a .read s 0 w (.hold :: .hold :: rest)) nofun rfl) nofun (.inl rfl)
    refine ⟨_, hexec (.head moves_granted hfound.path) (start_status_ok (idles_hold nofun rfl) nofun rfl)
      (by decide), ?_⟩
    exact endsWith_off (by simp [granted, acked, opened, addrByte, dirBit])
      (by simp [granted, polled, addrByte, dirBit, intflag_acked, status_acked]) rfl rfl

/-! ### Refused and withheld addresses -/

/-- The engine whose address byte was refused (40_bus_engine.md R136). -/
def refusedAddress (a : BitVec 7) (d : Dir) (e : Engine) : Engine :=
  { opened a d e with
    intflag := { mb := true, sb := false, error := Config.errOnNack }
    status := { buserr := false, arblost := false, rxnack := true }, inflight := .none }

@[simp] theorem refusedAddress_ctrl (a : BitVec 7) (d : Dir) (e : Engine) :
    (refusedAddress a d e).ctrl = e.ctrl := rfl

theorem complete_opened_nack (a : BitVec 7) (d : Dir) (e : Engine) :
    complete Config.params .nack (opened a d e) = some { eng := refusedAddress a d e, wire := [.snack] } := rfl

theorem intflag_refusedAddress (a : BitVec 7) (d : Dir) (e : Engine) :
    regValue .intflag (refusedAddress a d e) = if Config.errOnNack then 0x81#32 else 0x01#32 := by
  cases h : Config.errOnNack <;> simp [refusedAddress, regValue, intflagBits, bitIf, maskMb, maskError, h]

theorem status_refusedAddress (a : BitVec 7) (d : Dir) (e : Engine) :
    regValue .status (refusedAddress a d e) = 0x4#32 := by
  simp [refusedAddress, regValue, statusBits, bitIf]

/-- The failure path from its first access to its end (41_bus_primitives.md R177). -/
theorem path_start_released {c : Spot} {ts : List Turn} (x : StartError) (hm : ModeSet c.eng) (hh : c.HoldsFor 2 ts) :
    ∃ c' t, Path (.start a d) 2 (.start a d (.failRead x)) c (.start a d (.failClear x)) c' ∧
      blockStep Config.params (operationOf (.start a d)) ⟨.start a d, 0, .start a d (.failClear x)⟩
        (c'.on (.start a d) (.start a d (.failClear x)) s) = .ended t ∧ t.work.pollcnt = c.work.pollcnt ∧
      ∀ {e acc ws}, errorCleared (reactStop c.eng).eng = e → c.acc ++ failAccesses (ctrlBits c.eng.ctrl) = acc →
        c.wire ++ (reactStop c.eng).wire = ws →
        EndsWith s t (reported s.res (codeByte (startErrorCode x)) 0x00#8) .idle e acc ws ts := by
  obtain ⟨w, hcount, hpath⟩ := path_start_fails (a := a) (d := d) (x := x) hm hh
  refine ⟨_, _, hpath, start_failClear (idles_quiet rfl) nofun, hcount, fun he hacc hw => ?_⟩
  exact endsWith_off he (by simp [← hacc, failAccesses, maskError]) (by simpa using hw) rfl

/-- The address of a `START` taken up in `s` was refused at once. -/
def refusedAt (a : BitVec 7) (d : Dir) (s : State) (w : Work) (ts : List Turn) : Spot :=
  (polled a d s 0 w ts).completed { eng := refusedAddress a d s.eng, wire := [.snack] } ts

/-- Settles O18. -/
theorem refusedAddressFailsTheStart : Obligations.RefusedAddressFailsTheStart := by
  intro s a d rest hs ht
  have ⟨_, hen, hma, hi⟩ := hs
  obtain ⟨w, hw, hexec⟩ := exec_start a d hs (Nat.succ_pos _) ht
  have hfound : Path (.start a d) 2 (.start a d .poll) (polled a d s 0 w (.go .nack :: rest)) (.start a d .status)
      (refusedAt a d s w rest).poll :=
    path_start_answered (c := polled a d s 0 w (.go .nack :: rest)) (complete_opened_nack a d s.eng) rfl rfl rfl
  have hfail := moves_start_status_failed (a := a) (d := d) (idles_quiet (c := (refusedAt a d s w rest).poll) rfl)
    nofun nofun
  obtain ⟨c', t, hpath, hend, _, hends⟩ := path_start_released (a := a) (d := d) (s := s)
    (c := (refusedAt a d s w rest).poll.read .status) (ts := rest) .nackOrArbitrationLost ⟨hen, hma, nofun⟩
    (.inl ⟨rfl, rfl⟩)
  refine ⟨t, hexec (hfound.trans (.head hfail hpath)) hend (by decide), hends ?_ ?_ ?_⟩
  · simp [errorCleared, reactStop, refusedAt, refusedAddress, opened, clearMbSb, hi]
  · simp [refusedAt, polled, intflag_refusedAddress, status_refusedAddress]
  · simp [refusedAt, polled, reactStop, refusedAddress, opened, pendingAck]

/-- Settles O19. -/
theorem withheldAddressTimesOut : Obligations.WithheldAddressTimesOut := by
  intro s a d rest hs ht
  have ⟨_, hen, hma, hi⟩ := hs
  have ht' : s.feed.turns = List.replicate Config.pollExtra .hold ++ .hold :: (List.replicate 2 .hold ++ rest) := by
    rw [ht, show Config.params.pollBudget + 2 = Config.pollExtra + (1 + 2) from rfl, List.replicate_add]
    simp [List.replicate_succ]
  obtain ⟨w, hw, hexec⟩ := exec_start a d hs (Nat.lt_succ_self _) ht'
  have hspent := moves_start_poll_spent (a := a) (d := d)
    (idles_hold (c := polled a d s Config.pollExtra w (.hold :: (List.replicate 2 .hold ++ rest))) nofun rfl) nofun
    ⟨rfl, rfl⟩ (by simp only [polled, Spot.due, hw]; exact lt_irrefl _)
  obtain ⟨c', t, hpath, hend, hcount, hends⟩ := path_start_released (a := a) (d := d) (s := s)
    (c := ((polled a d s Config.pollExtra w (.hold :: (List.replicate 2 .hold ++ rest))).due
      (List.replicate 2 .hold ++ rest)).poll) (ts := rest) .timeout ⟨hen, hma, nofun⟩ (.inr ⟨nofun, rfl⟩)
  refine ⟨t, hexec (.head hspent hpath) hend (by decide), hcount.trans (congrArg (· + 1) hw), hends ?_ ?_ ?_⟩
  · simp [errorCleared, reactStop, polled, opened, clearMbSb, hi]
  · simp [polled, intflag_opened, show Config.params.pollBudget = Config.pollExtra + 1 from rfl, List.replicate_succ']
  · simp [polled, reactStop, opened, pendingAck]

end
end Sys2Proof.Machine
end

section
/-! The lines of `WRITE`, and O21 to O23 (41_bus_primitives.md R179 to R181). -/

namespace Sys2Proof.Machine

/-! ### The lines -/

/-- The engine after the write of a byte (40_bus_engine.md R139). -/
def sending (b : Byte) (e : Engine) : Engine :=
  { e with data := b, intflag := { e.intflag with mb := false }, inflight := .txPh }

theorem writeReg_byte {b : Byte} {e : Engine} (hm : ModeSet e) (hw : WriteReady e) :
    writeReg .data (b.setWidth 32) e = .ok { eng := sending b e, wire := [.tx b] } := by
  obtain ⟨ho, hd, hi⟩ := hw
  rw [writeReg_data hm.2.2, setWidth_byte]
  simp [reactWriteData, active_of_modeSet hm, ho, hd, hi, sending]

section
variable {b : Byte} {c u : Spot} {s : State}

theorem moves_write_data (h : c.Idles u) (hm : ModeSet u.eng) (hw : WriteReady u.eng) :
    Moves (.write b) (.write b .data) c (.write b .wait)
      (u.react (.wr .data (b.setWidth 32)) { eng := sending b u.eng, wire := [.tx b] }) := by
  refine moves_of_goto h rfl fun s => ?_
  simp only [runLine, writeLine, seqWrite_on (writeReg_byte hm hw), onWrite]

theorem writeLine_wait_spin (hr : u.eng.inflight ≠ .resetPh)
    (hf : u.eng.intflag.mb = false ∧ u.eng.intflag.error = false) (s : State) :
    runLine Config.params (.write b .wait) (u.on (.write b) (.write b .wait) s) =
      .spin ((u.read .intflag).on (.write b) (.write b .wait) s) := by
  have hmask : regValue .intflag u.eng &&& (maskMb ||| maskError) = 0#32 := (intflagBits_mb_or_error _).mpr hf
  simp only [runLine, writeLine, seqRead_on (r := .intflag) nofun (.inr hr), onRead, hmask, if_true]

/-- The transmit wait ends when a flag is shown; `ERROR` decides how (41_bus_primitives.md R181). -/
theorem write_wait_ends (h : c.Idles u) (hr : u.eng.inflight ≠ .resetPh)
    (hf : u.eng.intflag.mb = true ∨ u.eng.intflag.error = true) :
    blockStep Config.params (operationOf (.write b)) { op := .write b, item := 0, line := .write b .wait }
        (c.on (.write b) (.write b .wait) s) =
      .ended ((u.read .intflag).off
        (reported s.res (if u.eng.intflag.error then 0xFC#8 else 0x00#8) 0x00#8)
        (if u.eng.intflag.error then .idle else s.phase) s) := by
  have hmask := intflag_shows_mb_or_error hf
  have hbit : (regValue .intflag u.eng).getLsbD 7 = u.eng.intflag.error := intflagBits_bit7 _
  cases he : u.eng.intflag.error with
  | true =>
    refine blockStep_ends (i := .write b) (x := .write b) (k := .nothing) (st := .nackOrArbitrationLost) (d := 0#8)
      h rfl (.inr rfl) ?_
    simp only [runLine, writeLine, seqRead_on (r := .intflag) nofun (.inr hr), onRead, hmask, hbit, he, if_true,
      if_false]
  | false =>
    refine blockStep_ends (i := .write b) (x := .write b) (k := .nothing) (st := .ok) (d := 0#8) h rfl (.inr rfl) ?_
    simp only [runLine, writeLine, seqRead_on (r := .intflag) nofun (.inr hr), onRead, hmask, hbit, he, if_false]
    rfl

/-! ### A byte the engine answers at once -/

/-- `WRITE` whose byte the engine answers at once, `ERROR` then `err`. -/
theorem exec_write_answered {o : EnvOutcome} {e : Engine} {ws : List Wire} {rest : List Turn} {v : Word} (err : Bool)
    (hs : Ready s) (hp : s.phase = .dataW) (hw : WriteReady s.eng) (ht : s.feed.turns = .go o :: rest)
    (hc : complete Config.params o (sending b s.eng) = some { eng := e, wire := ws }) (hi : e.inflight = .none)
    (hf : e.intflag.mb = true ∨ e.intflag.error = true) (he : e.intflag.error = err) (hv : intflagBits e.intflag = v) :
    ∃ t, exec (.write b) s = .next t ∧
      EndsWith s t (reported s.res (if err then 0xFC#8 else 0x00#8) 0x00#8) (if err then .idle else .dataW) e
        [.wr .data (b.setWidth 32), .rd .intflag v] (.tx b :: ws) rest := by
  subst he hv
  have hdata := moves_write_data (b := b) (idles_quiet (c := Spot.of s) hs.2.2.2) (modeSet_of_ready hs) hw
  have hanswer := moves_of_complete (i := .write b) (l := .write b .wait)
    (c := (Spot.of s).react (.wr .data (b.setWidth 32)) { eng := sending b s.eng, wire := [.tx b] }) hc ht
  refine ⟨_, exec_of_path (i := .write b) hs.1 (by rw [hp]; rfl) (beginOperation_of rfl) (.head hdata hanswer.path)
    (write_wait_ends (idles_quiet hi) (fun hr => nomatch hi.symm.trans hr) hf)
    ((by decide : 2 < 27).trans_le (stepBound_pos ..)), ?_⟩
  rw [hp]
  exact endsWith_off rfl rfl rfl rfl

end

/-- Settles O21. -/
theorem writeCompletes : Obligations.WriteCompletes := by
  intro s b hq
  refine ⟨fun hp => exec_illegal hq (by simpa [legalIn] using hp), fun rest hp hs ho hd he ht => ?_⟩
  have ⟨_, _, _, hi⟩ := hs
  refine exec_write_answered false hs hp ⟨ho, hd, hi⟩ ht ?_ hi (.inl rfl) he ?_
  · simp [complete, sending, flagAcked, hi]
  · cases hsb : s.eng.intflag.sb <;> simp [intflagBits, bitIf, maskMb, maskSb, he, hsb]

/-- Settles O22. -/
theorem writeReportsOnlyTheErrorFlag : Obligations.WriteReportsOnlyTheErrorFlag := by
  intro s b rest hp hs ho hd hf
  have ⟨_, _, _, hi⟩ := hs
  refine ⟨fun ht => ?_, fun ht => ?_, fun ht => ?_⟩
  · refine exec_write_answered true hs hp ⟨ho, hd, hi⟩ ht ?_ hi (.inr rfl) rfl ?_
    · simp [complete, sending, flagBusError, hi, hf]
    · simp [intflagBits, bitIf, maskError]
  · refine exec_write_answered true hs hp ⟨ho, hd, hi⟩ ht ?_ hi (.inr rfl) rfl ?_
    · simp [complete, sending, flagArbLost, hi, hf]
    · simp [intflagBits, bitIf, maskError]
  · refine exec_write_answered Config.errOnNack hs hp ⟨ho, hd, hi⟩ ht ?_ hi (.inl rfl) rfl ?_
    · simp [complete, sending, flagNacked, hi, hf, Config.params]
    · cases Config.errOnNack <;> simp [intflagBits, bitIf, maskMb, maskError]

/-! ### The transmit wait -/

/-- The engine whose byte was acknowledged, no other flag set before (40_bus_engine.md R141). -/
def sent (e : Engine) : Engine :=
  { e with
    intflag := { mb := true, sb := false, error := false }
    status := { e.status with rxnack := false }, inflight := .none }

/-- Settles O23: by induction on `n`, in `run_waits`. -/
theorem writeWaitsWithoutBound : Obligations.WriteWaitsWithoutBound := by
  intro n s b rest hq hb hh hi hf ht
  have hwait : ∀ u : Spot, u.eng = s.eng → runLine Config.params (.write b .wait) (u.on (.write b) (.write b .wait) s) =
      .spin ((u.read .intflag).on (.write b) (.write b .wait) s) :=
    fun u hu => writeLine_wait_spin (by simp [hu, hi]) (by simp [hu, hf]) s
  obtain ⟨c, hrun, he, hacc, hwire, hturns⟩ := run_waits (n := n) .intflag s.eng (by simp [hi]) hh hwait
    (c := Spot.of s) rfl ht
  have hv : regValue .intflag s.eng = 0x00#32 := by simp [regValue, hf, intflagBits, bitIf]
  rw [on_of hb hq] at hrun
  replace hacc : c.acc = List.replicate n (.rd .intflag 0x00#32) := hv ▸ hacc
  replace hwire : c.wire = [] := hwire
  refine ⟨⟨_, hrun, rfl, he, rfl, rfl, congrArg (s.trace ++ ·) hacc⟩, ?_⟩
  have hack := moves_of_complete (i := .write b) (l := .write b .wait) (o := .ack) (ts := rest) (c := c)
    (x := { eng := sent s.eng, wire := [.sack] }) (by simp [complete, he, hi, flagAcked, sent, hf]) hturns
  have hend := write_wait_ends (b := b) (s := s)
    (idles_quiet (c := c.completed { eng := sent s.eng, wire := [.sack] } rest) rfl) nofun (.inl rfl)
  have hv' : regValue .intflag (sent s.eng) = 0x01#32 := by simp [sent, regValue, intflagBits, bitIf, maskMb]
  exact ⟨_, (run_add hrun).trans (run_of_path_ended hh hack.path hend), rfl, rfl, rfl, rfl, by simp [hwire],
    by simp [hacc, hv']⟩

end Sys2Proof.Machine
end

section
/-! The lines of `READ`, and O24 to O26 and the second half of O57 (41_bus_primitives.md R182 to R186). -/

namespace Sys2Proof.Machine

/-! ### The lines -/

section
variable {g : Bool} {c u : Spot} {s : State}

theorem readLine_poll_again (hr : u.eng.inflight ≠ .resetPh)
    (hf : u.eng.intflag.sb = false ∧ u.eng.intflag.error = false)
    (hb : u.work.pollcnt + 1 < Config.params.pollBudget) (s : State) :
    runLine Config.params (.read g .poll) (u.on (.read g) (.read g .poll) s) =
      .again (u.poll.on (.read g) (.read g .poll) s) := by
  have hmask : regValue .intflag u.eng &&& (maskSb ||| maskError) = 0#32 := (intflagBits_sb_or_error _).mpr hf
  have hcount : ((u.read .intflag).on (.read g) (.read g .poll) s).work.pollcnt = u.work.pollcnt := rfl
  simp only [runLine, readLine, pollLine, seqRead_on (r := .intflag) nofun (.inr hr), onRead, hmask, hcount, hb, ne_eq,
    not_true_eq_false, if_false, if_true]
  rfl

/-- The last read of the budget shows no flag. -/
theorem read_poll_spent (h : c.Idles u) (hr : u.eng.inflight ≠ .resetPh)
    (hf : u.eng.intflag.sb = false ∧ u.eng.intflag.error = false)
    (hb : ¬ u.work.pollcnt + 1 < Config.params.pollBudget) :
    blockStep Config.params (operationOf (.read g)) { op := .read g, item := 0, line := .read g .poll }
        (c.on (.read g) (.read g .poll) s) =
      .ended (u.poll.off (reported s.res 0xFE#8 0x00#8) .idle s) := by
  have hmask : regValue .intflag u.eng &&& (maskSb ||| maskError) = 0#32 := (intflagBits_sb_or_error _).mpr hf
  have hcount : ((u.read .intflag).on (.read g) (.read g .poll) s).work.pollcnt = u.work.pollcnt := rfl
  refine blockStep_ends (i := .read g) (x := .read g) (k := .result) (st := .timeout) (d := 0#8) h rfl (.inl nofun) ?_
  simp only [runLine, readLine, pollLine, seqRead_on (r := .intflag) nofun (.inr hr), onRead, hmask, hcount, hb, ne_eq,
    not_true_eq_false, if_false]
  rfl

/-- A read shows `ERROR` (41_bus_primitives.md R184). -/
theorem read_poll_error (h : c.Idles u) (hr : u.eng.inflight ≠ .resetPh) (he : u.eng.intflag.error = true) :
    blockStep Config.params (operationOf (.read g)) { op := .read g, item := 0, line := .read g .poll }
        (c.on (.read g) (.read g .poll) s) =
      .ended (u.poll.off (reported s.res 0xFC#8 0x00#8) .idle s) := by
  have hmask : ¬(regValue .intflag u.eng &&& (maskSb ||| maskError) = 0#32) := fun h0 =>
    nomatch he.symm.trans ((intflagBits_sb_or_error _).mp h0).2
  have hbit : (regValue .intflag u.eng).getLsbD 7 = true := (intflagBits_bit7 _).trans he
  refine blockStep_ends (i := .read g) (x := .read g) (k := .result) (st := .nackOrArbitrationLost) (d := 0#8) h rfl
    (.inl nofun) ?_
  simp only [runLine, readLine, pollLine, seqRead_on (r := .intflag) nofun (.inr hr), onRead, hmask, hbit, ne_eq,
    not_false_eq_true, if_true]
  rfl

theorem moves_read_poll_found (h : c.Idles u) (hr : u.eng.inflight ≠ .resetPh) (hsb : u.eng.intflag.sb = true)
    (he : u.eng.intflag.error = false) :
    Moves (.read g) (.read g .poll) c (.read g .readCtrl) u.poll := by
  have hmask : ¬(regValue .intflag u.eng &&& (maskSb ||| maskError) = 0#32) := fun h0 =>
    nomatch hsb.symm.trans ((intflagBits_sb_or_error _).mp h0).1
  have hbit : (regValue .intflag u.eng).getLsbD 7 = false := (intflagBits_bit7 _).trans he
  refine moves_of_goto h rfl fun s => ?_
  simp only [runLine, readLine, pollLine, seqRead_on (r := .intflag) nofun (.inr hr), onRead, hmask, hbit, ne_eq,
    not_false_eq_true, if_true]
  rfl

theorem moves_read_readCtrl (h : c.Idles u) :
    Moves (.read g) (.read g .readCtrl) c (.read g .writeCtrl) (u.read .ctrl) := by
  refine moves_of_goto h rfl fun s => ?_
  simp only [runLine, readLine, seqRead_on (r := .ctrl) nofun (.inl rfl), onRead]

/-- The engine with the acknowledge setting of `READ` stored (41_bus_primitives.md R185). -/
def acknowledging (g : Bool) (e : Engine) : Engine := { e with ctrl := { e.ctrl with ackact := !g } }

theorem moves_read_writeCtrl (h : c.Idles u) (hm : ModeSet u.eng) (hl : u.work.ctrlLatch = ctrlBits u.eng.ctrl) :
    Moves (.read g) (.read g .writeCtrl) c (.read g .data)
      (u.react (.wr .ctrl (ackWord g u.work.ctrlLatch)) { eng := acknowledging g u.eng, wire := [] }) := by
  refine moves_of_goto h rfl fun s => ?_
  have hw := seqWrite_ack g (s := u.on (.read g) (.read g .writeCtrl) s) hm hl
  rw [afterAccess_on] at hw
  simp only [runLine, readLine, hw, onWrite]
  rfl

/-- The byte is read, and acknowledged by it (40_bus_engine.md R146). -/
theorem read_data_ends (h : c.Idles u) (hr : u.eng.inflight ≠ .resetPh) :
    blockStep Config.params (operationOf (.read g)) { op := .read g, item := 0, line := .read g .data }
        (c.on (.read g) (.read g .data) s) =
      .ended ((u.react (.rd .data (u.eng.data.setWidth 32)) (reactReadData u.eng)).off
        { reported s.res 0x00#8 0x00#8 with byte := u.eng.data } s.phase s) := by
  have hread := seqRead_ok (r := .data) (s := u.on (.read g) (.read g .data) s) (.inr hr)
  refine blockStep_ends_byte (i := .read g) (x := .read g) h rfl ?_
  simp only [runLine, readLine, hread, onRead, if_true, afterAccess_on]
  exact congrArg (LineOut.done .ok · _) (setWidth_byte _)

/-! ### A byte that waits -/

/-- The engine after a `READ` has taken the byte that waited: on ACK the next reception is in flight (40_bus_engine.md
R146). -/
def taken (g : Bool) (e : Engine) : Engine :=
  { e with
    ctrl := { e.ctrl with ackact := !g }, intflag := { e.intflag with sb := false }
    inflight := if g then .rxPh else .none, ackPending := false }

theorem reactReadData_acknowledging {e : Engine} (hi : e.inflight = .none) (ha : e.ackPending = true) :
    reactReadData (acknowledging g e) = { eng := taken g e, wire := [if g then .mack else .mnack] } := by
  rw [reactReadData_pending (e := acknowledging g e) ha]
  cases g <;> simp [acknowledging, taken, ackEvent, hi]

/-- `READ` from the poll that finds its byte: acknowledge setting first, byte second (41_bus_primitives.md R182,
R185). -/
theorem path_read_takes (g : Bool) (hm : ModeSet c.eng) (hi : c.eng.inflight = .none) (hsb : c.eng.intflag.sb = true)
    (he : c.eng.intflag.error = false) (ha : c.eng.ackPending = true) :
    ∃ c' t, Path (.read g) 3 (.read g .poll) c (.read g .data) c' ∧
      blockStep Config.params (operationOf (.read g)) { op := .read g, item := 0, line := .read g .data }
        (c'.on (.read g) (.read g .data) s) = .ended t ∧ t.work.pollcnt = c.work.pollcnt + 1 ∧
      ∀ {e acc}, taken g c.eng = e →
        c.acc ++ [.rd .intflag (intflagBits c.eng.intflag), .rd .ctrl (ctrlBits c.eng.ctrl),
          .wr .ctrl (if g then 0x00000006#32 else 0x00040006#32), .rd .data (c.eng.data.setWidth 32)] = acc →
        EndsWith s t { reported s.res 0x00#8 0x00#8 with byte := c.eng.data } s.phase e acc
          (c.wire ++ [if g then .mack else .mnack]) c.turns := by
  have hctrl : regValue .ctrl c.eng = ctrlBits c.eng.ctrl := ctrlValue_running hm.2.2
  have hfound := moves_read_poll_found (g := g) (idles_quiet hi) hm.2.2 hsb he
  have hread := moves_read_readCtrl (g := g) (idles_quiet (c := c.poll) hi)
  have hwrite := moves_read_writeCtrl (g := g) (idles_quiet (c := c.poll.read .ctrl) hi) hm hctrl
  refine ⟨_, _, .head hfound (.head hread hwrite.path), read_data_ends (idles_quiet hi) hm.2.2, rfl,
    fun heng hacc => ?_⟩
  have htake := reactReadData_acknowledging (g := g) hi ha
  refine endsWith_off ?_ ?_ ?_ rfl
  · simp [htake, heng]
  · have hword : ackWord g (c.poll.read .ctrl).work.ctrlLatch = if g then 0x00000006#32 else 0x00040006#32 :=
      (congrArg (ackWord g) hctrl).trans (ackWord_ctrlBits g hm.1 hm.2.1)
    have hflags : regValue .intflag c.eng = intflagBits c.eng.intflag := rfl
    rw [← hacc]
    simp [hword, hctrl, hflags, acknowledging]
  · simp [htake]

/-- A `READ` taken up in `s` has made `n` empty polls (41_bus_primitives.md R183). -/
def awaiting (s : State) (n : Nat) (w : Work) (ts : List Turn) : Spot :=
  { eng := s.eng, work := w, acc := List.replicate n (.rd .intflag (intflagBits s.eng.intflag)), wire := []
    turns := ts }

/-- What `READ` comes to from its poll on, the first `n` reads empty, `exec` comes to. -/
theorem exec_read {n : Nat} {ts : List Turn} (g : Bool) (hq : s.seq = none) (hp : s.phase = .dataR)
    (hr : s.eng.inflight ≠ .resetPh) (hf : s.eng.intflag.sb = false ∧ s.eng.intflag.error = false)
    (hh : (Spot.of s).HoldsFor n ts) (hn : n < Config.params.pollBudget) : ∃ w, w.pollcnt = n ∧
    ∀ {m : Nat} {l : Line} {c : Spot} {t : State},
      Path (.read g) m (.read g .poll) (awaiting s n w ts) l c →
      blockStep Config.params (operationOf (.read g)) { op := .read g, item := 0, line := l } (c.on (.read g) l s) =
        .ended t →
      m ≤ 8 → exec (.read g) s = .next t := by
  obtain ⟨w, hw, hpolls⟩ := path_polls (i := .read g) s.eng
    (fun u hu hb s => readLine_poll_again (by rwa [hu]) (by rwa [hu]) hb s) (c := (Spot.of s).counting 0) rfl hh
    (by simp only [Spot.counting]; omega)
  refine ⟨w, hw.trans (Nat.zero_add n), fun hpath hend hm => ?_⟩
  refine exec_of_path (i := .read g) hq (by rw [hp]; rfl) (beginOperation_of_poll rfl) (hpolls.trans hpath) hend ?_
  have hbound := stepBound_hostPrimitive Config.params (.read g) .result
  exact lt_of_lt_of_eq (by omega) hbound.symm

/-- `READ` whose poll finds nothing within its budget. -/
theorem exec_read_withheld {ts : List Turn} (g : Bool) (hq : s.seq = none) (hp : s.phase = .dataR)
    (hr : s.eng.inflight ≠ .resetPh) (hf : s.eng.intflag.sb = false ∧ s.eng.intflag.error = false)
    (hh : (Spot.of s).HoldsFor Config.params.pollBudget ts) :
    ∃ t, exec (.read g) s = .next t ∧
      EndsWith s t (reported s.res 0xFE#8 0x00#8) .idle s.eng
        (List.replicate Config.params.pollBudget (.rd .intflag (intflagBits s.eng.intflag))) [] ts := by
  obtain ⟨ts', hpolls, hlast⟩ := hh.split Config.pollExtra 1
  obtain ⟨w, hw, hexec⟩ := exec_read g hq hp hr hf hpolls (Nat.lt_succ_self _)
  refine ⟨_, hexec (.refl ..) (read_poll_spent (hlast (awaiting s _ w ts') rfl rfl).idles hr hf ?_) (by decide), ?_⟩
  · exact not_lt_of_ge (congrArg (· + 1) hw).ge
  · exact endsWith_off rfl List.replicate_succ'.symm rfl rfl

end

/-- Settles O25. -/
theorem withheldByteTimesOut : Obligations.WithheldByteTimesOut := by
  intro s g hq hp hsb he
  refine ⟨fun rest hi ht => ?_, fun hi => ?_⟩
  · exact exec_read_withheld g hq hp (by simp [hi]) ⟨hsb, he⟩ (.inr ⟨by simp [Spot.of, hi], ht⟩)
  · exact exec_read_withheld g hq hp (by simp [hi]) ⟨hsb, he⟩ (.inl ⟨hi, rfl⟩)

/-- Settles O26. -/
theorem readReportsTheErrorFlag : Obligations.ReadReportsTheErrorFlag := by
  intro s g hs hp he
  have ⟨hq, _, _, hi⟩ := hs
  refine ⟨_, exec_of_path (i := .read g) hq (by rw [hp]; rfl) (beginOperation_of_poll rfl) (.refl ..)
    (read_poll_error (idles_quiet hi) (fun hr => nomatch hi.symm.trans hr) he)
    ((by decide : 0 < 27).trans_le (stepBound_pos ..)), ?_⟩
  exact endsWith_off rfl rfl rfl rfl

/-- Settles O24. -/
theorem readCompletes : Obligations.ReadCompletes := by
  intro s g hq
  refine ⟨fun hp => exec_illegal hq (by simpa [legalIn] using hp), fun hp hs hsb he ha => ?_⟩
  have ⟨_, _, _, hi⟩ := hs
  obtain ⟨c', t, hpath, hend, _, hends⟩ := path_read_takes (s := s) (c := (Spot.of s).counting 0) g
    (modeSet_of_ready hs) hi hsb he ha
  refine ⟨t, exec_of_path (i := .read g) hq (by rw [hp]; rfl) (beginOperation_of_poll rfl) hpath hend
    ((by decide : 3 < 27).trans_le (stepBound_pos ..)), ?_, ?_⟩
  · rintro rfl
    rw [← hp]
    exact hends (by simp [taken, Spot.counting, Spot.of, hi]) rfl
  · rintro rfl
    have hdone := hends rfl rfl
    refine ⟨hp ▸ hdone, fun v rest hh ht => ?_⟩
    obtain ⟨_, hhost, _, hseq, _, _, heng, _, _, hfeed⟩ := hdone
    have hflight : t.eng.inflight = .rxPh := by rw [heng]; rfl
    have hmove := engineMove_complete (p := Config.params) (complete_byte_rxPh v hflight) (by rw [hfeed]; exact ht)
    exact step_idle hseq (hhost.trans hh) (.inl hmove)

/-- Settles O57: a poll finds its flag after any number of empty ones below the budget. -/
theorem pollsFindTheFlagWithinTheBudget : Obligations.PollsFindTheFlagWithinTheBudget := by
  intro n hn
  refine ⟨fun s a rest hs ht => exec_start_write hs hn ht, fun s v rest hq hp hen hma hi hf ht => ?_⟩
  have hm : ModeSet s.eng := ⟨hen, hma, by simp [hi]⟩
  obtain ⟨w, hw, hexec⟩ := exec_read false hq hp hm.2.2 (by simp [hf])
    (.inr ⟨by simp [Spot.of, hi], ht⟩) hn
  have hbyte := moves_of_complete (i := .read false) (l := .read false .poll)
    (c := awaiting s n w (.go (.byte v) :: rest)) (complete_byte_rxPh v hi) rfl
  obtain ⟨c', t, hpath, hend, hcount, hends⟩ := path_read_takes (s := s)
    (c := (awaiting s n w (.go (.byte v) :: rest)).completed { eng := received v s.eng, wire := [.rx v] } rest) false
    ⟨hen, hma, nofun⟩ rfl rfl (by simp [received, hf]) rfl
  refine ⟨t, hexec (.head hbyte hpath) hend (by decide), hcount.trans (congrArg (· + 1) hw), hp ▸ hends ?_ ?_⟩
  · simp [taken, received, hf]
  · simp [awaiting, received, hf, intflagBits, bitIf, maskMb, maskSb]

end Sys2Proof.Machine
end

section
/-! The lines of `STOP` and of `INIT`, and O13, O14 and O27 (41_bus_primitives.md R170 to R172, R187, R188). -/

namespace Sys2Proof.Machine

/-! ### `STOP` -/

section
variable {c u : Spot} {s : State}

theorem moves_stop_readCtrl (h : c.Idles u) : Moves .stop (.stop .readCtrl) c (.stop .writeCtrl) (u.read .ctrl) := by
  refine moves_of_goto h rfl fun s => ?_
  simp only [runLine, stopLine, seqRead_on (r := .ctrl) nofun (.inl rfl), onRead]

theorem stop_writeCtrl_ends (h : c.Idles u) (hm : ModeSet u.eng) (hl : u.work.ctrlLatch = ctrlBits u.eng.ctrl) :
    blockStep Config.params (operationOf .stop) { op := .stop, item := 0, line := .stop .writeCtrl }
        (c.on .stop (.stop .writeCtrl) s) =
      .ended ((u.react (.wr .ctrl (stopWord u.work.ctrlLatch)) (reactStop u.eng)).off
        (reported s.res 0x00#8 0x00#8) .idle s) := by
  have hw := seqWrite_stop (s := u.on .stop (.stop .writeCtrl) s) hm hl
  rw [afterAccess_on] at hw
  refine blockStep_ends (i := .stop) (x := .stop) (k := .nothing) (st := .ok) (d := 0#8) h rfl (.inr rfl) ?_
  simp only [runLine, stopLine, hw, onWrite]
  rfl

end

/-- The STOP command is the value read with `CMD` set (41_bus_primitives.md R187). -/
theorem stopWord_eq_or (c : Ctrl) : stopWord (ctrlBits c) = ctrlBits c ||| 0x00030000#32 := by
  rcases c with ⟨_ | _, _ | _, _ | _⟩ <;> decide

/-- Settles O27. -/
theorem stopCompletes : Obligations.StopCompletes := by
  intro s hq
  refine ⟨fun hp => exec_illegal hq (by rw [hp]; rfl), fun hp hen hma hr rest hh => ?_⟩
  have hm : ModeSet s.eng := ⟨hen, hma, hr⟩
  have hctrl : regValue .ctrl s.eng = ctrlBits s.eng.ctrl := ctrlValue_running hr
  obtain ⟨ts', hone, hlast⟩ := Spot.HoldsFor.split (c := Spot.of s) (ts := rest) 1 1 hh
  have hread := moves_stop_readCtrl hone.idles
  refine ⟨_, exec_of_path (i := .stop) hq (by simpa [legalIn] using hp) (beginOperation_of rfl) hread.path
    (stop_writeCtrl_ends (hlast (((Spot.of s).due ts').read .ctrl) rfl rfl).idles hm hctrl)
    ((by decide : 1 < 27).trans_le (stepBound_pos ..)), endsWith_off rfl ?_ rfl rfl⟩
  have hword : stopWord ((((Spot.of s).due ts').read .ctrl).due rest).work.ctrlLatch =
      ctrlBits s.eng.ctrl ||| 0x00030000#32 := (congrArg stopWord hctrl).trans (stopWord_eq_or _)
  simp [hword, hctrl]

/-! ### `INIT` -/

section
variable {c u : Spot} {s : State}

theorem seqExt_on (x : ExtEvent) (l : Line) :
    seqExt x (c.on .init l s) = (c.react (.ext x) { eng := c.eng, wire := [] }).on .init l s := by
  simp [seqExt, Spot.on, Spot.react, State.pushTrace]

/-- A line of `INIT` that writes a register and goes on. -/
theorem moves_init_write {l l' : InitLine} {r : Reg} {v : Word} {x : Reaction} (h : c.Idles u)
    (hw : writeReg r v u.eng = .ok x)
    (hl : ∀ s, initLine Config.params l s = onWrite (seqWrite r v s) (.goto (.init l'))) :
    Moves .init (.init l) c (.init l') (u.react (.wr r v) x) := by
  refine moves_of_goto h rfl fun s => ?_
  simp only [runLine, hl, seqWrite_on hw, onWrite]

/-- A line of `INIT` that records an external event and goes on. -/
theorem moves_init_ext {l l' : InitLine} {x : ExtEvent} (h : c.Idles u)
    (hl : ∀ s, initLine Config.params l s = .goto (.init l') (seqExt x s)) :
    Moves .init (.init l) c (.init l') (u.react (.ext x) { eng := u.eng, wire := [] }) := by
  refine moves_of_goto h rfl fun s => ?_
  simp only [runLine, hl, seqExt_on]

theorem initLine_resetWait_spin (hi : u.eng.inflight = .resetPh) (s : State) :
    runLine Config.params (.init .resetWait) (u.on .init (.init .resetWait) s) =
      .spin ((u.read .ctrl).on .init (.init .resetWait) s) := by
  have hbit : (regValue .ctrl u.eng).getLsbD 0 = true := (ctrlValue_bits u.eng).2.mpr hi
  simp only [runLine, initLine, seqRead_on (r := .ctrl) nofun (.inl rfl), onRead, hbit, if_true]

theorem moves_init_resetWait (h : c.Idles u) (hr : u.eng.inflight ≠ .resetPh) :
    Moves .init (.init .resetWait) c (.init .master) (u.read .ctrl) := by
  have hbit : (regValue .ctrl u.eng).getLsbD 0 = false :=
    Bool.eq_false_iff.mpr fun h0 => hr ((ctrlValue_bits u.eng).2.mp h0)
  refine moves_of_goto h rfl fun s => ?_
  simp only [runLine, initLine, seqRead_on (r := .ctrl) nofun (.inl rfl), onRead, hbit, Bool.false_eq_true, if_false]

theorem moves_init_enable {x : Reaction} (h : c.Idles u) (hw : setBitsReg .ctrl maskEnable u.eng = .ok x) :
    Moves .init (.init .enable) c (.init .pinSda) (u.react (.set .ctrl maskEnable) x) := by
  refine moves_of_goto h rfl fun s => ?_
  simp only [runLine, initLine, seqSet_on hw, onWrite]

theorem init_pinScl_ends (h : c.Idles u) :
    blockStep Config.params (operationOf .init) { op := .init, item := 0, line := .init .pinScl }
        (c.on .init (.init .pinScl) s) =
      .ended ((u.react (.ext .pinScl) { eng := u.eng, wire := [] }).off (reported s.res 0x00#8 0x00#8) .idle s) := by
  refine blockStep_ends (i := .init) (x := .init) (k := .nothing) (st := .ok) (d := 0#8) h rfl (.inr rfl) ?_
  simp only [runLine, initLine, seqExt_on]

theorem setBitsReg_enable (b : Word) :
    setBitsReg .ctrl maskEnable (bootEngine false true b) = .ok { eng := bootEngine true true b, wire := [] } := by
  have hv : regValue .ctrl (bootEngine false true b) ||| maskEnable = 0x6#32 := by
    simp [regValue, ctrlValue, bootEngine, engineReset, ctrlBits, bitIf, maskMaster, maskEnable]
  rw [setBitsReg, hv]
  rfl

/-- `INIT` from its reset wait on, the reset over: five lines and the last (41_bus_primitives.md R170). -/
theorem path_init_configures (he : c.eng = engineReset) :
    ∃ c' t, Path .init 5 (.init .resetWait) c (.init .pinScl) c' ∧
      blockStep Config.params (operationOf .init) { op := .init, item := 0, line := .init .pinScl }
        (c'.on .init (.init .pinScl) s) = .ended t ∧
      EndsWith s t (reported s.res 0x00#8 0x00#8) .idle (bootEngine true true Config.baudDiv)
        (c.acc ++ [.rd .ctrl 0x0#32, .wr .ctrl 0x4#32, .wr .baud Config.baudDiv, .set .ctrl 0x2#32, .ext .pinSda,
          .ext .pinScl]) c.wire c.turns := by
  obtain ⟨e, w, acc, ws, ts⟩ := c
  cases he
  have hpath : Path .init 5 (.init .resetWait) ⟨engineReset, w, acc, ws, ts⟩ (.init .pinScl) _ :=
    .head (moves_init_resetWait (idles_quiet rfl) nofun) <|
    .head (moves_init_write (l := .master) (x := { eng := bootEngine false true 0#32, wire := [] }) (idles_quiet rfl)
      rfl fun _ => rfl) <|
    .head (moves_init_write (l := .baud) (x := { eng := bootEngine false true Config.baudDiv, wire := [] })
      (idles_quiet rfl) rfl fun _ => rfl) <|
    .head (moves_init_enable (idles_quiet rfl) (setBitsReg_enable _)) <|
    (moves_init_ext (l := .pinSda) (idles_quiet rfl) fun _ => rfl).path
  refine ⟨_, _, hpath, init_pinScl_ends (idles_quiet rfl), endsWith_off rfl ?_ ?_ rfl⟩
  · have hv : regValue .ctrl engineReset = 0x0#32 := regValue_engineReset _
    simp [maskMaster, maskEnable, hv, Config.params]
  · simp

end

/-- `INIT` up to its reset wait, the reset completing at once (41_bus_primitives.md R170 steps 1 to 3, R172). -/
theorem path_init_resets {s : State} {o : EnvOutcome} {rest : List Turn} (hi : s.eng.inflight = .none)
    (ht : s.feed.turns = .go o :: rest) :
    ∃ c : Spot, Path .init 4 (.init .clkEnable) (Spot.of s) (.init .resetWait) c ∧ c.eng = engineReset ∧
      c.acc = [.ext .clkEnable, .ext .clkSelect, .wr .ctrl 0x1#32] ∧ c.wire = [] ∧ c.turns = rest := by
  have hwrite : writeReg .ctrl maskSwrst s.eng = .ok { eng := { s.eng with inflight := .resetPh }, wire := [] } := by
    rw [writeReg_ctrl (by simp [hi])]
    rfl
  have hpath : Path .init 4 (.init .clkEnable) (Spot.of s) (.init .resetWait) _ :=
    .head (moves_init_ext (l := .clkEnable) (idles_quiet hi) fun _ => rfl) <|
    .head (moves_init_ext (l := .clkSelect) (idles_quiet hi) fun _ => rfl) <|
    .head (moves_init_write (l := .swrst) (idles_quiet hi) hwrite fun _ => rfl)
    (moves_of_complete (complete_resetPh Config.params o rfl) ht).path
  exact ⟨_, hpath, rfl, rfl, rfl, rfl⟩

/-- Settles O13. -/
theorem initCompletes : Obligations.InitCompletes := by
  intro s hq
  refine ⟨fun hp => exec_illegal hq (by simpa [legalIn] using hp), fun o rest hp hi ht => ?_⟩
  obtain ⟨c, hreset, heng, hacc, hwire, hturns⟩ := path_init_resets hi ht
  obtain ⟨c', t, hpath, hend, h⟩ := path_init_configures (s := s) heng
  rw [hacc, hwire, hturns] at h
  exact ⟨t, exec_of_path (i := .init) hq (by rw [hp]; rfl) (beginOperation_of rfl) (hreset.trans hpath) hend
    ((by decide : 9 < 27).trans_le (stepBound_pos ..)), h⟩

/-- Settles O14: by induction on `n`, in `run_waits`. -/
theorem initWaitsForTheReset : Obligations.InitWaitsForTheReset := by
  intro n s o rest hq hb hh hi ht
  have hwait : ∀ u : Spot, u.eng = s.eng → runLine Config.params (.init .resetWait) (u.on .init (.init .resetWait) s) =
      .spin ((u.read .ctrl).on .init (.init .resetWait) s) := fun u hu => initLine_resetWait_spin (by rw [hu, hi]) s
  obtain ⟨c, hrun, he, hacc, hwire, hturns⟩ := run_waits (n := n) .ctrl s.eng (by simp [hi]) hh hwait
    (c := Spot.of s) rfl ht
  have hv : regValue .ctrl s.eng = 0x1#32 := by simp [regValue, ctrlValue, hi, maskSwrst]
  rw [on_of hb hq] at hrun
  replace hacc : c.acc = List.replicate n (.rd .ctrl 0x1#32) := hv ▸ hacc
  have hreset := moves_of_complete (i := .init) (l := .init .resetWait)
    (complete_resetPh Config.params o (he ▸ hi)) hturns
  obtain ⟨c', t, hpath, hend, h⟩ := path_init_configures (s := s)
    (c := c.completed { eng := engineReset, wire := [] } rest) rfl
  obtain ⟨_, _, hbusy, hseq, hres, hphase, heng, htrace, _⟩ := h
  refine ⟨⟨_, hrun, rfl, he, rfl, congrArg (s.trace ++ ·) hacc⟩,
    ⟨_, (run_add hrun).trans (run_of_path hh hreset.path), rfl, rfl, congrArg (s.trace ++ ·) hacc⟩,
    t, (run_add hrun).trans (run_of_path_ended hh (hreset.path.trans hpath) hend), hbusy, hseq, hres, hphase,
    ?_, ?_, ?_⟩
  · rw [heng]
    simp [regValue, ctrlValue, bootEngine, engineReset, ctrlBits, bitIf, maskEnable, maskMaster]
  · rw [heng]
    rfl
  · rw [htrace, Spot.completed_acc, hacc, List.append_assoc]

end Sys2Proof.Machine
end

section
/-! What every environment leaves of a primitive the host issued: a rule for its lines, and the end of every `START`
(41_bus_primitives.md R173 to R178, R190; 40_bus_engine.md R136, R145). -/

namespace Sys2Proof.Machine

/-! ### A rule for the lines of a primitive -/

theorem LineOut.Holds.mono {G G' : Line → State → Prop} {A A' W W' : State → Prop} {D D' : Code → Byte → State → Prop}
    {out : LineOut} (h : out.Holds G A W D) (hG : ∀ l t, G l t → G' l t) (hA : ∀ t, A t → A' t) (hW : ∀ t, W t → W' t)
    (hD : ∀ st d t, D st d t → D' st d t) : out.Holds G' A' W' D' := by
  cases out with
  | goto l t => exact hG l t h
  | again t => exact hA t h
  | spin t => exact hW t h
  | done st d t => exact hD st d t h
  | refused r => trivial

section
variable {i : Instr} {x : Prim} {k : Keep} {s t : State}

/-- What holds at the first line of a primitive, and is kept by the engine's moments and by each line up to the next,
holds where `exec` stops within it; or `R` holds, which each line that ends it leaves. -/
theorem exec_host_holds {Q : Line → State → Prop} {R : State → Prop} (hop : operationOf i = hostPrimitive x k)
    (hinv : Inv s) (hq : s.seq = none) (hbegin : Q (firstLine x) (beginOperation i (operationOf i) s))
    (hholds : ∀ {l u f}, Q l u → Q l (u.setFeed f))
    (hcomplete : ∀ {l u f o y}, Inv u → Q l u → complete Config.params o u.eng = some y →
      Q l (((u.setFeed f).setEng y.eng).pushWire y.wire))
    (hline : ∀ {l u}, Inv u → u.seq = some { op := i, item := 0, line := l } → Q l u →
      (runLine Config.params l u).Holds (fun l' v => Q l' (moveTo i 0 l' v)) (Q l) (Q l)
        (fun st d v => R (finish st .ok (if st = .ok then keepByte k d v else v))))
    (h : exec i s = .next t) : (∃ l, t.seq = some { op := i, item := 0, line := l } ∧ Q l t) ∨ R t := by
  have hitem : itemLine (operationOf i) 0 = firstLine x := by
    rw [hop]
    rfl
  refine (exec_next_holds (Q := fun u => Inv u ∧ ∃ l, u.seq = some { op := i, item := 0, line := l } ∧ Q l u)
    (R := fun u => (∃ l, u.seq = some { op := i, item := 0, line := l } ∧ Q l u) ∨ R u) ?_ ?_ ?_ h).elim
    (fun hu => .inl hu.2) id
  · intro u q ⟨hu, l, hl, hQ⟩ hq' _
    cases hl.symm.trans hq'
    have hinv' := blockStep_keeps_inv hu hl
    rcases blockStep_cases Config.params (operationOf i) { op := i, item := 0, line := l } u with
      ⟨f, o, y, hc, e⟩ | ⟨f, e⟩
    · rw [e] at hinv' ⊢
      exact ⟨hinv', l, hl, hcomplete hu hQ hc⟩
    · have hf : Inv (u.setFeed f) := hu
      have hout := hline hf hl (hholds hQ)
      have hseq := runLine_frame Config.params l (u.setFeed f)
      rw [e] at hinv' ⊢
      unfold seqStep at hinv' ⊢
      generalize runLine Config.params l (u.setFeed f) = out at hout hseq hinv'
      cases out with
      | goto l' v => exact ⟨hinv', l', moveTo_seq .., hout⟩
      | again v => exact ⟨hinv', l, hseq.2.2.2.trans hl, hout⟩
      | spin v => exact .inl ⟨l, hseq.2.2.2.trans hl, hout⟩
      | done st d v =>
        show (itemEnded i (operationOf i) 0 st d v).Holds _ _ _
        rw [hop, itemEnded_hostPrimitive]
        exact .inr hout
      | refused r => trivial
  · exact fun _ hl => ⟨inv_beginOperation hinv hq hl, _, by rw [beginOperation_seq, hitem], hbegin⟩
  · exact fun q hq' _ => nomatch hq.symm.trans hq'

end

/-! ### Every `START` ends -/

/-- More accesses than are left to a `START` at the line `l`, with `k` reads of its poll made. -/
def accessesLeft (l : StartLine) (k : Nat) : Nat :=
  match l with
  | .check => Config.params.pollBudget + 9
  | .flags => Config.params.pollBudget + 8
  | .cleanup => Config.params.pollBudget + 7
  | .address => Config.params.pollBudget + 6
  | .poll => Config.params.pollBudget - k + 5
  | .status => 4
  | .failRead _ => 3
  | .failStop _ => 2
  | .failClear _ => 1

/-- A line of `START` leads to one with fewer accesses left, or is a poll that has fewer left. -/
theorem startLine_accessesLeft (a : BitVec 7) (d : Dir) (l : StartLine) (s : State) :
    (runLine Config.params (.start a d l) s).Holds
      (fun l' _ => ∃ m, l' = .start a d m ∧ ∀ k, accessesLeft m k < accessesLeft l s.work.pollcnt)
      (fun t => accessesLeft l t.work.pollcnt < accessesLeft l s.work.pollcnt) (fun _ => False)
      (fun _ _ _ => True) := by
  cases l <;> dsimp only [runLine, startLine]
  case check =>
    refine onRead_holds fun _ _ _ => ?_
    split
    · exact ⟨_, rfl, fun _ => Nat.lt_succ_self _⟩
    · trivial
  case flags =>
    refine onRead_holds fun _ _ _ => ⟨_, rfl, fun _ => ?_⟩
    split <;> simp only [accessesLeft] <;> omega
  case cleanup | failStop => exact onWrite_holds fun _ _ => ⟨_, rfl, fun _ => Nat.lt_succ_self _⟩
  case address => exact onWrite_holds fun _ _ => ⟨_, rfl, fun _ => by simp only [accessesLeft]; omega⟩
  case failRead => exact onRead_holds fun _ _ _ => ⟨_, rfl, fun _ => Nat.lt_succ_self _⟩
  case failClear => exact onWrite_holds fun _ _ => trivial
  case poll =>
    refine pollLine_holds (fun _ _ _ _ => ⟨_, rfl, fun _ => ?_⟩) (fun _ t hr _ hb => ?_)
      fun _ _ _ _ _ => ⟨_, rfl, fun _ => ?_⟩
    · simp only [accessesLeft]; omega
    · have hcount := seqRead_pollcnt hr
      simp only [accessesLeft, State.setWork_work]
      omega
    · simp only [accessesLeft]; omega
  case status =>
    refine onRead_holds fun _ _ _ => ?_
    split
    · exact ⟨_, rfl, fun _ => Nat.lt_succ_self _⟩
    · trivial

/-- The sequencer stands in a `START` the host issued, with at most `n` steps of the block to go: before each access two
completions can stand. -/
def StartStepsLeft (a : BitVec 7) (d : Dir) (n : Nat) (s : State) : Prop :=
  ∃ l, s.seq = some { op := .start a d, item := 0, line := .start a d l } ∧
    3 * accessesLeft l s.work.pollcnt + completionsLeft s.eng ≤ n

theorem accessesLeft_pos (l : StartLine) (k : Nat) : 0 < accessesLeft l k := by
  cases l <;> simp [accessesLeft]

/-- Each step of a `START` leaves one step less, or ends it. -/
theorem blockStep_startStepsLeft {a : BitVec 7} {d : Dir} {n : Nat} {s : State} {l : StartLine}
    (hl : s.seq = some { op := .start a d, item := 0, line := .start a d l })
    (hn : 3 * accessesLeft l s.work.pollcnt + completionsLeft s.eng ≤ n + 1) :
    (blockStep Config.params (operationOf (.start a d)) { op := .start a d, item := 0, line := .start a d l } s).Holds
      (StartStepsLeft a d n) (fun _ => False) (fun t => t.seq = none) := by
  rcases blockStep_cases Config.params (operationOf (.start a d)) ⟨.start a d, 0, .start a d l⟩ s with
    ⟨f, o, y, hc, e⟩ | ⟨f, e⟩
  · rw [e]
    have := completionsLeft_of_complete hc
    exact ⟨l, hl, by simp; omega⟩
  · have hout := startLine_accessesLeft a d l (s.setFeed f)
    have hseq := runLine_frame Config.params (.start a d l) (s.setFeed f)
    rw [e]
    unfold seqStep
    generalize runLine Config.params (.start a d l) (s.setFeed f) = out at hout hseq
    simp only [State.setFeed_work] at hout
    cases out with
    | goto l' t =>
      obtain ⟨m, rfl, hlt⟩ := hout
      have hm := hlt (moveTo (.start a d) 0 (.start a d m) t).work.pollcnt
      have := completionsLeft_le (moveTo (.start a d) 0 (.start a d m) t).eng
      show StartStepsLeft a d n (moveTo (.start a d) 0 (.start a d m) t)
      exact ⟨m, moveTo_seq .., by omega⟩
    | again t =>
      have hlt : accessesLeft l t.work.pollcnt < accessesLeft l s.work.pollcnt := hout
      have := completionsLeft_le t.eng
      exact ⟨l, hseq.2.2.2.trans hl, by omega⟩
    | spin t => exact hout.elim
    | done st b t =>
      show (itemEnded (.start a d) (hostPrimitive (.start a d) .nothing) 0 st b t).Holds _ _ _
      rw [itemEnded_hostPrimitive]
      rfl
    | refused r => trivial

/-- With steps enough a `START` ends. -/
theorem runSteps_start_ends {a : BitVec 7} {d : Dir} : ∀ {N : Nat} {s t : State}, StartStepsLeft a d N s →
    runSteps Config.params (operationOf (.start a d)) N s = .next t → t.seq = none := by
  intro N
  induction N with
  | zero =>
    intro s t ⟨l, _, hn⟩ _
    have := accessesLeft_pos l s.work.pollcnt
    omega
  | succ N ih =>
    intro s t ⟨l, hl, hn⟩ h
    have hstep := blockStep_startStepsLeft hl hn
    cases hb : blockStep Config.params (operationOf (.start a d)) ⟨.start a d, 0, .start a d l⟩ s with
    | moved u =>
      rw [hb] at hstep
      exact ih hstep ((runSteps_moved hl hb).symm.trans h)
    | waits u =>
      rw [hb] at hstep
      exact hstep.elim
    | ended u =>
      rw [hb] at hstep
      cases (runSteps_ended hl hb).symm.trans h
      exact hstep
    | refused r => cases (runSteps_refused hl hb).symm.trans h

/-- Every `START` ends, whatever the environment does (41_bus_primitives.md R190; 70_reset_and_hazards.md R300). -/
theorem exec_start_over {a : BitVec 7} {d : Dir} {s t : State} (hq : s.seq = none) (h : exec (.start a d) s = .next t) :
    t.seq = none := by
  rw [exec_of_begin hq rfl] at h
  refine runSteps_start_ends ⟨.check, beginOperation_seq .., ?_⟩ h
  have hbound : stepBound Config.params (operationOf (.start a d)) = 6 * Config.params.pollBudget + 54 :=
    stepBound_hostPrimitive _ (.start a d) .nothing
  have := completionsLeft_le (beginOperation (.start a d) (operationOf (.start a d)) s).eng
  rw [hbound]
  simp only [accessesLeft]
  omega

/-- What holds where a `START` begins, and is kept by the engine's moments and by each line up to the next, holds to its
last line, and so what that line leaves does. -/
theorem exec_start_holds {a : BitVec 7} {d : Dir} {s t : State} {Q : StartLine → State → Prop} {R : State → Prop}
    (hinv : Inv s) (hq : s.seq = none)
    (hbegin : Q .check (beginOperation (.start a d) (operationOf (.start a d)) s))
    (hholds : ∀ {l u f}, Q l u → Q l (u.setFeed f))
    (hcomplete : ∀ {l u f o y}, Q l u → complete Config.params o u.eng = some y →
      Q l (((u.setFeed f).setEng y.eng).pushWire y.wire))
    (hline : ∀ {l u}, Inv u → u.seq = some { op := .start a d, item := 0, line := .start a d l } → Q l u →
      (runLine Config.params (.start a d l) u).Holds
        (fun l' v => ∃ m, l' = .start a d m ∧ Q m (moveTo (.start a d) 0 (.start a d m) v)) (Q l) (fun _ => False)
        (fun st _ v => R (finish st .ok v)))
    (h : exec (.start a d) s = .next t) : R t := by
  have hover := exec_start_over hq h
  refine (exec_host_holds (i := .start a d) (x := .start a d) (k := .nothing)
    (Q := fun l u => ∃ m, l = .start a d m ∧ Q m u) rfl hinv hq ⟨_, rfl, hbegin⟩ ?_ ?_ ?_ h).resolve_left
    fun ⟨l, hl, _⟩ => nomatch hover.symm.trans hl
  · exact fun ⟨m, hm, hQ⟩ => ⟨m, hm, hholds hQ⟩
  · exact fun _ ⟨m, hm, hQ⟩ hc => ⟨m, hm, hcomplete hQ hc⟩
  · rintro l u hu hl ⟨m, rfl, hQ⟩
    have hout := hline hu hl hQ
    generalize runLine Config.params (.start a d m) u = out at hout
    cases out with
    | goto l' v =>
      obtain ⟨m', rfl, hQ'⟩ := hout
      exact ⟨m', rfl, hQ'⟩
    | again v => exact ⟨m, rfl, hout⟩
    | spin v => exact hout.elim
    | done st b v =>
      have hkeep : (if st = .ok then keepByte .nothing b v else v) = v := by split <;> rfl
      show R (finish st .ok _)
      rwa [hkeep]
    | refused r => trivial

end Sys2Proof.Machine
end

section
/-! How a `START` ends whatever the environment does, and O17 and O20 (41_bus_primitives.md R174, R177). -/

namespace Sys2Proof.Machine

/-! ### The accesses of a `START` so far -/

/-- The accesses made since `s` where a `START` stands at a line of which its end is told: none at the check, and along
the failure path the last ones. -/
def StartTrail (s : State) (l : StartLine) (u : State) : Prop :=
  match l with
  | .check => u.trace = s.trace
  | .failStop _ => ∃ pre, u.trace = s.trace ++ pre ++ [.rd .ctrl u.work.ctrlLatch]
  | .failClear _ => ∃ pre c, u.trace = s.trace ++ pre ++ [.rd .ctrl c, .wr .ctrl (stopWord c)]
  | _ => ∃ new, u.trace = s.trace ++ new

/-- The trail is of the trace and the latch alone. -/
theorem StartTrail.of_eq {s u t : State} {l : StartLine} (h : StartTrail s l u) (ht : t.trace = u.trace)
    (hl : t.work.ctrlLatch = u.work.ctrlLatch) : StartTrail s l t := by
  cases l <;> simpa only [StartTrail, ht, hl] using h

/-- One access more. -/
theorem grows_of_record {s u t : State} {b : Access} (h : ∃ new, u.trace = s.trace ++ new)
    (ht : t.trace = u.trace ++ [b]) : ∃ new, t.trace = s.trace ++ new := by
  obtain ⟨new, h⟩ := h
  exact ⟨new ++ [b], by rw [ht, h, List.append_assoc]⟩

/-- The bus is free: nothing in flight, no acknowledge pending, no flag set (41_bus_primitives.md R177). -/
def BusFree (e : Engine) : Prop :=
  e.owned = false ∧ e.inflight = .none ∧ e.ackPending = false ∧ regValue .intflag e = 0#32

/-- How a `START` taken up in `s` ends: in UNINIT with `NotReady` after one read; else OK, or with the bus freed by the
three accesses of its failure path. -/
def StartEnds (s t : State) : Prop :=
  (s.phase = .uninit ∧ t.res.status = 0xFF#8 ∧ ∃ c, t.trace = s.trace ++ [.rd .ctrl c]) ∨
  (s.phase ≠ .uninit ∧ t.res.status = 0x00#8) ∨
  (s.phase ≠ .uninit ∧ (t.res.status = 0xFE#8 ∨ t.res.status = 0xFC#8) ∧ BusFree t.eng ∧ t.phase = .idle ∧
    ∃ pre c, t.trace = s.trace ++ pre ++ failAccesses c)

/-! ### The lines -/

section
variable {a : BitVec 7} {d : Dir} {l : StartLine} {s u : State}

/-- What the invariant says at a line of a `START` past its check. -/
theorem start_running (hinv : Inv u) (hq : u.seq = some { op := .start a d, item := 0, line := .start a d l })
    (hl : l ≠ .check) : u.phase ≠ .uninit ∧ engineFits ⟨.start a d, 0, .start a d l⟩ u = true := by
  obtain ⟨_, _, _, hat, _⟩ := (inv_iff hq).mp hinv
  obtain ⟨hp, _, hf⟩ := (at_start hl).mp hat
  exact ⟨hp, hf⟩

/-- The enabled check fails in UNINIT only (41_bus_primitives.md R174). -/
theorem start_check_iff (hinv : Inv u) (hq : u.seq = some { op := .start a d, item := 0, line := .start a d .check }) :
    (regValue .ctrl u.eng).getLsbD 1 = true ↔ u.phase ≠ .uninit := by
  obtain ⟨_, _, _, hat, _⟩ := (inv_iff hq).mp hinv
  exact ctrlValue_enable_iff hat.mode

/-- The last access of the failure path leaves the bus free. -/
theorem busFree_of_failClear {x : StartError} {t : State}
    (hf : engineFits ⟨.start a d, 0, .start a d (.failClear x)⟩ u = true) (hw : seqWrite .intflag maskError u = .ok t) :
    BusFree t.eng := by
  simp only [engineFits, Bool.and_eq_true, Bool.not_eq_true', beq_iff_eq] at hf
  obtain ⟨⟨⟨⟨ho, hi⟩, ha⟩, hmb⟩, hsb⟩ := hf
  rw [seqWrite_clearError hw]
  exact ⟨ho, hi, ha, by simp [regValue, intflagBits, bitIf, hmb, hsb]⟩

theorem seqRead_phase {r : Reg} {v : Word} {t : State} (h : seqRead r u = .ok (v, t)) : t.phase = u.phase := by
  obtain ⟨_, _, rfl⟩ := seqRead_cases h
  rfl

theorem seqWrite_phase {r : Reg} {v : Word} {t : State} (h : seqWrite r v u = .ok t) : t.phase = u.phase := by
  obtain ⟨_, _, _, rfl⟩ := seqWrite_cases h
  rfl

theorem startLine_trail (hinv : Inv u) (hq : u.seq = some { op := .start a d, item := 0, line := .start a d l })
    (hp : u.phase = s.phase) (h : StartTrail s l u) :
    (runLine Config.params (.start a d l) u).Holds
      (fun l' t => ∃ m, l' = .start a d m ∧ t.phase = s.phase ∧ StartTrail s m t)
      (fun t => t.phase = s.phase ∧ StartTrail s l t) (fun _ => False)
      (fun st _ t => StartEnds s (finish st .ok t)) := by
  have hphase : l ≠ .check → s.phase ≠ .uninit := fun hl => hp ▸ (start_running hinv hq hl).1
  cases l <;> dsimp only [runLine, startLine]
  case check =>
    refine onRead_holds fun v t hr => ?_
    obtain ⟨rfl, _, htp⟩ := seqRead_quiet hr nofun
    have htrace : t.trace = s.trace ++ [.rd .ctrl (regValue .ctrl u.eng)] :=
      (seqRead_trace hr).trans (congrArg (· ++ _) h)
    split
    · exact ⟨_, rfl, htp.trans hp, _, htrace⟩
    · rename_i hv
      have hu : u.phase = .uninit := by_contra fun hn => hv ((start_check_iff hinv hq).mpr hn)
      exact .inl ⟨hp.symm.trans hu, rfl, _, htrace⟩
  case flags =>
    refine onRead_holds fun v t hr => ⟨_, rfl, (seqRead_phase hr).trans hp, ?_⟩
    split <;> exact grows_of_record h (seqRead_trace hr)
  case cleanup | address =>
    exact onWrite_holds fun t hw => ⟨_, rfl, (seqWrite_phase hw).trans hp, grows_of_record h (seqWrite_trace hw)⟩
  case poll =>
    refine pollLine_holds (fun f t hr _ => ⟨_, rfl, ?_⟩) (fun f t hr _ _ => ?_) fun f t hr _ _ => ⟨_, rfl, ?_⟩
    all_goals exact ⟨(seqRead_phase hr).trans hp, grows_of_record h (seqRead_trace hr :)⟩
  case status =>
    refine onRead_holds fun v t hr => ?_
    split
    · exact ⟨_, rfl, (seqRead_phase hr).trans hp, grows_of_record h (seqRead_trace hr)⟩
    · exact .inr (.inl ⟨hphase nofun, rfl⟩)
  case failRead x =>
    refine onRead_holds fun v t hr => ⟨_, rfl, (seqRead_phase hr).trans hp, ?_⟩
    obtain ⟨new, h⟩ := h
    exact ⟨new, by rw [seqRead_trace hr, h, (seqRead_ctrl hr).2.2]; rfl⟩
  case failStop x =>
    refine onWrite_holds fun t hw => ⟨_, rfl, (seqWrite_phase hw).trans hp, ?_⟩
    obtain ⟨pre, h⟩ := h
    exact ⟨pre, u.work.ctrlLatch, by rw [seqWrite_trace hw, h, List.append_assoc]; rfl⟩
  case failClear x =>
    refine onWrite_holds fun t hw => .inr (.inr ⟨hphase nofun, ?_, ?_, rfl, ?_⟩)
    · cases x
      · exact .inl rfl
      · exact .inr rfl
    · exact (busFree_of_failClear (start_running hinv hq nofun).2 hw :)
    · obtain ⟨pre, c, h⟩ := h
      refine ⟨pre, c, ?_⟩
      show t.trace = _
      rw [seqWrite_trace hw, h, List.append_assoc]
      rfl

end

/-! ### The end -/

/-- How `exec` ends a `START` (41_bus_primitives.md R174, R177, R178). -/
theorem exec_start_ends {a : BitVec 7} {d : Dir} {s t : State} (hinv : Inv s) (hq : s.seq = none)
    (h : exec (.start a d) s = .next t) : StartEnds s t := by
  refine exec_start_holds (Q := fun l u => u.phase = s.phase ∧ StartTrail s l u) hinv hq
    ⟨beginOperation_phase .., beginOperation_trace ..⟩ ?_ ?_ ?_ h
  · exact fun ⟨hp, ht⟩ => ⟨hp, ht.of_eq rfl rfl⟩
  · exact fun ⟨hp, ht⟩ _ => ⟨hp, ht.of_eq rfl rfl⟩
  · exact fun hu hl ⟨hp, ht⟩ => (startLine_trail hu hl hp ht).mono
      (fun _ _ ⟨m, hm, hp', ht'⟩ =>
        ⟨m, hm, (moveTo_phase ..).trans hp', ht'.of_eq (moveTo_trace ..) (moveTo_latches ..).2.2⟩)
      (fun _ => id) (fun _ => id) (fun _ _ _ => id)

/-- The enabled check finds `ENABLE` 0. -/
theorem start_check_notReady {a : BitVec 7} {d : Dir} {c : Spot} {s : State} (hi : c.eng.inflight = .none)
    (he : c.eng.ctrl.enable = false) :
    blockStep Config.params (operationOf (.start a d)) { op := .start a d, item := 0, line := .start a d .check }
        (c.on (.start a d) (.start a d .check) s) =
      .ended ((c.read .ctrl).off (reported s.res 0xFF#8 0x00#8) s.phase s) := by
  have hbit : (regValue .ctrl c.eng).getLsbD 1 = false := by
    rw [regValue, ctrlValue_running (by simp [hi]), ctrlBits_bit1, he]
  refine blockStep_ends (i := .start a d) (x := .start a d) (k := .nothing) (st := .notReady) (d := 0#8)
    (idles_quiet hi) rfl (.inr rfl) ?_
  simp only [runLine, startLine, seqRead_on (r := .ctrl) nofun (.inl rfl), onRead, hbit, Bool.false_eq_true, if_false]
  rfl

/-- Settles O17. -/
theorem startBeforeInitIsNotReady : Obligations.StartBeforeInitIsNotReady := by
  refine ⟨fun s a d hq he hi => ?_, fun s t a d hinv hq h => ?_⟩
  · refine ⟨_, exec_of_path (i := .start a d) hq rfl (beginOperation_of rfl) (.refl ..) (start_check_notReady hi he)
      ((by decide : 0 < 27).trans_le (stepBound_pos ..)), ?_⟩
    exact endsWith_off rfl rfl rfl rfl
  · rcases exec_start_ends hinv hq h with ⟨hp, hst, _⟩ | ⟨hp, hst⟩ | ⟨hp, hst, _⟩
    · simp [hp, hst]
    · simp [hp, hst]
    · rcases hst with hst | hst <;> simp [hp, hst]

/-- Settles O20. -/
theorem failedStartReleasesTheBus : Obligations.FailedStartReleasesTheBus := by
  intro s t a d hinv hq h
  rcases exec_start_ends hinv hq h with ⟨_, hst, htrace⟩ | ⟨_, hst⟩ | ⟨_, hst, ⟨ho, hi, ha, hf⟩, hp, htrace⟩
  · exact ⟨fun h => absurd h (by simp [hst]), fun _ => htrace⟩
  · exact ⟨fun h => absurd h (by simp [hst]), fun h => absurd h (by simp [hst])⟩
  · exact ⟨fun _ => ⟨ho, hi, ha, hf, hp, htrace⟩, fun h => absurd h (by rcases hst with e | e <;> simp [e])⟩

end Sys2Proof.Machine
end

section
/-! The reads of a bounded poll, and O56 (41_bus_primitives.md R190; 60_exceptions.md R271). -/

namespace Sys2Proof.Machine

/-! ### Counting the reads of `INTFLAG` -/

/-- Since `s` the trace has grown by accesses of which at most `n` read `INTFLAG`. -/
def ReadsAtMost (n : Nat) (s u : State) : Prop :=
  ∃ new, u.trace = s.trace ++ new ∧ (new.filter readsIntflag).length ≤ n

section
variable {m n : Nat} {s u t : State}

theorem readsAtMost_of_eq (h : u.trace = s.trace) : ReadsAtMost 0 s u := ⟨[], by simp [h], le_rfl⟩

theorem ReadsAtMost.mono (h : ReadsAtMost m s u) (hmn : m ≤ n) (ht : t.trace = u.trace) : ReadsAtMost n s t := by
  obtain ⟨new, htrace, hlen⟩ := h
  exact ⟨new, ht.trans htrace, hlen.trans hmn⟩

/-- One access more, a read of `INTFLAG` or not. -/
theorem ReadsAtMost.record {b : Access} (h : ReadsAtMost m s u) (ht : t.trace = u.trace ++ [b])
    (hn : m + (if readsIntflag b then 1 else 0) ≤ n) : ReadsAtMost n s t := by
  obtain ⟨new, htrace, hlen⟩ := h
  refine ⟨new ++ [b], by rw [ht, htrace, List.append_assoc], ?_⟩
  rw [List.filter_append, List.length_append]
  cases hb : readsIntflag b <;> simp [hb] at hn ⊢ <;> omega

end

/-! ### `START` -/

/-- The most reads of `INTFLAG` a `START` has made where it stands at the line `l`, `k` reads of its poll counted. -/
def startReads (l : StartLine) (k : Nat) : Nat :=
  match l with
  | .check => 0
  | .flags => 0
  | .cleanup => 1
  | .address => 1
  | .poll => 1 + k
  | _ => Config.params.pollBudget + 1

/-- A `START` taken up in `s` stands at the line `l`, no more reads made than that. -/
def StartReads (s : State) (l : StartLine) (u : State) : Prop := ReadsAtMost (startReads l u.work.pollcnt) s u

section
variable {a : BitVec 7} {d : Dir} {s u : State}

theorem startLine_reads {l : StartLine} (hb : PollsLeft (.start a d l) u)
    (h : StartReads s l u) :
    (runLine Config.params (.start a d l) u).Holds
      (fun l' t => ∃ m, l' = .start a d m ∧ StartReads s m (moveTo (.start a d) 0 (.start a d m) t))
      (StartReads s l) (fun _ => False) (fun _ _ t => ReadsAtMost (Config.params.pollBudget + 1) s t) := by
  have hmoved : ∀ {n m t}, ReadsAtMost n s t →
      n ≤ startReads m (moveTo (.start a d) 0 (.start a d m) t).work.pollcnt →
      StartReads s m (moveTo (.start a d) 0 (.start a d m) t) := fun h hn => h.mono hn (moveTo_trace ..)
  cases l <;> dsimp only [runLine, startLine]
  case check =>
    refine onRead_holds fun v t hr => ?_
    split
    · exact ⟨_, rfl, hmoved (h.record (seqRead_trace hr) le_rfl) le_rfl⟩
    · exact h.record (seqRead_trace hr) (Nat.zero_le _)
  case flags =>
    refine onRead_holds fun v t hr => ⟨_, rfl, hmoved (n := 1) (h.record (seqRead_trace hr :) le_rfl) ?_⟩
    split <;> exact Nat.le_refl 1
  case cleanup => exact onWrite_holds fun t hw => ⟨_, rfl, hmoved (h.record (seqWrite_trace hw) le_rfl) le_rfl⟩
  case address =>
    exact onWrite_holds fun t hw => ⟨_, rfl, hmoved (h.record (seqWrite_trace hw) le_rfl) (Nat.le_add_right _ _)⟩
  case poll =>
    have hk : u.work.pollcnt < Config.params.pollBudget := hb.2 rfl
    have hnext : 1 + u.work.pollcnt + 1 ≤ Config.params.pollBudget + 1 := by omega
    refine pollLine_holds (fun f t hr _ => ⟨_, rfl, ?_⟩) (fun f t hr _ _ => ?_) fun f t hr _ _ => ⟨_, rfl, ?_⟩
    · exact hmoved (h.record (t := t.setWork _) (seqRead_trace hr :) hnext) le_rfl
    · exact h.record (t := t.setWork _) (seqRead_trace hr :) (by simp [startReads, readsIntflag, seqRead_pollcnt hr])
    · exact hmoved (h.record (t := t.setWork _) (seqRead_trace hr :) hnext) le_rfl
  case status =>
    refine onRead_holds fun v t hr => ?_
    split
    · exact ⟨_, rfl, hmoved (h.record (seqRead_trace hr :) le_rfl) le_rfl⟩
    · exact h.record (t := t.setPhase _) (seqRead_trace hr :) le_rfl
  case failRead => exact onRead_holds fun v t hr => ⟨_, rfl, hmoved (h.record (seqRead_trace hr) le_rfl) le_rfl⟩
  case failStop => exact onWrite_holds fun t hw => ⟨_, rfl, hmoved (h.record (seqWrite_trace hw) le_rfl) le_rfl⟩
  case failClear => exact onWrite_holds fun t hw => h.record (t := t.setPhase _) (seqWrite_trace hw :) le_rfl

/-- A `START` reads `INTFLAG` once before its poll and at most `POLL_BUDGET` times in it. -/
theorem exec_start_reads {t : State} (hinv : Inv s) (hq : s.seq = none) (h : exec (.start a d) s = .next t) :
    ReadsAtMost (Config.params.pollBudget + 1) s t := by
  refine exec_start_holds (Q := StartReads s) hinv hq ?_ ?_ ?_ ?_ h
  · exact readsAtMost_of_eq (beginOperation_trace ..)
  · exact fun h => h
  · exact fun h _ => h
  · exact fun hu hl h => startLine_reads ((inv_iff hl).mp hu).2.2.2.2 h

end

/-! ### `READ` -/

/-- The most reads of `INTFLAG` a `READ` has made where it stands at the line `l`, `k` of them counted. -/
def readReads (l : ReadLine) (k : Nat) : Nat :=
  match l with
  | .poll => k
  | _ => Config.params.pollBudget

section
variable {g : Bool} {s u : State}

theorem readLine_reads {l : ReadLine} (hb : PollsLeft (.read g l) u)
    (h : ReadsAtMost (readReads l u.work.pollcnt) s u) :
    (runLine Config.params (.read g l) u).Holds
      (fun l' t => ∃ m, l' = .read g m ∧ m ≠ .poll ∧ ReadsAtMost Config.params.pollBudget s t)
      (fun t => ReadsAtMost (readReads l t.work.pollcnt) s t) (fun _ => False)
      (fun _ _ t => ReadsAtMost Config.params.pollBudget s t) := by
  cases l <;> dsimp only [runLine, readLine]
  case poll =>
    have hk : u.work.pollcnt < Config.params.pollBudget := hb.2 rfl
    refine pollLine_holds (fun f t hr _ => ?_) (fun f t hr _ _ => ?_) fun f t hr _ _ => ?_
    · split
      · exact h.record (t := (t.setWork _).setPhase _) (seqRead_trace hr :) hk
      · exact ⟨_, rfl, nofun, h.record (t := t.setWork _) (seqRead_trace hr :) hk⟩
    · exact h.record (t := t.setWork _) (seqRead_trace hr :) (by simp [readReads, readsIntflag, seqRead_pollcnt hr])
    · exact h.record (t := (t.setWork _).setPhase _) (seqRead_trace hr :) hk
  case readCtrl => exact onRead_holds fun v t hr => ⟨_, rfl, nofun, h.record (seqRead_trace hr) le_rfl⟩
  case writeCtrl => exact onWrite_holds fun t hw => ⟨_, rfl, nofun, h.record (seqWrite_trace hw) le_rfl⟩
  case data => exact onRead_holds fun v t hr => h.record (seqRead_trace hr) le_rfl

/-- A `READ` reads `INTFLAG` at most `POLL_BUDGET` times. -/
theorem exec_read_reads {t : State} (hinv : Inv s) (hq : s.seq = none) (h : exec (.read g) s = .next t) :
    ReadsAtMost Config.params.pollBudget s t := by
  refine (exec_host_holds (i := .read g) (x := .read g) (k := .result)
    (Q := fun l u => ∃ m, l = .read g m ∧ ReadsAtMost (readReads m u.work.pollcnt) s u)
    (R := ReadsAtMost Config.params.pollBudget s) rfl hinv hq ?_ ?_ ?_ ?_ h).elim ?_ id
  · exact ⟨.poll, rfl, (readsAtMost_of_eq (beginOperation_trace ..)).mono (Nat.zero_le _) rfl⟩
  · exact fun h => h
  · exact fun _ h _ => h
  · rintro l u hu hl ⟨m, rfl, h⟩
    refine (readLine_reads ((inv_iff hl).mp hu).2.2.2.2 h).mono ?_ (fun _ h => ⟨m, rfl, h⟩) (fun _ => False.elim) ?_
    · rintro l' v ⟨m', rfl, hm, hr⟩
      cases m' with
      | poll => exact absurd rfl hm
      | readCtrl | writeCtrl | data => exact ⟨_, rfl, hr.mono le_rfl (moveTo_trace ..)⟩
    · intro st b v hr
      split
      · exact hr.mono le_rfl (keepByte_trace ..)
      · exact hr.mono le_rfl rfl
  · rintro ⟨l, hl, m, rfl, hr⟩
    obtain ⟨_, _, _, ⟨_, _, hp⟩, _⟩ := exec_keeps_inv hinv h
    refine hr.mono ?_ rfl
    cases m with
    | poll => exact hp
    | readCtrl | writeCtrl | data => exact le_rfl

end

/-- Settles O56. -/
theorem pollCountStaysWithinTheBudget : Obligations.PollCountStaysWithinTheBudget := by
  refine ⟨fun i s t hinv h => ?_, fun s t hinv hq => ⟨fun a d h => exec_start_reads hinv hq h,
    fun g h => exec_read_reads hinv hq h⟩⟩
  obtain ⟨_, _, _, ⟨_, _, hp⟩, _⟩ := exec_keeps_inv hinv h
  exact hp

end Sys2Proof.Machine
end

section
/-! A `START` to write that began with nothing in flight, and the `WRITE` after it: O48 (41_bus_primitives.md R178;
40_bus_engine.md R140). -/

namespace Sys2Proof.Machine

/-! ### The engine along such a `START` -/

/-- The address phase of a transaction to write is in flight, and no flag is set (40_bus_engine.md R133). -/
def Addressing (e : Engine) : Prop :=
  e.owned = true ∧ e.dir = .write ∧ e.inflight = .addrPh ∧
    e.intflag = { mb := false, sb := false, error := false } ∧ e.status = statusClear

/-- The address phase is over: where `STATUS` shows no failure, a byte can be written and `INTFLAG` shows `MB` alone. -/
def Settled (e : Engine) : Prop :=
  e.inflight = .none ∧ (e.status = statusClear →
    e.owned = true ∧ e.dir = .write ∧ e.intflag = { mb := true, sb := false, error := false })

/-- Whatever the outcome of the address phase, it settles. -/
theorem settled_of_complete {p : Params} {o : EnvOutcome} {e : Engine} {x : Reaction} (h : Addressing e)
    (hc : complete p o e = some x) : Settled x.eng := by
  obtain ⟨ho, hd, hi, hf, ht⟩ := h
  cases o with
  | byte v => simp [complete, hi] at hc
  | ack =>
    simp only [complete, hi, Option.some.injEq] at hc
    subst hc
    exact ⟨by simp [hd], fun _ => ⟨ho, hd, by simp [flagAcked, hf]⟩⟩
  | nack | buserr | arblost =>
    simp only [complete, hi, Option.some.injEq] at hc
    subst hc
    exact ⟨rfl, fun h => by simp [flagNacked, flagBusError, flagArbLost, statusClear] at h⟩

/-- What the engine is at each line of a `START` to write that began with nothing in flight. -/
def StartCalm (l : StartLine) (e : Engine) : Prop :=
  match l with
  | .check | .flags | .cleanup => e.inflight = .none
  | .address => e.inflight = .none ∧ e.intflag.error = false
  | .poll => Addressing e ∨ Settled e
  | .status => Settled e
  | .failRead _ | .failStop _ | .failClear _ => True

/-- Only the address phase can complete. -/
theorem startCalm_complete {p : Params} {l : StartLine} {o : EnvOutcome} {e : Engine} {x : Reaction} (h : StartCalm l e)
    (hc : complete p o e = some x) : StartCalm l x.eng := by
  have hi := complete_inflight hc
  cases l with
  | check | flags | cleanup => exact absurd h hi
  | address => exact absurd h.1 hi
  | poll => exact .inr (h.elim (settled_of_complete · hc) fun h => absurd h.1 hi)
  | status => exact absurd h.1 hi
  | failRead | failStop | failClear => trivial

/-- The write of `ADDR` to write, `ERROR` clear (40_bus_engine.md R133). -/
theorem addressing_of_address {a : BitVec 7} {s t : State} (he : s.eng.intflag.error = false)
    (hw : seqWrite .addr ((addrByte a .write).setWidth 32) s = .ok t) : Addressing t.eng := by
  obtain ⟨x, hx, hr, rfl⟩ := seqWrite_cases hw
  rw [writeReg_addr hr, setWidth_byte] at hx
  obtain ⟨_, _, rfl⟩ := reactWriteAddr_ok hx
  exact ⟨rfl, addrDir_addrByte a .write, rfl, by simp [clearMbSb, he], rfl⟩

/-- What such a `START` that ends OK leaves. -/
def CalmEnd (t : State) : Prop :=
  t.res.status = 0x00#8 → t.phase = .dataW ∧ Settled t.eng ∧ t.eng.status = statusClear

theorem startLine_calm {a : BitVec 7} {l : StartLine} {s : State} (h : StartCalm l s.eng) :
    (runLine Config.params (.start a .write l) s).Holds (fun l' t => ∃ m, l' = .start a .write m ∧ StartCalm m t.eng)
      (fun t => StartCalm l t.eng) (fun _ => False) (fun st _ t => CalmEnd (finish st .ok t)) := by
  cases l <;> dsimp only [runLine, startLine]
  case check =>
    refine onRead_holds fun v t hr => ?_
    obtain ⟨_, he, _⟩ := seqRead_quiet hr nofun
    split
    · exact ⟨_, rfl, (congrArg Engine.inflight he).trans h⟩
    · exact nofun
  case flags =>
    refine onRead_holds fun v t hr => ⟨_, rfl, ?_⟩
    obtain ⟨rfl, he, _⟩ := seqRead_quiet hr nofun
    have hbit : (regValue .intflag s.eng).getLsbD 7 = s.eng.intflag.error := intflagBits_bit7 _
    cases herr : s.eng.intflag.error <;> simp only [hbit, herr, he, StartCalm]
    · exact ⟨h, trivial⟩
    · exact h
  case cleanup =>
    refine onWrite_holds fun t hw => ⟨_, rfl, ?_⟩
    rw [seqWrite_clearError hw]
    exact ⟨h, rfl⟩
  case address => exact onWrite_holds fun t hw => ⟨_, rfl, .inl (addressing_of_address h.2 hw)⟩
  case poll =>
    refine pollLine_holds (fun f t hr hf => ⟨_, rfl, ?_⟩) (fun f t hr _ _ => ?_) fun f t hr _ _ => ⟨_, rfl, trivial⟩
    all_goals obtain ⟨rfl, he, _⟩ := seqRead_quiet hr nofun
    · show Settled t.eng
      rw [he]
      refine h.resolve_left fun ⟨_, _, _, hflags, _⟩ => hf ?_
      rw [regValue, hflags]
      rfl
    · show Addressing t.eng ∨ Settled t.eng
      rwa [he]
  case status =>
    refine onRead_holds fun v t hr => ?_
    obtain ⟨rfl, he, _⟩ := seqRead_quiet hr nofun
    split
    · exact ⟨_, rfl, trivial⟩
    · rename_i hv
      obtain ⟨hb, hl, hn⟩ := (statusBits_error _).mp (not_not.mp hv)
      have hclear : s.eng.status = statusClear := by
        show StatusReg.mk _ _ _ = _
        rw [hb, hl, hn]
        rfl
      exact fun _ => ⟨rfl, he ▸ h, he ▸ hclear⟩
  case failRead => exact onRead_holds fun v t _ => ⟨_, rfl, trivial⟩
  case failStop => exact onWrite_holds fun t _ => ⟨_, rfl, trivial⟩
  case failClear x =>
    refine onWrite_holds fun t _ => ?_
    cases x <;> exact nofun

/-- A `START` to write that begins with nothing in flight and ends OK leaves the bus held to write (41_bus_primitives.md
R178). -/
theorem exec_start_calm {a : BitVec 7} {s t : State} (hinv : Inv s) (hq : s.seq = none) (hi : s.eng.inflight = .none)
    (h : exec (.start a .write) s = .next t) : CalmEnd t := by
  refine exec_start_holds (Q := fun l u => StartCalm l u.eng) hinv hq ?_ ?_ ?_ ?_ h
  · exact (congrArg Engine.inflight (beginOperation_eng ..)).trans hi
  · exact fun h => h
  · exact fun h hc => startCalm_complete h hc
  · exact fun _ _ hQ => (startLine_calm hQ).mono (fun _ v ⟨m, hm, h⟩ => ⟨m, hm, by rwa [moveTo_eng]⟩) (fun _ => id)
      (fun _ => id) fun _ _ _ => id

/-! ### The `WRITE` after it -/

/-- A `WRITE` the host issued is past the write of its byte, or can make it. -/
def WriteGoesOn (b : Byte) (s : State) : Prop :=
  Inv s ∧ ∃ l, s.seq = some { op := .write b, item := 0, line := .write b l } ∧
    (l = .data → s.eng.inflight = .none ∧ s.eng.intflag.error = false)

/-- Its accesses are not refused (93_implementation_defined.md U9, U10). -/
theorem writeLine_not_refused {b : Byte} {l : WriteLine} {s : State} {r : Refusal}
    (h : At { op := .write b, item := 0, line := .write b l } s)
    (hl : l = .data → s.eng.inflight = .none ∧ s.eng.intflag.error = false) :
    runLine Config.params (.write b l) s ≠ .refused r := by
  intro hr
  cases l with
  | data =>
    obtain ⟨hi, he⟩ := hl rfl
    have href := runLine_refuses h
    simp only [hr] at href
    rcases href with ⟨_, hi'⟩ | ⟨_, he'⟩
    · exact hi' hi
    · exact nomatch he.symm.trans he'
  | wait =>
    obtain ⟨_, ⟨⟨_, _, hreset⟩, _⟩, _⟩ := at_write.mp h
    simp only [runLine, writeLine, seqRead_ok (r := .intflag) (.inr hreset), onRead] at hr
    split at hr
    · cases hr
    · split at hr <;> cases hr

/-- It goes on to its wait, and from there to no other line. -/
theorem writeLine_leads (b : Byte) (l : WriteLine) (s : State) :
    (runLine Config.params (.write b l) s).Holds (fun l' _ => l' = .write b .wait) (fun _ => False) (fun _ => True)
      (fun _ _ _ => True) := by
  cases l <;> dsimp only [runLine, writeLine]
  case data => exact onWrite_holds fun _ _ => rfl
  case wait =>
    refine onRead_holds fun _ _ _ => ?_
    split
    · trivial
    · split <;> trivial

/-- Each step of the block leaves it so, or stops; none is refused. -/
theorem blockStep_write_goes_on {b : Byte} {q : SeqPos} {s : State} (h : WriteGoesOn b s) (hq : s.seq = some q) :
    (∀ r, blockStep Config.params (operationOf (.write b)) q s ≠ .refused r) ∧
      (blockStep Config.params (operationOf (.write b)) q s).Holds (WriteGoesOn b) (fun _ => True) (fun _ => True) := by
  obtain ⟨hinv, l, hl, hdata⟩ := h
  cases hl.symm.trans hq
  have hkeeps := blockStep_keeps_inv hinv hl
  rcases blockStep_cases Config.params (operationOf (.write b)) ⟨.write b, 0, .write b l⟩ s with
    ⟨f, o, x, hc, e⟩ | ⟨f, e⟩
  · rw [e] at hkeeps ⊢
    exact ⟨nofun, hkeeps, l, hl, fun hd => absurd (hdata hd).1 (complete_inflight hc)⟩
  · have hf : Inv (s.setFeed f) := hinv
    obtain ⟨_, _, _, hat, _⟩ := (inv_iff (s := s.setFeed f) hl).mp hf
    rw [e] at hkeeps ⊢
    refine ⟨fun r hr => writeLine_not_refused hat hdata (seqStep_refused hr), ?_⟩
    have hout := writeLine_leads b l (s.setFeed f)
    unfold seqStep at hkeeps ⊢
    generalize runLine Config.params (.write b l) (s.setFeed f) = out at hout hkeeps
    cases out with
    | goto l' t =>
      cases hout
      exact ⟨hkeeps, .wait, moveTo_seq .., nofun⟩
    | again t => exact hout.elim
    | spin t => trivial
    | done st d t =>
      show (itemEnded (.write b) (hostPrimitive (.write b) .nothing) 0 st d t).Holds _ _ _
      rw [itemEnded_hostPrimitive]
      trivial
    | refused r => trivial

/-- So its steps come to a next state. -/
theorem runSteps_write_next {b : Byte} : ∀ {n : Nat} {s : State}, WriteGoesOn b s →
    ∃ t, runSteps Config.params (operationOf (.write b)) n s = .next t
  | 0, s, _ => ⟨s, rfl⟩
  | n + 1, s, h => by
    obtain ⟨_, l, hl, _⟩ := id h
    obtain ⟨hanswers, hstep⟩ := blockStep_write_goes_on h hl
    cases hb : blockStep Config.params (operationOf (.write b)) ⟨.write b, 0, .write b l⟩ s with
    | moved u =>
      rw [hb] at hstep
      rw [runSteps_moved hl hb]
      exact runSteps_write_next hstep
    | waits u => exact ⟨u, runSteps_waits hl hb⟩
    | ended u => exact ⟨u, runSteps_ended hl hb⟩
    | refused r => exact absurd hb (hanswers r)

/-- In DATA_W with nothing in flight and `ERROR` clear no `WRITE` is refused (40_bus_engine.md R140). -/
theorem exec_write_next (b : Byte) {s : State} (hinv : Inv s) (hq : s.seq = none) (hp : s.phase = .dataW)
    (hi : s.eng.inflight = .none) (he : s.eng.intflag.error = false) : ∃ u, exec (.write b) s = .next u := by
  have hlegal : legalIn (.write b) s.phase = true := by rw [hp]; rfl
  rw [exec_of_begin hq hlegal]
  refine runSteps_write_next ⟨inv_beginOperation hinv hq hlegal, .data, beginOperation_seq .., fun _ => ?_⟩
  rw [beginOperation_eng]
  exact ⟨hi, he⟩

/-! ### The end -/

/-- Settles O48. -/
theorem calmStartReadiesTheWrite : Obligations.CalmStartReadiesTheWrite := by
  intro s t a hinv ⟨hq, _, _, hi⟩ h hok
  obtain ⟨hp, ⟨hi', hsettled⟩, hclear⟩ := exec_start_calm hinv hq hi h hok
  obtain ⟨ho, hd, hf⟩ := hsettled hclear
  exact ⟨ho, hd, hi', hclear, hf, hp,
    fun b => exec_write_next b (exec_keeps_inv hinv h) (exec_start_over hq h) hp hi' (by rw [hf])⟩

end Sys2Proof.Machine
end

section
/-! How a line ends its primitive with a Bus Error, and how a sensor operation ends whatever the environment does: O51,
O33 and the first half of O32 (42_sensor_ops.md R202, R204, R205, R213). -/

namespace Sys2Proof.Machine

/-! ### A line that fails -/

/-- The Bus Error with which the outcome of a line ends its primitive, if it does. -/
def LineOut.failure (out : LineOut) : Option Byte :=
  match out with
  | .done st _ _ => if st = .ok then none else some (codeByte st)
  | _ => none

theorem onRead_failure {a : Except Refusal (Word × State)} {k : Word → State → LineOut}
    (hk : ∀ v t, (k v t).failure = none) : (onRead a k).failure = none := by
  unfold onRead
  split
  · exact hk ..
  · rfl

theorem onWrite_failure {a : Except Refusal State} {k : State → LineOut} (hk : ∀ t, (k t).failure = none) :
    (onWrite a k).failure = none := by
  unfold onWrite
  split
  · exact hk _
  · rfl

section
variable {s : State}

/-- A read that the engine answers goes on with the register's value, the engine as it was. -/
theorem onRead_seqRead {k : Word → State → LineOut} (r : Reg) (hr : r ≠ .data)
    (h : r = .ctrl ∨ s.eng.inflight ≠ .resetPh) : onRead (seqRead r s) k = k (regValue r s.eng) (afterRead r s) := by
  rw [seqRead_eq_afterRead hr h]
  rfl

/-- One iteration of a bounded poll, by what it reads and by the polls left (41_bus_primitives.md R190). -/
theorem pollLine_eq {m : Word} {x : State → LineOut} {k : Word → State → LineOut} (hr : s.eng.inflight ≠ .resetPh) :
    ∃ t : State, t.eng = s.eng ∧ pollLine Config.params m s x k =
      if regValue .intflag s.eng &&& m = 0#32 then
        if s.work.pollcnt + 1 < Config.params.pollBudget then .again t else x t
      else k (regValue .intflag s.eng) t := by
  refine ⟨(afterRead .intflag s).setWork
    { (afterRead .intflag s).work with pollcnt := (afterRead .intflag s).work.pollcnt + 1 }, rfl, ?_⟩
  have hcount : (afterRead .intflag s).work.pollcnt = s.work.pollcnt := rfl
  rw [pollLine, onRead_seqRead .intflag (by decide) (.inr hr)]
  by_cases hm : regValue .intflag s.eng &&& m = 0#32 <;> simp [hm, hcount]

theorem startLine_failure (a : BitVec 7) (d : Dir) (l : StartLine) (hr : s.eng.inflight ≠ .resetPh) :
    (startLine Config.params a d l s).failure = lineFails (.start a d l) s := by
  cases l <;> dsimp only [startLine]
  case check =>
    have hbit : (regValue .ctrl s.eng).getLsbD 1 = s.eng.ctrl.enable := by
      rw [regValue, ctrlValue_running hr, ctrlBits_bit1]
    rw [onRead_seqRead .ctrl (by decide) (.inl rfl), hbit]
    cases he : s.eng.ctrl.enable <;> simp [LineOut.failure, lineFails, he, codeByte]
  case flags | failRead => exact onRead_failure fun _ _ => rfl
  case status =>
    refine onRead_failure fun v t => ?_
    split <;> rfl
  case poll =>
    obtain ⟨t, _, e⟩ := pollLine_eq (m := maskMb ||| maskError) (s := s)
      (x := fun s1 => .goto (.start a d (.failRead .timeout)) s1) (k := fun _ s1 => .goto (.start a d .status) s1) hr
    rw [e]
    split
    · split <;> rfl
    · rfl
  case cleanup | address | failStop => exact onWrite_failure fun _ => rfl
  case failClear e =>
    simp only [seqWrite, writeReg_clearError hr, onWrite]
    cases e <;> rfl

theorem writeLine_failure (b : Byte) (l : WriteLine) (hr : s.eng.inflight ≠ .resetPh) :
    (writeLine b l s).failure = lineFails (.write b l) s := by
  cases l <;> dsimp only [writeLine]
  case data => exact onWrite_failure fun _ => rfl
  case wait =>
    have hbit : (regValue .intflag s.eng).getLsbD 7 = s.eng.intflag.error := intflagBits_bit7 _
    have hmask : regValue .intflag s.eng &&& (maskMb ||| maskError) = 0#32 → s.eng.intflag.error = false :=
      fun h => ((intflagBits_mb_or_error _).mp h).2
    rw [onRead_seqRead .intflag (by decide) (.inr hr), hbit]
    split
    · rename_i h
      simp [LineOut.failure, lineFails, hmask h]
    · cases he : s.eng.intflag.error <;> simp [LineOut.failure, lineFails, he, codeByte]

theorem readLine_failure (g : Bool) (l : ReadLine) (hr : s.eng.inflight ≠ .resetPh) :
    (readLine Config.params g l s).failure = lineFails (.read g l) s := by
  cases l <;> dsimp only [readLine]
  case poll =>
    obtain ⟨t, _, e⟩ := pollLine_eq (m := maskSb ||| maskError) (s := s)
      (x := fun s1 => .done .timeout 0#8 (s1.setPhase .idle)) (k := fun f s1 =>
        if f.getLsbD 7 then .done .nackOrArbitrationLost 0#8 (s1.setPhase .idle) else .goto (.read g .readCtrl) s1) hr
    have hbit : (regValue .intflag s.eng).getLsbD 7 = s.eng.intflag.error := intflagBits_bit7 _
    have hmask : regValue .intflag s.eng &&& (maskSb ||| maskError) = 0#32 ↔
      (s.eng.intflag.sb = false ∧ s.eng.intflag.error = false) := intflagBits_sb_or_error _
    rw [e, hbit]
    simp only [hmask]
    cases he : s.eng.intflag.error with
    | true => simp [LineOut.failure, lineFails, he, codeByte]
    | false =>
      cases hs : s.eng.intflag.sb with
      | true => simp [LineOut.failure, lineFails, he, hs]
      | false =>
        by_cases hb : s.work.pollcnt + 1 < Config.params.pollBudget <;>
          simp [LineOut.failure, lineFails, he, hs, hb, codeByte]
  case readCtrl | data => exact onRead_failure fun _ _ => rfl
  case writeCtrl => exact onWrite_failure fun _ => rfl

/-- Outside a software reset a line ends its primitive with a Bus Error exactly where `lineFails` says, and with that
one. -/
theorem runLine_failure (l : Line) (hr : s.eng.inflight ≠ .resetPh) :
    (runLine Config.params l s).failure = lineFails l s := by
  cases l with
  | init l =>
    cases l <;> dsimp only [runLine, initLine]
    case clkEnable | clkSelect | pinSda | pinScl => rfl
    case swrst | master | baud | enable => exact onWrite_failure fun _ => rfl
    case resetWait =>
      refine onRead_failure fun _ _ => ?_
      split <;> rfl
  | start a d l => exact startLine_failure a d l hr
  | write b l => exact writeLine_failure b l hr
  | read g l => exact readLine_failure g l hr
  | stop l =>
    cases l <;> dsimp only [runLine, stopLine]
    case readCtrl => exact onRead_failure fun _ _ => rfl
    case writeCtrl => exact onWrite_failure fun _ => rfl
  | convert => rfl

/-- Where `START` enters its failure path, or is in it, the line goes on along it. -/
theorem runLine_failingNext {l l' : Line} (hr : s.eng.inflight ≠ .resetPh) (hl : LineRests l s)
    (h : failingNext l s = some l') : ∃ t, runLine Config.params l s = .goto l' t := by
  unfold failingNext at h
  split at h
  case h_1 a d =>
    obtain ⟨t, _, e⟩ := pollLine_eq (m := maskMb ||| maskError) (s := s)
      (x := fun s1 => .goto (.start a d (.failRead .timeout)) s1) (k := fun _ s1 => .goto (.start a d .status) s1) hr
    split at h
    · cases h
    · rename_i hflag
      split at h
      · cases h
      · rename_i hb
        cases h
        have hmask : regValue .intflag s.eng &&& (maskMb ||| maskError) = 0#32 :=
          (intflagBits_mb_or_error _).mpr (by simpa using hflag)
        exact ⟨t, e.trans (by rw [if_pos hmask, if_neg hb])⟩
  case h_2 a d =>
    split at h
    · rename_i hflag
      cases h
      have hmask : ¬(regValue .status s.eng &&& maskStatusErr = 0#32) := fun h0 => by
        obtain ⟨hbus, harb, hnack⟩ := (statusBits_error _).mp h0
        simp [hbus, harb, hnack] at hflag
      exact ⟨_, (onRead_seqRead .status (by decide) (.inr hr)).trans (if_pos hmask)⟩
    · cases h
  case h_3 a d e =>
    cases h
    exact ⟨afterRead .ctrl s, onRead_seqRead (k := fun _ t => .goto (.start a d (.failStop e)) t) .ctrl (by decide)
      (.inl rfl)⟩
  case h_4 a d e =>
    cases h
    exact ⟨_, by simp only [runLine, startLine, seqWrite_stop hl.1 hl.2, onWrite]; rfl⟩
  case h_5 => cases h

end

/-! ### The step at which a sensor operation fails -/

/-- The script's error mapping is that of 42_sensor_ops.md R204. -/
theorem sensor_onFail {i : Instr} {it : Item} (hs : isSensor i = true) (hit : it ∈ (operationOf i).script) :
    it.onFail.map codeByte = some (sensorErrorOf it.prim) := by
  have hall : ∀ it ∈ (operationOf i).script, it.onFail.map codeByte = some (sensorErrorOf it.prim) := by
    cases i with
    | sReset | sReadSn | sReadRh | sReadT | sReadTl => decide
    | init | start | write | read | stop | convRh | convT => cases hs
  exact hall it hit

/-- An item of a sensor script that fails ends the operation with the Sensor Error of its primitive, the Bus Error its
cause. -/
theorem itemEnded_failed {i : Instr} {k : Nat} {it : Item} {st : Code} (d : Byte) (s : State) (hs : isSensor i = true)
    (hit : (operationOf i).script[k]? = some it) (hst : st ≠ .ok) :
    ∃ e, codeByte e = sensorErrorOf it.prim ∧ itemEnded i (operationOf i) k st d s = .ended (finish e st s) := by
  obtain ⟨e, hfail, he⟩ := Option.map_eq_some_iff.mp (sensor_onFail hs (List.mem_of_getElem? hit))
  rcases itemEnded_cases i (operationOf i) k st d s with ⟨h, _⟩ | ⟨_, _, h, _⟩ | ⟨_, _, h, _⟩ | ⟨it', hit', _, h⟩
  · cases hit.symm.trans h
  · exact absurd h hst
  · exact absurd h hst
  · cases hit.symm.trans hit'
    exact ⟨e, he, by rw [h, hfail]; rfl⟩

section
variable {q : SeqPos} {it : Item} {s : State} {c : Byte}

/-- Where the line fails, the operation ends in that step. -/
theorem seqStep_of_lineFails (hs : isSensor q.op = true) (hit : (operationOf q.op).script[q.item]? = some it)
    (hr : s.eng.inflight ≠ .resetPh) (hc : lineFails q.line s = some c) :
    ∃ t, seqStep Config.params (operationOf q.op) q s = .ended t ∧ t.busy = false ∧
      t.res = reported s.res (sensorErrorOf it.prim) c := by
  have hline := runLine_failure q.line hr
  have hframe := runLine_frame Config.params q.line s
  rw [hc] at hline
  unfold seqStep
  generalize runLine Config.params q.line s = out at hline hframe
  cases out with
  | done st d u =>
    obtain ⟨_, _, hres⟩ := hframe
    by_cases hst : st = .ok
    · simp [LineOut.failure, hst] at hline
    · obtain rfl : codeByte st = c := by simpa [LineOut.failure, hst] using hline
      obtain ⟨e, he, hend⟩ := itemEnded_failed d u hs hit hst
      exact ⟨_, hend, rfl, by rw [finish_res, hres, he]; rfl⟩
  | goto | again | spin | refused => cases hline

/-- Where a step ends the operation with a failure, the line fails. -/
theorem lineFails_of_seqStep {t : State} (hr : s.eng.inflight ≠ .resetPh)
    (h : seqStep Config.params (operationOf q.op) q s = .ended t) (hfail : t.res.status ≠ 0x00#8) :
    ∃ c, lineFails q.line s = some c := by
  have hline := runLine_failure q.line hr
  unfold seqStep at h
  generalize runLine Config.params q.line s = out at hline h
  cases out with
  | done st d u =>
    by_cases hst : st = .ok
    · rcases itemEnded_cases q.op (operationOf q.op) q.item st d u with
        ⟨_, e⟩ | ⟨_, _, _, _, e⟩ | ⟨_, _, _, _, e⟩ | ⟨_, _, hn, _⟩
      · cases e.symm.trans h
        exact absurd rfl hfail
      · cases e.symm.trans h
      · cases e.symm.trans h
        exact absurd rfl hfail
      · exact absurd hst hn
    · exact ⟨codeByte st, by rw [← hline]; simp [LineOut.failure, hst]⟩
  | goto | again | spin | refused => cases h

end

/-- A busy block's step that ends the operation is the sequencer's last, after a moment in which the engine took no
step. -/
theorem seqStep_of_step {q : SeqPos} {s t : State} (hb : s.busy = true) (hq : s.seq = some q)
    (hh : s.host.head? ≠ some .hwReset) (h : step s = .next t) (ht : t.busy = false) :
    ∃ hs f, seqStep Config.params (operationOf q.op) q ((s.setHost hs).setFeed f) = .ended t := by
  rcases step_cases h with ⟨rest, hhost, _⟩ | ⟨w, rest, i, b, _, hidle, _⟩ | ⟨hs, _, ha⟩
  · exact absurd (by rw [hhost]; rfl) hh
  · exact nomatch hb.symm.trans hidle
  · rcases advance_cases ha with ⟨q', hq', hout⟩ | ⟨hn, _⟩
    · cases hq.symm.trans hq'
      rcases blockStep_cases Config.params (operationOf q.op) q (s.setHost hs) with ⟨f, o, x, _, e⟩ | ⟨f, e⟩
      · rw [e] at hout
        cases hout
        exact nomatch hb.symm.trans ht
      · have hframe := seqStep_frame Config.params (operationOf q.op) q ((s.setHost hs).setFeed f) hq
        rw [e] at hout
        refine ⟨hs, f, ?_⟩
        generalize seqStep Config.params (operationOf q.op) q ((s.setHost hs).setFeed f) = x at hout hframe
        cases x with
        | ended u =>
          cases hout
          rfl
        | moved u | waits u =>
          cases hout
          obtain ⟨_, hbusy, _⟩ := hframe
          exact nomatch (hbusy.trans hb).symm.trans ht
        | refused r => cases hout
    · cases hq.symm.trans hn

/-- 42_sensor_ops.md R202, R204, step by step: the first half of O32. -/
theorem sensor_failingStepsEnd : failingStepsEnd := by
  intro s q it hs hinv hq hit
  obtain ⟨_, hb, hin, _, _⟩ := (inv_iff hq).mp hinv
  have hr : s.eng.inflight ≠ .resetPh :=
    not_resetting hinv hq (not_init_line hin (by intro hop; rw [hop] at hs; cases hs))
  have hholds : HostWaits s.host → EngineHolds s → ∃ f, step s =
      (seqStep Config.params (operationOf q.op) q (s.setFeed f)).outcome := fun hw he => by
    obtain ⟨f, hm⟩ := engineMove_of_holds (p := Config.params) he
    exact ⟨f, by rw [step_running hb hq hw, blockStep, hm]⟩
  refine ⟨fun c hw he hc => ?_, fun t hh ht htb hfail => ?_, fun l hw he hl => ?_⟩
  · obtain ⟨f, hstep⟩ := hholds hw he
    obtain ⟨t, hend, htb, hres⟩ := seqStep_of_lineFails (s := s.setFeed f) hs hit hr hc
    exact ⟨t, by rw [hstep, hend]; rfl, htb, hres⟩
  · obtain ⟨hs', f, hend⟩ := seqStep_of_step hb hq hh ht htb
    obtain ⟨c, hc⟩ := lineFails_of_seqStep (s := (s.setHost hs').setFeed f) hr hend hfail
    obtain ⟨t', hend', _, hres⟩ := seqStep_of_lineFails (s := (s.setHost hs').setFeed f) hs hit hr hc
    cases hend.symm.trans hend'
    exact ⟨c, hc, hres⟩
  · obtain ⟨f, hstep⟩ := hholds hw he
    obtain ⟨t, hgoto⟩ := runLine_failingNext (s := s.setFeed f) hr (standing_of_inv hinv hq).2.2 hl
    have hframe := runLine_frame Config.params q.line (s.setFeed f)
    rw [hgoto] at hframe
    obtain ⟨_, hbusy, hres⟩ := hframe
    refine ⟨moveTo q.op q.item l t, by rw [hstep, seqStep, hgoto]; rfl, moveTo_seq .., ?_, ?_⟩
    · exact (moveTo_busy ..).trans (hbusy.trans hb)
    · exact (moveTo_res ..).trans hres

/-! ### How a sensor operation ends, whatever the environment does -/

/-- The bus is given back: nothing in flight, no acknowledge pending, `MB` and `SB` clear (40_bus_engine.md R149). -/
def BusReleased (e : Engine) : Prop :=
  e.owned = false ∧ e.inflight = .none ∧ e.ackPending = false ∧ e.intflag.mb = false ∧ e.intflag.sb = false

/-- `INTFLAG` reads zero only with every flag clear. -/
theorem busReleased_of_busFree {e : Engine} (h : BusFree e) : BusReleased e := by
  obtain ⟨ho, hi, ha, hf⟩ := h
  have hflags : e.intflag.mb = false ∧ e.intflag.sb = false := by
    have hread : intflagBits e.intflag = 0#32 := hf
    revert hread
    rcases e.intflag with ⟨_ | _, _ | _, _ | _⟩ <;> decide
  exact ⟨ho, hi, ha, hflags⟩

/-- How the primitive `x`, the item `k` of a sensor script, ends with the status `st` in `t`: a failing check is the
first item's, in UNINIT; every other failure leads to IDLE, a `START`'s on a free bus; and so does `STOP`. -/
def ItemEnds (k : Nat) (x : Prim) (st : Code) (t : State) : Prop :=
  match st with
  | .ok => x = .stop → t.phase = .idle ∧ BusReleased t.eng ∧ t.wire.getLast? = some .p
  | .notReady => k = 0 ∧ t.phase = .uninit
  | .timeout | .nackOrArbitrationLost => t.phase = .idle ∧ ∀ a d, x = .start a d → BusFree t.eng
  | _ => False

section
variable {op : Instr} {k : Nat} {s : State}

theorem startLine_itemEnds {a : BitVec 7} {d : Dir} {l : StartLine} (h : At ⟨op, k, .start a d l⟩ s) :
    (startLine Config.params a d l s).Holds (fun _ _ => True) (fun _ => True) (fun _ => True)
      (fun st _ t => ItemEnds k (.start a d) st t) := by
  cases l <;> dsimp only [startLine]
  case check =>
    refine onRead_holds fun v t hr => ?_
    obtain ⟨rfl, _, htp⟩ := seqRead_quiet hr nofun
    split
    · trivial
    · rename_i hv
      have hu : s.phase = .uninit := by_contra fun hn => hv ((ctrlValue_enable_iff h.mode).mpr hn)
      have hk : k = 0 := by simpa [phaseAt, hu] using h.phase
      exact ⟨hk, htp.trans hu⟩
  case flags | failRead => exact onRead_holds fun _ _ _ => trivial
  case cleanup | address | failStop => exact onWrite_holds fun _ _ => trivial
  case poll => exact pollLine_holds (fun _ _ _ _ => trivial) (fun _ _ _ _ _ => trivial) fun _ _ _ _ _ => trivial
  case status =>
    refine onRead_holds fun v t hr => ?_
    split
    · trivial
    · exact nofun
  case failClear e =>
    refine onWrite_holds fun t hw => ?_
    have hfree : BusFree t.eng := busFree_of_failClear (a := a) (d := d) (x := e) h.fits hw
    cases e <;> exact ⟨rfl, fun _ _ _ => hfree⟩

theorem stopLine_itemEnds {l : StopLine} (hs : isSensor op = true) (h : At ⟨op, k, .stop l⟩ s) :
    (stopLine l s).Holds (fun _ _ => True) (fun _ => True) (fun _ => True)
      (fun st _ t => ItemEnds k .stop st t) := by
  obtain ⟨_, hc, hf, _⟩ := at_stop.mp h
  cases l <;> dsimp only [stopLine]
  case readCtrl => exact onRead_holds fun _ _ _ => trivial
  case writeCtrl =>
    obtain ⟨⟨ho, _⟩, hl⟩ : (s.eng.owned = true ∧ s.eng.inflight = .none) ∧ s.work.ctrlLatch = ctrlBits s.eng.ctrl := by
      simpa [engineFits, latchHolds, hs] using hf
    rw [seqWrite_stop hc.1 hl]
    exact fun _ => ⟨rfl, ⟨rfl, rfl, rfl, rfl, rfl⟩, by simp [reactStop, ho]⟩

/-- A line of a sensor script that ends its primitive ends it so. -/
theorem runLine_itemEnds {q : SeqPos} {x : Prim} (hs : isSensor q.op = true) (hx : primOf q.line = some x)
    (h : At q s) : (runLine Config.params q.line s).Holds (fun _ _ => True) (fun _ => True) (fun _ => True)
      (fun st _ t => ItemEnds q.item x st t) := by
  obtain ⟨op, k, l⟩ := q
  cases l with
  | init l =>
    cases hx
    cases l <;> dsimp only [runLine, initLine]
    case clkEnable | clkSelect | pinSda => trivial
    case pinScl => exact nofun
    case swrst | master | baud | enable => exact onWrite_holds fun _ _ => trivial
    case resetWait =>
      refine onRead_holds fun _ _ _ => ?_
      split <;> trivial
  | start a d l =>
    cases hx
    exact startLine_itemEnds h
  | write b l =>
    cases hx
    cases l <;> dsimp only [runLine, writeLine]
    case data => exact onWrite_holds fun _ _ => trivial
    case wait =>
      refine onRead_holds fun _ _ _ => ?_
      split
      · trivial
      · split
        · exact ⟨rfl, nofun⟩
        · exact nofun
  | read g l =>
    cases hx
    cases l <;> dsimp only [runLine, readLine]
    case poll =>
      refine pollLine_holds (fun _ _ _ _ => ?_) (fun _ _ _ _ _ => trivial) fun _ _ _ _ _ => ⟨rfl, nofun⟩
      split
      · exact ⟨rfl, nofun⟩
      · trivial
    case readCtrl => exact onRead_holds fun _ _ _ => trivial
    case writeCtrl => exact onWrite_holds fun _ _ => trivial
    case data => exact onRead_holds fun _ _ _ => nofun
  | stop l =>
    cases hx
    exact stopLine_itemEnds hs h
  | convert => cases hx

end

/-- A sensor script begins with `START` to write and ends with `STOP` (42_sensor_ops.md R201). -/
theorem sensor_first_last {i : Instr} (hs : isSensor i = true) :
    (operationOf i).script[0]?.map Item.prim = some (.start sensorAddr .write) ∧
      (operationOf i).script.getLast?.map Item.prim = some .stop := by
  cases i with
  | sReset | sReadSn | sReadRh | sReadT | sReadTl => decide
  | init | start | write | read | stop | convRh | convT => cases hs

/-- How a sensor operation ends: OK, with STOP sent; in UNINIT with `NotReady`; with a failed `START`, the bus free; or
with a failed command. -/
def SensorEnds (t : State) : Prop :=
  (t.res.status = 0x00#8 ∧ t.res.cause = 0x00#8 ∧ t.phase = .idle ∧ BusReleased t.eng ∧ t.wire.getLast? = some .p) ∨
  (t.res.status = 0xFB#8 ∧ t.res.cause = 0xFF#8 ∧ t.phase = .uninit) ∨
  ((t.res.cause = 0xFE#8 ∨ t.res.cause = 0xFC#8) ∧ t.phase = .idle ∧
    (((t.res.status = 0xFB#8 ∨ t.res.status = 0xFA#8) ∧ BusFree t.eng) ∨ t.res.status = 0xF9#8))

/-- A failed item's end is one of a sensor operation. -/
theorem sensorEnds_finish {i : Instr} {k : Nat} {it : Item} {e st : Code} {s : State} (hs : isSensor i = true)
    (hit : (operationOf i).script[k]? = some it) (he : codeByte e = sensorErrorOf it.prim) (hst : st ≠ .ok)
    (h : ItemEnds k it.prim st s) : SensorEnds (finish e st s) := by
  have hcause : (st = .timeout ∨ st = .nackOrArbitrationLost) →
      s.phase = .idle ∧ (∀ a d, it.prim = .start a d → BusFree s.eng) → SensorEnds (finish e st s) := by
    rintro hst ⟨hp, hfree⟩
    refine .inr (.inr ⟨?_, hp, ?_⟩)
    · rcases hst with rfl | rfl
      · exact .inl rfl
      · exact .inr rfl
    · rw [finish_res, he]
      cases hx : it.prim with
      | start a d =>
        refine .inl ⟨?_, hfree a d hx⟩
        cases d
        · exact .inl rfl
        · exact .inr rfl
      | init | write | read | stop => exact .inr rfl
  cases st with
  | ok => exact absurd rfl hst
  | notReady =>
    obtain ⟨rfl, hp⟩ := h
    have hfirst := (sensor_first_last hs).1
    rw [hit] at hfirst
    rw [Option.some.inj hfirst] at he
    exact .inr (.inl ⟨he, rfl, hp⟩)
  | timeout => exact hcause (.inl rfl) h
  | nackOrArbitrationLost => exact hcause (.inr rfl) h
  | busError | startFailed | repeatedStartFailed | commandFailed => exact h.elim

/-- The end of a script's last item is the operation's. -/
theorem sensorEnds_last {i : Instr} {k : Nat} {it : Item} {r : Results} {d : Byte} {s : State} (hs : isSensor i = true)
    (hit : (operationOf i).script[k]? = some it) (hlast : ¬ k + 1 < (operationOf i).script.length)
    (h : ItemEnds k it.prim .ok s) : SensorEnds (finish .ok .ok ((keepByte it.keep d s).setRes r)) := by
  obtain ⟨hk, _⟩ := List.getElem?_eq_some_iff.mp hit
  have hend := (sensor_first_last hs).2
  rw [List.getLast?_eq_getElem?, show (operationOf i).script.length - 1 = k by omega, hit] at hend
  obtain ⟨hp, hbus, hw⟩ := h (Option.some.inj hend)
  exact .inl ⟨rfl, rfl, by simpa using hp, by simpa using hbus, by simpa using hw⟩

/-- A sensor operation stands at a line of an item of its script. -/
theorem sensor_item {q : SeqPos} (hs : isSensor q.op = true) (hin : inScript q = true) :
    ∃ it, (operationOf q.op).script[q.item]? = some it ∧ primOf q.line = some it.prim := by
  have hitem := primOf_of_inScript hin
  unfold inScript at hin
  split at hin
  · rename_i hnil
    have hfirst := (sensor_first_last hs).1
    simp [hnil] at hfirst
  · rename_i hcons
    rw [← hcons] at hin
    cases hit : (operationOf q.op).script[q.item]? with
    | none => simp [hit] at hin
    | some it => exact ⟨it, rfl, by rw [← hitem, hit]; rfl⟩

/-- A step that ends a sensor operation ends it so. -/
theorem blockStep_sensorEnds {q : SeqPos} {s : State} (hs : isSensor q.op = true) (hinv : Inv s)
    (hq : s.seq = some q) :
    (blockStep Config.params (operationOf q.op) q s).Holds (fun _ => True) (fun _ => True) SensorEnds := by
  rcases blockStep_cases Config.params (operationOf q.op) q s with ⟨f, o, x, _, e⟩ | ⟨f, e⟩
  · rw [e]
    trivial
  · rw [e]
    obtain ⟨_, _, hin, hat, _⟩ := (inv_iff (s := s.setFeed f) hq).mp hinv
    obtain ⟨it, hit, hx⟩ := sensor_item hs hin
    have hends := runLine_itemEnds hs hx hat
    unfold seqStep
    generalize runLine Config.params q.line (s.setFeed f) = out at hends
    cases out with
    | done st d t =>
      show (itemEnded q.op (operationOf q.op) q.item st d t).Holds _ _ _
      by_cases hst : st = .ok
      · subst hst
        rcases itemEnded_cases q.op (operationOf q.op) q.item .ok d t with
          ⟨hn, _⟩ | ⟨_, _, _, _, e⟩ | ⟨it', hit', _, hlast, e⟩ | ⟨_, _, hne, _⟩
        · cases hit.symm.trans hn
        · rw [e]
          trivial
        · cases hit.symm.trans hit'
          rw [e]
          exact sensorEnds_last hs hit hlast hends
        · exact absurd rfl hne
      · obtain ⟨e, he, hend⟩ := itemEnded_failed d t hs hit hst
        rw [hend]
        exact sensorEnds_finish hs hit he hst hends
    | goto | again | spin | refused => trivial

/-- Where `exec` of a sensor operation has ended it. -/
theorem exec_sensorEnds {i : Instr} {s t : State} (hs : isSensor i = true) (hinv : Inv s) (h : exec i s = .next t)
    (hb : t.busy = false) : SensorEnds t := by
  have hbusy : t.busy = true ∨ SensorEnds t := by
    refine ((exec_next_holds (Q := fun u => Inv u ∧ u.busy = true) (R := fun u => u.busy = true ∨ SensorEnds u) ?_ ?_ ?_
      h).elim (fun hu => .inl hu.2) id)
    · rintro u q ⟨hu, hub⟩ hq rfl
      refine ((blockStep_keeps_inv hu hq).and ((blockStep_frame Config.params (operationOf q.op) hq).and
        (blockStep_sensorEnds hs hu hq))).mono ?_ ?_ ?_
      · exact fun v ⟨hv, ⟨_, hvb, _⟩, _⟩ => ⟨hv, hvb.trans hub⟩
      · exact fun v ⟨_, ⟨_, hvb⟩, _⟩ => .inl (hvb.trans hub)
      · exact fun v ⟨_, _, hend⟩ => .inr hend
    · exact fun hq hl => ⟨inv_beginOperation hinv hq hl, beginOperation_busy ..⟩
    · exact fun q hq _ => ⟨hinv, ((inv_iff hq).mp hinv).2.1⟩
  exact hbusy.resolve_left fun ht => nomatch ht.symm.trans hb

/-- Settles O51. -/
theorem sensorFailurePairs : Obligations.SensorFailurePairs := by
  intro i s t hs hinv h hb
  rcases exec_sensorEnds hs hinv h hb with ⟨hok, _⟩ | ⟨hst, hc, _⟩ | ⟨hc, _, hst⟩
  · exact .inl hok
  · exact .inr (by rw [hst, hc]; decide)
  · refine .inr ?_
    rcases hc with hc | hc <;> rcases hst with ⟨hst | hst, _⟩ | hst <;> rw [hst, hc] <;> decide

/-- Settles O33. -/
theorem busIsFreeAfterAnOrderlySensorOperation : Obligations.BusIsFreeAfterAnOrderlySensorOperation := by
  intro s t i hs hinv h hb
  rcases exec_sensorEnds hs hinv h hb with ⟨hok, hc, hp, hbus, hw⟩ | ⟨hst, hc, hp⟩ | ⟨hc, hp, hst⟩
  · exact ⟨by simp [hc, hp], fun _ => hw, fun _ => hbus, by simp [hok]⟩
  · simp [hst, hc, hp]
  · have hphase : t.phase = if t.res.cause = 0xFF#8 then .uninit else .idle := by
      rcases hc with hc | hc <;> simp [hc, hp]
    rcases hst with ⟨hst, hfree⟩ | hst
    · have hnok : t.res.status ≠ 0x00#8 := by rcases hst with hst | hst <;> simp [hst]
      exact ⟨hphase, fun hok => absurd hok hnok, fun _ => busReleased_of_busFree hfree, fun _ => hfree.2.2.2⟩
    · exact ⟨hphase, by simp [hst], by simp [hst], by simp [hst]⟩

end Sys2Proof.Machine
end

section
/-! A primitive as an item of a script: how far a script has come between two items, and what leads it from one item to
the next (42_sensor_ops.md R201, R202). -/

namespace Sys2Proof.Machine

/-! ### The bytes kept, within an item -/

/-- No line touches the bytes the script has kept. -/
def SameBytes (w w' : Work) : Prop := w'.buf = w.buf ∧ w'.snA = w.snA

theorem SameBytes.trans {w w' w'' : Work} (h : SameBytes w w') (h' : SameBytes w' w'') : SameBytes w w'' :=
  ⟨h'.1.trans h.1, h'.2.trans h.2⟩

theorem sameBytes_latch (r : Reg) (v : Word) (w : Work) : SameBytes w (latch r v w) := by
  cases r <;> exact ⟨rfl, rfl⟩

theorem seqRead_sameBytes {r : Reg} {v : Word} {s t : State} (h : seqRead r s = .ok (v, t)) :
    SameBytes s.work t.work := by
  obtain ⟨_, _, rfl⟩ := seqRead_cases h
  exact sameBytes_latch ..

theorem seqWrite_sameBytes {r : Reg} {v : Word} {s t : State} (h : seqWrite r v s = .ok t) :
    SameBytes s.work t.work := by
  obtain ⟨_, _, _, rfl⟩ := seqWrite_cases h
  exact ⟨rfl, rfl⟩

theorem seqSet_sameBytes {r : Reg} {v : Word} {s t : State} (h : seqSet r v s = .ok t) :
    SameBytes s.work t.work := by
  obtain ⟨_, _, rfl⟩ := seqSet_cases h
  exact ⟨rfl, rfl⟩

theorem runLine_sameBytes {p : Params} (l : Line) (s : State) :
    (runLine p l s).Holds (fun _ t => SameBytes s.work t.work) (fun t => SameBytes s.work t.work)
      (fun t => SameBytes s.work t.work) (fun _ _ t => SameBytes s.work t.work) := by
  have hsame : SameBytes s.work s.work := ⟨rfl, rfl⟩
  cases l with
  | init l =>
    cases l <;> dsimp only [runLine, initLine]
    case clkEnable | clkSelect | pinSda | pinScl => exact hsame
    case swrst | master | baud => exact onWrite_holds fun _ h => seqWrite_sameBytes h
    case enable => exact onWrite_holds fun _ h => seqSet_sameBytes h
    case resetWait =>
      refine onRead_holds fun _ _ h => ?_
      split <;> exact (seqRead_sameBytes h :)
  | start a d l =>
    cases l <;> dsimp only [runLine, startLine]
    case flags | failRead => exact onRead_holds fun _ _ h => (seqRead_sameBytes h :)
    case check | status =>
      refine onRead_holds fun _ _ h => ?_
      split <;> exact (seqRead_sameBytes h :)
    case cleanup | address | failStop | failClear => exact onWrite_holds fun _ h => (seqWrite_sameBytes h :)
    case poll =>
      exact pollLine_holds (fun _ _ h _ => (seqRead_sameBytes h :)) (fun _ _ h _ _ => (seqRead_sameBytes h :))
        fun _ _ h _ _ => (seqRead_sameBytes h :)
  | write b l =>
    cases l <;> dsimp only [runLine, writeLine]
    case data => exact onWrite_holds fun _ h => seqWrite_sameBytes h
    case wait =>
      refine onRead_holds fun _ _ h => ?_
      split
      · exact (seqRead_sameBytes h :)
      · split <;> exact (seqRead_sameBytes h :)
  | read g l =>
    cases l <;> dsimp only [runLine, readLine]
    case poll =>
      refine pollLine_holds (fun _ _ h _ => ?_) (fun _ _ h _ _ => (seqRead_sameBytes h :))
        fun _ _ h _ _ => (seqRead_sameBytes h :)
      split <;> exact (seqRead_sameBytes h :)
    case readCtrl | data => exact onRead_holds fun _ _ h => (seqRead_sameBytes h :)
    case writeCtrl => exact onWrite_holds fun _ h => seqWrite_sameBytes h
  | stop l =>
    cases l <;> dsimp only [runLine, stopLine]
    case readCtrl => exact onRead_holds fun _ _ h => (seqRead_sameBytes h :)
    case writeCtrl => exact onWrite_holds fun _ h => (seqWrite_sameBytes h :)
  | convert => exact hsame

/-! ### A step within an item -/

/-- The state in which the operation `i`, taken up in the state `s`, stands at the line `l` of its item `k`. -/
def Spot.inItem (c : Spot) (i : Instr) (k : Nat) (l : Line) (s : State) : State :=
  { c.on i l s with seq := some { op := i, item := k, line := l } }

/-- Moving to a line keeps the bytes. -/
theorem moveTo_sameBytes (i : Instr) (k : Nat) (l : Line) (s : State) : SameBytes s.work (moveTo i k l s).work :=
  ⟨(moveTo_latches i k l s).1, (moveTo_latches i k l s).2.1⟩

/-- A step of a primitive the host issued is a step of it as any item of any operation: it goes on alike, and where it
ends, so does the item; and it keeps the bytes. -/
theorem blockStep_asAnyItem {y : Prim} {kp : Keep} {q : SeqPos} {s : State} (h0 : q.item = 0) :
    (blockStep Config.params (hostPrimitive y kp) q s).Holds
      (fun t => SameBytes s.work t.work ∧ ∀ i k r,
        blockStep Config.params (operationOf i) (q.asItem i k) (s.asItem i k r) = .moved (t.asItem i k r))
      (fun _ => True)
      (fun t => ∃ st d u, SameBytes s.work u.work ∧ t = finish st .ok (if st = .ok then keepByte kp d u else u) ∧
        ∀ i k r, blockStep Config.params (operationOf i) (q.asItem i k) (s.asItem i k r) =
          itemEnded i (operationOf i) k st d (u.asItem i k r)) := by
  unfold blockStep
  simp only [engineMove_asItem]
  rcases engineMove_cases Config.params s with ⟨f, e⟩ | ⟨f, o, x, _, e⟩
  · have hbytes := runLine_sameBytes (p := Config.params) q.line (s.setFeed f)
    have hline : ∀ i k r, runLine Config.params (q.asItem i k).line ((s.setFeed f).asItem i k r) =
      (runLine Config.params q.line (s.setFeed f)).map (State.asItem i k r) := fun i k r => runLine_asItem q.line _
    simp only [e, EngineMove.map, seqStep, hline]
    generalize runLine Config.params q.line (s.setFeed f) = out at hbytes
    cases out with
    | goto l t =>
      exact ⟨hbytes.trans (moveTo_sameBytes ..), fun i k r => congrArg Progress.moved (moveTo_asItem ..)⟩
    | again t => exact ⟨hbytes, fun i k r => rfl⟩
    | spin t | refused r => trivial
    | done st d t =>
      show (itemEnded q.op (hostPrimitive y kp) q.item st d t).Holds _ _ _
      rw [h0, itemEnded_hostPrimitive]
      exact ⟨st, d, t, hbytes, rfl, fun i k r => rfl⟩
  · simp only [e, EngineMove.map]
    exact ⟨⟨rfl, rfl⟩, fun i k r => rfl⟩

section
variable {j : Instr} {n b : Nat} {l l' : Line} {c c' u : Spot} {s : State} {y : Prim} {kp : Keep}

theorem Moves.inItem (h : Moves j l c l' c') (hop : operationOf j = hostPrimitive y kp) :
    SameBytes c.work c'.work ∧ ∀ i k s, blockStep Config.params (operationOf i) { op := i, item := k, line := l }
      (c.inItem i k l s) = .moved (c'.inItem i k l' s) := by
  have hstep : ∀ s, _ := fun s => blockStep_asAnyItem (y := y) (kp := kp) (q := ⟨j, 0, l⟩) (s := c.on j l s) rfl
  simp only [← hop, h _] at hstep
  exact ⟨(hstep State.reset).1, fun i k s => (hstep s).2 i k s.res⟩

/-- A path within a primitive the host issued is a path within the item. -/
theorem Path.inItem (h : Path j n l c l' c') (hop : operationOf j = hostPrimitive y kp) :
    SameBytes c.work c'.work ∧ ∀ {i k s m x}, Leads Config.params (operationOf i) m (c'.inItem i k l' s) x →
      Leads Config.params (operationOf i) (m + n) (c.inItem i k l s) x := by
  induction h with
  | refl => exact ⟨⟨rfl, rfl⟩, id⟩
  | head hm _ ih =>
    obtain ⟨hbytes, hstep⟩ := hm.inItem hop
    obtain ⟨hbytes', hleads⟩ := ih
    exact ⟨hbytes.trans hbytes', fun h => .more rfl (hstep ..) (hleads h)⟩

theorem codeByte_injective : Function.Injective codeByte := fun c d h => by
  cases c <;> cases d <;> simp [codeByte] at h ⊢

/-- How an item ends does not depend on where the sequencer stood in it. -/
theorem itemEnded_setSeq (i : Instr) (o : Operation) (k : Nat) (st : Code) (d : Byte) (q : Option SeqPos) (s : State) :
    itemEnded i o k st d (s.setSeq q) = itemEnded i o k st d s := by
  have hkeep : ∀ kp, keepByte kp d (s.setSeq q) = (keepByte kp d s).setSeq q := fun kp => by cases kp <;> rfl
  have hmove : ∀ l u, moveTo i (k + 1) l (u.setSeq q) = moveTo i (k + 1) l u := fun l u => by
    unfold moveTo
    split <;> rfl
  unfold itemEnded
  cases o.script[k]? with
  | none => rfl
  | some it =>
    cases st with
    | ok =>
      simp only [hkeep, hmove]
      rfl
    | notReady | timeout | busError | nackOrArbitrationLost | startFailed | repeatedStartFailed | commandFailed =>
      cases it.onFail <;> rfl

/-- Where a primitive the host issued ends, so does the item: with the same status and, of a `READ`, the same byte. -/
theorem blockStep_inItem_of_ended {r : Results} {ph : Phase} (hop : operationOf j = hostPrimitive y kp)
    (hkp : kp = .nothing ∨ kp = .result)
    (h : blockStep Config.params (operationOf j) { op := j, item := 0, line := l } (c.on j l s) =
      .ended (c'.off r ph s)) :
    SameBytes c.work c'.work ∧ ∃ st d, codeByte st = r.status ∧ (st = .ok → kp = .result → d = r.byte) ∧
      ∀ i k, blockStep Config.params (operationOf i) { op := i, item := k, line := l } (c.inItem i k l s) =
        itemEnded i (operationOf i) k st d (c'.inItem i k l (s.setPhase ph)) := by
  have hstep := blockStep_asAnyItem (y := y) (kp := kp) (q := ⟨j, 0, l⟩) (s := c.on j l s) rfl
  rw [← hop, h] at hstep
  obtain ⟨st, d, u, hbytes, ht, hend⟩ := hstep
  have hkept : ∃ b, (if st = .ok then keepByte kp d u else u) = u.setRes { u.res with byte := b } ∧
      (st = .ok → kp = .result → d = b) := by
    split
    · rcases hkp with rfl | rfl
      · exact ⟨u.res.byte, rfl, nofun⟩
      · exact ⟨d, rfl, fun _ _ => rfl⟩
    · exact ⟨u.res.byte, rfl, fun hst => absurd hst ‹_›⟩
  obtain ⟨b, hkept, hd⟩ := hkept
  rw [hkept] at ht
  obtain ⟨_, _, _, _, _, _, _, _, _, _, _⟩ := u
  simp only [Spot.off, finish, State.setRes, State.setBusy, State.setSeq, State.mk.injEq] at ht
  obtain ⟨rfl, -, rfl, -, rfl, rfl, rfl, rfl, rfl, rfl, rfl⟩ := ht
  exact ⟨hbytes, st, d, rfl, hd, fun i k => (hend i k s.res).trans (itemEnded_setSeq i _ k st d _
    (c'.inItem i k l (s.setPhase ph)))⟩

end
end Sys2Proof.Machine
end

section
/-! How a script goes from one item to the next, and to its end (42_sensor_ops.md R201, R202, R205). -/

namespace Sys2Proof.Machine

/-! ### Between two items -/

/-- How far a script has come where it stands between two items: the engine, the bytes kept, the accesses and the wire
events since it began, the turns left and the phase. (The latches and the poll count mean nothing there.) -/
structure Stage where
  eng : Engine
  buf : Bytes8
  snA : Bytes4
  acc : List Access
  wire : List Wire
  turns : List Turn
  phase : Phase

namespace Stage

/-- Where a script taken up in the state `s` begins. -/
def of (s : State) : Stage :=
  { eng := s.eng, buf := s.work.buf, snA := s.work.snA, acc := [], wire := [], turns := s.feed.turns, phase := s.phase }

/-- The same place, the latches and the poll count those of `w`. -/
def spot (g : Stage) (w : Work) : Spot :=
  { eng := g.eng, work := { w with buf := g.buf, snA := g.snA }, acc := g.acc, wire := g.wire, turns := g.turns }

/-- The state in which the operation `i`, taken up in the state `s`, stands there at the line `l` of its item `k`. -/
def inItem (g : Stage) (w : Work) (i : Instr) (k : Nat) (l : Line) (s : State) : State :=
  (g.spot w).inItem i k l (s.setPhase g.phase)

/-- What came after it: the accesses `acc`, the wire events `ws`, to the engine `e` in the phase `ph`, with the turns
`ts` left. -/
def after (g : Stage) (e : Engine) (acc : List Access) (ws : List Wire) (ts : List Turn) (ph : Phase) : Stage :=
  { g with eng := e, acc := g.acc ++ acc, wire := g.wire ++ ws, turns := ts, phase := ph }

/-- What the script keeps of the byte in `DATA`, and of the bytes kept. -/
def keeping (g : Stage) (k : Keep) : Stage :=
  match k with
  | .nothing => g
  | .result => g
  | .slot n => { g with buf := setByte g.buf n g.eng.data }
  | .partA => { g with snA := keptPartA g.buf }

end Stage

section
variable (g : Stage) (w : Work)

@[simp] theorem Stage.spot_eng : (g.spot w).eng = g.eng := rfl
@[simp] theorem Stage.spot_acc : (g.spot w).acc = g.acc := rfl
@[simp] theorem Stage.spot_wire : (g.spot w).wire = g.wire := rfl
@[simp] theorem Stage.spot_turns : (g.spot w).turns = g.turns := rfl

end

section
variable (s : State) (g : Stage) (e : Engine) (acc : List Access) (ws : List Wire) (ts : List Turn) (ph : Phase)

@[simp] theorem Stage.of_eng : (Stage.of s).eng = s.eng := rfl
@[simp] theorem Stage.of_acc : (Stage.of s).acc = [] := rfl
@[simp] theorem Stage.of_wire : (Stage.of s).wire = [] := rfl
@[simp] theorem Stage.after_eng : (g.after e acc ws ts ph).eng = e := rfl
@[simp] theorem Stage.after_acc : (g.after e acc ws ts ph).acc = g.acc ++ acc := rfl
@[simp] theorem Stage.after_wire : (g.after e acc ws ts ph).wire = g.wire ++ ws := rfl

end

/-- From its first line the primitive `x`, as any item of any script, comes from the stage `g` within 10 steps of the
block to its end at the stage `g'`, with the status `st`; a `READ` that ends OK has the byte in `DATA`. -/
def Passes (x : Prim) (g : Stage) (st : Code) (g' : Stage) : Prop :=
  ∀ w, ∃ w', ∀ i k s, ∃ n ≤ 10, ∃ d, (∀ r, x = .read r → st = .ok → d = g'.eng.data) ∧
    Leads Config.params (operationOf i) n (g.inItem w i k (firstLine x) s)
      (itemEnded i (operationOf i) k st d (g'.inItem w' i k (firstLine x) s))

/-- From the first line of its item `k`, at the stage `g`, the operation `i` comes within `b` steps of the block to the
first line of its item `k'`, at the stage `g'`. -/
def Goes (i : Instr) (b k : Nat) (g : Stage) (k' : Nat) (g' : Stage) : Prop :=
  ∀ w, ∃ w', ∀ s, ∃ n ≤ b, ∀ {m x},
    Leads Config.params (operationOf i) m (g'.inItem w' i k' (itemLine (operationOf i) k') s) x →
    Leads Config.params (operationOf i) (m + n) (g.inItem w i k (itemLine (operationOf i) k) s) x

section
variable {i j : Instr} {x y : Prim} {kp : Keep} {k k' k'' b b' : Nat} {g g' g'' : Stage} {st : Code} {it it' : Item}
  {s : State}

/-! ### A primitive that passes -/

/-- From the line `l` at `c`, in the phase `ph`, `n` steps of the block and one more bring the primitive `j` the host
issued to its end at `c'`, in the phase `ph'`, with the status `st`. -/
def EndsAt (j : Instr) (ph : Phase) (n : Nat) (l : Line) (c : Spot) (st : Code) (c' : Spot) (ph' : Phase) : Prop :=
  ∃ l' u, Path j n l c l' u ∧ ∀ s : State, s.phase = ph → ∃ r : Results, r.status = codeByte st ∧
    (∀ a, j = .read a → st = .ok → r.byte = c'.eng.data) ∧
    blockStep Config.params (operationOf j) { op := j, item := 0, line := l' } (u.on j l' s) = .ended (c'.off r ph' s)

/-- A place that is an engine's, with the bytes, the traces and the turns of a stage, is that stage's. -/
theorem spot_of_eq {c : Spot} (he : c.eng = g.eng) (hb : c.work.buf = g.buf) (hs : c.work.snA = g.snA)
    (ha : c.acc = g.acc) (hw : c.wire = g.wire) (ht : c.turns = g.turns) : c = g.spot c.work := by
  rw [Stage.spot, ← he, ← hb, ← hs, ← ha, ← hw, ← ht]

/-- What a primitive the host issued comes to, it comes to as an item. -/
theorem passes_of_endsAt {e : Engine} {acc : List Access} {ws : List Wire} {ts : List Turn} {ph : Phase}
    (hop : operationOf j = hostPrimitive y kp)
    (hkp : kp = .nothing ∧ (∀ a, y ≠ .read a) ∨ kp = .result ∧ ∃ a, j = .read a)
    (h : ∀ w, ∃ c, ∃ n ≤ 9, EndsAt j g.phase n (firstLine y) (g.spot w) st c ph ∧ c.eng = e ∧ c.acc = g.acc ++ acc ∧
      c.wire = g.wire ++ ws ∧ c.turns = ts) : Passes y g st (g.after e acc ws ts ph) := by
  intro w
  obtain ⟨c, n, hn, ⟨l, u, hp, hend⟩, he, ha, hw, ht⟩ := h w
  obtain ⟨hbytes, hleads⟩ := hp.inItem hop
  refine ⟨c.work, fun i k s => ⟨n + 1, by omega, ?_⟩⟩
  obtain ⟨r, hst, hbyte, hb⟩ := hend (s.setPhase g.phase) rfl
  obtain ⟨hbytes', st', d, hst', hd, hlast⟩ := blockStep_inItem_of_ended hop (hkp.imp And.left And.left) hb
  obtain rfl : st' = st := codeByte_injective (hst'.trans hst)
  obtain ⟨hbuf, hsn⟩ := hbytes.trans hbytes'
  have hc : c = (g.after e acc ws ts ph).spot c.work := spot_of_eq he hbuf hsn ha hw ht
  refine ⟨d, fun a hy hok => ?_, ?_⟩
  · rcases hkp with ⟨_, hn⟩ | ⟨hk, a', hj⟩
    · exact absurd hy (hn a)
    · rw [hd hok hk, hbyte a' hj hok, he]
      rfl
  · rw [Nat.add_comm]
    refine hleads (.last rfl ?_)
    rw [hlast, hc]
    exact (itemEnded_setSeq ..).symm

/-! ### From item to item -/

theorem goes_refl (i : Instr) (k : Nat) (g : Stage) : Goes i 0 k g k g := fun w => ⟨w, fun _ => ⟨0, le_rfl, id⟩⟩

theorem Goes.trans (h : Goes i b k g k' g') (h' : Goes i b' k' g' k'' g'') : Goes i (b + b') k g k'' g'' := by
  intro w
  obtain ⟨w', h⟩ := h w
  obtain ⟨w'', h'⟩ := h' w'
  refine ⟨w'', fun s => ?_⟩
  obtain ⟨n, hn, hl⟩ := h s
  obtain ⟨n', hn', hl'⟩ := h' s
  refine ⟨n' + n, by omega, fun hx => ?_⟩
  rw [← Nat.add_assoc]
  exact hl (hl' hx)

theorem Goes.mono (h : Goes i b k g k' g') (hb : b ≤ b') : Goes i b' k g k' g' := fun w =>
  let ⟨w', h⟩ := h w
  ⟨w', fun s => let ⟨n, hn, hx⟩ := h s; ⟨n, hn.trans hb, hx⟩⟩

/-- The engine's completion moves no script on. -/
theorem goes_of_complete {o : EnvOutcome} {z : Reaction} {ts : List Turn} (i : Instr) (k : Nat)
    (hc : complete Config.params o g.eng = some z) (ht : g.turns = .go o :: ts) :
    Goes i 1 k g k { g with eng := z.eng, wire := g.wire ++ z.wire, turns := ts } := by
  refine fun w => ⟨w, fun s => ⟨1, le_rfl, fun hx => .more rfl ?_ hx⟩⟩
  rw [blockStep, engineMove_complete (s := g.inItem w i k _ s) hc ht]
  simp [Stage.inItem, Stage.spot, Spot.inItem, Spot.on, State.setFeed, State.setEng, State.pushWire, State.setPhase]

/-- What an item that ended OK keeps. -/
theorem keepByte_inItem {w : Work} {l : Line} {d : Byte} (hkeep : kp ≠ .result)
    (hd : ∀ n, kp = .slot n → d = g.eng.data) :
    keepByte kp d (g.inItem w i k l s) = (g.keeping kp).inItem w i k l s := by
  cases kp with
  | nothing | partA => rfl
  | result => exact absurd rfl hkeep
  | slot n =>
    rw [hd n rfl]
    rfl

theorem moveTo_inItem (w : Work) (l l' : Line) :
    moveTo i k' l' (g.inItem w i k l s) =
      g.inItem (if isPollLine l' then { w with pollcnt := 0 } else w) i k' l' s := by
  unfold moveTo
  split <;> rfl

/-- An item that ends OK leads to the next one. -/
theorem Passes.goes (h : Passes it.prim g .ok g') (hit : (operationOf i).script[k]? = some it)
    (hkeep : it.keep ≠ .result) (hread : ∀ n, it.keep = .slot n → ∃ r, it.prim = .read r)
    (hnext : k + 1 < (operationOf i).script.length) : Goes i 10 k g (k + 1) (g'.keeping it.keep) := by
  intro w
  obtain ⟨w', h⟩ := h w
  refine ⟨if isPollLine (itemLine (operationOf i) (k + 1)) then { w' with pollcnt := 0 } else w', fun s => ?_⟩
  obtain ⟨n, hn, d, hd, hl⟩ := h i k s
  have hend : itemEnded i (operationOf i) k .ok d (g'.inItem w' i k (firstLine it.prim) s) =
      .moved (moveTo i (k + 1) (itemLine (operationOf i) (k + 1))
        ((g'.keeping it.keep).inItem w' i k (firstLine it.prim) s)) := by
    rw [← keepByte_inItem hkeep fun n hn => let ⟨r, hr⟩ := hread n hn; hd r hr rfl]
    simp [itemEnded, hit, hnext]
  rw [hend, moveTo_inItem] at hl
  refine ⟨n, hn, fun hx => ?_⟩
  rw [itemLine_of_get hit]
  exact hl.trans hx

/-! ### To the operation's end -/

/-- The state in which an operation taken up in `s` has ended with the results `r`. -/
def Stage.off (g : Stage) (w : Work) (r : Results) (s : State) : State := (g.spot w).off r g.phase s

/-- The operation begins at its first item. -/
theorem beginOperation_eq_inItem (hl : isPollLine (itemLine (operationOf i) 0) = false) :
    beginOperation i (operationOf i) s = (Stage.of s).inItem s.work i 0 (itemLine (operationOf i) 0) s := by
  rw [beginOperation, moveTo, hl]
  simp [Stage.inItem, Stage.spot, Stage.of, Spot.inItem, Spot.on, State.setBusy, State.setSeq, State.setPhase]

/-- A sensor operation may be issued in every phase (10_state.md R27). -/
theorem legalIn_sensor (hs : isSensor i = true) (ph : Phase) : legalIn i ph = true := by
  cases i with
  | sReset | sReadSn | sReadRh | sReadT | sReadTl => rfl
  | init | start | write | read | stop | convRh | convT => cases hs

/-- A script followed to the end of one of its items, that item ending the operation: `exec` ends so. -/
theorem exec_of_goes {t : Work → Byte → State} (hs : isSensor i = true) (hq : s.seq = none)
    (hg : Goes i b 0 (.of s) k g) (hp : Passes it.prim g st g') (hit : (operationOf i).script[k]? = some it)
    (hend : ∀ w d, itemEnded i (operationOf i) k st d (g'.inItem w i k (firstLine it.prim) s) = .ended (t w d))
    (hb : b ≤ 18 * (operationOf i).script.length) : ∃ w d, exec i s = .next (t w d) := by
  have hfirst : isPollLine (itemLine (operationOf i) 0) = false := by
    obtain ⟨it0, hit0, hprim⟩ := Option.map_eq_some_iff.mp (sensor_first_last hs).1
    rw [itemLine_of_get hit0, hprim]
    rfl
  obtain ⟨w, hg⟩ := hg s.work
  obtain ⟨w', hp⟩ := hp w
  obtain ⟨n, hn, hleads⟩ := hg s
  obtain ⟨n', hn', d, _, hl⟩ := hp i k s
  rw [hend, ← itemLine_of_get hit] at hl
  refine ⟨w', d, ?_⟩
  rw [exec_of_begin hq (legalIn_sensor hs s.phase), runFrom, beginOperation_eq_inItem hfirst]
  refine runSteps_of_leads (hleads hl) ?_
  unfold stepBound
  generalize 3 * ((operationOf i).script.length + 1) * Config.params.pollBudget = a
  omega

/-- An item that fails ends the operation: with the Sensor Error of its primitive, the Bus Error its cause. -/
theorem exec_of_goes_failed (hs : isSensor i = true) (hq : s.seq = none) (hg : Goes i b 0 (.of s) k g)
    (hp : Passes it.prim g st g') (hit : (operationOf i).script[k]? = some it) (hst : st ≠ .ok)
    (hb : b ≤ 18 * (operationOf i).script.length) :
    ∃ w, exec i s = .next (g'.off w (reported s.res (sensorErrorOf it.prim) (codeByte st)) s) := by
  have hend : ∀ w d, itemEnded i (operationOf i) k st d (g'.inItem w i k (firstLine it.prim) s) =
      .ended (g'.off w (reported s.res (sensorErrorOf it.prim) (codeByte st)) s) := fun w d => by
    obtain ⟨e, he, hend⟩ := itemEnded_failed d (g'.inItem w i k (firstLine it.prim) s) hs hit hst
    rw [hend, ← he]
    rfl
  obtain ⟨w, _, h⟩ := exec_of_goes hs hq hg hp hit hend hb
  exact ⟨w, h⟩

/-- A script whose last item, which keeps no byte, ends OK, ends the operation with its results. -/
theorem exec_of_goes_ok (hs : isSensor i = true) (hq : s.seq = none) (hg : Goes i b 0 (.of s) k g)
    (hp : Passes it.prim g .ok g') (hit : (operationOf i).script[k]? = some it) (hkeep : it.keep = .nothing)
    (hlast : k + 1 = (operationOf i).script.length) (hb : b ≤ 18 * (operationOf i).script.length) :
    ∃ w, exec i s = .next
      (g'.off w (reported ((operationOf i).report (g'.spot w).work s.res) 0x00#8 0x00#8) s) := by
  have hend : ∀ w d, itemEnded i (operationOf i) k .ok d (g'.inItem w i k (firstLine it.prim) s) =
      .ended (g'.off w (reported ((operationOf i).report (g'.spot w).work s.res) 0x00#8 0x00#8) s) := fun w d => by
    simp only [itemEnded, hit, hkeep, hlast, lt_irrefl, if_false, keepByte]
    rfl
  obtain ⟨w, _, h⟩ := exec_of_goes hs hq hg hp hit hend hb
  exact ⟨w, h⟩

end
end Sys2Proof.Machine
end

section
/-! What each primitive of a sensor script comes to, by the engine's answers (41_bus_primitives.md R173 to R188;
40_bus_engine.md R136 to R149). -/

namespace Sys2Proof.Machine

section
variable {g : Stage} {a : BitVec 7} {d : Dir} {st : Code} {ts : List Turn}

/-! ### `START` -/

/-- What `START` comes to from its address phase on, it comes to as an item. -/
theorem passes_start {e : Engine} {acc : List Access} {ws : List Wire} {ph : Phase} (hm : ModeSet g.eng)
    (hi : g.eng.inflight = .none)
    (h : ∀ c : Spot, c.eng = opened a d g.eng → c.turns = g.turns → ∃ c', ∃ n ≤ 5, EndsAt (.start a d) g.phase n
      (.start a d .poll) c st c' ph ∧ c'.eng = e ∧ c'.acc = c.acc ++ acc ∧ c'.wire = c.wire ++ ws ∧ c'.turns = ts) :
    Passes (.start a d) g st (g.after e (startAccesses (addrByte a d) g.eng ++ acc)
      (startWire (addrByte a d) g.eng ++ ws) ts ph) := by
  refine passes_of_endsAt (j := .start a d) rfl (.inl ⟨rfl, nofun⟩) fun w => ?_
  obtain ⟨k, hk, w', _, hopen⟩ := path_start_opens (c := g.spot w) a d hm hi
  obtain ⟨c', n, hn, ⟨l, u, hp, hend⟩, he, hacc, hw, ht⟩ := h ⟨opened a d g.eng, w',
    g.acc ++ startAccesses (addrByte a d) g.eng, g.wire ++ startWire (addrByte a d) g.eng, g.turns⟩ rfl rfl
  exact ⟨c', k + n, by omega, ⟨l, u, hopen.trans hp, hend⟩, he, by simpa using hacc, by simpa using hw, ht⟩

/-- Where the address poll finds its flag and `STATUS` is clear, `START` ends OK. -/
theorem endsAt_start_status {ph : Phase} {n : Nat} {l : Line} {c u v : Spot}
    (hp : Path (.start a d) n l c (.start a d .status) u)
    (h : u.Idles v) (hr : v.eng.inflight ≠ .resetPh) (ht : v.eng.status = statusClear) :
    EndsAt (.start a d) ph n l c .ok (v.read .status) (dataPhase d) :=
  ⟨_, u, hp, fun _ _ => ⟨_, rfl, nofun, start_status_ok h hr ht⟩⟩

/-- `START` to write whose address is acknowledged at once. -/
theorem passes_start_write (a : BitVec 7) (hm : ModeSet g.eng) (hi : g.eng.inflight = .none)
    (ht : g.turns = .go .ack :: ts) :
    Passes (.start a .write) g .ok (g.after (acked a .write g.eng)
      (startAccesses (addrByte a .write) g.eng ++ [.rd .intflag 0x01#32, .rd .status 0x0#32])
      (startWire (addrByte a .write) g.eng ++ [.sack]) ts .dataW) := by
  refine passes_start hm hi fun c he hturns => ?_
  have hanswer : complete Config.params .ack c.eng = some { eng := acked a .write g.eng, wire := [.sack] } := by
    rw [he, complete_opened_ack]
  refine ⟨_, 2, by decide, endsAt_start_status
    (path_start_answered (a := a) (d := .write) hanswer (hturns.trans ht) rfl rfl) (idles_quiet rfl) nofun rfl, rfl, ?_,
    rfl, rfl⟩
  simp [intflag_acked, status_acked]

/-- `START` to read whose address is acknowledged and whose first byte comes at once. -/
theorem passes_start_read {v : Byte} (a : BitVec 7) (hm : ModeSet g.eng) (hi : g.eng.inflight = .none)
    (ht : g.turns = .go .ack :: .go (.byte v) :: ts) :
    Passes (.start a .read) g .ok (g.after (received v (acked a .read g.eng))
      (startAccesses (addrByte a .read) g.eng ++ [.rd .intflag 0x03#32, .rd .status 0x0#32])
      (startWire (addrByte a .read) g.eng ++ [.sack, .rx v]) ts .dataR) := by
  refine passes_start hm hi fun c he hturns => ?_
  have hack := moves_of_complete (i := .start a .read) (l := .start a .read .poll) (c := c)
    (x := { eng := acked a .read g.eng, wire := [.sack] }) (by rw [he, complete_opened_ack]) (hturns.trans ht)
  have hbyte := moves_of_complete (i := .start a .read) (l := .start a .read .poll)
    (c := c.completed { eng := acked a .read g.eng, wire := [.sack] } (.go (.byte v) :: ts))
    (complete_byte_rxPh v rfl) rfl
  have hfound := moves_start_poll_found (a := a) (d := .read)
    (idles_quiet (c := (c.completed { eng := acked a .read g.eng, wire := [.sack] } (.go (.byte v) :: ts)).completed
      { eng := received v (acked a .read g.eng), wire := [.rx v] } ts) rfl) nofun (.inl rfl)
  refine ⟨_, 3, by decide, endsAt_start_status (.head hack (.head hbyte hfound.path)) (idles_quiet rfl) nofun rfl, rfl,
    ?_, by simp, rfl⟩
  simp [intflag_received_acked, status_acked, status_received]

/-- `START` to read whose address is acknowledged, the reception in flight to its end. -/
theorem passes_start_read_held (a : BitVec 7) (hm : ModeSet g.eng) (hi : g.eng.inflight = .none)
    (ht : g.turns = .go .ack :: .hold :: .hold :: ts) :
    Passes (.start a .read) g .ok (g.after (acked a .read g.eng)
      (startAccesses (addrByte a .read) g.eng ++ [.rd .intflag 0x01#32, .rd .status 0x0#32])
      (startWire (addrByte a .read) g.eng ++ [.sack]) ts .dataR) := by
  refine passes_start hm hi fun c he hturns => ?_
  have hack := moves_of_complete (i := .start a .read) (l := .start a .read .poll) (c := c)
    (x := { eng := acked a .read g.eng, wire := [.sack] }) (by rw [he, complete_opened_ack]) (hturns.trans ht)
  have hfound := moves_start_poll_found (a := a) (d := .read)
    (idles_hold (c := c.completed { eng := acked a .read g.eng, wire := [.sack] } (.hold :: .hold :: ts)) nofun rfl)
    nofun (.inl rfl)
  refine ⟨_, 2, by decide, endsAt_start_status (.head hack hfound.path) (idles_hold nofun rfl) nofun rfl, rfl, ?_, rfl,
    rfl⟩
  simp [intflag_acked, status_acked]

/-- `START` whose address is refused at once. -/
theorem passes_start_refused (a : BitVec 7) (d : Dir) (hm : ModeSet g.eng) (hi : g.eng.inflight = .none)
    (ht : g.turns = .go .nack :: ts) :
    ∃ acc, Passes (.start a d) g .nackOrArbitrationLost
      (g.after (errorCleared (reactStop (refusedAddress a d g.eng)).eng) (startAccesses (addrByte a d) g.eng ++ acc)
        (startWire (addrByte a d) g.eng ++ [.snack, .p]) ts .idle) := by
  refine ⟨[.rd .intflag (regValue .intflag (refusedAddress a d g.eng)), .rd .status 0x4#32] ++
    failAccesses (ctrlBits g.eng.ctrl), passes_start hm hi fun c he hturns => ?_⟩
  have hanswer : complete Config.params .nack c.eng = some { eng := refusedAddress a d g.eng, wire := [.snack] } := by
    rw [he, complete_opened_nack]
  have hfound := path_start_answered (a := a) (d := d) hanswer (hturns.trans ht) rfl rfl
  have hfail := moves_start_status_failed (a := a) (d := d)
    (idles_quiet (c := (c.completed { eng := refusedAddress a d g.eng, wire := [.snack] } ts).poll) rfl) nofun nofun
  obtain ⟨w, _, hstop⟩ := path_start_fails (a := a) (d := d) (x := .nackOrArbitrationLost)
    (c := (c.completed { eng := refusedAddress a d g.eng, wire := [.snack] } ts).poll.read .status) (ts := ts)
    ⟨hm.1, hm.2.1, nofun⟩ (.inl ⟨rfl, rfl⟩)
  refine ⟨_, 5, by decide, ⟨_, _, hfound.trans (.head hfail hstop), fun _ _ => ⟨_, rfl, nofun,
    start_failClear (idles_quiet rfl) nofun⟩⟩, rfl, ?_, ?_, rfl⟩
  · simp [status_refusedAddress, failAccesses, maskError]
  · simp [reactStop, refusedAddress, opened, pendingAck]

/-! ### `WRITE` -/

/-- `WRITE` whose byte the engine answers at once. -/
theorem passes_write {o : EnvOutcome} {e : Engine} {ws : List Wire} (b : Byte) (hm : ModeSet g.eng)
    (hw : WriteReady g.eng) (ht : g.turns = .go o :: ts)
    (hc : complete Config.params o (sending b g.eng) = some { eng := e, wire := ws }) (hi : e.inflight = .none)
    (hf : e.intflag.mb = true ∨ e.intflag.error = true) :
    Passes (.write b) g (if e.intflag.error then .nackOrArbitrationLost else .ok)
      (g.after e [.wr .data (b.setWidth 32), .rd .intflag (intflagBits e.intflag)] (.tx b :: ws) ts
        (if e.intflag.error then .idle else g.phase)) := by
  refine passes_of_endsAt (j := .write b) rfl (.inl ⟨rfl, nofun⟩) fun w => ?_
  have hdata := moves_write_data (b := b) (idles_quiet (c := g.spot w) hw.2.2) hm hw
  have hanswer := moves_of_complete (i := .write b) (l := .write b .wait)
    (c := (g.spot w).react (.wr .data (b.setWidth 32)) { eng := sending b g.eng, wire := [.tx b] }) hc ht
  refine ⟨(((g.spot w).react (.wr .data (b.setWidth 32)) { eng := sending b g.eng, wire := [.tx b] }).completed
    { eng := e, wire := ws } ts).read .intflag, 2, by decide, ⟨_, _, .head hdata hanswer.path, fun s hs =>
      ⟨reported s.res (if e.intflag.error then 0xFC#8 else 0x00#8) 0x00#8, ?_, nofun, ?_⟩⟩, rfl, ?_, ?_, rfl⟩
  · cases e.intflag.error <;> rfl
  · rw [← hs]
    exact write_wait_ends (idles_quiet hi) (fun hr => nomatch hi.symm.trans hr) hf
  · exact List.append_assoc ..
  · exact List.append_assoc ..

/-! ### `READ` -/

/-- A byte waits for its acknowledge, the address acknowledged before it (40_bus_engine.md R136, R145). -/
def ByteWaits (e : Engine) : Prop :=
  ModeSet e ∧ e.inflight = .none ∧ e.ackPending = true ∧ e.intflag = { mb := true, sb := true, error := false }

/-- `READ` where the byte waits. -/
theorem passes_read (r : Bool) (h : ByteWaits g.eng) :
    Passes (.read r) g .ok (g.after (taken r g.eng)
      [.rd .intflag 0x03#32, .rd .ctrl (ctrlBits g.eng.ctrl), .wr .ctrl (if r then 0x00000006#32 else 0x00040006#32),
        .rd .data (g.eng.data.setWidth 32)] [if r then .mack else .mnack] g.turns g.phase) := by
  obtain ⟨hm, hi, ha, hf⟩ := h
  refine passes_of_endsAt (j := .read r) rfl (.inr ⟨rfl, r, rfl⟩) fun w => ?_
  have hctrl : regValue .ctrl g.eng = ctrlBits g.eng.ctrl := ctrlValue_running hm.2.2
  have hflags : regValue .intflag g.eng = 0x03#32 := by simp [regValue, hf, intflagBits, bitIf, maskMb, maskSb]
  have hword : ackWord r ((g.spot w).poll.read .ctrl).work.ctrlLatch = if r then 0x00000006#32 else 0x00040006#32 :=
    (congrArg (ackWord r) hctrl).trans (ackWord_ctrlBits r hm.1 hm.2.1)
  have htake := reactReadData_acknowledging (g := r) hi ha
  have hfound := moves_read_poll_found (g := r) (idles_quiet (c := g.spot w) hi) hm.2.2 (congrArg Intflag.sb hf)
    (congrArg Intflag.error hf)
  have hread := moves_read_readCtrl (g := r) (idles_quiet (c := (g.spot w).poll) hi)
  have hwrite := moves_read_writeCtrl (g := r) (idles_quiet (c := (g.spot w).poll.read .ctrl) hi) hm hctrl
  refine ⟨_, 3, by decide, ⟨_, _, .head hfound (.head hread hwrite.path), fun s hs => ⟨_, rfl, fun _ _ _ => ?_,
    hs ▸ read_data_ends (idles_quiet hi) hm.2.2⟩⟩, ?_, ?_, ?_, rfl⟩
  · exact (congrArg (·.eng.data) htake).symm
  · exact congrArg Reaction.eng htake
  · simp [hflags, hctrl, hword, acknowledging]
  · simp [htake]

/-- `READ` whose byte the bus error takes. -/
theorem passes_read_lost (r : Bool) (hi : g.eng.inflight = .rxPh) (ht : g.turns = .go .buserr :: ts) :
    Passes (.read r) g .nackOrArbitrationLost
      (g.after (flagBusError g.eng) [.rd .intflag (regValue .intflag (flagBusError g.eng))] [] ts .idle) := by
  refine passes_of_endsAt (j := .read r) rfl (.inr ⟨rfl, r, rfl⟩) fun w => ?_
  have hlost := moves_of_complete (i := .read r) (l := .read r .poll) (c := g.spot w) (o := .buserr)
    (x := { eng := flagBusError g.eng, wire := [] }) (by simp [Stage.spot, complete, hi]) ht
  refine ⟨((g.spot w).completed { eng := flagBusError g.eng, wire := [] } ts).poll, 1, by decide, ⟨_, _, hlost.path,
    fun s hs => ⟨reported s.res 0xFC#8 0x00#8, rfl, nofun, read_poll_error (idles_quiet rfl) nofun rfl⟩⟩,
    rfl, rfl, rfl, rfl⟩

/-! ### `STOP` -/

/-- `STOP` with nothing in flight. -/
theorem passes_stop (hm : ModeSet g.eng) (hi : g.eng.inflight = .none) :
    Passes .stop g .ok (g.after (reactStop g.eng).eng
      [.rd .ctrl (ctrlBits g.eng.ctrl), .wr .ctrl (stopWord (ctrlBits g.eng.ctrl))] (reactStop g.eng).wire g.turns
      .idle) := by
  refine passes_of_endsAt (j := .stop) rfl (.inl ⟨rfl, nofun⟩) fun w => ?_
  have hctrl : regValue .ctrl g.eng = ctrlBits g.eng.ctrl := ctrlValue_running hm.2.2
  refine ⟨_, 1, by decide, ⟨_, _, (moves_stop_readCtrl (idles_quiet (c := g.spot w) hi)).path, fun s hs =>
    ⟨_, rfl, nofun, stop_writeCtrl_ends (idles_quiet hi) hm hctrl⟩⟩, rfl, ?_, rfl, rfl⟩
  have hword : stopWord ((g.spot w).read .ctrl).work.ctrlLatch = stopWord (ctrlBits g.eng.ctrl) :=
    congrArg stopWord hctrl
  simp [hctrl, hword]

end
end Sys2Proof.Machine
end

section
/-! The procedure `Xfer` under a schedule of the environment that acknowledges every phase (42_sensor_ops.md R201). -/

namespace Sys2Proof.Machine

/-! ### The items of a script -/

/-- The script of `i` has the items `its` from its item `k` on. -/
def Sits (i : Instr) (k : Nat) (its : List Item) : Prop :=
  ∀ m it, its[m]? = some it → (operationOf i).script[k + m]? = some it

/-- The `START` to write, the `START` to read, the `WRITE`s and the `READ`s of `Xfer` (42_sensor_ops.md R201, R204). -/
def startWriteItem : Item := { prim := .start sensorAddr .write, onFail := some .startFailed, keep := .nothing }
def startReadItem : Item := { prim := .start sensorAddr .read, onFail := some .repeatedStartFailed, keep := .nothing }
def writeItem (b : Byte) : Item := { prim := .write b, onFail := some .commandFailed, keep := .nothing }
def stopItem (kp : Keep) : Item := { prim := .stop, onFail := some .commandFailed, keep := kp }
def readItem (n m : Nat) : Item :=
  { prim := .read (decide (m + 1 < n)), onFail := some .commandFailed, keep := .slot m }

@[simp] theorem addrByte_sensor_write : addrByte sensorAddr .write = 0x80#8 := rfl
@[simp] theorem addrByte_sensor_read : addrByte sensorAddr .read = 0x81#8 := rfl

section
variable {i : Instr} {k n : Nat} {its its' : List Item} {it : Item}

theorem Sits.left (h : Sits i k (its ++ its')) : Sits i k its := fun m it hm => by
  obtain ⟨hlt, _⟩ := List.getElem?_eq_some_iff.mp hm
  exact h m it (by rwa [List.getElem?_append_left hlt])

theorem Sits.right (h : Sits i k (its ++ its')) : Sits i (k + its.length) its' := fun m it hm => by
  rw [Nat.add_assoc]
  exact h _ it (by rwa [List.getElem?_append_right (by omega), Nat.add_sub_cancel_left])

theorem Sits.head (h : Sits i k (it :: its)) : (operationOf i).script[k]? = some it := h 0 it rfl

theorem Sits.tail (h : Sits i k (it :: its)) : Sits i (k + 1) its := fun m it hm => by
  rw [Nat.add_assoc, Nat.add_comm 1 m]
  exact h (m + 1) it hm

/-- A script is its own items. -/
theorem sits_script : Sits i 0 (operationOf i).script := fun m it hm => by rwa [Nat.zero_add]

theorem Sits.lt (h : (operationOf i).script[k]? = some it) : k < (operationOf i).script.length :=
  (List.getElem?_eq_some_iff.mp h).1

end

/-! ### The command bytes -/

/-- A transaction to write is open, what was sent last acknowledged. -/
def Acknowledged (e : Engine) : Prop :=
  ModeSet e ∧ WriteReady e ∧ e.intflag = { mb := true, sb := false, error := false } ∧ e.status = statusClear

theorem acknowledged_acked {a : BitVec 7} {e : Engine} (hm : ModeSet e) : Acknowledged (acked a .write e) :=
  ⟨⟨hm.1, hm.2.1, nofun⟩, ⟨rfl, rfl, rfl⟩, rfl, rfl⟩

section
variable {i : Instr} {g : Stage} {ts : List Turn}

/-- `WRITE` whose byte is acknowledged at once. -/
theorem passes_write_acked (b : Byte) (h : Acknowledged g.eng) (ht : g.turns = .go .ack :: ts) :
    Passes (.write b) g .ok (g.after { g.eng with data := b } [.wr .data (b.setWidth 32), .rd .intflag 0x01#32]
      [.tx b, .sack] ts g.phase) := by
  obtain ⟨hm, hw, hf, hst⟩ := h
  have hc : complete Config.params .ack (sending b g.eng) =
      some { eng := { g.eng with data := b }, wire := [.sack] } := by
    simp [complete, sending, flagAcked, hf, hst, hw.2.2, statusClear]
  have hpass := passes_write b hm hw ht hc hw.2.2 (.inl (by rw [hf]))
  simpa [hf, intflagBits, bitIf, maskMb] using hpass

/-- The command bytes, each acknowledged at once. -/
theorem goes_writes : ∀ {bs : List Byte} {k : Nat} {g : Stage}, Sits i k (bs.map writeItem) →
    k + bs.length < (operationOf i).script.length → Acknowledged g.eng →
    g.turns = bs.map (fun _ => Turn.go .ack) ++ ts →
    Goes i (10 * bs.length) k g (k + bs.length) (g.after { g.eng with data := bs.getLastD g.eng.data }
      (bs.flatMap fun b => [.wr .data (b.setWidth 32), .rd .intflag 0x01#32]) (bs.flatMap fun b => [.tx b, .sack]) ts
      g.phase) := by
  intro bs
  induction bs with
  | nil =>
    intro k g _ _ _ ht
    have hg : g.after { g.eng with data := g.eng.data } [] [] ts g.phase = g := by
      simp [Stage.after, show ts = g.turns from ht.symm]
    exact hg.symm ▸ goes_refl i k g
  | cons b bs ih =>
    intro k g hits hlen ha ht
    simp only [List.length_cons] at hlen
    have hfirst := (passes_write_acked b ha ht).goes (it := writeItem b) hits.head nofun nofun (by omega)
    have hrest := ih (k := k + 1)
      (g := g.after { g.eng with data := b } [.wr .data (b.setWidth 32), .rd .intflag 0x01#32] [.tx b, .sack]
        (bs.map (fun _ => Turn.go .ack) ++ ts) g.phase) hits.tail (by omega) ha rfl
    convert hfirst.trans hrest using 1
    · simp only [List.length_cons]; omega
    · simp only [List.length_cons]; omega
    · simp [Stage.after, List.getLast?_cons]

/-! ### The bytes read -/

/-- The bytes `bs` kept from `buf[m]` on. -/
def storeFrom (m : Nat) (bs : List Byte) (buf : Bytes8) : Bytes8 :=
  match bs with
  | [] => buf
  | b :: bs => storeFrom (m + 1) bs (setByte buf m b)

/-- The accesses of `READ`s of the byte `v` that waits and of the bytes `vs` after it, ACK for each but the last, `CTRL`
reading `c` in the first (41_bus_primitives.md R182). -/
def readsAccesses (c : Word) (v : Byte) (vs : List Byte) : List Access :=
  match vs with
  | [] => [.rd .intflag 0x03#32, .rd .ctrl c, .wr .ctrl 0x00040006#32, .rd .data (v.setWidth 32)]
  | v' :: vs =>
    [.rd .intflag 0x03#32, .rd .ctrl c, .wr .ctrl 0x00000006#32, .rd .data (v.setWidth 32)] ++
      readsAccesses 0x00000006#32 v' vs

/-- What they put on the wire. -/
def readsWire (vs : List Byte) : List Wire :=
  match vs with
  | [] => [.mnack]
  | v :: vs => .mack :: .rx v :: readsWire vs

/-- The stage after `READ` has taken the byte that waits, into `buf[m]`. -/
def Stage.took (r : Bool) (m : Nat) (g : Stage) : Stage :=
  (g.after (taken r g.eng)
    [.rd .intflag 0x03#32, .rd .ctrl (ctrlBits g.eng.ctrl), .wr .ctrl (if r then 0x00000006#32 else 0x00040006#32),
      .rd .data (g.eng.data.setWidth 32)] [if r then .mack else .mnack] g.turns g.phase).keeping (.slot m)

/-- The engine has received the byte `v`, the turns `ts` left. -/
def Stage.receiving (v : Byte) (ts : List Turn) (g : Stage) : Stage :=
  { g with eng := received v g.eng, wire := g.wire ++ [.rx v], turns := ts }

/-- The stage after `READ`s of the byte that waits, into `buf[m]`, and of the bytes `vs` after it. -/
def Stage.tookAll (m : Nat) (vs : List Byte) (ts : List Turn) (g : Stage) : Stage :=
  { g.after (taken false { g.eng with data := vs.getLastD g.eng.data })
      (readsAccesses (ctrlBits g.eng.ctrl) g.eng.data vs) (readsWire vs) ts g.phase with
    buf := storeFrom m (g.eng.data :: vs) g.buf }

theorem ctrlBits_taken_true {e : Engine} (hm : ModeSet e) : ctrlBits (taken true e).ctrl = 0x00000006#32 := by
  obtain ⟨he, hma, _⟩ := hm
  simp [taken, ctrlBits, he, hma, bitIf, maskEnable, maskMaster]

theorem byteWaits_received {v : Byte} {e : Engine} (h : ByteWaits e) : ByteWaits (received v (taken true e)) := by
  obtain ⟨⟨he, hma, _⟩, _, _, hf⟩ := h
  exact ⟨⟨he, hma, nofun⟩, rfl, rfl, by simp [received, taken, hf]⟩

theorem Stage.took_last (m : Nat) (g : Stage) : g.took false m = g.tookAll m [] g.turns := rfl

theorem Stage.took_tookAll {m : Nat} {v : Byte} {vs : List Byte} {ts' : List Turn} (hm : ModeSet g.eng) :
    ((g.took true m).receiving v ts').tookAll (m + 1) vs ts = g.tookAll m (v :: vs) ts := by
  have hc : ctrlBits ((g.took true m).receiving v ts').eng.ctrl = 0x00000006#32 := ctrlBits_taken_true hm
  rw [Stage.tookAll, hc]
  simp [Stage.took, Stage.receiving, Stage.tookAll, Stage.after, Stage.keeping, readsAccesses, readsWire, storeFrom,
    List.getLast?_cons, taken, received]

/-- One `READ` of the byte that waits. -/
theorem goes_read {k n m : Nat} {r : Bool} (hit : (operationOf i).script[k]? = some (readItem n m))
    (hr : decide (m + 1 < n) = r) (hw : ByteWaits g.eng) (hnext : k + 1 < (operationOf i).script.length) :
    Goes i 10 k g (k + 1) (g.took r m) := by
  subst hr
  exact (passes_read (decide (m + 1 < n)) hw).goes (it := readItem n m) hit nofun (fun _ _ => ⟨_, rfl⟩) hnext

/-- The `READ`s from the item `b + m` on, each byte answered at once, the first one waiting. -/
theorem goes_reads {b n : Nat} (hitems : ∀ m < n, (operationOf i).script[b + m]? = some (readItem n m))
    (hlen : b + n < (operationOf i).script.length) : ∀ {vs : List Byte} {m : Nat} {g : Stage},
    m + vs.length + 1 = n → ByteWaits g.eng → g.turns = vs.map (fun v => Turn.go (.byte v)) ++ ts →
    Goes i (11 * (vs.length + 1)) (b + m) g (b + n) (g.tookAll m vs ts) := by
  intro vs
  induction vs with
  | nil =>
    rintro m g rfl hw rfl
    rw [← Stage.took_last]
    exact (goes_read (hitems m (Nat.lt_succ_self m)) (decide_eq_false (lt_irrefl _)) hw hlen).mono (by decide)
  | cons v vs ih =>
    intro m g hn hw ht
    simp only [List.length_cons] at hn ⊢
    have hread := goes_read (g := g) (hitems m (by omega)) (decide_eq_true (by omega)) hw (by omega)
    have hbyte := goes_of_complete (g := g.took true m) i (b + m + 1) (complete_byte_rxPh v rfl) ht
    have hrest := ih (g := (g.took true m).receiving v _) (m := m + 1) (by omega) (byteWaits_received hw) rfl
    rw [Stage.took_tookAll hw.1] at hrest
    exact ((hread.trans hbyte).trans hrest).mono (by omega)

/-! ### The transaction -/

/-- The stage after the command: `START` to write and the command bytes `cmd`, the turns `ts` left. -/
def Stage.commanded (cmd : List Byte) (ts : List Turn) (g : Stage) : Stage :=
  g.after { acked sensorAddr .write g.eng with data := cmd.getLastD g.eng.data }
    (startAccesses 0x80#8 g.eng ++ .rd .intflag 0x01#32 :: .rd .status 0x0#32 ::
      cmd.flatMap fun b => [.wr .data (b.setWidth 32), .rd .intflag 0x01#32])
    (startWire 0x80#8 g.eng ++ .sack :: cmd.flatMap fun b => [.tx b, .sack]) ts .dataW

/-- The stage after `START` to read, the byte `v` there and the turns `ts` left. -/
def Stage.answered (v : Byte) (ts : List Turn) (g : Stage) : Stage :=
  g.after (received v (acked sensorAddr .read g.eng))
    (startAccesses 0x81#8 g.eng ++ [.rd .intflag 0x03#32, .rd .status 0x0#32])
    (startWire 0x81#8 g.eng ++ [.sack, .rx v]) ts .dataR

theorem modeSet_commanded {cmd : List Byte} (hm : ModeSet g.eng) : ModeSet (g.commanded cmd ts).eng :=
  ⟨hm.1, hm.2.1, nofun⟩

theorem byteWaits_answered {v : Byte} (hm : ModeSet g.eng) : ByteWaits (g.answered v ts).eng :=
  ⟨⟨hm.1, hm.2.1, nofun⟩, rfl, rfl, rfl⟩

theorem goes_command {k : Nat} {cmd : List Byte} (hits : Sits i k (startWriteItem :: cmd.map writeItem))
    (hlen : k + 1 + cmd.length < (operationOf i).script.length) (hm : ModeSet g.eng) (hi : g.eng.inflight = .none)
    (ht : g.turns = .go .ack :: (cmd.map (fun _ => Turn.go .ack) ++ ts)) :
    Goes i (10 * (cmd.length + 1)) k g (k + 1 + cmd.length) (g.commanded cmd ts) := by
  have hstart := (passes_start_write sensorAddr hm hi ht).goes (it := startWriteItem) hits.head nofun nofun (by omega)
  have hwrites := hstart.trans (goes_writes hits.tail hlen (acknowledged_acked hm) rfl)
  convert hwrites.mono (b' := 10 * (cmd.length + 1)) (by omega) using 1
  simp [Stage.commanded, Stage.after, Stage.keeping, startWriteItem, acked, opened]

theorem goes_answer {k : Nat} {v : Byte} (hit : (operationOf i).script[k]? = some startReadItem)
    (hlen : k + 1 < (operationOf i).script.length) (hm : ModeSet g.eng) (hi : g.eng.inflight = .none)
    (ht : g.turns = .go .ack :: .go (.byte v) :: ts) : Goes i 10 k g (k + 1) (g.answered v ts) :=
  (passes_start_read sensorAddr hm hi ht).goes (it := startReadItem) hit nofun nofun hlen

/-- The items of a script that reads. -/
theorem xfer_reads (cmd : List Byte) (n : Nat) (kp : Keep) :
    xfer cmd (n + 1) kp = (startWriteItem :: cmd.map writeItem) ++
      (startReadItem :: (List.range (n + 1)).map (readItem (n + 1)) ++ [stopItem kp]) := by
  simp only [xfer, Nat.succ_ne_zero, if_false, List.append_assoc]
  rfl

/-- The stage before the `STOP` of a transaction that has sent `cmd` and received `v` and `vs`. -/
def Stage.transacted (cmd : List Byte) (v : Byte) (vs : List Byte) (ts : List Turn) (g : Stage) : Stage :=
  ((g.commanded cmd (.go .ack :: .go (.byte v) :: (vs.map (fun v => Turn.go (.byte v)) ++ ts))).answered v
    (vs.map (fun v => Turn.go (.byte v)) ++ ts)).tookAll 0 vs ts

/-- Where the `STOP` of a transaction that reads stands. -/
theorem item_stop {k : Nat} {cmd vs : List Byte} {kp : Keep} (hits : Sits i k (xfer cmd (vs.length + 1) kp)) :
    (operationOf i).script[k + cmd.length + vs.length + 3]? = some (stopItem kp) := by
  rw [xfer_reads] at hits
  convert hits.right.right.head using 2
  simp
  omega

/-- A transaction that reads, up to its `STOP`. -/
theorem goes_transaction {k : Nat} {cmd vs : List Byte} {v : Byte} {kp : Keep}
    (hits : Sits i k (xfer cmd (vs.length + 1) kp)) (hm : ModeSet g.eng) (hi : g.eng.inflight = .none)
    (ht : g.turns = .go .ack :: (cmd.map (fun _ => Turn.go .ack) ++
      .go .ack :: .go (.byte v) :: (vs.map (fun v => Turn.go (.byte v)) ++ ts))) :
    Goes i (10 * (cmd.length + 2) + 11 * (vs.length + 1)) k g (k + cmd.length + vs.length + 3)
      (g.transacted cmd v vs ts) := by
  have hlen := Sits.lt (item_stop hits)
  rw [xfer_reads] at hits
  have hreads : Sits i (k + 1 + cmd.length)
      (startReadItem :: (List.range (vs.length + 1)).map (readItem (vs.length + 1))) := by
    convert hits.right.left using 1
    simp
    omega
  have hread := (goes_command hits.left (by omega) hm hi ht).trans
    (goes_answer hreads.head (by omega) (modeSet_commanded hm) rfl rfl)
  have hbytes := hread.trans (goes_reads (n := vs.length + 1) (m := 0) (fun m hmn => hreads.tail m _ (by simp [hmn]))
    (by omega) (by omega) (byteWaits_answered (modeSet_commanded hm)) rfl)
  rw [show k + cmd.length + vs.length + 3 = k + 1 + cmd.length + 1 + (vs.length + 1) by omega]
  exact hbytes.mono (by omega)

end
end Sys2Proof.Machine
end

section
/-! The sensor operations to their end, every phase acknowledged: O28, O29, O30 (42_sensor_ops.md R206 to R212). -/

namespace Sys2Proof.Machine

section
variable {g : Stage} {cmd vs : List Byte} {v : Byte} {ts : List Turn}

/-! ### The `STOP` of a transaction -/

theorem reactStop_commanded : reactStop (g.commanded cmd ts).eng =
    { eng := stoppedAfter g.eng g.eng.ctrl.ackact (cmd.getLastD g.eng.data) 0x80#8 .write, wire := [.p] } := rfl

theorem reactStop_transacted : reactStop (g.transacted cmd v vs ts).eng =
    { eng := stoppedAfter g.eng true (vs.getLastD v) 0x81#8 .read, wire := [.p] } := rfl

theorem modeSet_transacted (hm : ModeSet g.eng) : ModeSet (g.transacted cmd v vs ts).eng := ⟨hm.1, hm.2.1, nofun⟩

theorem ctrlBits_transacted (hm : ModeSet g.eng) : ctrlBits (g.transacted cmd v vs ts).eng.ctrl = 0x00040006#32 := by
  obtain ⟨he, hma, _⟩ := hm
  show ctrlBits { g.eng.ctrl with ackact := true } = 0x00040006#32
  simp only [ctrlBits, he, hma]
  rfl

theorem ctrlBits_commanded : ctrlBits (g.commanded cmd ts).eng.ctrl = ctrlBits g.eng.ctrl := rfl

theorem stopWord_nack : stopWord 0x00040006#32 = 0x00070006#32 := by decide

theorem acc_commanded : (g.commanded cmd ts).acc = g.acc ++ (startAccesses 0x80#8 g.eng ++ .rd .intflag 0x01#32 ::
    .rd .status 0x0#32 :: cmd.flatMap fun b => [.wr .data (b.setWidth 32), .rd .intflag 0x01#32]) := rfl

theorem wire_commanded : (g.commanded cmd ts).wire =
    g.wire ++ (startWire 0x80#8 g.eng ++ .sack :: cmd.flatMap fun b => [.tx b, .sack]) := rfl

/-- The accesses and the wire events of the `START` to read that follows a command. -/
theorem startAccesses_commanded (a8 : Byte) : startAccesses a8 (g.commanded cmd ts).eng =
    [.rd .ctrl (ctrlBits g.eng.ctrl), .rd .intflag 0x01#32, .wr .addr (a8.setWidth 32)] := by
  simp [startAccesses, Stage.commanded, Stage.after, acked, opened, intflagBits, bitIf, maskMb]

theorem startWire_commanded (a8 : Byte) : startWire a8 (g.commanded cmd ts).eng = [.sr, .address a8] := rfl

theorem acc_transacted : (g.transacted cmd v vs ts).acc = (g.commanded cmd ts).acc ++
    [.rd .ctrl (ctrlBits g.eng.ctrl), .rd .intflag 0x01#32, .wr .addr 0x81#32, .rd .intflag 0x03#32,
      .rd .status 0x0#32] ++ readsAccesses (ctrlBits g.eng.ctrl) v vs := by
  rw [Stage.transacted, Stage.tookAll, Stage.answered, startAccesses_commanded]
  rfl

theorem wire_transacted : (g.transacted cmd v vs ts).wire =
    (g.commanded cmd ts).wire ++ [.sr, .address 0x81#8, .sack, .rx v] ++ readsWire vs := rfl

/-! ### The operations -/

/-- Settles O28: the command, then `STOP`. -/
theorem sensorResetCompletes : Obligations.SensorResetCompletes := by
  intro s rest hs ht
  have hm := modeSet_of_ready hs
  have hits : Sits .sReset 0 (startWriteItem :: [0xFE#8].map writeItem) :=
    Sits.left (its' := [stopItem .nothing]) sits_script
  have hcommand := goes_command (g := .of s) (ts := rest) hits (by decide) hm hs.2.2.2 ht
  obtain ⟨w, hexec⟩ := exec_of_goes_ok (it := stopItem .nothing) rfl hs.1 hcommand
    (passes_stop (modeSet_commanded hm) rfl) rfl rfl rfl (by decide)
  refine ⟨_, hexec, endsWith_off rfl ?_ ?_ rfl⟩
  · simp [acc_commanded, ctrlBits_commanded]
  · simp [reactStop_commanded, wire_commanded]

theorem measurementCompletes_of {i : Instr} {c : Byte} {conv : Half → Word} (hsens : isSensor i = true)
    (hop : operationOf i = measurement c conv) : measurementCompletes i c conv := by
  intro s h l rest hs ht
  have hm := modeSet_of_ready hs
  have hscript : (operationOf i).script = xfer [c] 2 .nothing := congrArg Operation.script hop
  have hits : Sits i 0 (xfer [c] 2 .nothing) := hscript ▸ sits_script
  have hstop := item_stop (vs := [l]) hits
  have hgoes := goes_transaction (g := .of s) (ts := rest) (vs := [l]) (v := h) hits hm hs.2.2.2 ht
  have hlen : (operationOf i).script.length = 6 := congrArg List.length hscript
  obtain ⟨w, hexec⟩ := exec_of_goes_ok hsens hs.1 hgoes (passes_stop (modeSet_transacted hm) rfl) hstop rfl
    hlen.symm (hlen ▸ Nat.le_of_ble_eq_true rfl)
  refine ⟨_, hexec, ?_⟩
  rw [hop]
  refine endsWith_off rfl ?_ ?_ rfl
  · simp [ctrlBits_transacted (g := .of s) hm, acc_transacted, acc_commanded, readsAccesses, stopWord_nack]
  · simp [reactStop_transacted, wire_transacted, wire_commanded, readsWire]

/-- Settles O29: a measurement is one transaction, whatever its command byte and its conversion. -/
theorem measurementsComplete : Obligations.MeasurementsComplete :=
  ⟨measurementCompletes_of rfl rfl, measurementCompletes_of rfl rfl, measurementCompletes_of rfl rfl⟩

/-- The stage after the `STOP` that ends part A of the serial number. -/
def Stage.partADone (g : Stage) : Stage :=
  (g.after (reactStop g.eng).eng [.rd .ctrl (ctrlBits g.eng.ctrl), .wr .ctrl (stopWord (ctrlBits g.eng.ctrl))]
    (reactStop g.eng).wire g.turns .idle).keeping .partA

theorem goes_stop_partA {i : Instr} {k : Nat} {g : Stage} (hit : (operationOf i).script[k]? = some (stopItem .partA))
    (hlen : k + 1 < (operationOf i).script.length) (hm : ModeSet g.eng) (hi : g.eng.inflight = .none) :
    Goes i 10 k g (k + 1) g.partADone :=
  (passes_stop hm hi).goes (it := stopItem .partA) hit nofun nofun hlen

section
variable {g : Stage} {cmd vs : List Byte} {v : Byte} {ts : List Turn}

theorem modeSet_partADone (hm : ModeSet g.eng) : ModeSet (g.transacted cmd v vs ts).partADone.eng :=
  ⟨hm.1, hm.2.1, nofun⟩

theorem wire_partADone :
    (g.transacted cmd v vs ts).partADone.wire = (g.transacted cmd v vs ts).wire ++ [.p] := rfl

/-- Part B begins with `S`, the bus not owned. -/
theorem startWire_partADone (a8 : Byte) :
    startWire a8 (g.transacted cmd v vs ts).partADone.eng = [.s, .address a8] := rfl

end

/-- Settles O30: two transactions, the bytes kept of the first put aside at its `STOP`. -/
theorem serialNumberReadCompletes : Obligations.SerialNumberReadCompletes := by
  intro s a0 a1 a2 a3 a4 a5 a6 a7 b0 b1 b2 b3 b4 b5 rest hs ht
  have hm := modeSet_of_ready hs
  have hits : Sits .sReadSn 0 (xfer [0xFA#8, 0x0F#8] 8 .partA ++ xfer [0xFC#8, 0xC9#8] 6 .nothing) := sits_script
  have hstopA := item_stop (vs := [a1, a2, a3, a4, a5, a6, a7]) hits.left
  have hstopB := item_stop (vs := [b1, b2, b3, b4, b5]) hits.right
  have hpartA := goes_transaction (g := .of s) (vs := [a1, a2, a3, a4, a5, a6, a7]) (v := a0) hits.left hm hs.2.2.2 ht
  have hA := hpartA.trans (goes_stop_partA hstopA (Nat.lt_of_sub_eq_succ rfl) (modeSet_transacted hm) rfl)
  have hB := hA.trans (goes_transaction (ts := rest) (vs := [b1, b2, b3, b4, b5]) (v := b0) hits.right
    (modeSet_partADone hm) rfl rfl)
  obtain ⟨w, hexec⟩ := exec_of_goes_ok rfl hs.1 hB (passes_stop (modeSet_transacted (modeSet_partADone hm)) rfl) hstopB
    rfl rfl (Nat.le_of_ble_eq_true rfl)
  refine ⟨_, hexec, rfl, rfl, rfl, rfl, ?bytes, rfl, ?eng, rfl, ?wire⟩
  case bytes => rfl
  case eng => exact congrArg Reaction.eng reactStop_transacted
  case wire =>
    simp [Stage.off, Spot.off, reactStop_transacted, wire_transacted, wire_commanded, wire_partADone,
      startWire_partADone, readsWire]

end
end Sys2Proof.Machine
end

section
/-! O32, its second half: schedules that fail a step of a sensor script, from a ready state to the operation's end
(42_sensor_ops.md R204). -/

namespace Sys2Proof.Machine

/-- A script begins with a transaction to write: its `START`, and its first command byte. -/
theorem sensor_first_items {i : Instr} (hs : isSensor i = true) :
    ∃ c, Sits i 0 [startWriteItem, writeItem c] ∧ 3 ≤ (operationOf i).script.length := by
  have hscript : ∃ c its, (operationOf i).script = startWriteItem :: writeItem c :: its ∧ its ≠ [] := by
    cases i with
    | sReset | sReadSn | sReadRh | sReadT | sReadTl => exact ⟨_, _, rfl, nofun⟩
    | init | start | write | read | stop | convRh | convT => cases hs
  obtain ⟨c, its, h, hne⟩ := hscript
  have hits : Sits i 0 ([startWriteItem, writeItem c] ++ its) := fun m it hm => by
    rwa [Nat.zero_add, h]
  have hlen := List.length_pos_iff.mpr hne
  exact ⟨c, hits.left, by rw [h, List.length_cons, List.length_cons]; omega⟩

section
variable {s : State} {i : Instr} {rest : List Turn}

/-- The first address refused. -/
theorem exec_first_address_refused (hi : isSensor i = true) (hs : Ready s) (ht : s.feed.turns = .go .nack :: rest) :
    ∃ t, exec i s = .next t ∧ t.busy = false ∧ t.res = reported s.res 0xFB#8 0xFC#8 ∧ t.eng.owned = false ∧
      t.wire = s.wire ++ startWire 0x80#8 s.eng ++ [.snack, .p] := by
  obtain ⟨c, hits, hlen⟩ := sensor_first_items hi
  obtain ⟨acc, hp⟩ := passes_start_refused (g := .of s) sensorAddr .write (modeSet_of_ready hs) hs.2.2.2 ht
  obtain ⟨w, hexec⟩ := exec_of_goes_failed (it := startWriteItem) hi hs.1 (goes_refl i 0 _) hp hits.head nofun
    (Nat.zero_le _)
  exact ⟨_, hexec, rfl, rfl, rfl, by simp [Stage.off, Spot.off]⟩

/-- The first command byte met by lost arbitration. -/
theorem exec_command_lost (hi : isSensor i = true) (hs : Ready s)
    (ht : s.feed.turns = .go .ack :: .go .arblost :: rest) :
    ∃ t, exec i s = .next t ∧ t.busy = false ∧ t.res = reported s.res 0xF9#8 0xFC#8 ∧ t.eng.intflag.error = true ∧
      ∃ c, t.wire = s.wire ++ startWire 0x80#8 s.eng ++ [.sack, .tx c] := by
  obtain ⟨c, hits, hlen⟩ := sensor_first_items hi
  have hm := modeSet_of_ready hs
  have hstart := goes_command (g := .of s) (cmd := []) (Sits.left (its := [startWriteItem]) hits)
    (by simp; omega) hm hs.2.2.2 ht
  obtain ⟨hm', hw, -, -⟩ := acknowledged_acked (a := sensorAddr) hm
  have hp := passes_write (g := (Stage.of s).commanded [] (.go .arblost :: rest)) (o := .arblost) c hm' hw rfl rfl rfl
    (.inr rfl)
  obtain ⟨w, hexec⟩ := exec_of_goes_failed (it := writeItem c) hi hs.1 hstart hp hits.tail.head nofun (by simp; omega)
  exact ⟨_, hexec, rfl, rfl, rfl, c, by simp [Stage.off, Spot.off, wire_commanded]⟩

end

section
variable {s : State} {i : Instr} {c : Byte} {conv : Half → Word} {rest : List Turn}

/-- The items of a measurement before its last `READ`. -/
theorem measurement_items (hop : operationOf i = measurement c conv) :
    Sits i 0 [startWriteItem, writeItem c] ∧ Sits i 2 [startReadItem, readItem 2 0] ∧
      (operationOf i).script.length = 6 := by
  have hscript : (operationOf i).script = [startWriteItem, writeItem c] ++ ([startReadItem, readItem 2 0] ++
    [readItem 2 1, stopItem .nothing]) := congrArg Operation.script hop
  have hits := hscript ▸ sits_script (i := i)
  exact ⟨hits.left, hits.right.left, congrArg List.length hscript⟩

/-- The read address of a measurement refused. -/
theorem exec_read_address_refused (hsens : isSensor i = true) (hop : operationOf i = measurement c conv) (hs : Ready s)
    (ht : s.feed.turns = .go .ack :: .go .ack :: .go .nack :: rest) :
    ∃ t c, exec i s = .next t ∧ t.busy = false ∧ t.res = reported s.res 0xFA#8 0xFC#8 ∧ t.eng.owned = false ∧
      t.wire = s.wire ++ startWire 0x80#8 s.eng ++ [.sack, .tx c, .sack, .sr, .address 0x81#8, .snack, .p] := by
  have hm := modeSet_of_ready hs
  obtain ⟨hwrite, hread, hlen⟩ := measurement_items hop
  have hcommand := goes_command (g := .of s) (cmd := [c]) hwrite (by simp [hlen]) hm hs.2.2.2 ht
  obtain ⟨acc, hp⟩ := passes_start_refused (g := (Stage.of s).commanded [c] (.go .nack :: rest)) sensorAddr .read
    (modeSet_commanded hm) rfl rfl
  obtain ⟨w, hexec⟩ := exec_of_goes_failed (it := startReadItem) hsens hs.1 hcommand hp hread.head nofun
    (by simp [hlen])
  exact ⟨_, c, hexec, rfl, rfl, rfl, by simp [Stage.off, Spot.off, wire_commanded, startWire_commanded]⟩

/-- The first byte of a measurement met by a bus error. -/
theorem exec_first_byte_lost (hsens : isSensor i = true) (hop : operationOf i = measurement c conv) (hs : Ready s)
    (ht : s.feed.turns = .go .ack :: .go .ack :: .go .ack :: .hold :: .hold :: .go .buserr :: rest) :
    ∃ t c, exec i s = .next t ∧ t.busy = false ∧ t.res = reported s.res 0xF9#8 0xFC#8 ∧ t.eng.intflag.error = true ∧
      t.wire = s.wire ++ startWire 0x80#8 s.eng ++ [.sack, .tx c, .sack, .sr, .address 0x81#8, .sack] := by
  have hm := modeSet_of_ready hs
  obtain ⟨hwrite, hread, hlen⟩ := measurement_items hop
  have hcommand := goes_command (g := .of s) (cmd := [c]) hwrite (by simp [hlen]) hm hs.2.2.2 ht
  have hstart := hcommand.trans ((passes_start_read_held sensorAddr (modeSet_commanded hm) rfl rfl).goes
    (it := startReadItem) hread.head nofun nofun (by simp [hlen]))
  obtain ⟨w, hexec⟩ := exec_of_goes_failed (it := readItem 2 0) hsens hs.1 hstart (passes_read_lost true rfl rfl)
    hread.tail.head nofun (by simp [hlen])
  refine ⟨_, c, hexec, rfl, rfl, rfl, ?_⟩
  simp [Stage.off, Spot.off, Stage.keeping, startReadItem, wire_commanded, startWire_commanded]

end

/-- Settles O32: the step at which a script fails, and four schedules that come to one. -/
theorem failingStepNamesTheSensorError : Obligations.FailingStepNamesTheSensorError := by
  refine ⟨sensor_failingStepsEnd, fun s i rest hi hs =>
    ⟨exec_first_address_refused hi hs, exec_command_lost hi hs, fun hmeas => ?_⟩⟩
  obtain ⟨c, conv, hop⟩ : ∃ c conv, operationOf i = measurement c conv := by
    rcases hmeas with rfl | rfl | rfl
    · exact ⟨_, _, rfl⟩
    · exact ⟨_, _, rfl⟩
    · exact ⟨_, _, rfl⟩
  exact ⟨exec_read_address_refused hi hop hs, exec_first_byte_lost hi hop hs⟩

end Sys2Proof.Machine
end

section
/-! The fixed-point converter, and O36 and O37 (43_converter.md R231 to R237). -/

namespace Sys2Proof.Machine

/-- No conversion wraps: neither the quotient nor the offset is above 65536. -/
theorem convert_toInt {mul offset : Nat} (hm : mul ≤ 65536) (ho : offset ≤ 65536) (code : Half) :
    (convert mul offset code).toInt = mul * (code.toNat : Int) / 65536 - offset := by
  have hcode : code.toNat < 65536 := code.isLt
  have hprod := Nat.mul_le_mul_right code.toNat hm
  have hmod : (convert mul offset code).toInt = (mul * (code.toNat : Int) / 65536 - offset).bmod (2 ^ 32) := by
    simp [convert, BitVec.toInt_sub, BitVec.toInt_ofNat']
  rw [hmod]
  exact Int.bmod_eq_of_le (by omega) (by omega)

theorem convRh_toInt (code : Half) : (convRh code).toInt = 12500 * (code.toNat : Int) / 65536 - 600 :=
  convert_toInt (by decide) (by decide) code

theorem convT_toInt (code : Half) : (convT code).toInt = 17572 * (code.toNat : Int) / 65536 - 4685 :=
  convert_toInt (by decide) (by decide) code

/-- The next code's product is larger by the divisor at most, so its quotient by one at most. -/
theorem convert_toInt_succ {mul offset : Nat} (hm : mul ≤ 65536) (ho : offset ≤ 65536) {c d : Half}
    (h : d.toNat = c.toNat + 1) :
    (convert mul offset d).toInt = (convert mul offset c).toInt ∨
      (convert mul offset d).toInt = (convert mul offset c).toInt + 1 := by
  have hstep : (mul * d.toNat : Int) = mul * c.toNat + mul := by 
    rw [h, Nat.cast_succ, mul_add_one]
  rw [convert_toInt hm ho, convert_toInt hm ho, hstep]
  omega

/-- Settles O36: both multipliers are at most the divisor. -/
theorem conversionsAreMonotone : Obligations.ConversionsAreMonotone :=
  ⟨fun _ _ h => ⟨convert_toInt_succ (by decide) (by decide) h, convert_toInt_succ (by decide) (by decide) h⟩,
    by decide⟩

/-- Settles O37: the bounds are those of the integer formula over the codes of sixteen bits. -/
theorem conversionRanges : Obligations.ConversionRanges := by
  refine ⟨fun c => ?_, fun c => ?_, by decide⟩
  · have hc : c.toNat < 65536 := c.isLt
    rw [convRh_toInt]
    omega
  · have hc : c.toNat < 65536 := c.isLt
    rw [convT_toInt]
    omega

end Sys2Proof.Machine
end

section
/-! A conversion behind the engine's own completions, and O35 (43_converter.md R231, R232; 40_bus_engine.md R130). -/

namespace Sys2Proof.Machine

/-! ### The command words -/

/-- The opcode and the zero field stand above the operand. -/
theorem wordOf_zero_operand (op : Byte) (v : Half) :
    wordOf { opcode := op, zero := 0#8, operand := v } = (op ++ 0#8 ++ 0#16) ||| v.setWidth 32 := by
  have hv : v.setWidth 32 = (0#16 ++ v : Word) := BitVec.setWidth_eq_append (by decide)
  rw [hv, BitVec.or_append, BitVec.or_zero, BitVec.zero_or, wordOf]

/-! ### The completions an engine can still make by itself -/

theorem inflight_of_completionsLeft {e : Engine} (h : completionsLeft e = 0) : e.inflight = .none := by
  unfold completionsLeft at h
  split at h
  · assumption
  all_goals cases h

theorem engineMove_completionsLeft {p : Params} {s t : State} (h : engineMove p s = .completed t) :
    completionsLeft t.eng < completionsLeft s.eng := by
  rcases engineMove_cases p s with ⟨f, e⟩ | ⟨f, o, x, hc, e⟩
  · cases e.symm.trans h
  · cases e.symm.trans h
    exact completionsLeft_of_complete hc

theorem engineMeanwhile_of_holds {n : Nat} {s t : State} (h : engineMove Config.params s = .holds t) :
    engineMeanwhile (n + 1) s = t := by
  simp only [engineMeanwhile, h]

theorem engineMeanwhile_of_completed {n : Nat} {s t : State} (h : engineMove Config.params s = .completed t) :
    engineMeanwhile (n + 1) s = engineMeanwhile n t := by
  simp only [engineMeanwhile, h]

/-- The engine's completions alone change the engine, add to the wire trace and use turns up. -/
theorem engineMeanwhile_frame : ∀ (n : Nat) (s : State),
    ∃ e ws f, engineMeanwhile n s = ((s.setFeed f).setEng e).pushWire ws := by
  intro n
  induction n with
  | zero => exact fun s => ⟨s.eng, [], s.feed, (State.pushWire_nil s).symm⟩
  | succ n ih =>
    intro s
    rcases engineMove_cases Config.params s with ⟨f, h⟩ | ⟨f, o, x, _, h⟩
    · refine ⟨s.eng, [], f, ?_⟩
      rw [engineMeanwhile_of_holds h, State.pushWire_nil]
      rfl
    · obtain ⟨e, ws, f', ht⟩ := ih (((s.setFeed f).setEng x.eng).pushWire x.wire)
      refine ⟨e, x.wire ++ ws, f', ?_⟩
      rw [engineMeanwhile_of_completed h, ht]
      simp [State.pushWire, State.setEng, State.setFeed]

/-! ### A conversion's steps -/

/-- The conversion `i` taken up, its one step still to come. -/
def State.converting (i : Instr) (s : State) : State :=
  (s.setBusy true).setSeq (some { op := i, item := 0, line := .convert })

/-- A conversion ended. -/
def State.converted (conv : Half → Word) (code : Half) (s : State) : State :=
  finish .ok .ok (s.setRes (reading conv code s.res))

section
variable {p : Params} {i : Instr} {conv : Half → Word} {code : Half} {s t : State}

theorem beginOperation_conversion : beginOperation i (conversion conv code) s = s.converting i := rfl

/-- The engine's moment does not look at the busy bit or the sequencer's place, and leaves them. -/
theorem engineMove_converting (p : Params) (i : Instr) (s : State) :
    engineMove p (s.converting i) = (engineMove p s).map (State.converting i) := by
  by_cases hi : s.eng.inflight = .none
  · have hi' : (s.converting i).eng.inflight = .none := hi
    rw [engineMove_quiet hi, engineMove_quiet hi']
    rfl
  · have hi' : (s.converting i).eng.inflight ≠ .none := hi
    rw [engineMove, engineMove, if_neg hi, if_neg hi', show (s.converting i).feed = s.feed from rfl,
      show (s.converting i).eng = s.eng from rfl]
    obtain ⟨_ | o, f⟩ := nextTurn s.feed
    · rfl
    · dsimp only
      cases complete p o s.eng <;> rfl

theorem blockStep_converting_completed (h : engineMove p s = .completed t) :
    blockStep p (conversion conv code) { op := i, item := 0, line := .convert } (s.converting i) =
      .moved (t.converting i) :=
  blockStep_completed (by rw [engineMove_converting, h]; rfl)

theorem blockStep_converting_holds (h : engineMove p s = .holds t) :
    blockStep p (conversion conv code) { op := i, item := 0, line := .convert } (s.converting i) =
      .ended (t.converted conv code) :=
  (blockStep_done (st := .ok) (t := t.converting i) (by rw [engineMove_converting, h]; rfl) rfl).trans rfl

/-- With room for the engine's completions and one step more, a conversion ends where they alone lead. -/
theorem runSteps_converting (m : Nat) : ∀ {n : Nat} {s : State}, completionsLeft s.eng ≤ n →
    runSteps Config.params (conversion conv code) (m + n + 1) (s.converting i) =
      .next ((engineMeanwhile n s).converted conv code) := by
  intro n
  induction n with
  | zero =>
    intro s hn
    have hi := inflight_of_completionsLeft (Nat.le_zero.mp hn)
    rw [engineMeanwhile_of_none hi]
    exact runSteps_ended rfl (blockStep_converting_holds (engineMove_quiet hi))
  | succ n ih =>
    intro s hn
    cases hm : engineMove Config.params s with
    | completed t =>
      have ht := engineMove_completionsLeft hm
      rw [engineMeanwhile_of_completed hm, ← ih (by omega)]
      exact runSteps_moved rfl (blockStep_converting_completed hm)
    | holds t =>
      rw [engineMeanwhile_of_holds hm]
      exact runSteps_ended rfl (blockStep_converting_holds hm)

theorem exec_conversion (hop : operationOf i = conversion conv code) (hq : s.seq = none)
    (hl : legalIn i s.phase = true) : exec i s = .next ((engineMeanwhile 2 s).converted conv code) := by
  obtain ⟨m, hm⟩ := Nat.exists_eq_add_of_le' ((by decide : 3 ≤ 27).trans (stepBound_pos Config.params (operationOf i)))
  rw [exec_of_begin hq hl, runFrom, hm, hop, beginOperation_conversion]
  exact runSteps_converting m (completionsLeft_le _)

end

/-! ### O35 -/

/-- What O35 says of the run of one conversion. -/
def ConversionCompletes (i : Instr) (conv : Half → Word) (code : Half) (s : State) : Prop :=
  ∃ e ws f,
    exec i s =
      .next { s with
        busy := false
        res := { reported s.res 0x00#8 0x00#8 with raw := code, value := conv code }
        eng := e, wire := s.wire ++ ws, feed := f } ∧
    engineMeanwhile 2 s = { s with eng := e, wire := s.wire ++ ws, feed := f } ∧
    (s.eng.inflight = .none → e = s.eng ∧ ws = [] ∧ f = s.feed) ∧
    (s.feed.turns.head? = some .hold → e = s.eng ∧ ws = [])

theorem conversionCompletes {i : Instr} {conv : Half → Word} {code : Half} {s : State}
    (hop : operationOf i = conversion conv code) (hq : s.seq = none) (hl : legalIn i s.phase = true) :
    ConversionCompletes i conv code s := by
  obtain ⟨e, ws, f, hmean⟩ := engineMeanwhile_frame 2 s
  have same : ∀ {g}, engineMeanwhile 2 s = s.setFeed g → e = s.eng ∧ ws = [] ∧ f = g := fun hg => by
    have h := hmean.symm.trans hg
    exact ⟨congrArg State.eng h, List.append_right_eq_self.mp (congrArg State.wire h), congrArg State.feed h⟩
  refine ⟨e, ws, f, ?run, hmean, fun hi => same (engineMeanwhile_of_none hi), fun hh => ?hold⟩
  case run =>
    have hs : s.setSeq none = s := by rw [← hq]; rfl
    rw [exec_conversion hop hq hl, hmean, ← hs]
    rfl
  case hold =>
    obtain ⟨g, hg⟩ := engineMove_of_holds (p := Config.params) (.inr hh)
    obtain ⟨he, hws, -⟩ := same (engineMeanwhile_of_holds hg)
    exact ⟨he, hws⟩

/-- Settles O35: the conversion's one step comes behind what the engine completes by itself. -/
theorem conversionsComplete : Obligations.ConversionsComplete := fun _ code hq =>
  ⟨wordOf_zero_operand 0x20#8 code, wordOf_zero_operand 0x21#8 code, convRh_toInt code, convT_toInt code,
    conversionCompletes rfl hq rfl, conversionCompletes rfl hq rfl⟩

end Sys2Proof.Machine
end

section
/-! The status and the cause each operation may end with, O50 (60_exceptions.md R253, R258; 30_encoding.md R111). -/

namespace Sys2Proof.Machine

/-! ### The Bus Errors of a primitive -/

/-- The Bus Errors a primitive may end with (41_bus_primitives.md R174, R177, R181, R183, R184). -/
def primFailures (x : Prim) : List Byte :=
  match x with
  | .init => []
  | .start _ _ => [0xFF#8, 0xFE#8, 0xFC#8]
  | .write _ => [0xFC#8]
  | .read _ => [0xFE#8, 0xFC#8]
  | .stop => []

theorem primFailures_subset (x : Prim) : primFailures x ⊆ [0xFF#8, 0xFE#8, 0xFC#8] := by
  cases x with
  | init | stop => exact List.nil_subset _
  | start a d => exact List.Subset.refl _
  | write b | read g => simp [primFailures]

/-- The Bus Error a line fails with is one of its primitive's. -/
theorem lineFails_primFailures {l : Line} {s : State} {c : Byte} (h : lineFails l s = some c) :
    ∃ x, primOf l = some x ∧ c ∈ primFailures x := by
  unfold lineFails at h
  split at h
  case h_1 a d | h_2 a d | h_3 a d => exact ⟨.start a d, rfl, by grind [primFailures]⟩
  case h_4 b => exact ⟨.write b, rfl, by grind [primFailures]⟩
  case h_5 g => exact ⟨.read g, rfl, by grind [primFailures]⟩
  case h_6 => cases h

/-- `INIT` has no failing line, its software reset running or not (41_bus_primitives.md R172). -/
theorem initLine_failure (p : Params) (l : InitLine) (s : State) : (initLine p l s).failure = none := by
  cases l <;> dsimp only [initLine]
  case clkEnable | clkSelect | pinSda | pinScl => rfl
  case swrst | master | baud | enable => exact onWrite_failure fun _ => rfl
  case resetWait =>
    refine onRead_failure fun _ _ => ?_
    split <;> rfl

/-- Where a line ends its primitive with a Bus Error, it is one of the primitive's. -/
theorem runLine_primFailures {q : SeqPos} {s : State} {c : Byte} (hinv : Inv s) (hq : s.seq = some q)
    (h : (runLine Config.params q.line s).failure = some c) : ∃ x, primOf q.line = some x ∧ c ∈ primFailures x := by
  by_cases hl : ∃ l, q.line = .init l
  · obtain ⟨l, hl⟩ := hl
    rw [hl] at h
    cases (initLine_failure Config.params l s).symm.trans h
  · have hr := not_resetting hinv hq (not_exists.mp hl)
    exact lineFails_primFailures ((runLine_failure q.line hr).symm.trans h)

/-! ### The rows of the table -/

/-- A primitive the host issued reports its own Bus Error: its row is OK and those. -/
theorem host_mayEndWith {i : Instr} {it : Item} (hs : isSensor i = false) (hit : it ∈ (operationOf i).script) :
    it.onFail = none ∧ mayEndWith i = 0x00#8 :: primFailures it.prim := by
  cases i with
  | init | start | write | read | stop =>
    obtain rfl := List.mem_singleton.mp hit
    exact ⟨rfl, rfl⟩
  | convRh | convT => cases hit
  | sReset | sReadSn | sReadRh | sReadT | sReadTl => cases hs

/-- The row of a sensor operation has the Sensor Error of each primitive of its script (42_sensor_ops.md R204). -/
theorem sensor_mayEndWith {i : Instr} {it : Item} (hs : isSensor i = true) (hit : it ∈ (operationOf i).script) :
    sensorErrorOf it.prim ∈ mayEndWith i := by
  have hall : ∀ it ∈ (operationOf i).script, sensorErrorOf it.prim ∈ mayEndWith i := by
    cases i with
    | sReset | sReadSn | sReadRh | sReadT | sReadTl => decide
    | init | start | write | read | stop | convRh | convT => cases hs
  exact hall it hit

/-! ### The end of an operation -/

/-- The results `r` are those of an end of the operation `i`: the status is of its row, and the cause is `0x00` but after
a failed sensor operation, where it is a Bus Error. -/
def ListedEnd (i : Instr) (r : Results) : Prop :=
  r.status ∈ mayEndWith i ∧
  ((isSensor i = false ∨ r.status = 0x00#8) → r.cause = 0x00#8) ∧
  (isSensor i = true → r.status ≠ 0x00#8 → r.cause ∈ [0xFF#8, 0xFE#8, 0xFC#8])

theorem listedEnd_ok (i : Instr) (s : State) : ListedEnd i (finish .ok .ok s).res := by
  refine ⟨?_, fun _ => rfl, fun _ h => absurd rfl h⟩
  cases i <;> exact List.mem_cons_self

/-- An item that fails with a Bus Error of its primitive ends its operation as the table lists. -/
theorem listedEnd_failed {i : Instr} {it : Item} {st : Code} (hit : it ∈ (operationOf i).script)
    (hst : codeByte st ∈ primFailures it.prim) (s : State) : ListedEnd i (finishFailed it.onFail st s).res := by
  cases hs : isSensor i with
  | false =>
    obtain ⟨hfail, hrow⟩ := host_mayEndWith hs hit
    rw [hfail]
    exact ⟨hrow ▸ List.mem_cons_of_mem _ hst, fun _ => rfl, fun h => nomatch hs.symm.trans h⟩
  | true =>
    obtain ⟨e, hfail, he⟩ := Option.map_eq_some_iff.mp (sensor_onFail hs hit)
    have hrow : codeByte e ∈ mayEndWith i := he ▸ sensor_mayEndWith hs hit
    have hne : codeByte e ≠ 0x00#8 := codeByte_ne_zero fun h => (script_item hit).1 (hfail.trans (congrArg some h))
    rw [hfail]
    refine ⟨hrow, fun h => ?_, fun _ _ => primFailures_subset _ hst⟩
    exact h.elim (fun h => nomatch hs.symm.trans h) fun h => absurd h hne

/-- A step of the block that ends an operation ends it as the table lists. -/
theorem blockStep_listedEnd {q : SeqPos} {s : State} (hinv : Inv s) (hq : s.seq = some q) :
    (blockStep Config.params (operationOf q.op) q s).Holds (fun _ => True) (fun _ => True)
      (fun t => ListedEnd q.op t.res) := by
  rcases blockStep_cases Config.params (operationOf q.op) q s with ⟨f, o, x, _, e⟩ | ⟨f, e⟩
  · rw [e]
    trivial
  · rw [e]
    have hitem := primOf_of_inScript (standing_of_inv hinv hq).1
    have hfails := fun c => runLine_primFailures (s := s.setFeed f) (c := c) hinv hq
    unfold seqStep
    generalize runLine Config.params q.line (s.setFeed f) = out at hfails
    cases out with
    | done st d t =>
      show (itemEnded q.op (operationOf q.op) q.item st d t).Holds _ _ _
      rcases itemEnded_cases q.op (operationOf q.op) q.item st d t with
        ⟨_, e⟩ | ⟨_, _, _, _, e⟩ | ⟨_, _, _, _, e⟩ | ⟨it, hit, hst, e⟩ <;> rw [e]
      · exact listedEnd_ok ..
      · trivial
      · exact listedEnd_ok ..
      · obtain ⟨x, hx, hc⟩ := hfails (codeByte st) (if_neg hst)
        rw [hit, hx] at hitem
        obtain rfl := Option.some.inj hitem
        exact listedEnd_failed (List.mem_of_getElem? hit) hc t
    | goto | again | spin | refused => trivial

/-- An operation that begins or goes on in the invariant ends as the table lists, if it ends. -/
theorem exec_listedEnd {i : Instr} {s t : State} (hinv : Inv s) (h : exec i s = .next t) (hb : t.busy = false) :
    ListedEnd i t.res := by
  have hend : (Inv t ∧ t.busy = true) ∨ (t.busy = false → ListedEnd i t.res) := by
    refine exec_next_holds (Q := fun u => Inv u ∧ u.busy = true) (R := fun u => u.busy = false → ListedEnd i u.res)
      ?_ ?_ ?_ h
    · rintro u q ⟨hu, hub⟩ hq rfl
      refine ((blockStep_keeps_inv hu hq).and ((blockStep_frame Config.params (operationOf q.op) hq).and
        (blockStep_listedEnd hu hq))).mono ?_ ?_ ?_
      · exact fun v ⟨hv, ⟨_, hvb, _⟩, _⟩ => ⟨hv, hvb.trans hub⟩
      · exact fun v ⟨_, ⟨_, hvb⟩, _⟩ hidle => nomatch (hvb.trans hub).symm.trans hidle
      · exact fun v ⟨_, _, hlisted⟩ _ => hlisted
    · exact fun hq hl => ⟨inv_beginOperation hinv hq hl, beginOperation_busy ..⟩
    · exact fun q hq _ => ⟨hinv, ((inv_iff hq).mp hinv).2.1⟩
  exact hend.elim (fun hrun => nomatch hrun.2.symm.trans hb) fun hlisted => hlisted hb

/-- Settles O50: each line fails only with a Bus Error of its primitive, and the script maps it to the operation's. -/
theorem statusCodesOfEachOperation : Obligations.StatusCodesOfEachOperation :=
  fun _ _ _ hinv h hb => exec_listedEnd hinv h hb

end Sys2Proof.Machine
end

section
/-! Every operation ends, or stands at one of the two waits without bound: how many steps of the block it can take, and O58
(70_reset_and_hazards.md R300; 41_bus_primitives.md R190, R191). -/

namespace Sys2Proof.Machine

/-! ### The accesses to come -/

/-- The accesses to come in an `INIT` at the line `l`, the one of the line counted. -/
def initAccessesLeft (l : InitLine) : Nat :=
  match l with
  | .clkEnable => 9
  | .clkSelect => 8
  | .swrst => 7
  | .resetWait => 6
  | .master => 5
  | .baud => 4
  | .enable => 3
  | .pinSda => 2
  | .pinScl => 1

/-- The most accesses to come in a `READ` at the line `l`, with `k` reads of its poll made. -/
def readAccessesLeft (l : ReadLine) (k : Nat) : Nat :=
  match l with
  | .poll => Config.params.pollBudget - k + 4
  | .readCtrl => 3
  | .writeCtrl => 2
  | .data => 1

/-- The most accesses to come in the primitive of the line `l`, with `k` reads of a bounded poll made and a read of a wait
without bound counted once; a conversion's one step counts as one. -/
def accessesToCome (l : Line) (k : Nat) : Nat :=
  match l with
  | .init l => initAccessesLeft l
  | .start _ _ l => accessesLeft l k
  | .write b l => linesLeft (.write b l)
  | .read _ l => readAccessesLeft l k
  | .stop l => linesLeft (.stop l)
  | .convert => 1

/-- The most accesses of a primitive (41_bus_primitives.md R170 to R188). -/
def accessBound : Nat := Config.params.pollBudget + 9

theorem accessesToCome_pos (l : Line) (k : Nat) : 0 < accessesToCome l k := by
  rcases l with l | ⟨a, d, l⟩ | ⟨b, l⟩ | ⟨g, l⟩ | l | _
  case start => exact accessesLeft_pos l k
  case convert => exact Nat.one_pos
  all_goals cases l <;> exact Nat.succ_pos _

theorem accessesToCome_le (l : Line) (k : Nat) : accessesToCome l k ≤ accessBound := by
  have hread : Config.params.pollBudget - k ≤ Config.params.pollBudget := Nat.sub_le ..
  rcases l with l | ⟨a, d, l⟩ | ⟨b, l⟩ | ⟨g, l⟩ | l | _
  case convert => exact Nat.le_add_left 1 _
  all_goals
    cases l <;>
      simp only [accessesToCome, initAccessesLeft, accessesLeft, linesLeft, readAccessesLeft, accessBound] <;> omega

theorem accessesToCome_of_linesLeft {l : Line} (h : 0 < linesLeft l) (k : Nat) : accessesToCome l k = linesLeft l := by
  cases l with
  | write | stop => rfl
  | init | start | read | convert => cases h

/-! ### A line leaves fewer -/

/-- The outcome of a line: the line gone on to has fewer accesses to come than `n`, however its poll stands; a bounded poll
made again has. -/
def LeavesFewer (l : Line) (n : Nat) (out : LineOut) : Prop :=
  out.Holds (fun l' _ => ∀ k, accessesToCome l' k < n) (fun t => accessesToCome l t.work.pollcnt < n) (fun _ => True)
    (fun _ _ _ => True)

section
variable {s : State}

theorem initLine_leavesFewer (l : InitLine) :
    LeavesFewer (.init l) (initAccessesLeft l) (runLine Config.params (.init l) s) := by
  cases l <;> dsimp only [runLine, initLine]
  case clkEnable | clkSelect | pinSda => exact fun _ => Nat.lt_succ_self _
  case pinScl => trivial
  case swrst | master | baud | enable => exact onWrite_holds fun _ _ _ => Nat.lt_succ_self _
  case resetWait =>
    refine onRead_holds fun _ _ _ => ?_
    split
    · trivial
    · exact fun _ => Nat.lt_succ_self _

theorem readLine_leavesFewer (g : Bool) (l : ReadLine) :
    LeavesFewer (.read g l) (readAccessesLeft l s.work.pollcnt) (runLine Config.params (.read g l) s) := by
  cases l <;> dsimp only [runLine, readLine]
  case poll =>
    refine pollLine_holds (fun _ _ _ _ => ?_) (fun _ t hr _ hb => ?_) fun _ _ _ _ _ => trivial
    · split
      · trivial
      · exact fun _ => Nat.lt_add_left _ (Nat.lt_succ_self 3)
    · have hcount := seqRead_pollcnt hr
      simp only [accessesToCome, readAccessesLeft, State.setWork_work]
      omega
  case readCtrl => exact onRead_holds fun _ _ _ _ => Nat.lt_succ_self _
  case writeCtrl => exact onWrite_holds fun _ _ _ => Nat.lt_succ_self _
  case data => exact onRead_holds fun _ _ _ => trivial

/-- Every line leads to one with fewer accesses to come, or is a poll that has fewer to come, or ends its primitive, or
waits. -/
theorem runLine_leavesFewer (l : Line) :
    LeavesFewer l (accessesToCome l s.work.pollcnt) (runLine Config.params l s) := by
  have hlines : 0 < linesLeft l → LeavesFewer l (linesLeft l) (runLine Config.params l s) := fun hl =>
    (runLine_linesLeft hl s).mono (fun _ _ ⟨hpos, hlt⟩ k => (accessesToCome_of_linesLeft hpos k).trans_lt hlt)
      (fun _ => False.elim) (fun _ => id) (fun _ _ _ => id)
  cases l with
  | init l => exact initLine_leavesFewer l
  | start a d l =>
    exact (startLine_accessesLeft a d l s).mono (fun _ _ ⟨_, hm, hlt⟩ => hm ▸ hlt) (fun _ => id)
      (fun _ => False.elim) (fun _ _ _ => id)
  | write b l => exact hlines (by cases l <;> exact Nat.succ_pos _)
  | read g l => exact readLine_leavesFewer g l
  | stop l => exact hlines (by cases l <;> exact Nat.succ_pos _)
  | convert => trivial

end

/-! ### A step leaves fewer -/

/-- The most accesses to come in the operation `o` at `q`: those of the primitive it stands in, with `k` reads of its poll
made, and those of the items after it. -/
def accessesToEnd (o : Operation) (q : SeqPos) (k : Nat) : Nat :=
  accessesToCome q.line k + (o.script.length - (q.item + 1)) * accessBound

theorem accessesToEnd_le (o : Operation) (q : SeqPos) (k : Nat) :
    accessesToEnd o q k ≤ (o.script.length + 1) * accessBound := by
  have hline := accessesToCome_le q.line k
  have hitems : (o.script.length - (q.item + 1)) * accessBound ≤ o.script.length * accessBound :=
    Nat.mul_le_mul_right _ (Nat.sub_le ..)
  rw [accessesToEnd, Nat.succ_mul]
  omega

/-- The items after the next one are fewer by one. -/
theorem accessesToEnd_next {o : Operation} {i : Instr} {q : SeqPos} (l : Line) (j k : Nat)
    (h : q.item + 1 < o.script.length) : accessesToEnd o ⟨i, q.item + 1, l⟩ j < accessesToEnd o q k := by
  have hline := accessesToCome_le l j
  have hpos := accessesToCome_pos q.line k
  have hitems : o.script.length - (q.item + 1) = o.script.length - (q.item + 1 + 1) + 1 := by omega
  simp only [accessesToEnd]
  rw [hitems, Nat.succ_mul]
  omega

/-- The operation stands at a line with at most `n` steps of the block to its end or a wait: two completions can stand
before each access (40_bus_engine.md R136, R145). -/
def StepsToEnd (o : Operation) (n : Nat) (s : State) : Prop :=
  ∃ q, s.seq = some q ∧ 3 * accessesToEnd o q s.work.pollcnt + completionsLeft s.eng ≤ n + 2

/-- An access made, whatever the engine has in flight then. -/
theorem stepsToEnd_of_fewer {o : Operation} {q' : SeqPos} {n m : Nat} {t : State} (hq : t.seq = some q')
    (hlt : accessesToEnd o q' t.work.pollcnt < m) (hm : 3 * m ≤ n + 3) : StepsToEnd o n t := by
  have := completionsLeft_le t.eng
  exact ⟨q', hq, by omega⟩

theorem seqStep_stepsToEnd {o : Operation} {q : SeqPos} {n : Nat} {s : State} (hq : s.seq = some q)
    (hn : 3 * accessesToEnd o q s.work.pollcnt ≤ n + 3) :
    (seqStep Config.params o q s).Holds (StepsToEnd o n) (fun _ => True) (fun _ => True) := by
  have hout := runLine_leavesFewer (s := s) q.line
  have hseq := runLine_frame Config.params q.line s
  unfold seqStep
  generalize runLine Config.params q.line s = out at hout hseq
  cases out with
  | goto l t =>
    exact stepsToEnd_of_fewer (moveTo_seq ..) (Nat.add_lt_add_right (hout _) _) hn
  | again t =>
    obtain ⟨_, _, _, hsame⟩ := hseq
    exact stepsToEnd_of_fewer (hsame.trans hq) (Nat.add_lt_add_right hout _) hn
  | spin t | refused r => trivial
  | done st d t =>
    show (itemEnded q.op o q.item st d t).Holds _ _ _
    rcases itemEnded_cases q.op o q.item st d t with ⟨_, e⟩ | ⟨it, _, _, hlt, e⟩ | ⟨it, _, _, _, e⟩ | ⟨it, _, _, e⟩
    · rw [e]; trivial
    · rw [e]
      exact stepsToEnd_of_fewer (moveTo_seq ..) (accessesToEnd_next _ _ _ hlt) hn
    · rw [e]; trivial
    · rw [e]; trivial

/-- Each step of the block that moves the operation on leaves one step less. -/
theorem blockStep_stepsToEnd {o : Operation} {q : SeqPos} {n : Nat} {s : State} (hs : StepsToEnd o (n + 1) s)
    (hq : s.seq = some q) :
    (blockStep Config.params o q s).Holds (StepsToEnd o n) (fun _ => True) (fun _ => True) := by
  obtain ⟨q', hq', hn⟩ := hs
  cases hq.symm.trans hq'
  rcases blockStep_cases Config.params o q s with ⟨f, out, x, hc, e⟩ | ⟨f, e⟩
  · rw [e]
    have := completionsLeft_of_complete hc
    exact ⟨q, hq, by simp; omega⟩
  · rw [e]
    exact seqStep_stepsToEnd hq (by simp; omega)

/-- With steps enough a run comes to the operation's end or to a wait. -/
theorem leads_of_stepsToEnd {o : Operation} : ∀ {N : Nat} {s t : State}, StepsToEnd o N s →
    runSteps Config.params o N s = .next t →
    ∃ n, Leads Config.params o n s (.ended t) ∨ Leads Config.params o n s (.waits t) := by
  intro N
  induction N with
  | zero =>
    intro s t ⟨q, _, hn⟩ _
    have := accessesToCome_pos q.line s.work.pollcnt
    simp only [accessesToEnd] at hn
    omega
  | succ N ih =>
    intro s t hs h
    obtain ⟨q, hq, _⟩ := id hs
    have hstep := blockStep_stepsToEnd hs hq
    cases hb : blockStep Config.params o q s with
    | moved u =>
      rw [hb] at hstep
      obtain ⟨n, hl⟩ := ih hstep ((runSteps_moved hq hb).symm.trans h)
      exact ⟨n + 1, hl.imp (.more hq hb) (.more hq hb)⟩
    | waits u =>
      cases (runSteps_waits hq hb).symm.trans h
      exact ⟨1, .inr (.last hq hb)⟩
    | ended u =>
      cases (runSteps_ended hq hb).symm.trans h
      exact ⟨1, .inl (.last hq hb)⟩
    | refused r => cases (runSteps_refused hq hb).symm.trans h

/-- `exec` has steps enough, wherever in its operation it begins. -/
theorem stepsToEnd_stepBound {o : Operation} {q : SeqPos} {s : State} (hq : s.seq = some q) :
    StepsToEnd o (stepBound Config.params o) s := by
  have hend := accessesToEnd_le o q s.work.pollcnt
  have hc := completionsLeft_le s.eng
  refine ⟨q, hq, ?_⟩
  have hbound : stepBound Config.params o = 3 * ((o.script.length + 1) * accessBound) := by
    rw [stepBound, accessBound]
    ring
  omega

/-- The state in which `exec` takes the operation `i` up in `s`: begun, or as it stands. -/
def TakenUp (i : Instr) (s u : State) : Prop :=
  s.seq = none ∧ legalIn i s.phase = true ∧ u = beginOperation i (operationOf i) s ∨ StandsIn i s ∧ u = s

/-- `exec` follows an operation from where it is taken up to its end or to a wait. -/
theorem leads_of_exec_next {i : Instr} {s t : State} (h : exec i s = .next t) :
    ∃ u n, TakenUp i s u ∧
      (Leads Config.params (operationOf i) n u (.ended t) ∨ Leads Config.params (operationOf i) n u (.waits t)) := by
  rcases runOperation_cases ((exec_runs i s).symm.trans h) with ⟨hq, hl, hr⟩ | ⟨q, hq, hop, hr⟩ | ⟨r, _, hr⟩
  · obtain ⟨n, hn⟩ := leads_of_stepsToEnd (stepsToEnd_stepBound (beginOperation_seq ..)) hr
    exact ⟨_, n, .inl ⟨hq, hl, rfl⟩, hn⟩
  · obtain ⟨n, hn⟩ := leads_of_stepsToEnd (stepsToEnd_stepBound hq) hr
    exact ⟨s, n, .inr ⟨⟨q, hq, hop⟩, rfl⟩, hn⟩
  · cases hr

/-! ### The two waits -/

/-- A wait that reads again has not seen its condition: the reset is in progress, or `MB` and `ERROR` are clear. -/
theorem runLine_spin_shows {p : Params} {l : Line} {s t : State} (h : runLine p l s = .spin t) :
    (l = .init .resetWait ∧ t.eng.inflight = .resetPh) ∨
      ∃ b, l = .write b .wait ∧ t.eng.intflag.mb = false ∧ t.eng.intflag.error = false := by
  rcases runLine_spin h with rfl | ⟨b, rfl⟩
  · have hout : (runLine p (.init .resetWait) s).Holds (fun _ _ => True) (fun _ => True)
        (fun t => t.eng.inflight = .resetPh) (fun _ _ _ => True) := by
      dsimp only [runLine, initLine]
      refine onRead_holds fun v u hr => ?_
      obtain ⟨rfl, he, _⟩ := seqRead_quiet hr nofun
      split
      · rename_i hbit
        exact (congrArg Engine.inflight he).trans ((ctrlValue_bits s.eng).2.mp hbit)
      · trivial
    rw [h] at hout
    exact .inl ⟨rfl, hout⟩
  · have hout : (runLine p (.write b .wait) s).Holds (fun _ _ => True) (fun _ => True)
        (fun t => t.eng.intflag.mb = false ∧ t.eng.intflag.error = false) (fun _ _ _ => True) := by
      dsimp only [runLine, writeLine]
      refine onRead_holds fun v u hr => ?_
      obtain ⟨rfl, he, _⟩ := seqRead_quiet hr nofun
      split
      · rename_i hmask
        rw [LineOut.Holds, he]
        exact (intflagBits_mb_or_error _).mp hmask
      · split <;> trivial
    rw [h] at hout
    exact .inr ⟨b, rfl, hout⟩

/-- Only an operation with a wait in it has a line of `WRITE`. -/
theorem mayWait_of_write {q : SeqPos} {b : Byte} {l : WriteLine} (hin : inScript q = true) (hl : q.line = .write b l) :
    mayWait q.op = true := by
  have hitem := primOf_of_inScript hin
  rw [hl] at hitem
  obtain ⟨it, hit, hprim⟩ := Option.map_eq_some_iff.mp hitem
  have hmem := List.mem_of_getElem? hit
  obtain ⟨op, k, l'⟩ := q
  cases op with
  | init | write | sReset | sReadSn | sReadRh | sReadT | sReadTl => rfl
  | start | read | stop =>
    obtain rfl := List.mem_singleton.mp hmem
    cases hprim
  | convRh | convT => cases hmem

/-- An unfinished operation `i` stands at the reset wait of `INIT`, the reset in progress, or at the transmit wait of a
`WRITE` with `MB` and `ERROR` clear (70_reset_and_hazards.md R300). -/
def WaitsAt (i : Instr) (t : State) : Prop :=
  ∃ k, (t.seq = some { op := i, item := k, line := .init .resetWait } ∧ i = .init ∧ t.eng.inflight = .resetPh) ∨
    ∃ b, t.seq = some { op := i, item := k, line := .write b .wait } ∧ t.eng.intflag.mb = false ∧
      t.eng.intflag.error = false

theorem seqStep_waits {q : SeqPos} {s t : State} {o : Operation} (hin : inScript q = true) (hq : s.seq = some q)
    (h : seqStep Config.params o q s = .waits t) : mayWait q.op = true ∧ WaitsAt q.op t := by
  have hseq := seqStep_frame Config.params o q s hq
  rw [h] at hseq
  obtain ⟨_, _, hqt, _⟩ := hseq
  unfold seqStep at h
  split at h
  case h_3 u hspin =>
    cases h
    obtain ⟨op, k, l⟩ := q
    rcases runLine_spin_shows hspin with ⟨rfl, hi⟩ | ⟨b, rfl, hf⟩
    · obtain rfl : op = .init := by_contra fun hop => not_init_line hin hop .resetWait rfl
      exact ⟨rfl, k, .inl ⟨hqt, rfl, hi⟩⟩
    · exact ⟨mayWait_of_write hin rfl, k, .inr ⟨b, hqt, hf⟩⟩
  case h_4 st d u _ =>
    rcases itemEnded_cases q.op o q.item st d u with ⟨_, e⟩ | ⟨_, _, _, _, e⟩ | ⟨_, _, _, _, e⟩ | ⟨_, _, _, e⟩ <;>
      cases e.symm.trans h
  all_goals cases h

/-- A step of the block leaves the operation under way in the invariant, or at its wait, or at its end. -/
theorem blockStep_waitsAt {i : Instr} {q : SeqPos} {s : State} (hs : Inv s ∧ StandsIn i s) (hq : s.seq = some q) :
    (blockStep Config.params (operationOf i) q s).Holds (fun t => Inv t ∧ StandsIn i t)
      (fun t => mayWait i = true ∧ WaitsAt i t) (fun t => t.busy = false) := by
  obtain ⟨hinv, hstands⟩ := hs
  obtain ⟨q', hq', rfl⟩ := id hstands
  cases hq.symm.trans hq'
  have hin := (standing_of_inv hinv hq).1
  have hkeeps := (blockStep_keeps_inv hinv hq).and ((blockStep_standsIn hstands hq).and
    (blockStep_frame Config.params (operationOf q.op) hq))
  cases hb : blockStep Config.params (operationOf q.op) q s with
  | moved t =>
    rw [hb] at hkeeps
    obtain ⟨hinv', hstands', _⟩ := hkeeps
    exact ⟨hinv', hstands'⟩
  | waits t =>
    rcases blockStep_cases Config.params (operationOf q.op) q s with ⟨f, o, x, _, e⟩ | ⟨f, e⟩
    · cases hb.symm.trans e
    · exact seqStep_waits (s := s.setFeed f) hin hq (e.symm.trans hb)
  | ended t =>
    rw [hb] at hkeeps
    obtain ⟨_, _, _, hbusy⟩ := hkeeps
    exact hbusy
  | refused r => trivial

/-- Settles O58: each access leaves fewer to come, so the run's bound is not what stops it; what does is the operation's end
or a wait. -/
theorem onlyTheTwoWaitsAreUnbounded : Obligations.OnlyTheTwoWaitsAreUnbounded := by
  intro i s t hinv h
  obtain ⟨u, n, hu, hleads⟩ := leads_of_exec_next h
  have hinv' : Inv u ∧ StandsIn i u := by
    rcases hu with ⟨hq, hl, rfl⟩ | ⟨hs, rfl⟩
    · exact ⟨inv_beginOperation hinv hq hl, _, beginOperation_seq .., rfl⟩
    · exact ⟨hinv, hs⟩
  rcases hleads with hended | hwaits
  · have hidle : t.busy = false := hended.holds blockStep_waitsAt hinv'
    exact ⟨fun _ => hidle, fun hb => nomatch hidle.symm.trans hb⟩
  · obtain ⟨hmay, hat⟩ := hwaits.holds blockStep_waitsAt hinv'
    exact ⟨fun hn => (nomatch hmay.symm.trans hn), fun _ => hat⟩

end Sys2Proof.Machine
end

section
/-! The hardware reset, and the sensor operations before `INIT`: O10 and O31 (70_reset_and_hazards.md R290, R293). -/

namespace Sys2Proof.Machine

/-! ### O10 -/

/-- The step in which the host asserts `hw_reset` (70_reset_and_hazards.md R290). -/
theorem step_hwReset {s : State} {rest : List HostInput} (hh : s.host = .hwReset :: rest) :
    step s = .next (hwReset (s.setHost rest)) := by
  simp only [step, hh]

/-- Settles O10: the state after a hardware reset is the reset state but for the host's inputs and the engine's turns, which
the table does not speak of. -/
theorem hardwareResetFromAnyState : Obligations.HardwareResetFromAnyState :=
  fun _ _ hh => ⟨_, step_hwReset hh, resetStateIsTheTable⟩

/-! ### O31 -/

/-- `START` with `ENABLE` 0 reads `CTRL` and ends with `NotReady` (41_bus_primitives.md R174). -/
theorem passes_start_notReady {g : Stage} (a : BitVec 7) (d : Dir) (he : g.eng.ctrl.enable = false)
    (hi : g.eng.inflight = .none) :
    Passes (.start a d) g .notReady (g.after g.eng [.rd .ctrl (regValue .ctrl g.eng)] [] g.turns g.phase) := by
  refine passes_of_endsAt (j := .start a d) rfl (.inl ⟨rfl, nofun⟩) fun w => ?_
  have hend : EndsAt (.start a d) g.phase 0 (.start a d .check) (g.spot w) .notReady ((g.spot w).read .ctrl) g.phase :=
    ⟨_, _, .refl .., fun s hp => ⟨_, rfl, nofun, hp ▸ start_check_notReady hi he⟩⟩
  exact ⟨_, 0, Nat.zero_le _, hend, rfl, rfl, (List.append_nil _).symm, rfl⟩

/-- Settles O31: the `START` of the script's first item fails. -/
theorem sensorOperationsBeforeInitFail : Obligations.SensorOperationsBeforeInitFail := by
  intro s i hs hq he hi
  obtain ⟨c, hits, _⟩ := sensor_first_items hs
  have hp := passes_start_notReady (g := .of s) sensorAddr .write he hi
  obtain ⟨w, hexec⟩ := exec_of_goes_failed (it := startWriteItem) hs hq (goes_refl i 0 _) hp hits.head nofun
    (Nat.zero_le _)
  exact ⟨_, hexec, endsWith_off rfl rfl rfl rfl⟩

end Sys2Proof.Machine
end

section
/-! `exec` followed along a path of a primitive the host issued, whatever comes after it (41_bus_primitives.md R189). -/

namespace Sys2Proof.Machine

section
variable {i : Instr} {l l' : Line} {c c' : Spot} {s : State} {n : Nat}

/-- The run of a primitive goes on from where a path has led it. -/
theorem runSteps_of_path (h : Path i n l c l' c') (m : Nat) :
    runSteps Config.params (operationOf i) (m + n) (c.on i l s) =
      runSteps Config.params (operationOf i) m (c'.on i l' s) := by
  induction h with
  | refl => rfl
  | head hm _ ih => exact (runSteps_moved rfl (hm s)).trans ih

/-- So does `exec`, with steps left, where the primitive begins. -/
theorem exec_goes_on_from_path (hq : s.seq = none) (hl : legalIn i s.phase = true)
    (hb : beginOperation i (operationOf i) s = c.on i l s) (hp : Path i n l c l' c')
    (hn : n < stepBound Config.params (operationOf i)) :
    ∃ m, exec i s = runSteps Config.params (operationOf i) (m + 1) (c'.on i l' s) := by
  obtain ⟨m, hm⟩ := Nat.exists_eq_add_of_lt hn
  refine ⟨m, ?_⟩
  rw [exec_of_begin hq hl, runFrom, hb, ← runSteps_of_path hp]
  congr 1
  omega

end

end Sys2Proof.Machine
end

section
/-! A standing error flag, and O59 (70_reset_and_hazards.md R306; 60_exceptions.md R255). -/

namespace Sys2Proof.Machine

section
variable {b : Byte} {s t : State}

/-! ### `WRITE` -/

/-- A `WRITE` the host issued is under way, no software reset running and `ERROR` set. -/
def WritesInError (b : Byte) (s : State) : Prop :=
  s.eng.inflight ≠ .resetPh ∧ s.eng.intflag.error = true ∧
    ∃ l, s.seq = some { op := .write b, item := 0, line := .write b l }

/-- It has ended with `NackOrArbitrationLost`, and `ERROR` is set still. -/
def FailedInError (s : State) : Prop := s.busy = false ∧ s.res.status = 0xFC#8 ∧ s.eng.intflag.error = true

/-- With `ERROR` set the transmit wait fails at its first read (41_bus_primitives.md R181). -/
theorem writeLine_in_error (l : WriteLine) (hr : s.eng.inflight ≠ .resetPh) (he : s.eng.intflag.error = true) :
    (runLine Config.params (.write b l) s).Holds
      (fun l' t => (∃ m, l' = .write b m) ∧ t.eng.inflight ≠ .resetPh ∧ t.eng.intflag.error = true) (fun _ => False)
      (fun _ => False) (fun st _ t => st = .nackOrArbitrationLost ∧ t.eng.intflag.error = true) := by
  cases l <;> dsimp only [runLine, writeLine]
  case data =>
    refine onWrite_holds fun t hw => ⟨⟨_, rfl⟩, ?_⟩
    obtain ⟨x, hx, _, rfl⟩ := seqWrite_cases hw
    rw [writeReg_data hr] at hx
    obtain ⟨_, _, _, rfl⟩ := reactWriteData_ok hx
    exact ⟨nofun, he⟩
  case wait =>
    refine onRead_holds fun v t hread => ?_
    obtain ⟨rfl, heng, _⟩ := seqRead_quiet hread nofun
    have hmask := intflag_shows_mb_or_error (.inr he)
    have hbit : (regValue .intflag s.eng).getLsbD 7 = true := (intflagBits_bit7 _).trans he
    rw [if_neg hmask, if_pos hbit]
    exact ⟨rfl, (congrArg (·.intflag.error) heng).trans he⟩

theorem blockStep_writesInError {q : SeqPos} (hs : WritesInError b s) (hq : s.seq = some q) :
    (blockStep Config.params (operationOf (.write b)) q s).Holds (WritesInError b) (fun _ => False) FailedInError := by
  obtain ⟨hr, he, l, hl⟩ := hs
  cases hl.symm.trans hq
  rcases blockStep_cases Config.params (operationOf (.write b)) ⟨.write b, 0, .write b l⟩ s with
    ⟨f, o, x, hc, e⟩ | ⟨f, e⟩
  · rw [e]
    obtain ⟨_, _, _, _, hr'⟩ := complete_keeps_mode hc hr
    exact ⟨hr', complete_keeps_error hc hr he, l, hl⟩
  · have hout := writeLine_in_error (b := b) (s := s.setFeed f) l hr he
    rw [e]
    unfold seqStep
    generalize runLine Config.params (.write b l) (s.setFeed f) = out at hout
    cases out with
    | goto l' t =>
      obtain ⟨⟨m, rfl⟩, hr', he'⟩ := hout
      exact ⟨hr', he', m, moveTo_seq ..⟩
    | again t | spin t => exact hout.elim
    | done st d t =>
      obtain ⟨rfl, he'⟩ := hout
      exact ⟨rfl, rfl, he'⟩
    | refused r => trivial

/-- `WRITE` with `ERROR` set fails, the flag left set. -/
theorem exec_write_in_error (hs : Ready s) (he : s.eng.intflag.error = true) (h : exec (.write b) s = .next t) :
    FailedInError t := by
  obtain ⟨hq, _, _, hi⟩ := hs
  obtain ⟨u, n, ⟨_, _, rfl⟩ | ⟨⟨q, hq', _⟩, _⟩, hleads⟩ := leads_of_exec_next h
  · have hbegin : WritesInError b (beginOperation (.write b) (operationOf (.write b)) s) :=
      ⟨fun hr => (nomatch hi.symm.trans hr), he, .data, beginOperation_seq ..⟩
    rcases hleads with hended | hwaits
    · exact hended.holds blockStep_writesInError hbegin
    · exact (hwaits.holds blockStep_writesInError hbegin).elim
  · cases hq.symm.trans hq'

end

/-! ### `START` -/

section
variable {s t : State}

/-- No step of a run takes anything off the access trace. -/
theorem runSteps_trace_grows {p : Params} {o : Operation} {n : Nat} (h : runSteps p o n s = .next t) :
    ∃ new, t.trace = s.trace ++ new := by
  have hstep : ∀ {u q}, ClearsErrorOnly s u →
      (blockStep p o q u).Holds (ClearsErrorOnly s) (ClearsErrorOnly s) (ClearsErrorOnly s) := fun hu =>
    (blockStep_clearsErrorOnly p o _ _).mono (fun _ => hu.trans) (fun _ => hu.trans) (fun _ => hu.trans)
  have hgrows : ClearsErrorOnly s t ∨ ClearsErrorOnly s t := by
    refine runSteps_next ?_ ?_ ?_ (clearsErrorOnly_of_eq rfl) h
    all_goals
      intro u v q hu _ hb
      have hv := hstep (q := q) hu
      rwa [hb] at hv
  obtain ⟨new, hnew, _⟩ := hgrows.elim id id
  exact ⟨new, hnew⟩

/-- With `ERROR` set `START` clears it before its write of `ADDR` (41_bus_primitives.md R173 step 2, R175). -/
theorem exec_start_clears_error {a : BitVec 7} {d : Dir} (hs : Ready s) (he : s.eng.intflag.error = true)
    (h : exec (.start a d) s = .next t) : ∃ new, t.trace = s.trace ++ new ∧ .wr .intflag 0x80#32 ∈ new := by
  have ⟨hq, _, _, hi⟩ := hs
  have hm := modeSet_of_ready hs
  have hcheck := moves_start_check (a := a) (d := d) (idles_quiet (c := Spot.of s) hi) hm
  have hflags := moves_start_flags (a := a) (d := d) (idles_quiet (c := (Spot.of s).read .ctrl) hi) hm.2.2
  have hclear := moves_start_cleanup (a := a) (d := d)
    (idles_quiet (c := ((Spot.of s).read .ctrl).read .intflag) hi) hm.2.2
  simp only [Spot.read_eng, Spot.of_eng, he, if_true] at hflags
  obtain ⟨m, hexec⟩ := exec_goes_on_from_path (i := .start a d) hq rfl (beginOperation_of rfl)
    (.head hcheck (.head hflags hclear.path)) ((by decide : 3 < 27).trans_le (stepBound_pos ..))
  obtain ⟨new, hnew⟩ := runSteps_trace_grows (hexec.symm.trans h)
  refine ⟨_, hnew.trans (List.append_assoc ..), List.mem_append_left _ ?_⟩
  exact List.mem_append_right _ (List.mem_singleton.mpr rfl)

end

/-- Settles O59: `READ` and `STOP` by O26 and O27. -/
theorem errorFlagOutlivesThePrimitive : Obligations.ErrorFlagOutlivesThePrimitive := by
  intro s hs he
  have ⟨hq, hen, hma, hi⟩ := hs
  refine ⟨fun b t h => exec_write_in_error hs he h, fun g t h => ?_, fun t h => ?_,
    fun a d t h => exec_start_clears_error hs he h⟩
  · have hp : s.phase = .dataR := by_contra fun hp =>
      nomatch h.symm.trans (exec_illegal hq (by simpa [legalIn] using hp))
    obtain ⟨u, hu, _, _, _, _, hres, _, heng, _⟩ := readReportsTheErrorFlag s g hs hp he
    cases hu.symm.trans h
    rw [hres, heng]
    exact ⟨rfl, he⟩
  · obtain ⟨hillegal, hstops⟩ := stopCompletes s hq
    have hp : s.phase ≠ .uninit := fun hp => nomatch h.symm.trans (hillegal hp)
    obtain ⟨u, hu, _, _, _, _, _, _, heng, _⟩ := hstops hp hen hma (by simp [hi]) _ (.inl ⟨hi, rfl⟩)
    cases hu.symm.trans h
    rw [heng]
    exact he

end Sys2Proof.Machine
end

section
/-! A reception in flight, and O60 (70_reset_and_hazards.md R302; 40_bus_engine.md R134, R149). -/

namespace Sys2Proof.Machine

section
variable {a : BitVec 7} {d : Dir} {c : Spot} {s : State} {rest : List Turn}

/-- The two reads of a `START`, `ERROR` clear and what is in flight withheld in the meantime, lead to its write of `ADDR`. -/
theorem path_start_reads (a : BitVec 7) (d : Dir) (hm : ModeSet c.eng) (hi : c.eng.inflight ≠ .none)
    (he : c.eng.intflag.error = false) (ht : c.turns = .hold :: .hold :: rest) :
    Path (.start a d) 2 (.start a d .check) c (.start a d .address)
      ((((c.due (.hold :: rest)).read .ctrl).due rest).read .intflag) := by
  have hcheck := moves_start_check (a := a) (d := d) (idles_hold hi ht) hm
  have hflags := moves_start_flags (a := a) (d := d)
    (idles_hold (c := (c.due (.hold :: rest)).read .ctrl) hi rfl) hm.2.2
  simp only [Spot.due_eng, Spot.read_eng, he, Bool.false_eq_true, if_false] at hflags
  exact .head hcheck hflags.path

/-- With an operation in flight that is withheld the write of `ADDR` is refused (40_bus_engine.md R134). -/
theorem start_address_refused (hm : ModeSet c.eng) (hi : c.eng.inflight ≠ .none) (ht : c.turns = .hold :: rest) :
    blockStep Config.params (operationOf (.start a d)) { op := .start a d, item := 0, line := .start a d .address }
      (c.on (.start a d) (.start a d .address) s) = .refused .addrWhileInFlight := by
  have hw : writeReg .addr ((addrByte a d).setWidth 32) c.eng = .error .addrWhileInFlight := by
    rw [writeReg_addr hm.2.2]
    simp [reactWriteAddr, active_of_modeSet hm, hi]
  rw [blockStep_on (idles_hold hi ht)]
  simp only [seqStep, runLine, startLine, seqWrite]
  simp only [Spot.on, Spot.due, hw, onWrite]

end

/-- The step that issues an operation leads to its first line. -/
theorem step_issue_encode {i : Instr} {s : State} (hb : s.busy = false) (hq : s.seq = none)
    (hl : legalIn i s.phase = true) :
    step (s.setHost [.issue (encode i)]) =
      .next (beginOperation i (operationOf i) ((s.setHost []).setCmdWord (encode i))) := by
  have hissue := step_issue (s := s.setHost [.issue (encode i)]) hb rfl
  exact hissue.trans (issue_legal (decodeInvertsEncode i) hq hl)

section
variable {a : BitVec 7} {d : Dir} {s : State} {rest : List Turn}

/-- `exec` of `START` is refused at its write of `ADDR` (70_reset_and_hazards.md R302). -/
theorem exec_start_blocked (hq : s.seq = none) (hm : ModeSet s.eng) (hi : s.eng.inflight ≠ .none)
    (he : s.eng.intflag.error = false) (ht : s.feed.turns = .hold :: .hold :: .hold :: rest) :
    exec (.start a d) s = .refused .addrWhileInFlight := by
  obtain ⟨m, hexec⟩ := exec_goes_on_from_path (i := .start a d) hq rfl (beginOperation_of rfl)
    (path_start_reads a d (c := Spot.of s) hm hi he ht) ((by decide : 2 < 27).trans_le (stepBound_pos ..))
  exact hexec.trans (runSteps_refused rfl (start_address_refused hm hi rfl))

/-- Issued by the host, it comes there in three steps of the machine, and the fourth is refused. -/
theorem run_start_blocked (hb : s.busy = false) (hq : s.seq = none) (hm : ModeSet s.eng)
    (hi : s.eng.inflight ≠ .none) (he : s.eng.intflag.error = false)
    (ht : s.feed.turns = .hold :: .hold :: .hold :: rest) :
    ∃ u, Host.Core.run core 3 (s.setHost [.issue (encode (.start a d))]) = .next u ∧ u.busy = true ∧ u.eng = s.eng ∧
      u.wire = s.wire ∧ u.res = s.res ∧ u.phase = s.phase ∧
      u.trace = s.trace ++ [.rd .ctrl (regValue .ctrl s.eng), .rd .intflag (regValue .intflag s.eng)] ∧
      step u = .refused .addrWhileInFlight := by
  have hissue := step_issue_encode (i := .start a d) hb hq rfl
  rw [beginOperation_of rfl] at hissue
  have hpath := path_start_reads a d (c := Spot.of s) hm hi he ht
  have hrun := run_of_path (s := (s.setHost []).setCmdWord (encode (.start a d))) rfl hpath
  refine ⟨_, (run_cons hissue).trans hrun, rfl, rfl, List.append_nil _, rfl, rfl, rfl, ?_⟩
  rw [step_on rfl, start_address_refused hm hi rfl]
  rfl

end

/-- Settles O60: with the reception held over its reads `START` comes to its write of `ADDR`; `STOP` by O27. -/
theorem receptionInFlightBlocksTheStart : Obligations.ReceptionInFlightBlocksTheStart := by
  intro s a d rest hinv hq hp hi he ht
  obtain ⟨⟨hengine, _⟩, hbusy, ⟨hmode, _⟩, _⟩ := (inv_iff_none hq).mp hinv
  obtain ⟨_, _, hrx, _⟩ := hengine
  obtain ⟨howned, _, hack⟩ := hrx hi
  have ⟨hm, _⟩ := hmode.2 hp
  have ⟨hen, hma, hr⟩ := hm
  have hflight : s.eng.inflight ≠ .none := by simp [hi]
  refine ⟨exec_start_blocked hq hm hflight he ht, ?_, ?_⟩
  · rw [← ctrlValue_running hr]
    exact run_start_blocked hbusy hq hm hflight he ht
  · obtain ⟨t, ht, _, _, _, _, hres, hphase, heng, _, hwire, _⟩ :=
      (stopCompletes s hq).2 hp hen hma hr _ (.inr ⟨hflight, ht⟩)
    refine ⟨t, ht, by rw [hres]; rfl, by rw [heng], by rw [heng], ?_, hphase⟩
    simp [hwire, hack, howned]

end Sys2Proof.Machine
end
